-- ==== Sys2Proof/Word.lean ====
section
/-! DEFINITION. Bytes, words and little-endian layouts (00_scope section 5, "Byte order";
10 section 10.5: all multi-byte numbers are stored least significant byte first). -/

namespace Sys2Proof

/-- One byte of a layout, a record or a write. -/
abbrev Byte := BitVec 8

/-- A byte address on the link (Table 1-1). -/
abbrev Addr := BitVec 32

/-- A word of 8 bytes (00_scope section 5, "Sizes"). -/
abbrev Word := BitVec 64

/-- A master's tag, 0 to 7 (Table 1-1). -/
abbrev Tag := Fin 8

/-- A window index, 0 to 31 (R19). -/
abbrev WinIdx := Fin 32

/-- A robot number, 0 to 5. -/
abbrev RobotIdx := Fin 6

end Sys2Proof
end

