-- ==== Sys2Proof/Syntax.lean ====
section
/-! DEFINITION. The commands of the block: `Instr`, one constructor per row of spec/opcode_table.json, with the
operands each event carries, and the named values those operands use. -/

namespace Sys2Proof

/-- Direction of a link request or an own transaction (Table 1-1). -/
inductive Dir
  | read
  | write
  deriving DecidableEq, Repr

/-- A link request as the interconnect presents it (Table 1-1). `data` and `enables` hold one entry per byte of
a write and are empty for a read (R1). -/
structure LinkRequest where
  tag     : Tag
  dir     : Dir
  addr    : Addr
  /-- 0 to 31 as carried; 1 to 16 well formed (Table 1-1). -/
  beats   : Fin 32
  data    : List Byte
  enables : List Bool
  deriving DecidableEq, Repr

/-- Feed kinds (Table 2-1). -/
inductive FeedKind
  | time
  | robot
  | verdict
  | service
  deriving DecidableEq, Repr

/-- Robot modes (Table 6-1). A ROBOT STATUS never carries `unknown` (R51). -/
inductive Mode
  | run
  | hold
  | fault
  | unknown
  deriving DecidableEq, Repr

/-- Results of a FILL REPORT (R51, Table 3-4). -/
inductive FillResult
  | ok
  | short
  | over
  | nofill
  | abort
  deriving DecidableEq, Repr

/-- Verdicts of a camera (R51, Table 3-4). -/
inductive Verdict
  | pass
  | fail
  | unsure
  deriving DecidableEq, Repr

/-- What every dispatched record carries beside its own fields (R54): the window it came through, the address of
its record slot and its record sequence. -/
structure Source where
  window : WinIdx
  slot   : Addr
  seq    : BitVec 32
  deriving DecidableEq, Repr

/-- TIME SYNC (Table 10-7). -/
structure TimeSync where
  receive : Word
  origin  : Word
  grade   : Byte
  deriving DecidableEq, Repr

/-- ROBOT STATUS (Table 10-7). -/
structure RobotStatus where
  robot     : RobotIdx
  mode      : Mode
  applied   : BitVec 16
  faultCode : BitVec 16
  deriving DecidableEq, Repr

/-- FILL REPORT (Table 10-7). The valve is 0 to 127 (R51). -/
structure FillReport where
  robot  : RobotIdx
  serial : BitVec 32
  valve  : Byte
  result : FillResult
  mass   : BitVec 16
  deriving DecidableEq, Repr

/-- VERDICT (Table 10-7). -/
structure VerdictRecord where
  camera  : Fin 3
  serial  : BitVec 32
  verdict : Verdict
  defect  : BitVec 16
  capture : Word
  deriving DecidableEq, Repr

/-- SERVICE CLAIM (Table 10-7): claim sequence, 1 to 8 window indices in record order, keep-alive period in ms
(100 to 5,000, R51). -/
structure Claim where
  seq     : BitVec 32
  windows : List WinIdx
  keepMs  : Nat
  deriving DecidableEq, Repr

/-- SERVICE PUBLISH (Table 10-7), its confirm flag taken from the flags byte (R44). -/
structure ServicePublish where
  robot   : RobotIdx
  seq     : BitVec 16
  confirm : Bool
  deriving DecidableEq, Repr

/-- Parameters of WINDOW LOAD as the slot carries them (Table 10-2, code 02h). -/
structure LoadParams where
  index    : Byte
  role     : Byte
  feedKind : Byte
  stamp    : Byte
  eligible : Bool
  robot    : Byte
  readSet  : Byte
  writeSet : Byte
  base     : BitVec 32
  size     : BitVec 32
  halfA    : BitVec 32
  halfB    : BitVec 32
  deriving DecidableEq, Repr

/-- Parameters of ROBOT BIND (Table 10-2, code 04h); the cycle period in µs. -/
structure BindParams where
  robot     : Byte
  bank      : Byte
  feed      : Byte
  reader    : Byte
  echoLimit : Byte
  nudges    : Byte
  period    : BitVec 32
  deriving DecidableEq, Repr

/-- Parameters of TRACK SETUP (Table 10-2, code 06h); delays and widths in µs, the line-stop interval in ms. -/
structure TrackParams where
  rejectPocket : Byte
  cameras      : Byte
  required     : Byte
  unsure       : Byte
  deadline     : Byte
  station0     : Byte
  station1     : Byte
  station2     : Byte
  feed0        : Byte
  feed1        : Byte
  feed2        : Byte
  target       : BitVec 16
  tolerance    : BitVec 16
  delay        : BitVec 32
  width        : BitVec 32
  lineStop     : BitVec 16
  deriving DecidableEq, Repr

/-- Parameters of CLOCK TUNE (Table 10-2, code 09h); `given` has one bit per parameter. -/
structure TuneParams where
  given     : Byte
  step      : BitVec 32
  lock      : BitVec 32
  pShift    : Byte
  iShift    : Byte
  rateLimit : BitVec 32
  holdover  : BitVec 16
  window1   : Byte
  window2   : Byte
  delay1    : BitVec 32
  delay2    : BitVec 32
  deriving DecidableEq, Repr

/-- Parameters of SERVICE SETUP (Table 10-2, code 0Ah), intervals in s. -/
structure ServiceParams where
  given   : Byte
  consent : BitVec 16
  lockout : BitVec 16
  deriving DecidableEq, Repr

/-- A record the feed assembler has taken, by type (Table 3-2). -/
inductive Record
  | timeSync (rec : TimeSync)
  | robotStatus (rec : RobotStatus)
  | fillReport (rec : FillReport)
  | verdict (rec : VerdictRecord)
  | serviceClaim (claim : Claim)
  | serviceKeep (phase : Bool)
  | serviceRelease
  | servicePublish (rec : ServicePublish)
  deriving DecidableEq, Repr

/-- A command of the command ring with its parameters (Table 10-2); `unknown` is a code not in the table (R165). -/
inductive Command
  | unknown (code : Byte)
  | policyEnforce
  | windowLoad (p : LoadParams)
  | windowDrop (index : Byte)
  | robotBind (p : BindParams)
  | robotUnbind (robot : Byte)
  | trackSetup (p : TrackParams)
  | trackClear
  | clockSet (time : Word)
  | clockTune (p : TuneParams)
  | serviceSetup (p : ServiceParams)
  | serviceConsent (decision : Byte) (claim : BitVec 32)
  | serviceRevoke
  | faultClear (set : Byte) (overflow : Byte)
  | reporting (enable : Byte) (mask : Byte)
  | snapshot (kind : Byte)
  | fence (notify : Bool)
  deriving DecidableEq, Repr

/-- The commands and events of the part, one constructor per row of spec/opcode_table.json, in its order. A row
is an event; its operands are what the event brings with it. Rows named after a command of the command ring
are memory's answer to the outstanding fetch with that command in the slot (R164), so their operands are the
slot's parameters; rows named after a record are its dispatch to the unit that acts on it (R54); rows named
after one answer of memory are that answer (R13). -/
inductive Instr
  | linkRequest (r : LinkRequest)
  | commandTailWrite (v : Word)
  | noticeConsumedWrite (v : Word)
  | decisionConsumedWrite (v : Word)
  | publishWordWrite (robot : RobotIdx) (v : Word)
  | memoryPortPresent
  | passingAnswer (id : Nat) (data : List Byte)
  | ownAnswer (id : Nat) (data : List Byte)
  | ownQueueJoin
  | powerGoodFall
  | powerGoodRise (straps : Fin 16)
  | cabinetResetAssert
  | cabinetResetRelease (straps : Fin 16)
  | drainEnd
  | commandFetch
  | unknownCommand (code : Byte)
  | policyEnforce
  | windowLoad (p : LoadParams)
  | windowDrop (index : Byte)
  | robotBind (p : BindParams)
  | robotUnbind (robot : Byte)
  | unbindComplete
  | trackSetup (p : TrackParams)
  | trackClear
  | clockSet (time : Word)
  | clockTune (p : TuneParams)
  | serviceSetup (p : ServiceParams)
  | serviceConsent (decision : Byte) (claim : BitVec 32)
  | serviceRevoke
  | faultClear (set : Byte) (overflow : Byte)
  | reporting (enable : Byte) (mask : Byte)
  | snapshot (kind : Byte)
  | fence (notify : Bool)
  | fenceComplete
  | timeSync (src : Source) (rec : TimeSync) (accepted : Option Word)
  | heardTimerExpiry (place : Fin 2)
  | silenceTimerExpiry
  | mark
  | markPulseEnd
  | codeFrameStart
  | codeFrameEnd
  | cycleBoundary (robot : RobotIdx)
  | echoDeadline (robot : RobotIdx)
  | modeLapse (robot : RobotIdx)
  | flipWaitEnd (robot : RobotIdx)
  | swap (robot : RobotIdx)
  | copyReadAnswer (robot : RobotIdx) (data : List Byte)
  | copyEnd (robot : RobotIdx)
  | robotStatus (src : Source) (rec : RobotStatus)
  | fillReport (src : Source) (rec : FillReport)
  | verdict (src : Source) (rec : VerdictRecord)
  | pocketPulse (present : Bool)
  | lineStopTimerExpiry
  | rejectRise
  | rejectFall
  | keyOn
  | keyOff
  | serviceClaim (src : Source) (claim : Claim)
  | serviceKeep (src : Source) (phase : Bool)
  | serviceRelease (src : Source)
  | servicePublish (src : Source) (rec : ServicePublish)
  | consentTimerExpiry
  | serviceGrant
  | keepAliveTimerExpiry
  | returnEnd
  | lockoutTimerExpiry
  | mirrorWrite
  | statusWordWrite
  | noticeProducerAnswer
  deriving DecidableEq, Repr

end Sys2Proof
end

