-- ==== Sys2Proof/WellFormed.lean ====
section
/-! DEFINITION. Which operand values the events can carry at all. `exec` is total on every term; these checks say
which terms stand for something the link, a feed or a memory answer can bring. -/

namespace Sys2Proof

/-- A request carries one data byte and one enable for each byte of a write, and none for a read (R1, Table 1-1). -/
def LinkRequest.wf (r : LinkRequest) : Bool :=
  match r.dir with
  | .read  => r.data.isEmpty && r.enables.isEmpty
  | .write => r.data.length == 8 * r.beats.val && r.enables.length == 8 * r.beats.val

/-- A ROBOT STATUS reports RUN, HOLD or FAULT (R51, Table 3-4). -/
def RobotStatus.wf (r : RobotStatus) : Bool := r.mode != .unknown

/-- A FILL REPORT's valve is 0 to 127 (R51, Table 3-4). -/
def FillReport.wf (r : FillReport) : Bool := decide (r.valve.toNat ≤ 127)

/-- A SERVICE CLAIM names 1 to 8 windows and a keep-alive period of 100 to 5,000 ms (R51, Table 3-4). -/
def Claim.wf (c : Claim) : Bool :=
  decide (1 ≤ c.windows.length) && decide (c.windows.length ≤ 8) && decide (100 ≤ c.keepMs) && decide (c.keepMs ≤ 5000)

/-- The codes of the known commands are 01h to 10h (Table 10-2). -/
def knownCode (code : Byte) : Bool := decide (1 ≤ code.toNat) && decide (code.toNat ≤ 16)

/-- The well-formed commands: the operand lengths and coded values above, and an UNKNOWN_COMMAND whose code is
none of Table 10-2's (R165). -/
def Instr.wf : Instr → Bool
  | .linkRequest r         => r.wf
  | .unknownCommand code   => !knownCode code
  | .robotStatus _ r       => r.wf
  | .fillReport _ r        => r.wf
  | .serviceClaim _ c      => c.wf
  | _                      => true

end Sys2Proof
end

