-- ==== Sys2Proof/Decode.lean ====
section
/-! DEFINITION. Reading bytes: the little-endian helpers, the 64-byte command slot (Tables 10-2 and 10-5), the
32-byte record (Tables 10-6 and 10-7), and `decodeTableWord`, which spells no command since the opcode table
gives no row any bits. -/

namespace Sys2Proof

/-- The `k` low bytes of `v`, least significant first (10 section 10.5). -/
def leBytes : Nat → Nat → List Byte
  | 0, _     => []
  | k + 1, v => BitVec.ofNat 8 v :: leBytes k (v / 256)

/-- The number a run of bytes holds, least significant first. -/
def leNat : List Byte → Nat
  | []      => 0
  | b :: bs => b.toNat + 256 * leNat bs

/-- Byte `off` of a structure; a byte the data does not reach reads as 0 (log 21). -/
def byteAt (bs : List Byte) (off : Nat) : Byte := bs.getD off 0

/-- The number in bytes `off` to `off + len - 1` of a structure. -/
def fieldAt (bs : List Byte) (off len : Nat) : Nat := leNat ((bs.drop off).take len)

/-- `k` zero bytes (R169). -/
def zeroBytes (k : Nat) : List Byte := List.replicate k 0

/-- Memory answers a read with exactly the bytes of its span; data of another length is cut or filled with
zero bytes (log 21). -/
def fitBytes (len : Nat) (bs : List Byte) : List Byte := (bs ++ zeroBytes len).take len

/-- A window index from a byte of a layout, if it names one (R34: an index above 31 names none). -/
def winIdx? (b : Byte) : Option WinIdx := if h : b.toNat < 32 then some ⟨b.toNat, h⟩ else none

/-- A robot number from a byte of a layout, if it names one. -/
def robotIdx? (b : Byte) : Option RobotIdx := if h : b.toNat < 6 then some ⟨b.toNat, h⟩ else none

/-- A tag from a byte of a layout, if it names one. -/
def tag? (b : Byte) : Option Tag := if h : b.toNat < 8 then some ⟨b.toNat, h⟩ else none

/-- Parameters of WINDOW LOAD in the slot (Table 10-2). -/
def slotLoad (bs : List Byte) : LoadParams where
  index    := byteAt bs 8
  role     := byteAt bs 9
  feedKind := byteAt bs 10
  stamp    := byteAt bs 11
  eligible := (byteAt bs 12).getLsbD 0
  robot    := byteAt bs 13
  readSet  := byteAt bs 14
  writeSet := byteAt bs 15
  base     := BitVec.ofNat 32 (fieldAt bs 16 4)
  size     := BitVec.ofNat 32 (fieldAt bs 20 4)
  halfA    := BitVec.ofNat 32 (fieldAt bs 24 4)
  halfB    := BitVec.ofNat 32 (fieldAt bs 28 4)

/-- Parameters of ROBOT BIND in the slot (Table 10-2). -/
def slotBind (bs : List Byte) : BindParams where
  robot     := byteAt bs 8
  bank      := byteAt bs 9
  feed      := byteAt bs 10
  reader    := byteAt bs 11
  echoLimit := byteAt bs 12
  nudges    := byteAt bs 13
  period    := BitVec.ofNat 32 (fieldAt bs 16 4)

/-- Parameters of TRACK SETUP in the slot (Table 10-2). -/
def slotTrack (bs : List Byte) : TrackParams where
  rejectPocket := byteAt bs 8
  cameras      := byteAt bs 9
  required     := byteAt bs 10
  unsure       := byteAt bs 11
  deadline     := byteAt bs 12
  station0     := byteAt bs 13
  station1     := byteAt bs 14
  station2     := byteAt bs 15
  feed0        := byteAt bs 16
  feed1        := byteAt bs 17
  feed2        := byteAt bs 18
  target       := BitVec.ofNat 16 (fieldAt bs 20 2)
  tolerance    := BitVec.ofNat 16 (fieldAt bs 22 2)
  delay        := BitVec.ofNat 32 (fieldAt bs 24 4)
  width        := BitVec.ofNat 32 (fieldAt bs 28 4)
  lineStop     := BitVec.ofNat 16 (fieldAt bs 32 2)

/-- Parameters of CLOCK TUNE in the slot (Table 10-2). -/
def slotTune (bs : List Byte) : TuneParams where
  given     := byteAt bs 8
  step      := BitVec.ofNat 32 (fieldAt bs 12 4)
  lock      := BitVec.ofNat 32 (fieldAt bs 16 4)
  pShift    := byteAt bs 20
  iShift    := byteAt bs 21
  rateLimit := BitVec.ofNat 32 (fieldAt bs 24 4)
  holdover  := BitVec.ofNat 16 (fieldAt bs 28 2)
  window1   := byteAt bs 30
  window2   := byteAt bs 31
  delay1    := BitVec.ofNat 32 (fieldAt bs 32 4)
  delay2    := BitVec.ofNat 32 (fieldAt bs 36 4)

/-- Parameters of SERVICE SETUP in the slot (Table 10-2). -/
def slotService (bs : List Byte) : ServiceParams where
  given   := byteAt bs 8
  consent := BitVec.ofNat 16 (fieldAt bs 10 2)
  lockout := BitVec.ofNat 16 (fieldAt bs 12 2)

/-- The command in a fetched slot: byte 0 is the code, bit 0 of byte 1 the notify flag (R165, Table 10-2). -/
def decodeSlot (bs : List Byte) : Command :=
  match (byteAt bs 0).toNat with
  | 1  => .policyEnforce
  | 2  => .windowLoad (slotLoad bs)
  | 3  => .windowDrop (byteAt bs 8)
  | 4  => .robotBind (slotBind bs)
  | 5  => .robotUnbind (byteAt bs 8)
  | 6  => .trackSetup (slotTrack bs)
  | 7  => .trackClear
  | 8  => .clockSet (BitVec.ofNat 64 (fieldAt bs 8 8))
  | 9  => .clockTune (slotTune bs)
  | 10 => .serviceSetup (slotService bs)
  | 11 => .serviceConsent (byteAt bs 8) (BitVec.ofNat 32 (fieldAt bs 12 4))
  | 12 => .serviceRevoke
  | 13 => .faultClear (byteAt bs 8) (byteAt bs 9)
  | 14 => .reporting (byteAt bs 8) (byteAt bs 9)
  | 15 => .snapshot (byteAt bs 8)
  | 16 => .fence ((byteAt bs 1).getLsbD 0)
  | _  => .unknown (byteAt bs 0)

/-- The four words of a record as the assembler collected them (R44). -/
structure RawRecord where
  w0 : Word
  w1 : Word
  w2 : Word
  w3 : Word
  deriving DecidableEq, Repr

/-- The 32 bytes of a record, byte 0 first (Table 10-6). -/
def RawRecord.bytes (r : RawRecord) : List Byte :=
  leBytes 8 r.w0.toNat ++ leBytes 8 r.w1.toNat ++ leBytes 8 r.w2.toNat ++ leBytes 8 r.w3.toNat

/-- The record sequence of a header (Table 10-6, bytes 4 to 7). -/
def headerSeq (w0 : Word) : BitVec 32 := w0.extractLsb' 32 32

/-- A record is whole when its closing mark equals the low 16 bits of its sequence (R44). -/
def RawRecord.whole (r : RawRecord) : Bool :=
  r.w3.extractLsb' 48 16 == (headerSeq r.w0).extractLsb' 0 16

/-- The type code of a record (Table 10-6, byte 0). -/
def RawRecord.typeCode (r : RawRecord) : Nat := (byteAt r.bytes 0).toNat

/-- The subject of a record (Table 10-6, byte 2). -/
def RawRecord.subject (r : RawRecord) : Byte := byteAt r.bytes 2

/-- Which type codes a feed kind allows (R50, Tables 3-2 and 10-6). -/
def FeedKind.allows (k : FeedKind) (code : Nat) : Bool :=
  match k with
  | .time    => code == 1
  | .robot   => code == 2 || code == 3
  | .verdict => code == 4
  | .service => code == 5 || code == 6 || code == 7 || code == 8

/-- Robot modes a ROBOT STATUS may report (Tables 3-4 and 10-4). -/
def reportedMode? (b : Byte) : Option Mode :=
  match b.toNat with
  | 1 => some .run
  | 2 => some .hold
  | 3 => some .fault
  | _ => none

/-- Results of a FILL REPORT (Tables 3-4 and 10-4). -/
def fillResult? (b : Byte) : Option FillResult :=
  match b.toNat with
  | 1 => some .ok
  | 2 => some .short
  | 3 => some .over
  | 4 => some .nofill
  | 5 => some .abort
  | _ => none

/-- Verdicts of a VERDICT (Tables 3-4 and 10-4). -/
def verdict? (b : Byte) : Option Verdict :=
  match b.toNat with
  | 1 => some .pass
  | 2 => some .fail
  | 3 => some .unsure
  | _ => none

/-- The window indices of a SERVICE CLAIM, if every one of the first `count` is 0 to 31 (Table 3-4). -/
def claimWindows? : List Byte → Option (List WinIdx)
  | []      => some []
  | b :: tl =>
    match winIdx? b, claimWindows? tl with
    | some i, some is => some (i :: is)
    | _, _            => none

/-- A SERVICE CLAIM's fields, if they hold accepted values (Table 3-4). -/
def claim? (bs : List Byte) : Option Claim :=
  let count := (byteAt bs 8).toNat
  let keep := fieldAt bs 10 2
  if 1 ≤ count ∧ count ≤ 8 ∧ 100 ≤ keep ∧ keep ≤ 5000 then
    (claimWindows? ((bs.drop 16).take count)).map fun ws =>
      { seq := BitVec.ofNat 32 (fieldAt bs 12 4), windows := ws, keepMs := keep }
  else none

/-- How a completed record of an allowed type is judged by its coded fields and, for the types that have one, by
whether its subject names a robot or a camera at all (steps 3 and 4 of Table 3-3). -/
inductive FieldCheck
  /-- Every coded field is accepted (R51) and the subject, where the type has one, is in range (R52). -/
  | good (rec : Record)
  /-- A coded field lies outside Table 3-4: FEED-TYPE. -/
  | badField
  /-- The coded fields are accepted and the subject names no robot or camera: FEED-SUBJECT (R52). -/
  | badSubject
  deriving DecidableEq, Repr

/-- The typed record of a completed record with its coded fields checked (R51, Tables 3-4 and 10-7). -/
def RawRecord.typed (r : RawRecord) : FieldCheck :=
  let bs := r.bytes
  match r.typeCode with
  | 1 => .good (.timeSync { receive := r.w1, origin := r.w2, grade := byteAt bs 24 })
  | 2 =>
    match reportedMode? (byteAt bs 8), robotIdx? r.subject with
    | none, _        => .badField
    | some _, none   => .badSubject
    | some m, some n => .good (.robotStatus { robot := n, mode := m, applied := BitVec.ofNat 16 (fieldAt bs 10 2),
                                              faultCode := BitVec.ofNat 16 (fieldAt bs 12 2) })
  | 3 =>
    match fillResult? (byteAt bs 13), decide ((byteAt bs 12).toNat ≤ 127), robotIdx? r.subject with
    | some res, true, some n => .good (.fillReport { robot := n, serial := BitVec.ofNat 32 (fieldAt bs 8 4),
                                                     valve := byteAt bs 12, result := res,
                                                     mass := BitVec.ofNat 16 (fieldAt bs 14 2) })
    | some _, true, none     => .badSubject
    | _, _, _                => .badField
  | 4 =>
    match verdict? (byteAt bs 12) with
    | none   => .badField
    | some v =>
      if h : r.subject.toNat < 3 then
        .good (.verdict { camera := ⟨r.subject.toNat, h⟩, serial := BitVec.ofNat 32 (fieldAt bs 8 4), verdict := v,
                          defect := BitVec.ofNat 16 (fieldAt bs 14 2), capture := r.w2 })
      else .badSubject
  | 5 =>
    match claim? bs with
    | some c => .good (.serviceClaim c)
    | none   => .badField
  | 6 =>
    match (byteAt bs 8).toNat with
    | 0 => .good (.serviceKeep false)
    | 1 => .good (.serviceKeep true)
    | _ => .badField
  | 7 => .good .serviceRelease
  | 8 =>
    match robotIdx? (byteAt bs 8) with
    | some n => .good (.servicePublish { robot := n, seq := BitVec.ofNat 16 (fieldAt bs 10 2),
                                         confirm := (byteAt bs 1).getLsbD 0 })
    | none   => .badField
  | _ => .badField

/-- The command a word of the opcode table spells: none, since spec/opcode_table.json gives no row a bit. -/
def decodeTableWord (_nbits _w : Nat) : Option Instr := none

end Sys2Proof
end

