-- ==== Sys2Proof/Config.lean ====
section
/-! DEFINITION. The constants the spec fixes for the whole part, and the FREE VALUES: values that the spec
leaves open although the part goes on. A free value has no body, so nothing can be proved about it. -/

namespace Sys2Proof.Config

/-- Places of the own queue (R13). -/
def ownPlaces : Nat := 16
/-- Places of the hold queue (R105). -/
def holdPlaces : Nat := 4
/-- Transactions of one tag in the in-flight set (R4). -/
def tagLimit : Nat := 4
/-- Slots of the notice ring (R158). -/
def noticeSlots : Nat := 128
/-- Slots of the decision ring (R134). -/
def decisionSlots : Nat := 512
/-- Units of 2^-32 ns in 8 ns: the nominal increment (R61). -/
def nominalIncrement : Nat := 34359738368
/-- Elapsed time gained at each REFCLK period, in ns (R59). -/
def refclkNs : Nat := 8
/-- Nanoseconds in a millisecond of machine time: the distance of marks (R64). -/
def msNs : Nat := 1000000
/-- Nanoseconds in a second (R66). -/
def secNs : Nat := 1000000000
/-- 10 µs: the MARK pulse and the delay of a CODE frame after its mark (R64, R66). -/
def tenUs : Nat := 10000
/-- 1 µs: one CODE bit (R66). -/
def codeBitNs : Nat := 1000
/-- Bits of a CODE frame (R66). -/
def codeBits : Nat := 56

/-- FREE VALUE (log 12, DESIGN CHOICE): byte `offset` of the structure written when the model's counter
stood at `count`, where that byte belongs to a value that is absent and neither R169 nor the structure's
table says how the absence is encoded. -/
opaque openByte (count offset : Nat) : BitVec 8

/-- FREE VALUE (log 11, DESIGN CHOICE): machine time (64 bits of ns over 32 bits of fraction) after an advance
that takes the count past its largest value; R60 does not say what the count then holds. -/
opaque machinePastEnd (count : Nat) : BitVec 96

end Sys2Proof.Config
end

