-- ==== Sys2Proof/Machine/State.lean ====
section
/-! DEFINITION. The state of the part, block by block (00_scope Table 0-1), as plain data, and the state right after
power reset. INVENTORY.md lists every field with its rule and reset value. -/

namespace Sys2Proof.Machine
open Sys2Proof

/-! ## Transaction path (01) -/

/-- What a request was checked against (Table 1-4). -/
inductive Checked
  | window (i : WinIdx)
  | control
  | nothing
  deriving DecidableEq, Repr

/-- The decided outcome of an accepted request (R2). -/
inductive Disposition
  | refused
  | forwarded
  | held
  deriving DecidableEq, Repr

/-- A physical half of a bank (R30). -/
inductive Half
  | a
  | b
  deriving DecidableEq, Repr

/-- An entry of the in-flight set (R8, Table 1-4). `id` names the memory answer that belongs to it (log 6);
`data` is what its response will carry (R7, R9). -/
structure Entry where
  id          : Nat
  tag         : Tag
  dir         : Dir
  first       : Nat
  last        : Nat
  disposition : Disposition
  checked     : Checked
  half        : Option Half
  readerRead  : Bool
  forwarded   : Option Addr
  answered    : Bool
  data        : List Byte
  deriving DecidableEq, Repr

/-- A forwarded transaction on its way to memory: forwarded address, span length, and for a write its data
(stamped where R2 so decided) and byte enables (R12). -/
structure PassingTxn where
  id      : Nat
  dir     : Dir
  addr    : Addr
  len     : Nat
  data    : List Byte
  enables : List Bool
  deriving DecidableEq, Repr

/-- What an own transaction is for, and so which unit its answer is handed to (R13). -/
inductive OwnKind
  | fetch
  | completion
  | headWord
  | notice
  | noticeProducer (count : Nat)
  | decision
  | decisionProducer
  | statusWord
  | mirror (record : Fin 8)
  | bankBind (robot : RobotIdx)
  | bankFlip (robot : RobotIdx)
  | nudge (robot : RobotIdx)
  | copyRead (robot : RobotIdx) (offset len : Nat)
  | copyWrite (robot : RobotIdx) (offset len : Nat)
  | snapshot (last : Bool)
  | reply
  deriving DecidableEq, Repr

/-- An own transaction (R13): a read, or a write of `body`. `after` holds the passing writes an own read waits for
(R15). -/
structure OwnTxn where
  id        : Nat
  kind      : OwnKind
  addr      : Nat
  len       : Nat
  body      : Option (List Byte)
  after     : List Nat
  presented : Bool
  deriving DecidableEq, Repr

/-- What waits for a place in the own queue (R13). The fault unit and the status word wait without contents, since
their writes take their values when they join (R157, R161). -/
inductive Waiter
  | txn (t : OwnTxn)
  | mirror
  | status
  deriving DecidableEq, Repr

/-- The two classes at the memory port (R14). -/
inductive PortClass
  | passing
  | own
  deriving DecidableEq, Repr

/-- The kinds of response (R1). -/
inductive ResponseKind
  | done
  | refused
  deriving DecidableEq, Repr

/-- A response given at the upstream port (R1, R7, R9). -/
structure Response where
  tag  : Tag
  id   : Nat
  kind : ResponseKind
  data : List Byte
  deriving DecidableEq, Repr

/-- The transaction path (R8, R12, R13, R14). -/
structure Path where
  inflight   : List Entry
  passing    : List PassingTxn
  downstream : List PassingTxn
  own        : List OwnTxn
  waiting    : List Waiter
  last       : Option PortClass
  nextId     : Nat
  responses  : List Response
  deriving DecidableEq, Repr

/-! ## Window unit (02) -/

/-- The authority of a GUARDED or BANKED window (R28). -/
inductive Authority
  | production
  | service
  | frozen
  deriving DecidableEq, Repr

/-- Where a stamped window's stamp word lies in each 32-byte record slot (R55). -/
inductive StampAt
  | at8
  | at16
  deriving DecidableEq, Repr

/-- The role of a window with the fields Table 2-1 gives that role. -/
inductive Role
  | plain (stamp : Option StampAt)
  | guarded (eligible : Bool) (authority : Authority)
  | banked (eligible : Bool) (authority : Authority) (robot : RobotIdx) (halfA halfB : Addr)
  | feed (kind : FeedKind) (stamp : Option StampAt)
  deriving DecidableEq, Repr

/-- The contents of a window entry (Table 2-1). Sets of tags are bit masks (10 section 10.2). -/
structure Window where
  base     : Addr
  size     : BitVec 32
  readSet  : Byte
  writeSet : Byte
  role     : Role
  deriving DecidableEq, Repr

/-- The state of a window entry (R19): a DRAINING entry keeps its old contents and, for a load, the new ones (R39). -/
inductive WinState
  | empty
  | loaded (w : Window)
  | draining (old : Window) (new : Option Window)
  deriving DecidableEq, Repr

/-- The policy (R26). -/
inductive Policy
  | openAll
  | enforcing
  deriving DecidableEq, Repr

/-- The window unit (R19, R26). -/
structure WindowUnit where
  policy  : Policy
  entries : Vector WinState 32
  deriving DecidableEq, Repr

/-! ## Feed assembler (03) -/

/-- An assembly slot (R43, Table 3-1). A COLLECTING slot always holds word 0; words 1 and 2 are present once written. -/
inductive Slot
  | empty
  | collecting (offset : Nat) (w0 : Word) (w1 w2 : Option Word)
  deriving DecidableEq, Repr

/-! ## Clock unit (04, 05) -/

/-- Clock states (R81). -/
inductive ClockState
  | free
  | acquiring
  | locked
  | holdover
  deriving DecidableEq, Repr

/-- A place for a time source (R75, Table 5-1). -/
structure Place where
  window     : Option WinIdx
  lastOrigin : Option Word
  lastGrade  : Option Byte
  lastAccept : Option Nat
  heard      : Bool
  heardTimer : Option Nat
  pathDelay  : Nat
  deriving DecidableEq, Repr

/-- The discipline parameters (Table 5-4), thresholds in ns, rate limit in ppb, holdover interval in ms. -/
structure Discipline where
  step      : Nat
  lock      : Nat
  pShift    : Nat
  iShift    : Nat
  rateLimit : Nat
  holdover  : Nat
  deriving DecidableEq, Repr

/-- The contents of a CODE frame (R69, Table 4-2). -/
structure CodeFrame where
  seconds : Nat
  state   : ClockState
  stepped : Bool
  heard   : Bool
  source  : Bool
  deriving DecidableEq, Repr

/-- The clock unit (04, 05). Timers hold their expiry on elapsed time (R74). -/
structure Clock where
  elapsed      : Nat
  ns           : Word
  frac         : BitVec 32
  increment    : Nat
  stepped      : Bool
  markEnd      : Option Nat
  codeWaiting  : Option (CodeFrame × Nat)
  codeSending  : Option (BitVec 56 × Nat)
  place0       : Place
  place1       : Place
  state        : ClockState
  selected     : Option WinIdx
  lockCount    : Nat
  outlierCount : Nat
  integral     : Int
  rate         : Int
  lastAny      : Option Nat
  silence      : Option Nat
  params       : Discipline
  deriving DecidableEq, Repr

/-! ## Robot unit (06) -/

/-- Publish states (Table 6-1). -/
inductive PublishState
  | idle
  | pending
  | flipping
  | copying
  deriving DecidableEq, Repr

/-- Echo states (Table 6-1). -/
inductive Echo
  | confirmed
  | awaiting
  | stale
  deriving DecidableEq, Repr

/-- The origin of a publish request (Table 6-1). -/
inductive Origin
  | production
  | service
  deriving DecidableEq, Repr

/-- A publish request as the record holds it (R100). -/
structure PublishRequest where
  seq     : BitVec 16
  confirm : Bool
  origin  : Origin
  deriving DecidableEq, Repr

/-- A bound robot record (Table 6-1); its cycle boundary detector is on exactly while the record is bound, so its
next boundary stands here (R70). `flipTime` is the time in the published half's bank word, `newFlipTime` the time
of a flip whose bank-word write has been generated (R97, R102). -/
structure Bound where
  bank           : WinIdx
  feed           : WinIdx
  reader         : Tag
  period         : Nat
  echoLimit      : Nat
  nudgeCount     : Nat
  unbinding      : Bool
  published      : Half
  publishedSeq   : BitVec 16
  publish        : PublishState
  pendingReq     : Option PublishRequest
  nextReq        : Option PublishRequest
  confirmPending : Bool
  echo           : Echo
  toDeadline     : Nat
  nudgesUsed     : Nat
  mode           : Mode
  sinceStatus    : Nat
  faultCode      : BitVec 16
  review         : Bool
  grantHold      : Bool
  nextBoundary   : Nat
  flipTime       : BitVec 32
  newFlipTime    : Option (BitVec 32)
  deriving DecidableEq, Repr

/-- A held write (R105). -/
structure HeldWrite where
  robot   : RobotIdx
  id      : Nat
  tag     : Tag
  addr    : Addr
  data    : List Byte
  enables : List Bool
  deriving DecidableEq, Repr

/-! ## Tracking unit (07) -/

/-- What an UNSURE verdict does (Table 7-2). -/
inductive UnsurePolicy
  | reject
  | pass
  deriving DecidableEq, Repr

/-- A camera in use (Table 7-2). -/
structure Camera where
  feed    : WinIdx
  station : Nat
  deriving DecidableEq, Repr

/-- The tracking parameters (Table 7-2); `cameras` holds the cameras in use, camera 0 first. -/
structure TrackConfig where
  rejectPocket : Nat
  cameras      : List Camera
  deadline     : Nat
  required     : Byte
  unsure       : UnsurePolicy
  target       : Nat
  tolerance    : Nat
  delay        : Nat
  width        : Nat
  deriving DecidableEq, Repr

/-- A fill record (R119): a judged fill report with the marks handed over at its dispatch. -/
structure FillRecord where
  serial : BitVec 32
  robot  : RobotIdx
  valve  : Byte
  result : FillResult
  mass   : BitVec 16
  good   : Bool
  stale  : Bool
  review : Bool
  deriving DecidableEq, Repr

/-- A BOTTLE entry (Table 7-4). `fill` is absent when the bottle is UNREPORTED; a camera's verdict carries its
defect code. -/
structure Bottle where
  serial     : Option (BitVec 32)
  fill       : Option FillRecord
  verdict0   : Option (Verdict × BitVec 16)
  verdict1   : Option (Verdict × BitVec 16)
  verdict2   : Option (Verdict × BitVec 16)
  windowOpen : Bool
  exitStamp  : Nat
  deriving DecidableEq, Repr

/-- An entry of the pocket chain (Table 7-4). -/
inductive ChainEntry
  | bottle (b : Bottle)
  | gap
  | purged
  deriving DecidableEq, Repr

/-- Line states (R126). -/
inductive Line
  | running
  | stopped
  deriving DecidableEq, Repr

/-- A scheduled pulse of REJECT, rise and fall on elapsed time (R132). -/
structure RejectPulse where
  rise : Nat
  fall : Nat
  deriving DecidableEq, Repr

/-- The tracking unit (Table 7-1). -/
structure Tracking where
  cfg             : Option TrackConfig
  lineStopMs      : Nat
  chain           : List ChainEntry
  filled          : List FillRecord
  nextExit        : Option (BitVec 32)
  line            : Line
  lastPulse       : Option Nat
  pulseSinceSetup : Bool
  interval        : Option Nat
  lineStop        : Option Nat
  schedule        : List RejectPulse
  deriving DecidableEq, Repr

/-! ## Service unit (08) -/

/-- Session states (Table 8-1). -/
inductive SessionState
  | closed
  | keyed
  | claimed
  | granted
  | returning
  | lockout
  deriving DecidableEq, Repr

/-- Causes of a return (Table 8-4). -/
inductive Cause
  | timeout
  | released
  | key
  | revoked
  | robot
  | line
  deriving DecidableEq, Repr

/-- The session record (Table 8-2). -/
structure Session where
  state          : SessionState
  claim          : Option Claim
  named          : List RobotIdx
  consentWaiting : Bool
  keepPhase      : Option Bool
  cause          : Option Cause
  consentTimer   : Option Nat
  keepTimer      : Option Nat
  lockoutTimer   : Option Nat
  consentS       : Nat
  lockoutS       : Nat
  replySeq       : BitVec 32
  deriving DecidableEq, Repr

/-! ## Fault unit (09) -/

/-- Fault kinds in the order of Table 10-4. -/
inductive FaultKind
  | linkForm
  | unmapped
  | rights
  | authority
  | straddle
  | hidden
  | control
  | bankWord
  | feedTorn
  | feedType
  | feedSubject
  | fillLate
  | fillRange
  | trackDup
  | verdictLate
  | verdictEarly
  | verdictDup
  | commandRing
  deriving DecidableEq, Repr

/-- A fault as its source hands it over (R155, Table 9-2). -/
structure FaultInfo where
  kind   : FaultKind
  tag    : Option Tag
  addr   : Option Addr
  dir    : Option Dir
  window : Option WinIdx
  serial : Option (BitVec 32)
  deriving DecidableEq, Repr

/-- A held fault record (Table 9-1). -/
structure FaultRecord where
  info    : FaultInfo
  first   : Nat
  last    : Nat
  repeats : Nat
  deriving DecidableEq, Repr

/-- A record's creation whose FAULT-NEW is still to be handed to reporting (R157). -/
structure Creation where
  record : Fin 8
  kind   : FaultKind
  tag    : Option Tag
  window : Option WinIdx
  deriving DecidableEq, Repr

/-- The fault unit (R154, R157). -/
structure FaultUnit where
  records  : Vector (Option FaultRecord) 8
  overflow : Bool
  marks    : List (Fin 8)
  created  : List Creation
  deriving DecidableEq, Repr

/-! ## Command unit and reporting (09, 10) -/

/-- Command ring states (R163). -/
inductive Ring
  | running
  | stopped
  deriving DecidableEq, Repr

/-- What an executing command waits for (R164 and the rules of each command). -/
inductive Wait
  /-- The command is being judged. -/
  | begun
  /-- The end of the drain of an index (R40). -/
  | drain (i : WinIdx)
  /-- The bank-word write of a bind joins the own queue (R95). -/
  | bindJoin (robot : RobotIdx)
  /-- The robot is IDLE and its reader reads have completed (R96). -/
  | unbind (robot : RobotIdx)
  /-- The named robots are IDLE (R143, R144). -/
  | consent
  /-- The last snapshot write joins the own queue (R167). -/
  | snapshotJoin
  /-- The noted own writes are answered (R168). -/
  | fence (ids : List Nat) (notify : Bool)
  deriving DecidableEq, Repr

/-- What the command unit is doing (R164). -/
inductive CmdPhase
  | idle
  | fetching
  | executing (wait : Wait)
  deriving DecidableEq, Repr

/-- The command unit (R163). -/
structure CommandUnit where
  head  : Fin 64
  tail  : Fin 64
  ring  : Ring
  phase : CmdPhase
  deriving DecidableEq, Repr

/-- Reporting (R134, R158, R160, R161). -/
structure Reporting where
  enabled      : Bool
  mask         : Bool
  producer     : Nat
  consumed     : Nat
  published    : Nat
  dropped      : Bool
  droppedCount : Nat
  firstDrop    : Nat
  decProducer  : Nat
  decConsumed  : Nat
  decOverflow  : Bool
  statusMark   : Bool
  deriving DecidableEq, Repr

/-- The field lines and the held strap value (01 section 1.8, R18). -/
structure Pins where
  powerGood    : Bool
  cabinetReset : Bool
  key          : Bool
  strap        : Fin 16
  reject       : Bool
  mark         : Bool
  attention    : Bool
  deriving DecidableEq, Repr

end Sys2Proof.Machine

namespace Sys2Proof.Machine
open Sys2Proof

/-- The state of the part. `pending` is the queue of commands that are waiting; `openCount` is the model's own
counter that the free values are drawn with (log 12). -/
structure State where
  pins      : Pins
  path      : Path
  win       : WindowUnit
  feeds     : Vector (Option Slot) 32
  clk       : Clock
  robots    : Vector (Option Bound) 6
  hold      : List HeldWrite
  trk       : Tracking
  svc       : Session
  flt       : FaultUnit
  cmd       : CommandUnit
  rep       : Reporting
  openCount : Nat
  pending   : List Instr
  deriving DecidableEq, Repr

/-- Why a step can stop the machine: never. The part has no stop; what its manual calls a fault is a record of the
fault unit (R155), an effect on the state. So no constructor exists and no command can raise one. -/
inductive Fault
  deriving DecidableEq, Repr

/-- Why a command has no meaning in the model. -/
inductive Refusal
  /-- Raised by `exec` for a row of the opcode table that has no meaning yet; safe. No arm of this model uses it. -/
  | notModelled (mnemonic : String)
  deriving DecidableEq, Repr

/-! ## The state right after power reset -/

/-- A place that holds no source (R75), with the path delay it keeps. -/
def Place.vacant (delay : Nat) : Place where
  window := none
  lastOrigin := none
  lastGrade := none
  lastAccept := none
  heard := false
  heardTimer := none
  pathDelay := delay

/-- The defaults of Table 5-4. -/
def Discipline.default : Discipline where
  step := 1000000
  lock := 1000
  pShift := 0
  iShift := 3
  rateLimit := 100000
  holdover := 2000

/-- The clock unit after power reset (Table 4-5, R92). -/
def Clock.reset : Clock where
  elapsed := 0
  ns := 0
  frac := 0
  increment := Config.nominalIncrement
  stepped := false
  markEnd := none
  codeWaiting := none
  codeSending := none
  place0 := Place.vacant 0
  place1 := Place.vacant 0
  state := .free
  selected := none
  lockCount := 0
  outlierCount := 0
  integral := 0
  rate := 0
  lastAny := none
  silence := none
  params := Discipline.default

/-- The window unit after either reset (R19, R26). -/
def WindowUnit.reset : WindowUnit where
  policy := .openAll
  entries := Vector.replicate 32 .empty

/-- The tracking unit after either reset (R115). -/
def Tracking.reset : Tracking where
  cfg := none
  lineStopMs := 2000
  chain := []
  filled := []
  nextExit := none
  line := .stopped
  lastPulse := none
  pulseSinceSetup := false
  interval := none
  lineStop := none
  schedule := []

/-- The session after either reset: KEYED if KEY is on, CLOSED if it is off (R137). -/
def Session.reset (key : Bool) : Session where
  state := if key then .keyed else .closed
  claim := none
  named := []
  consentWaiting := false
  keepPhase := none
  cause := none
  consentTimer := none
  keepTimer := none
  lockoutTimer := none
  consentS := 30
  lockoutS := 10
  replySeq := 0

/-- All eight fault records, in number order. -/
def allRecords : List (Fin 8) := [0, 1, 2, 3, 4, 5, 6, 7]

/-- The fault unit after power reset: free records, the eight mirror writes scheduled (R154), their marks in number order
(log 41). -/
def FaultUnit.reset : FaultUnit where
  records := Vector.replicate 8 none
  overflow := false
  marks := allRecords
  created := []

/-- The command unit after either reset (R163). -/
def CommandUnit.reset : CommandUnit where
  head := 0
  tail := 0
  ring := .running
  phase := .idle

/-- Reporting after either reset (Table 9-5), a status word write scheduled (R161). -/
def Reporting.reset : Reporting where
  enabled := false
  mask := false
  producer := 0
  consumed := 0
  published := 0
  dropped := false
  droppedCount := 0
  firstDrop := 0
  decProducer := 0
  decConsumed := 0
  decOverflow := false
  statusMark := true

/-- The base of the control area for a strap value (R18). The constant stands first, so that a symbolic strap keeps the sum
from being evaluated. -/
def areaBaseOf (strap : Fin 16) : Nat := 0x0FFF0000 + 0x10000000 * strap.val

/-- The own write of the head word holding 0 that follows a reset (R163). -/
def headWordZero (id : Nat) (strap : Fin 16) : OwnTxn where
  id := id
  kind := .headWord
  addr := areaBaseOf strap + 0x10
  len := 8
  body := some [0, 0, 0, 0, 0, 0, 0, 0]
  after := []
  presented := false

/-- The transaction path after a reset (Table 1-5), with the head word write of R163; the model's own transaction
names and response history go on. -/
def Path.reset (nextId : Nat) (strap : Fin 16) (responses : List Response) : Path where
  inflight := []
  passing := []
  downstream := []
  own := [headWordZero nextId strap]
  waiting := []
  last := none
  nextId := nextId + 1
  responses := responses

/-- The part at the rise of POWER-GOOD (R16, R42, R65, R92, R93, R115, R137, R154, R162, R163): every block in its
power-reset state, with the straps sampled and KEY and CABINET RESET as their pins stand. -/
def State.powerReset (straps : Fin 16) (key cabinetReset : Bool) (nextId openCount : Nat)
    (responses : List Response) (pending : List Instr) : State where
  pins := { powerGood := true, cabinetReset := cabinetReset, key := key, strap := straps,
            reject := false, mark := false, attention := false }
  path := Path.reset nextId straps responses
  win := WindowUnit.reset
  feeds := Vector.replicate 32 none
  clk := Clock.reset
  robots := Vector.replicate 6 none
  hold := []
  trk := Tracking.reset
  svc := Session.reset key
  flt := FaultUnit.reset
  cmd := CommandUnit.reset
  rep := Reporting.reset
  openCount := openCount
  pending := pending

/-- The part right after power reset with straps 0, KEY off and CABINET RESET not asserted (log 4), no command
waiting. -/
def State.reset : State := State.powerReset 0 false false 0 0 [] []

end Sys2Proof.Machine
end

