-- ==== Sys2Proof/Machine/Formats.lean ====
section
/-! DEFINITION. The layouts of what the part writes (10 section 10.5): value codes, completion, bank word, notice,
decision record, fault mirror record, reply slot and CODE frame. The status word is in Flags.lean, the snapshots
are in Snapshots.lean. -/

namespace Sys2Proof.Machine
open Sys2Proof

/-! ## Value codes (Table 10-4) -/

def feedKindCode : FeedKind → Nat
  | .time => 1 | .robot => 2 | .verdict => 3 | .service => 4

def Authority.code : Authority → Nat
  | .production => 1 | .service => 2 | .frozen => 3

def ClockState.code : ClockState → Nat
  | .free => 0 | .acquiring => 1 | .locked => 2 | .holdover => 3

/-- Causes of a change of the clock state (R81). -/
inductive ClockCause
  | record
  | source
  | silence
  | set
  deriving DecidableEq, Repr

def ClockCause.code : ClockCause → Nat
  | .record => 1 | .source => 2 | .silence => 3 | .set => 4

def modeCode : Mode → Nat
  | .run => 1 | .hold => 2 | .fault => 3 | .unknown => 4

def Echo.code : Echo → Nat
  | .confirmed => 1 | .awaiting => 2 | .stale => 3

def PublishState.code : PublishState → Nat
  | .idle => 0 | .pending => 1 | .flipping => 2 | .copying => 3

def fillResultCode : FillResult → Nat
  | .ok => 1 | .short => 2 | .over => 3 | .nofill => 4 | .abort => 5

def verdictCode : Verdict → Nat
  | .pass => 1 | .fail => 2 | .unsure => 3

def UnsurePolicy.code : UnsurePolicy → Nat
  | .reject => 1 | .pass => 2

def SessionState.code : SessionState → Nat
  | .closed => 0 | .keyed => 1 | .claimed => 2 | .granted => 3 | .returning => 4 | .lockout => 5

def Policy.code : Policy → Nat
  | .openAll => 0 | .enforcing => 1

def Ring.code : Ring → Nat
  | .running => 0 | .stopped => 1

def Line.code : Line → Nat
  | .running => 0 | .stopped => 1

def FaultKind.code : FaultKind → Nat
  | .linkForm => 1 | .unmapped => 2 | .rights => 3 | .authority => 4 | .straddle => 5 | .hidden => 6
  | .control => 7 | .bankWord => 8 | .feedTorn => 9 | .feedType => 10 | .feedSubject => 11 | .fillLate => 12
  | .fillRange => 13 | .trackDup => 14 | .verdictLate => 15 | .verdictEarly => 16 | .verdictDup => 17
  | .commandRing => 18

/-- Reasons and causes with one code space (Table 10-4). -/
inductive Reason
  | none
  | unknown
  | range
  | align
  | bound
  | busy
  | overlapControl
  | hiddenOverlap
  | limit
  | role
  | notBound
  | state
  | window
  | robotMode
  | line
  | lockout
  | authority
  | review
  | sameSequence
  | timeout
  | released
  | key
  | revoked
  | robot
  deriving DecidableEq, Repr

def Reason.code : Reason → Nat
  | .none => 0 | .unknown => 1 | .range => 2 | .align => 3 | .bound => 4 | .busy => 5 | .overlapControl => 6
  | .hiddenOverlap => 7 | .limit => 8 | .role => 9 | .notBound => 10 | .state => 11 | .window => 12
  | .robotMode => 13 | .line => 14 | .lockout => 15 | .authority => 16 | .review => 17 | .sameSequence => 18
  | .timeout => 19 | .released => 20 | .key => 21 | .revoked => 22 | .robot => 23

/-- A return's cause in the code space of reasons (Table 10-4; LINE shares code 14). -/
def Cause.reason : Cause → Reason
  | .timeout => .timeout | .released => .released | .key => .key | .revoked => .revoked | .robot => .robot
  | .line => .line

/-- Reply kinds (Table 3-8). -/
inductive ReplyKind
  | refused
  | granted
  | denied
  | timeout
  | withdrawn
  | returned
  deriving DecidableEq, Repr

def ReplyKind.code : ReplyKind → Nat
  | .refused => 1 | .granted => 2 | .denied => 3 | .timeout => 4 | .withdrawn => 5 | .returned => 6

/-- The status of a completion (Table 10-5). -/
inductive Status
  | done
  | refused
  deriving DecidableEq, Repr

def Status.code : Status → Nat
  | .done => 1 | .refused => 2

/-! ## Pieces of a layout -/

/-- One byte holding a number. -/
def b1 (n : Nat) : List Byte := [BitVec.ofNat 8 n]

/-- A truth value as a bit of a flags byte. -/
def bit (b : Bool) (n : Nat) : Nat := if b then 2 ^ n else 0

/-- An absent window index, tag, robot or subject is FFh (R169). -/
def absentByte : Byte := 0xFF

/-- An optional window index as a byte (R169). -/
def winByte : Option WinIdx → Byte
  | some i => BitVec.ofNat 8 i.val
  | none   => absentByte

/-- An optional tag as a byte (R169). -/
def tagByte : Option Tag → Byte
  | some t => BitVec.ofNat 8 t.val
  | none   => absentByte

/-- An optional robot number as a byte (R169). -/
def robotByte : Option RobotIdx → Byte
  | some r => BitVec.ofNat 8 r.val
  | none   => absentByte

/-- The bytes of a value that may be absent where neither R169 nor the table says how the absence is written: the
free values of bytes `off` to `off + len - 1` (log 12). -/
def openBytes (count off : Nat) : Nat → List Byte
  | 0       => []
  | len + 1 => Config.openByte count off :: openBytes count (off + 1) len

/-- `len` bytes of an optional number at `off`, open when it is absent (log 12). -/
def optBytes (count off len : Nat) : Option Nat → List Byte
  | some v => leBytes len v
  | none   => openBytes count off len

/-- An integer of 8 bytes in two's complement (R169). -/
def intBytes8 (v : Int) : List Byte := leBytes 8 (BitVec.ofInt 64 v).toNat

/-- An integer of 4 bytes in two's complement (R169). -/
def intBytes4 (v : Int) : List Byte := leBytes 4 (BitVec.ofInt 32 v).toNat

/-! ## Completion, bank word, reply slot -/

/-- Bytes 48 to 63 of a completed slot: status, reason, completion stamp (Table 10-5). -/
def completionBytes (st : Status) (reason : Reason) (stamp : Nat) : List Byte :=
  b1 st.code ++ b1 reason.code ++ zeroBytes 6 ++ leBytes 8 stamp

/-- The bank word: published sequence, nudge count, review flag, low 32 bits of the flip time (Table 10-8). -/
def bankWordBytes (seq : BitVec 16) (nudges : Nat) (review : Bool) (flip : BitVec 32) : List Byte :=
  leBytes 2 seq.toNat ++ b1 nudges ++ b1 (bit review 0) ++ leBytes 4 flip.toNat

/-- The reply slot: kind, reason, request sequence, reply sequence, machine time (Table 10-8). -/
def replyBytes (kind : ReplyKind) (reason : Reason) (request reply : BitVec 32) (time : Nat) : List Byte :=
  b1 kind.code ++ b1 reason.code ++ zeroBytes 2 ++ leBytes 4 request.toNat ++ leBytes 4 reply.toNat ++ zeroBytes 4
    ++ leBytes 8 time ++ zeroBytes 8

/-! ## Notices (Tables 9-3 and 10-9) -/

/-- A notice with the details its kind carries (Table 9-3). -/
inductive Notice
  | faultNew (record : Fin 8) (kind : FaultKind) (tag : Option Tag) (window : Option WinIdx)
  | faultOverflow (kind : FaultKind) (tag : Option Tag) (window : Option WinIdx)
  | clockState (before after : ClockState) (cause : ClockCause)
  | clockStep (source : Option WinIdx) (offset : List Byte) (after : Nat)
  | sourceChange (before after : Option WinIdx) (grade : Option Byte)
  | robotStale (robot : RobotIdx) (seq : BitVec 16) (nudges : Nat)
  | robotRecovered (robot : RobotIdx) (seq : BitVec 16)
  | publishRefused (robot : RobotIdx) (seq : BitVec 16) (confirm : Bool) (reason : Reason)
  | publishCancelled (robot : RobotIdx) (pending next : Option (BitVec 16))
  | lineStopped
  | lineRunning
  | serviceClaim (claim : Claim)
  | serviceGranted (claim : Claim)
  | serviceReturned (seq : BitVec 32) (cause : Cause)
  | fenceDone (slot : Nat)
  | decisionOverflow (serial : Option (BitVec 32))
  | dropped (count : Nat) (firstDrop : Nat)
  deriving DecidableEq, Repr

/-- Notice kinds are numbered 1 to 17 in the order of Table 9-3 (Table 10-4). -/
def Notice.code : Notice → Nat
  | .faultNew .. => 1 | .faultOverflow .. => 2 | .clockState .. => 3 | .clockStep .. => 4 | .sourceChange .. => 5
  | .robotStale .. => 6 | .robotRecovered .. => 7 | .publishRefused .. => 8 | .publishCancelled .. => 9
  | .lineStopped => 10 | .lineRunning => 11 | .serviceClaim .. => 12 | .serviceGranted .. => 13
  | .serviceReturned .. => 14 | .fenceDone .. => 15 | .decisionOverflow .. => 16 | .dropped .. => 17

/-- Byte 1 of a notice: record number, source window, robot or FFh (Table 10-9). -/
def Notice.subject : Notice → Byte
  | .faultNew n ..           => BitVec.ofNat 8 n.val
  | .clockStep w ..          => winByte w
  | .robotStale r ..         => robotByte (some r)
  | .robotRecovered r ..     => robotByte (some r)
  | .publishRefused r ..     => robotByte (some r)
  | .publishCancelled r ..   => robotByte (some r)
  | _                        => absentByte

/-- The eight window index bytes of a claim; the places beyond its count are absent indices, FFh (R169, log 19). -/
def claimWindowBytes (ws : List WinIdx) : List Byte :=
  fitBytes 8 (ws.map (fun i => BitVec.ofNat 8 i.val) ++ List.replicate 8 absentByte)

/-- Bytes 16 to 31 of a notice by kind (Table 10-9). -/
def Notice.details : Notice → List Byte
  | .faultNew _ k t w          => b1 k.code ++ [tagByte t] ++ [winByte w] ++ zeroBytes 13
  | .faultOverflow k t w       => b1 k.code ++ [tagByte t] ++ [winByte w] ++ zeroBytes 13
  | .clockState a b c          => b1 a.code ++ b1 b.code ++ b1 c.code ++ zeroBytes 13
  | .clockStep _ off after     => off ++ leBytes 8 after
  | .sourceChange a b g        => [winByte a] ++ [winByte b] ++ [g.getD 0] ++ b1 (bit g.isSome 0) ++ zeroBytes 12
  | .robotStale _ q n          => leBytes 2 q.toNat ++ b1 n ++ zeroBytes 13
  | .robotRecovered _ q        => leBytes 2 q.toNat ++ zeroBytes 14
  | .publishRefused _ q c why  => leBytes 2 q.toNat ++ b1 (bit c 0) ++ b1 why.code ++ zeroBytes 12
  | .publishCancelled _ p n    => leBytes 2 (p.getD 0).toNat ++ b1 (bit p.isSome 0 + bit n.isSome 1) ++ zeroBytes 1
                                    ++ leBytes 2 (n.getD 0).toNat ++ zeroBytes 10
  | .lineStopped               => zeroBytes 16
  | .lineRunning               => zeroBytes 16
  | .serviceClaim c            => leBytes 4 c.seq.toNat ++ b1 c.windows.length ++ zeroBytes 1 ++ leBytes 2 c.keepMs
                                    ++ claimWindowBytes c.windows
  | .serviceGranted c          => leBytes 4 c.seq.toNat ++ b1 c.windows.length ++ zeroBytes 3 ++ claimWindowBytes c.windows
  | .serviceReturned q cause   => leBytes 4 q.toNat ++ b1 cause.reason.code ++ zeroBytes 11
  | .fenceDone slot            => b1 slot ++ zeroBytes 15
  | .decisionOverflow s        => leBytes 4 (s.getD 0).toNat ++ b1 (bit s.isSome 0) ++ zeroBytes 11
  | .dropped n t               => leBytes 2 n ++ zeroBytes 6 ++ leBytes 8 t

/-- The 32 bytes of a notice posted at machine time `time` (Table 10-9). -/
def Notice.bytes (n : Notice) (time : Nat) : List Byte :=
  b1 n.code ++ [n.subject] ++ zeroBytes 6 ++ leBytes 8 time ++ n.details

/-! ## Decisions (Tables 7-5, 7-6, 10-10) -/

/-- Reasons for rejection in the order of Table 7-5. -/
inductive RejectReason
  | purged
  | fillBad
  | fillUnreported
  | verdictMissing
  | verdictFail
  | verdictUnsure
  | suspectStale
  | suspectReview
  deriving DecidableEq, Repr

def RejectReason.bitNo : RejectReason → Nat
  | .purged => 0 | .fillBad => 1 | .fillUnreported => 2 | .verdictMissing => 3 | .verdictFail => 4
  | .verdictUnsure => 5 | .suspectStale => 6 | .suspectReview => 7

/-- A decision (R131, Table 7-6); REJECTED exactly when the reason set is not empty (R129). -/
structure Decision where
  serial  : Option (BitVec 32)
  reasons : List RejectReason
  robot   : Option RobotIdx
  valve   : Option Byte
  time    : Nat
  deriving DecidableEq, Repr

def Decision.rejected (d : Decision) : Bool := !d.reasons.isEmpty

/-- The 16 bytes of a decision record (Table 10-10). The valve byte of a decision without one is open (log 12). -/
def Decision.bytes (d : Decision) (count : Nat) : List Byte :=
  leBytes 4 (d.serial.getD 0).toNat
    ++ b1 (bit d.rejected 0 + bit d.serial.isSome 1 + bit d.robot.isSome 2)
    ++ [robotByte d.robot] ++ optBytes count 6 1 (d.valve.map BitVec.toNat)
    ++ b1 ((d.reasons.map fun r => 2 ^ r.bitNo).sum) ++ leBytes 8 d.time

/-! ## Fault mirror (Table 10-10) -/

/-- The 32 bytes that mirror a fault record; a free record is 32 zero bytes (R169). -/
def mirrorBytes (count : Nat) : Option FaultRecord → List Byte
  | none   => zeroBytes 32
  | some r =>
    b1 r.info.kind.code
      ++ b1 (bit r.info.tag.isSome 0 + bit r.info.addr.isSome 1 + bit r.info.dir.isSome 2
             + bit r.info.window.isSome 3 + bit r.info.serial.isSome 4)
      ++ [tagByte r.info.tag] ++ optBytes count 3 1 (r.info.dir.map fun d => if d = .write then 1 else 0)
      ++ [winByte r.info.window] ++ zeroBytes 1 ++ leBytes 2 r.repeats
      ++ optBytes count 8 4 (r.info.addr.map BitVec.toNat) ++ leBytes 4 (r.info.serial.getD 0).toNat
      ++ leBytes 8 r.first ++ leBytes 8 r.last

/-! ## CODE frame (R69, R170, Table 10-11) -/

/-- Whether a number has an odd count of ones among its `k` low bits. -/
def oddOnes : Nat → Nat → Bool
  | 0, _     => false
  | k + 1, v => xor (decide (v % 2 = 1)) (oddOnes k (v / 2))

/-- Bits 0 to 54 of a frame as a number (Table 10-11); bits 53 and 54 are 0. -/
def CodeFrame.body (f : CodeFrame) : Nat :=
  f.seconds % 2 ^ 48 + f.state.code * 2 ^ 48 + bit f.stepped 50 + bit f.heard 51 + bit f.source 52

/-- The 56 bits of a frame, bit 0 sent first, parity even over all of them (R69, R170). -/
def CodeFrame.bits (f : CodeFrame) : BitVec 56 :=
  BitVec.ofNat 56 (f.body + bit (oddOnes 55 f.body) 55)

end Sys2Proof.Machine
end

