-- ==== Sys2Proof/Machine/Flags.lean ====
section
/-! DEFINITION. The levels and flags that are computed from the state: the status word's fields, ATTENTION, the level
REJECT should have, the level of CODE, and the increment a rate gives (R161, R160, R133, R66, R61). -/

namespace Sys2Proof.Machine
open Sys2Proof

/-- POWER-GOOD is high and CABINET RESET is not asserted: the part accepts, presents and acts (R16, R17). -/
def State.running (s : State) : Bool := s.pins.powerGood && !s.pins.cabinetReset

/-- The fields of the status word (Table 9-4). -/
structure StatusFields where
  policy           : Policy
  clock            : ClockState
  configured       : Bool
  line             : Line
  session          : SessionState
  ring             : Ring
  enabled          : Bool
  mask             : Bool
  noticeDropped    : Bool
  decisionOverflow : Bool
  faultOverflow    : Bool
  deriving DecidableEq, Repr

/-- The status word's fields as they stand (Table 9-4). -/
def State.statusFields (s : State) : StatusFields where
  policy := s.win.policy
  clock := s.clk.state
  configured := s.trk.cfg.isSome
  line := s.trk.line
  session := s.svc.state
  ring := s.cmd.ring
  enabled := s.rep.enabled
  mask := s.rep.mask
  noticeDropped := s.rep.dropped
  decisionOverflow := s.rep.decOverflow
  faultOverflow := s.flt.overflow

/-- The 8 bytes of the status word (Table 10-8). -/
def StatusFields.bytes (f : StatusFields) : List Byte :=
  b1 f.policy.code ++ b1 f.clock.code ++ b1 (bit f.configured 0) ++ b1 f.line.code ++ b1 f.session.code
    ++ b1 f.ring.code
    ++ b1 (bit f.enabled 0 + bit f.mask 1 + bit f.noticeDropped 2 + bit f.decisionOverflow 3 + bit f.faultOverflow 4)
    ++ zeroBytes 1

/-- `after` with a status word write scheduled if a field differs from `before` (R161). -/
def State.noteStatus (before after : State) : State :=
  if after.statusFields = before.statusFields then after
  else { after with rep := { after.rep with statusMark := true } }

/-- The level ATTENTION takes: high while reporting is enabled, the mask is clear and the published producer differs
from the consumed count (R160). -/
def Reporting.attention (r : Reporting) : Bool := r.enabled && !r.mask && decide (r.published ≠ r.consumed)

/-- ATTENTION brought to its level (R160). -/
def State.refreshAttention (s : State) : State := { s with pins := { s.pins with attention := s.rep.attention } }

/-- A pulse is high at an elapsed time at or after its rise and before its fall (R133). -/
def RejectPulse.high (p : RejectPulse) (now : Nat) : Bool := decide (p.rise ≤ now) && decide (now < p.fall)

/-- The level REJECT should have: some scheduled pulse is high (R133). -/
def State.rejectLevel (s : State) : Bool := s.trk.schedule.any (·.high s.clk.elapsed)

/-- REJECT brought to its level (R133). -/
def State.refreshReject (s : State) : State := { s with pins := { s.pins with reject := s.rejectLevel } }

/-- The level of CODE: the bit of the frame being sent whose microsecond it is, low between frames and while
POWER-GOOD is low (R66, R68). -/
def State.codeLevel (s : State) : Bool :=
  match s.clk.codeSending with
  | some (bits, start) => s.pins.powerGood && bits.getLsbD ((s.clk.elapsed - start) / Config.codeBitNs)
  | none               => false

/-- `x / d` rounded to the nearest integer, halves away from zero (R61). -/
def roundDiv (x : Int) (d : Nat) : Int :=
  x.sign * Int.ofNat ((2 * x.natAbs + d) / (2 * d))

/-- The increment for a rate in ppb: the nominal increment less the rate's rounded share of it (R61). -/
def incrementOf (rate : Int) : Nat :=
  (Int.ofNat Config.nominalIncrement - roundDiv (Int.ofNat Config.nominalIncrement * rate) 1000000000).toNat

/-- `v` limited to the range from `-lim` to `lim` (R87). -/
def clampTo (lim : Nat) (v : Int) : Int := max (-(lim : Int)) (min (lim : Int) v)

/-- A difference held as a signed 64-bit count, values beyond its range held at its ends (R80). -/
def clampOffset (v : Int) : Int := max (-9223372036854775808) (min 9223372036854775807 v)

/-- The smallest multiple of `p` greater than `t` (R70). -/
def multipleAfter (p t : Nat) : Nat := (t / p + 1) * p

end Sys2Proof.Machine
end

