-- ==== Sys2Proof/Machine/Operands.lean ====
section
/-! DEFINITION. Reading a link request: its span, its malformed test, its bytes and words, the watched words it
covers, the regions of the control area, and stamping (R1, R6, R10, R18, R23, R45, R55). -/

namespace Sys2Proof.Machine
open Sys2Proof

/-! ## Span (R1) -/

/-- The first byte of a request's span. -/
def spanFirst (r : LinkRequest) : Nat := r.addr.toNat

/-- The length of a request's span in bytes. -/
def spanLen (r : LinkRequest) : Nat := 8 * r.beats.val

/-- The last byte of a request's span (of a request with a beat). -/
def spanLast (r : LinkRequest) : Nat := spanFirst r + spanLen r - 1

/-- The addresses of a request's span, rising. -/
def spanBytes (r : LinkRequest) : List Nat := (List.range (spanLen r)).map (spanFirst r + ·)

/-- Whether a span (of a request with a beat) has a byte in the range from `lo` up to, not including, `hi`. -/
def touches (r : LinkRequest) (lo hi : Nat) : Bool :=
  decide (spanFirst r < hi) && decide (lo ≤ spanLast r) && decide (lo < hi)

/-- The data byte for the span's byte `i`. -/
def dataAt (data : List Byte) (i : Nat) : Byte := data.getD i 0

/-- Whether the span's byte `i` is enabled. -/
def enabledAt (enables : List Bool) (i : Nat) : Bool := enables.getD i false

/-- R6: beat count 0 or above 16, a span crossing a 4 KiB boundary, or a write with no byte enabled. -/
def malformed (r : LinkRequest) : Bool :=
  decide (r.beats.val = 0) || decide (16 < r.beats.val) || decide (spanFirst r / 4096 ≠ spanLast r / 4096)
    || (decide (r.dir = .write) && !((List.range (spanLen r)).any (enabledAt r.enables)))

/-- The data beats of a refused response: all-zero bytes for a read of 1 to 16 beats, none otherwise (R7). -/
def refusedData (r : LinkRequest) : List Byte :=
  if r.dir = .read ∧ r.beats.val ≤ 16 then zeroBytes (spanLen r) else []

/-! ## Sets of tags (10 section 10.2: bit n stands for member n) -/

/-- All tags. -/
def allTags : List Tag := [0, 1, 2, 3, 4, 5, 6, 7]

/-- Membership of a tag in a set of tags. -/
def inSet (set : Byte) (t : Tag) : Bool := set.getLsbD t.val

/-- The members of a set of tags, rising. -/
def tagsOf (set : Byte) : List Tag := allTags.filter (inSet set)

/-! ## The control area (R18, R23, Table 2-3) -/

/-- The size of the control area: 64 KiB. -/
def areaSize : Nat := 65536

/-- Offsets a tag 0 read may touch (Table 2-3). -/
def readableOffset (o : Nat) : Bool :=
  decide (o < 0x38) || (decide (0x100 ≤ o) && decide (o < 0x130)) || (decide (0x1000 ≤ o) && decide (o < 0x3100))
    || (decide (0x4000 ≤ o) && decide (o < 0x8000))

/-- Offsets a tag 0 write may touch (Table 2-3). -/
def writableOffset (o : Nat) : Bool :=
  (decide (0x8 ≤ o) && decide (o < 0x10)) || (decide (0x20 ≤ o) && decide (o < 0x28))
    || (decide (0x30 ≤ o) && decide (o < 0x38)) || (decide (0x100 ≤ o) && decide (o < 0x130))
    || (decide (0x1000 ≤ o) && decide (o < 0x2000))

/-- The words the part watches (R10), by their owner. -/
inductive Watched
  | tail
  | noticeConsumed
  | decisionConsumed
  | publish (robot : RobotIdx)
  deriving DecidableEq, Repr

/-- The watched words with their offsets, in ascending order (R10, Table 10-1). -/
def watchedWords : List (Watched × Nat) :=
  [(.tail, 0x8), (.noticeConsumed, 0x20), (.decisionConsumed, 0x30), (.publish 0, 0x100), (.publish 1, 0x108),
   (.publish 2, 0x110), (.publish 3, 0x118), (.publish 4, 0x120), (.publish 5, 0x128)]

/-- Whether the span of a request starting at `first` with these enables covers the 8 bytes at `addr`, all of them
enabled (R10, R45). -/
def coversWord (first len : Nat) (enables : List Bool) (addr : Nat) : Bool :=
  decide (first ≤ addr) && decide (addr + 8 ≤ first + len)
    && (List.range 8).all fun i => enabledAt enables (addr - first + i)

/-- The value of the 8 bytes at `addr`, of a span starting at `first` (R10, R47). -/
def wordAt (first : Nat) (data : List Byte) (addr : Nat) : Word :=
  BitVec.ofNat 64 (leNat ((List.range 8).map fun i => dataAt data (addr - first + i)))

/-- The observations of a tag 0 write to a control area at `area`, in ascending address order (R10). -/
def observations (area : Nat) (r : LinkRequest) : List (Watched × Word) :=
  (watchedWords.filter fun w => coversWord (spanFirst r) (spanLen r) r.enables (area + w.2)).map
    fun w => (w.1, wordAt (spanFirst r) r.data (area + w.2))

/-- The sequence of a publish word (Table 10-5, bytes 0 and 1). -/
def publishSeq (v : Word) : BitVec 16 := v.extractLsb' 0 16

/-- The confirm flag of a publish word (Table 10-5, bit 0 of byte 2). -/
def publishConfirm (v : Word) : Bool := v.getLsbD 16

/-! ## Stamping (R55, R56) -/

/-- Where the stamp word lies in each record slot (R55). -/
def StampAt.offset : StampAt → Nat
  | .at8  => 8
  | .at16 => 16

/-- Whether byte `o` of a window (counted from its base) is one of a stamp word that lies wholly within the bytes
`o0` to `o0 + len - 1` (R55). -/
def inStampWord (at_ : StampAt) (o0 len o : Nat) : Bool :=
  let word := o / 32 * 32 + at_.offset
  decide (word ≤ o) && decide (o < word + 8) && decide (o0 ≤ word) && decide (word + 8 ≤ o0 + len)

/-- Write data with every wholly covered stamp word replaced by machine time (R55). -/
def stampData (at_ : StampAt) (o0 len time : Nat) (data : List Byte) : List Byte :=
  (List.range len).map fun i =>
    let o := o0 + i
    if inStampWord at_ o0 len o then byteAt (leBytes 8 time) (o - (o / 32 * 32 + at_.offset)) else dataAt data i

/-- Byte enables of a stamped write: every byte of a stamped word is enabled (R56). -/
def stampEnables (at_ : StampAt) (o0 len : Nat) (enables : List Bool) : List Bool :=
  (List.range len).map fun i => inStampWord at_ o0 len (o0 + i) || enabledAt enables i

/-! ## The words of an assembly step (R45) -/

/-- The numbers, counted from the window's base, of the 8-byte words that bytes `o0` to `o0 + len - 1` touch, rising. -/
def touchedWords (o0 len : Nat) : List Nat :=
  (List.range ((o0 + len - 1) / 8 + 1 - o0 / 8)).map (o0 / 8 + ·)

end Sys2Proof.Machine
end

