-- ==== Sys2Proof/Machine/Ops.lean ====
section
/-! DEFINITION. The operations the meanings share: reading and writing the parts of State, responses, the own queue
(R13), notices (R158), faults (R155), completions (R164) and replies (R57). -/

namespace Sys2Proof.Machine
open Sys2Proof

/-! ## Reading and writing the parts of State -/

/-- The base of the control area (R18). -/
def State.areaBase (s : State) : Nat := areaBaseOf s.pins.strap

/-- A reading of machine time: the whole-nanosecond count (R62). -/
def State.time (s : State) : Nat := s.clk.ns.toNat

/-- All window indices, rising. -/
def allWindows : List WinIdx :=
  [0, 1, 2, 3, 4, 5, 6, 7, 8, 9, 10, 11, 12, 13, 14, 15, 16, 17, 18, 19, 20, 21, 22, 23, 24, 25, 26, 27, 28, 29, 30, 31]

/-- All robot numbers, rising. -/
def allRobots : List RobotIdx := [0, 1, 2, 3, 4, 5]

/-- The window entry at an index (R19). -/
def State.entry (s : State) (i : WinIdx) : WinState := s.win.entries[i]

/-- The state with another window entry at an index. -/
def State.setEntry (s : State) (i : WinIdx) (e : WinState) : State :=
  { s with win := { s.win with entries := s.win.entries.set i.val e i.isLt } }

/-- The window at an index if its entry is LOADED (R19). -/
def State.loaded? (s : State) (i : WinIdx) : Option Window :=
  match s.entry i with
  | .loaded w => some w
  | _         => none

/-- The assembly slot of a window index (R43). -/
def State.slot? (s : State) (i : WinIdx) : Option Slot := s.feeds[i]

/-- The state with another assembly slot at a window index. -/
def State.setSlot (s : State) (i : WinIdx) (a : Option Slot) : State :=
  { s with feeds := s.feeds.set i.val a i.isLt }

/-- The robot record if the robot is bound (R93). -/
def State.bound? (s : State) (r : RobotIdx) : Option Bound := s.robots[r]

/-- The state with another robot record. -/
def State.setRobot (s : State) (r : RobotIdx) (b : Option Bound) : State :=
  { s with robots := s.robots.set r.val b r.isLt }

/-- A change of a robot's record, if it is bound. -/
def State.modifyRobot (s : State) (r : RobotIdx) (f : Bound → Bound) : State :=
  match s.bound? r with
  | some b => s.setRobot r (some (f b))
  | none   => s

/-- The half that is not the given one (R30). -/
def Half.other : Half → Half
  | .a => .b
  | .b => .a

/-- A bank's window base, size and the address of each half. -/
structure Bank where
  size  : Nat
  halfA : Addr
  halfB : Addr
  deriving DecidableEq, Repr

/-- The address of a half. -/
def Bank.half (b : Bank) : Half → Nat
  | .a => b.halfA.toNat
  | .b => b.halfB.toNat

/-- The bank behind a window index, if the entry is a LOADED BANKED window. -/
def State.bank? (s : State) (i : WinIdx) : Option Bank :=
  match s.loaded? i with
  | some w =>
    match w.role with
    | .banked _ _ _ a b => some { size := w.size.toNat, halfA := a, halfB := b }
    | _                 => none
  | none   => none

/-- The authority of the window at an index, if it is LOADED and has one (R28). -/
def State.authority? (s : State) (i : WinIdx) : Option Authority :=
  match s.loaded? i with
  | some w =>
    match w.role with
    | .guarded _ a      => some a
    | .banked _ a _ _ _ => some a
    | _                 => none
  | none   => none

/-- A role with another authority; a role without one is unchanged (R29). -/
def Role.withAuthority (a : Authority) : Role → Role
  | .guarded e _      => .guarded e a
  | .banked e _ r x y => .banked e a r x y
  | r                 => r

/-- The change of authority the service unit asks for (R29). -/
def State.setAuthority (s : State) (i : WinIdx) (a : Authority) : State :=
  match s.entry i with
  | .loaded w => s.setEntry i (.loaded { w with role := w.role.withAuthority a })
  | _         => s

/-- The change of authority of several windows, in order (R145, R148, R149). -/
def State.setAuthorities (a : Authority) : List WinIdx → State → State
  | [], s      => s
  | i :: is, s => State.setAuthorities a is (s.setAuthority i a)

/-- A robot with its record, if it is bound to the window as its bank window. -/
def State.bankRobotAt (s : State) (i : WinIdx) (r : RobotIdx) : Option (RobotIdx × Bound) :=
  match s.bound? r with
  | some b => if b.bank = i then some (r, b) else none
  | none   => none

/-- The robot bound to a window as its bank window, with its record (R30, R95). -/
def State.bankRobot? (s : State) (i : WinIdx) : Option (RobotIdx × Bound) := allRobots.findSome? (s.bankRobotAt i)

/-! ## The in-flight set and its responses (R4, R8, R9) -/

/-- How many transactions of a tag are in the in-flight set (R4). -/
def State.tagCount (s : State) (t : Tag) : Nat := (s.path.inflight.filter fun e => e.tag = t).length

/-- The response of an in-flight entry (R7, R9). -/
def Entry.response (e : Entry) : Response where
  tag := e.tag
  id := e.id
  kind := if e.disposition = .refused then .refused else .done
  data := e.data

/-- The entries of a tag that are answered, up to its first unanswered one, leave the set with their responses, in
acceptance order; entries of other tags stay (R9). -/
def giveReady (t : Tag) : List Entry → List Entry × List Response
  | []      => ([], [])
  | e :: es =>
    if e.tag = t then
      if e.answered then
        let rest := giveReady t es
        (rest.1, e.response :: rest.2)
      else (e :: es, [])
    else
      let rest := giveReady t es
      (e :: rest.1, rest.2)

/-- The responses of a tag that are ready are given (R9). -/
def giveResponses (t : Tag) (p : Path) : Path :=
  let rest := giveReady t p.inflight
  { p with inflight := rest.1, responses := p.responses ++ rest.2 }

/-! ## The own queue (R13, R15) -/

/-- A unit's transaction joins the own queue at once: a place is free and no unit waits for one (R13). -/
def Path.hasPlace (p : Path) : Bool := decide (p.own.length < Config.ownPlaces) && p.waiting.isEmpty

/-- The passing writes an own read generated now waits for: those still in the passing stream (R15). -/
def Path.writesAhead (p : Path) : List Nat := (p.passing.filter fun t => t.dir = .write).map (·.id)

/-- A new own transaction: a write of `body`, or a read of `len` bytes (R13). -/
def Path.newTxn (p : Path) (kind : OwnKind) (addr len : Nat) (body : Option (List Byte)) : OwnTxn where
  id := p.nextId
  kind := kind
  addr := addr
  len := len
  body := body
  after := if body.isNone then p.writesAhead else []
  presented := false

/-- A transaction joins the own queue, or waits for a place behind the units that wait already (R13). -/
def Path.enqueue (p : Path) (t : OwnTxn) : Path :=
  if p.hasPlace then { p with own := p.own ++ [t], nextId := p.nextId + 1 }
  else { p with waiting := p.waiting ++ [.txn t], nextId := p.nextId + 1 }

/-- A unit generates an own write of `body` at `addr` (R13). -/
def ownWrite (kind : OwnKind) (addr : Nat) (body : List Byte) (s : State) : State :=
  { s with path := s.path.enqueue (s.path.newTxn kind addr body.length (some body)) }

/-- A unit generates an own read of `len` bytes at `addr` (R13, R15). -/
def ownRead (kind : OwnKind) (addr len : Nat) (s : State) : State :=
  { s with path := s.path.enqueue (s.path.newTxn kind addr len none) }

/-- The state with the model's counter of free values advanced (log 12). -/
def State.bumpOpen (s : State) : State := { s with openCount := s.openCount + 1 }

/-! ## Notices (R158) -/

/-- The notice ring is full: the producer count less the consumed count is 128 (R158). -/
def Reporting.full (r : Reporting) : Bool := decide (Config.noticeSlots ≤ r.producer - r.consumed)

/-- What a full notice ring makes of a notice: the dropped flag, the count, the time of the first drop (R158). -/
def dropNotice (time : Nat) (s : State) : State :=
  s.noteStatus { s with rep :=
    if s.rep.dropped then { s.rep with droppedCount := min 65535 (s.rep.droppedCount + 1) }
    else { s.rep with dropped := true, droppedCount := 1, firstDrop := time } }

/-- A notice takes the slot of the producer count: the notice write, then the producer word write (R158). -/
def writeNotice (time : Nat) (n : Notice) (s : State) : State :=
  let p := s.rep.producer
  let s := ownWrite .notice (s.areaBase + 0x2000 + 32 * (p % Config.noticeSlots)) (n.bytes time) s
  ownWrite (.noticeProducer (p + 1)) (s.areaBase + 0x18) (leBytes 8 (p + 1))
    { s with rep := { s.rep with producer := p + 1 } }

/-- Reporting acts on a notice whose event's machine time is `time`: discarded, dropped and counted, or written (R158). -/
def postNoticeAt (time : Nat) (n : Notice) (s : State) : State :=
  if s.rep.enabled then
    if s.rep.full then dropNotice time s else writeNotice time n s
  else s

/-- A notice with the machine time of this moment (R158). -/
def postNotice (n : Notice) (s : State) : State := postNoticeAt s.time n s

/-! ## Faults (R155, R157) -/

/-- The mirror mark of a record is set; a mark already set sets nothing further (R157). -/
def FaultUnit.mark (u : FaultUnit) (n : Fin 8) : FaultUnit :=
  if n ∈ u.marks then u else { u with marks := u.marks ++ [n] }

/-- A held record has the fault's kind, tag and window index; an absent field matches only absence (R155). -/
def FaultRecord.same (r : FaultRecord) (f : FaultInfo) : Bool :=
  decide (r.info.kind = f.kind) && decide (r.info.tag = f.tag) && decide (r.info.window = f.window)

/-- Record `n` if it is held and the fault coalesces into it. -/
def FaultUnit.matchAt (u : FaultUnit) (f : FaultInfo) (n : Fin 8) : Option (Fin 8 × FaultRecord) :=
  match u.records[n] with
  | some r => if r.same f then some (n, r) else none
  | none   => none

/-- The held record a fault coalesces into (R155). -/
def FaultUnit.match? (u : FaultUnit) (f : FaultInfo) : Option (Fin 8 × FaultRecord) :=
  allRecords.findSome? (u.matchAt f)

/-- The lowest-numbered free record (R155). -/
def FaultUnit.free? (u : FaultUnit) : Option (Fin 8) := allRecords.find? fun n => u.records[n].isNone

/-- A fault coalesces into a held record: the count rises, holding at 65,535, and the last stamp is now (R155). -/
def FaultUnit.coalesce (u : FaultUnit) (n : Fin 8) (r : FaultRecord) (time : Nat) : FaultUnit :=
  let r' := { r with repeats := min 65535 (r.repeats + 1), last := time }
  FaultUnit.mark { u with records := u.records.set n.val (some r') n.isLt } n

/-- A fault takes a free record (R155); its FAULT-NEW waits for its mirror write (R157). -/
def FaultUnit.create (u : FaultUnit) (n : Fin 8) (f : FaultInfo) (time : Nat) : FaultUnit :=
  let r : FaultRecord := { info := f, first := time, last := time, repeats := 1 }
  let c : Creation := { record := n, kind := f.kind, tag := f.tag, window := f.window }
  FaultUnit.mark { u with records := u.records.set n.val (some r) n.isLt, created := u.created ++ [c] } n

/-- The fault unit takes a fault (R155). -/
def takeFault (f : FaultInfo) (s : State) : State :=
  match s.flt.match? f with
  | some (n, r) => { s with flt := s.flt.coalesce n r s.time }
  | none =>
    if s.flt.overflow then s
    else
      match s.flt.free? with
      | some n => { s with flt := s.flt.create n f s.time }
      | none =>
        postNotice (.faultOverflow f.kind f.tag f.window)
          (s.noteStatus { s with flt := { s.flt with overflow := true } })

/-! ## Completions (R164, R165) -/

/-- A command of the ring completes: the completion write into its slot, then the head word with the head advanced
by one modulo 64; no command executes any more (R164). -/
def complete (st : Status) (reason : Reason) (s : State) : State :=
  let h := s.cmd.head
  let s := ownWrite .completion (s.areaBase + 0x1000 + 64 * h.val + 48) (completionBytes st reason s.time) s
  ownWrite .headWord (s.areaBase + 0x10) (leBytes 8 (h + 1).val)
    { s with cmd := { s.cmd with head := h + 1, phase := .idle } }

/-- A command completes DONE (R164). -/
def completeDone (s : State) : State := complete .done .none s

/-- A command completes REFUSED with a reason (R164). -/
def completeRefused (reason : Reason) (s : State) : State := complete .refused reason s

/-- What the executing command now waits for (R164). -/
def State.setPhase (s : State) (p : CmdPhase) : State := { s with cmd := { s.cmd with phase := p } }

/-! ## Replies (R57) -/

/-- The window at an index, if it is a LOADED SERVICE feed. -/
def State.serviceFeedAt (s : State) (i : WinIdx) : Option Window :=
  match s.loaded? i with
  | some w =>
    match w.role with
    | .feed .service _ => some w
    | _                => none
  | none   => none

/-- The LOADED SERVICE feed window, if there is one (R57). -/
def State.serviceFeed? (s : State) : Option Window := allWindows.findSome? s.serviceFeedAt

/-- The service unit makes a reply: the reply sequence advances, and the reply slot of a LOADED SERVICE feed is
written whole (R57). -/
def makeReply (kind : ReplyKind) (reason : Reason) (request : BitVec 32) (s : State) : State :=
  let q := s.svc.replySeq + 1
  let s := { s with svc := { s.svc with replySeq := q } }
  match s.serviceFeed? with
  | some w => ownWrite .reply (w.base.toNat + w.size.toNat - 32) (replyBytes kind reason request q s.time) s
  | none   => s

end Sys2Proof.Machine
end

