-- ==== Sys2Proof/Machine/Exchange.lean ====
section
/-! DEFINITION. The robot unit's operations on one bank: the bank word, publish requests, the flip's wait, the
catch-up copy, the release of held writes and the service unit's cancel (R97 to R107, R112). -/

namespace Sys2Proof.Machine
open Sys2Proof

/-! ## The bank word (R97) -/

/-- The low 32 bits of machine time (R97). -/
def State.lowTime (s : State) : BitVec 32 := s.clk.ns.setWidth 32

/-- The robot unit writes a bank word at offset 0 of a half of a bank (R97). -/
def writeBankWord (kind : OwnKind) (bank : WinIdx) (half : Half) (body : List Byte) (s : State) : State :=
  match s.bank? bank with
  | some k => ownWrite kind (k.half half) body s
  | none   => s

/-! ## Publish requests (R98 to R100) -/

/-- The origin of a request holds the bank's authority (R99): production while the authority is PRODUCTION and the
grant hold is no, service while the authority is SERVICE. -/
def holdsAuthority (s : State) (b : Bound) : Origin → Bool
  | .production => decide (s.authority? b.bank = some .production) && !b.grantHold
  | .service    => decide (s.authority? b.bank = some .service)

/-- The sequence equals the published sequence or, in FLIPPING, the sequence being flipped (R99). -/
def sameSequence (b : Bound) (q : BitVec 16) : Bool :=
  decide (q = b.publishedSeq)
    || (decide (b.publish = .flipping) && decide (b.pendingReq.map (·.seq) = some q))

/-- The first reason of R99 that holds, if the request is refused. -/
def publishRefusal (s : State) (r : RobotIdx) (q : PublishRequest) : Option Reason :=
  match s.bound? r with
  | none   => some .notBound
  | some b =>
    if b.unbinding then some .notBound
    else if !holdsAuthority s b q.origin then some .authority
    else if b.review && !q.confirm then some .review
    else if sameSequence b q.seq then some .sameSequence
    else none

/-- An accepted request is placed by the publish state (R100, Table 6-2). -/
def Bound.place (b : Bound) (q : PublishRequest) : Bound :=
  match b.publish with
  | .idle     => { b with pendingReq := some q, publish := .pending }
  | .pending  => { b with pendingReq := some q }
  | .flipping => { b with nextReq := some q }
  | .copying  => { b with nextReq := some q }

/-- A production publish request: taken, or refused with a PUBLISH-REFUSED notice (R99, R100). -/
def productionPublish (r : RobotIdx) (seq : BitVec 16) (confirm : Bool) (s : State) : State :=
  let q : PublishRequest := { seq := seq, confirm := confirm, origin := .production }
  match publishRefusal s r q with
  | some why => postNotice (.publishRefused r seq confirm why) s
  | none     => s.modifyRobot r (·.place q)

/-! ## The flip (R101, R102) -/

/-- An in-flight entry a flip waits for (R102): a reader read of the published half, or a forwarded write of the
working half. -/
def Entry.delaysFlip (e : Entry) (b : Bound) : Bool :=
  (e.readerRead && decide (e.checked = .window b.bank) && decide (e.half = some b.published))
    || (decide (e.dir = .write) && decide (e.checked = .window b.bank) && decide (e.disposition = .forwarded)
        && decide (e.half = some b.published.other))

/-- The flip of a FLIPPING bank can write its bank word: the write has not been made and nothing in flight delays it
(R102). -/
def flipReady (s : State) (r : RobotIdx) : Bool :=
  match s.bound? r with
  | some b => decide (b.publish = .flipping) && b.newFlipTime.isNone && s.path.inflight.all fun e => !e.delaysFlip b
  | none   => false

/-- The flip's bank-word write into the working half: pending sequence, nudge count 0, the review flag, the low 32
bits of machine time (R102). -/
def writeFlip (r : RobotIdx) (s : State) : State :=
  match s.bound? r with
  | some b =>
    let seq := (b.pendingReq.map (·.seq)).getD 0
    writeBankWord (.bankFlip r) b.bank b.published.other (bankWordBytes seq 0 b.review s.lowTime)
      (s.setRobot r (some { b with newFlipTime := some s.lowTime }))
  | none => s

/-- A boundary that finds the bank PENDING makes it FLIPPING; the bank word is written at once if nothing in flight
delays it (R101, R102). -/
def startFlip (r : RobotIdx) (s : State) : State :=
  match s.bound? r with
  | some b =>
    if b.publish = .pending then
      let s := s.setRobot r (some { b with publish := .flipping, newFlipTime := none })
      if flipReady s r then writeFlip r s else s
    else s
  | none => s

/-! ## The catch-up copy (R104 to R106) -/

/-- The length of the piece at offset `off` of a half at address `half`: up to the next physical address that is a
multiple of 128, and not past the half's end (R104). -/
def copyPieceLen (half size off : Nat) : Nat := min (size - off) (128 - (half + off) % 128)

/-- The own read of the piece at `off`, from the published half; nothing is left to read at the half's end (R104). -/
def copyReadAt (r : RobotIdx) (off : Nat) (s : State) : State :=
  match s.bound? r with
  | some b =>
    match s.bank? b.bank with
    | some k =>
      let half := k.half b.published
      if off < k.size then
        let len := copyPieceLen half k.size off
        ownRead (.copyRead r off len) (half + off) len s
      else s
    | none => s
  | none => s

/-- The catch-up copy begins with the piece at offset 8 (R104). -/
def startCopy (r : RobotIdx) (s : State) : State :=
  copyReadAt r 8 (s.modifyRobot r fun b => { b with publish := .copying })

/-- A piece's data has been read: it is written to the same offset of the working half, and the read of the next piece
follows once the write has joined the own queue (R104). -/
def writeCopy (r : RobotIdx) (off len : Nat) (data : List Byte) (s : State) : State :=
  match s.bound? r with
  | some b =>
    match s.bank? b.bank with
    | some k =>
      let joins := s.path.hasPlace
      let s := ownWrite (.copyWrite r off len) (k.half b.published.other + off) (fitBytes len data) s
      if joins then copyReadAt r (off + len) s else s
    | none => s
  | none => s

/-- The write of a piece is the copy's last: it reaches the half's end (R104). -/
def lastPiece (s : State) (r : RobotIdx) (off len : Nat) : Bool :=
  match s.bound? r with
  | some b =>
    match s.bank? b.bank with
    | some k => decide (k.size ≤ off + len)
    | none   => false
  | none => false

/-- The held write as it joins the passing stream (R106). -/
def HeldWrite.passing (h : HeldWrite) : PassingTxn where
  id := h.id
  dir := .write
  addr := h.addr
  len := h.data.length
  data := h.data
  enables := h.enables

/-- An in-flight entry released from the hold queue becomes FORWARDED (R106, Table 1-4). -/
def Entry.release (ids : List Nat) (e : Entry) : Entry :=
  if e.id ∈ ids then { e with disposition := .forwarded } else e

/-- A robot's held writes leave the hold queue, become FORWARDED and join the passing stream in their acceptance
order (R106). -/
def releaseHeld (r : RobotIdx) (s : State) : State :=
  let mine := s.hold.filter fun h => h.robot = r
  let path := { s.path with
    inflight := s.path.inflight.map (Entry.release (mine.map (·.id))),
    passing := s.path.passing ++ mine.map HeldWrite.passing }
  { s with path := path, hold := s.hold.filter fun h => h.robot ≠ r }

/-- The bank leaves COPYING: PENDING with the next sequence if one is present, IDLE otherwise (R106). A copy runs in
COPYING alone; in another state, where no copy can end, the record stays as it is (log 2). -/
def Bound.afterCopy (b : Bound) : Bound :=
  if b.publish = .copying then
    match b.nextReq with
    | some q => { b with publish := .pending, pendingReq := some q, nextReq := none }
    | none   => { b with publish := .idle }
  else b

/-- The catch-up copy ends (R106). -/
def endCopy (r : RobotIdx) (s : State) : State := (releaseHeld r s).modifyRobot r Bound.afterCopy

/-! ## The swap (R103) -/

/-- The halves swap (R103): the half that received the bank word is the published half. -/
def Bound.swap (b : Bound) : Bound :=
  let q := b.pendingReq
  let b' := { b with
    published := b.published.other,
    publishedSeq := (q.map (·.seq)).getD b.publishedSeq,
    confirmPending := match q with
      | some p => p.confirm && decide (p.origin = .production)
      | none   => false,
    pendingReq := none,
    nudgesUsed := 0,
    flipTime := b.newFlipTime.getD b.flipTime,
    newFlipTime := none }
  if b.echo = .stale then b' else { b' with echo := .awaiting, toDeadline := b.echoLimit }

/-- Memory has answered the flip's bank-word write: the halves swap and the copy begins (R103). -/
def swapBank (r : RobotIdx) (s : State) : State := startCopy r (s.modifyRobot r Bound.swap)

/-! ## The service unit's requests (R111, R112) -/

/-- The cancel of a robot's waiting publishes (R112): the pending sequence goes unless it is being flipped, the next
sequence goes, PENDING becomes IDLE, the grant hold becomes yes. -/
def Bound.cancel (b : Bound) : Bound :=
  match b.publish with
  | .flipping => { b with nextReq := none, grantHold := true }
  | .pending  => { b with pendingReq := none, nextReq := none, publish := .idle, grantHold := true }
  | _         => { b with pendingReq := none, nextReq := none, grantHold := true }

/-- The sequences a cancel discards: pending, next (R112). -/
def Bound.cancelled (b : Bound) : Option (BitVec 16) × Option (BitVec 16) :=
  (if b.publish = .flipping then none else b.pendingReq.map (·.seq), b.nextReq.map (·.seq))

/-- The robot unit cancels one robot's publishes; PUBLISH-CANCELLED is posted if anything was discarded (R112). -/
def cancelPublishes (r : RobotIdx) (s : State) : State :=
  match s.bound? r with
  | some b =>
    let gone := b.cancelled
    let s := s.setRobot r (some b.cancel)
    if gone.1.isSome || gone.2.isSome then postNotice (.publishCancelled r gone.1 gone.2) s else s
  | none => s

/-- The cancel of each named robot (R112), in the order of the claim's BANKED windows, which no rule gives (log 39). -/
def cancelAll : List RobotIdx → State → State
  | [], s      => s
  | r :: rs, s => cancelAll rs (cancelPublishes r s)

/-- At a grant: the review flag is set, confirm-pending becomes no, the grant hold becomes no (R111, R112). -/
def Bound.grant (b : Bound) : Bound := { b with review := true, confirmPending := false, grantHold := false }

/-- The consent is abandoned: the grant hold becomes no (R112). -/
def Bound.abandon (b : Bound) : Bound := { b with grantHold := false }

/-- A change of several robots' records. -/
def State.modifyRobots (f : Bound → Bound) : List RobotIdx → State → State
  | [], s      => s
  | r :: rs, s => State.modifyRobots f rs (s.modifyRobot r f)

/-- Every robot of a list is IDLE (R144, R148). -/
def State.allIdle (s : State) (rs : List RobotIdx) : Bool :=
  rs.all fun r =>
    match s.bound? r with
    | some b => decide (b.publish = .idle)
    | none   => true

end Sys2Proof.Machine
end

