-- ==== Sys2Proof/Machine/Service.lean ====
section
/-! DEFINITION. The service unit: the checks of a claim, the end of a consent wait, the grant, the return, and the
commands and events of chapter 8 (R137 to R152). -/

namespace Sys2Proof.Machine
open Sys2Proof

/-! ## The session's setters -/

/-- A change of the session record; a change of the session state schedules a status word write (R161). -/
def State.setSvc (s : State) (v : Session) : State := s.noteStatus { s with svc := v }

/-- The claim is dropped: no claim, no consent wait, the consent timer stopped, and the session in `next` (R141, R143,
R144). -/
def Session.dropClaim (v : Session) (next : SessionState) : Session :=
  { v with state := next, claim := none, named := [], consentWaiting := false, consentTimer := none }

/-- Seconds and milliseconds as nanoseconds of elapsed time. -/
def secToNs (n : Nat) : Nat := n * 1000000000
def msToNs (n : Nat) : Nat := n * 1000000

/-- The claim sequence of the held claim, as the request sequence of its replies (R137). -/
def Session.claimSeq (v : Session) : BitVec 32 := (v.claim.map (·.seq)).getD 0

/-- The windows the held claim names, in record order. -/
def Session.windows (v : Session) : List WinIdx := (v.claim.map (·.windows)).getD []

/-! ## The checks of a claim (R139) -/

/-- A window may be named: LOADED, GUARDED or BANKED, service-eligible (R139, WINDOW). -/
def State.claimable (s : State) (i : WinIdx) : Bool :=
  match s.loaded? i with
  | some w =>
    match w.role with
    | .guarded e _      => e
    | .banked e _ _ _ _ => e
    | _                 => false
  | none => false

/-- The entry is a LOADED BANKED window. -/
def State.isBanked (s : State) (i : WinIdx) : Bool := (s.bank? i).isSome

/-- A named BANKED window's robot is bound to it, not unbinding, and in HOLD (R139, ROBOT-MODE). -/
def State.robotHolds (s : State) (i : WinIdx) : Bool :=
  match s.bankRobot? i with
  | some (_, b) => !b.unbinding && decide (b.mode = .hold)
  | none        => false

/-- The first check of R139 that fails for these windows. -/
def claimRefusal (s : State) (ws : List WinIdx) : Option Reason :=
  if !(ws.all s.claimable) || !decide ws.Nodup then some .window
  else if !((ws.filter s.isBanked).all s.robotHolds) then some .robotMode
  else if ws.any s.isBanked && decide (s.trk.line = .running) then some .line
  else none

/-- The robots bound to the named BANKED windows (R139). -/
def State.robotsOf (s : State) (ws : List WinIdx) : List RobotIdx :=
  (ws.filter s.isBanked).filterMap fun i => (s.bankRobot? i).map (·.1)

/-! ## Ending a consent wait (R144) -/

/-- The waiting SERVICE CONSENT completes (R144, R145). -/
def completeConsent (st : Status) (reason : Reason) (s : State) : State :=
  if s.cmd.phase = .executing .consent then complete st reason s else s

/-- A claim ends without a grant: the reply is made, the claim dropped, the session goes to `next`; a consent wait ends
with it, the grant holds fall and the SERVICE CONSENT completes REFUSED with `reason` (R138, R141, R144). R144 gives no
order between the reply write and the completion: the reply comes first (log 45). -/
def withdrawClaim (kind : ReplyKind) (replyReason : Reason) (next : SessionState) (reason : Reason) (s : State) : State :=
  let waiting := s.svc.consentWaiting
  let named := s.svc.named
  let s := makeReply kind replyReason s.svc.claimSeq s
  let s := s.setSvc (s.svc.dropClaim next)
  if waiting then completeConsent .refused reason (State.modifyRobots Bound.abandon named s) else s

/-! ## Grant and return (R145, R147 to R149) -/

/-- The grant's condition: a consent waits and every named robot is IDLE (R143, R144). -/
def grantReady (s : State) : Bool :=
  decide (s.svc.state = .claimed) && s.svc.consentWaiting && s.allIdle s.svc.named

/-- The grant, in the order of R145. -/
def grantSession (s : State) : State :=
  match s.svc.claim with
  | some c =>
    let s := s.setSvc { s.svc with consentTimer := none }
    let s := State.setAuthorities .service c.windows s
    let s := State.modifyRobots Bound.grant s.svc.named s
    let s := s.setSvc { s.svc with
      state := .granted, consentWaiting := false, keepPhase := none,
      keepTimer := some (s.clk.elapsed + msToNs c.keepMs) }
    let s := makeReply .granted .none c.seq s
    let s := postNotice (.serviceGranted c) s
    completeConsent .done .none s
  | none => s

/-- A return begins: the cause is recorded, the session is RETURNING, the keep-alive timer stops, the named windows are
FROZEN (R148). -/
def beginReturn (cause : Cause) (s : State) : State :=
  let ws := s.svc.windows
  State.setAuthorities .frozen ws (s.setSvc { s.svc with state := .returning, cause := some cause, keepTimer := none })

/-- A return's two conditions: no tag 4 write checked against a named window is in flight, and every named robot is
IDLE (R148). -/
def returnReady (s : State) : Bool :=
  decide (s.svc.state = .returning)
    && (s.path.inflight.all fun e =>
         !(decide (e.tag = 4) && decide (e.dir = .write)
           && s.svc.windows.any fun i => decide (e.checked = .window i)))
    && s.allIdle s.svc.named

/-- The session's next state by the cause of the return (R149). -/
def nextByKey (key : Bool) : SessionState := if key then .keyed else .closed

/-- The return ends, in the order of R149. -/
def endReturn (s : State) : State :=
  match s.svc.claim, s.svc.cause with
  | some c, some cause =>
    let s := State.setAuthorities .production c.windows s
    let s := makeReply .returned cause.reason c.seq s
    let s := postNotice (.serviceReturned c.seq cause) s
    let v := { s.svc with claim := none, named := [], keepPhase := none }
    match cause with
    | .released => s.setSvc { v with state := nextByKey s.pins.key }
    | .key      => s.setSvc { v with state := nextByKey s.pins.key }
    | _         => s.setSvc { v with state := .lockout, lockoutTimer := some (s.clk.elapsed + secToNs s.svc.lockoutS) }
  | _, _ => s

/-! ## Events from other units (R110, R122, R144, R147) -/

/-- The robot unit hands over a change of mode (R110): a named robot leaving HOLD begins a return in GRANTED and ends a
consent wait in CLAIMED (R144, R147). -/
def serviceModeChange (r : RobotIdx) (m : Mode) (s : State) : State :=
  if r ∈ s.svc.named ∧ m ≠ .hold then
    if s.svc.state = .granted then beginReturn .robot s
    else if s.svc.state = .claimed ∧ s.svc.consentWaiting = true then
      withdrawClaim .refused .robotMode .keyed .robotMode s
    else s
  else s

/-- The tracking unit hands over an accepted pocket pulse (R122): with a named BANKED window it begins a return in
GRANTED and ends a consent wait in CLAIMED (R144, R147). -/
def servicePulse (s : State) : State :=
  if s.svc.windows.any s.isBanked then
    if s.svc.state = .granted then beginReturn .line s
    else if s.svc.state = .claimed ∧ s.svc.consentWaiting = true then withdrawClaim .refused .line .keyed .line s
    else s
  else s

/-! ## Records of the SERVICE feed (R139 to R142, R146) -/

/-- SERVICE CLAIM (R139, R140). -/
def serviceClaimAct (c : Claim) (s : State) : State :=
  match s.svc.state with
  | .keyed =>
    match claimRefusal s c.windows with
    | some why => makeReply .refused why c.seq s
    | none =>
      let s := s.setSvc { s.svc with
        state := .claimed, claim := some c, named := s.robotsOf c.windows, consentWaiting := false,
        keepPhase := none, consentTimer := some (s.clk.elapsed + secToNs s.svc.consentS) }
      postNotice (.serviceClaim c) s
  | .closed  => makeReply .refused .state c.seq s
  | .lockout => makeReply .refused .lockout c.seq s
  | _        => makeReply .refused .busy c.seq s

/-- SERVICE KEEP (R146): in GRANTED a keep of a fresh phase restarts the keep-alive timer; in other states it is
ignored (R141). -/
def serviceKeepAct (phase : Bool) (s : State) : State :=
  if s.svc.state = .granted ∧ s.svc.keepPhase ≠ some phase then
    match s.svc.claim with
    | some c => s.setSvc { s.svc with keepPhase := some phase, keepTimer := some (s.clk.elapsed + msToNs c.keepMs) }
    | none   => s
  else s

/-- SERVICE RELEASE (R141, R147). -/
def serviceReleaseAct (s : State) : State :=
  match s.svc.state with
  | .claimed => withdrawClaim .withdrawn .none .keyed .state s
  | .granted => beginReturn .released s
  | _        => s

/-- SERVICE PUBLISH (R142): a publish request of origin SERVICE; a refusal is replied with the record's sequence. -/
def servicePublishAct (recSeq : BitVec 32) (p : ServicePublish) (s : State) : State :=
  let q : PublishRequest := { seq := p.seq, confirm := p.confirm, origin := .service }
  match publishRefusal s p.robot q with
  | some why => makeReply .refused why recSeq s
  | none     => s.modifyRobot p.robot (·.place q)

/-! ## KEY (R138) -/

/-- KEY turns off (Table 8-3). -/
def keyOffAct (s : State) : State :=
  match s.svc.state with
  | .keyed   => s.setSvc { s.svc with state := .closed }
  | .claimed => withdrawClaim .withdrawn .none .closed .state s
  | .granted => beginReturn .key s
  | _        => s

/-- KEY turns on (R138). -/
def keyOnAct (s : State) : State :=
  match s.svc.state with
  | .closed => s.setSvc { s.svc with state := .keyed }
  | _       => s

/-! ## Timers (R144, R147, R151) -/

/-- A timer has reached its expiry (R74). -/
def expired (timer : Option Nat) (now : Nat) : Bool :=
  match timer with
  | some t => decide (t ≤ now)
  | none   => false

/-- The consent timer's expiry is due: the session is CLAIMED (R144). -/
def consentDue (s : State) : Bool :=
  s.running && decide (s.svc.state = .claimed) && expired s.svc.consentTimer s.clk.elapsed

/-- The keep-alive timer's expiry is due: the session is GRANTED (R147). -/
def keepDue (s : State) : Bool :=
  s.running && decide (s.svc.state = .granted) && expired s.svc.keepTimer s.clk.elapsed

/-- The lockout timer's expiry is due: the session is in LOCKOUT (R151). -/
def lockoutDue (s : State) : Bool :=
  s.running && decide (s.svc.state = .lockout) && expired s.svc.lockoutTimer s.clk.elapsed

/-- The lockout ends in KEYED or CLOSED by KEY (R151). -/
def endLockout (s : State) : State :=
  s.setSvc { s.svc with state := nextByKey s.pins.key, lockoutTimer := none }

/-! ## Commands of the ring (R143, R147, R152) -/

/-- SERVICE SETUP (R152). -/
def serviceSetupAct (p : ServiceParams) (s : State) : State :=
  let givenC := p.given.getLsbD 0
  let givenL := p.given.getLsbD 1
  if (givenC && !(decide (1 ≤ p.consent.toNat) && decide (p.consent.toNat ≤ 120)))
      || (givenL && !(decide (1 ≤ p.lockout.toNat) && decide (p.lockout.toNat ≤ 600))) then completeRefused .range s
  else
    completeDone { s with svc := { s.svc with
      consentS := if givenC then p.consent.toNat else s.svc.consentS,
      lockoutS := if givenL then p.lockout.toNat else s.svc.lockoutS } }

/-- SERVICE CONSENT, DENY for the held claim (R143). -/
def denyClaim (s : State) : State :=
  completeDone (withdrawClaim .denied .none .keyed .none s)

/-- SERVICE CONSENT, ACCEPT for the held claim `c` (R143): the checks of R139 again, the cancel of the named robots'
publishes, and the grant at once or a wait. -/
def acceptClaim (c : Claim) (s : State) : State :=
  match claimRefusal s c.windows with
  | some why => completeRefused why (withdrawClaim .refused why .keyed .none s)
  | none =>
    let named := s.robotsOf c.windows
    let s := s.setSvc { s.svc with named := named, consentWaiting := true }
    let s := cancelAll named s
    let s := s.setPhase (.executing .consent)
    if grantReady s then grantSession s else s

/-- SERVICE CONSENT (R143). -/
def serviceConsentAct (decision : Byte) (claim : BitVec 32) (s : State) : State :=
  if decision ≠ 1 ∧ decision ≠ 2 then completeRefused .range s
  else
    match s.svc.state, s.svc.claim with
    | .claimed, some c =>
      if c.seq = claim then
        if decision = 2 then denyClaim s else acceptClaim c s
      else completeRefused .state s
    | _, _ => completeRefused .state s

/-- SERVICE REVOKE (R147). -/
def serviceRevokeAct (s : State) : State :=
  if s.svc.state = .granted then completeDone (beginReturn .revoked s) else completeRefused .state s

end Sys2Proof.Machine
end

