-- ==== Sys2Proof/Machine/Robots.lean ====
section
/-! DEFINITION. The robot unit's events: cycle boundaries with the echo deadline and the mode lapse, ROBOT STATUS,
binding and unbinding (R94 to R96, R101, R108 to R110). -/

namespace Sys2Proof.Machine
open Sys2Proof

/-! ## A cycle boundary at a robot's record (R101, R109, R110) -/

/-- A nudge: the published half's bank word with the nudge count raised, and the deadline renewed (R97, R109). -/
def nudge (r : RobotIdx) (b : Bound) (s : State) : State :=
  let n := b.nudgesUsed + 1
  writeBankWord (.nudge r) b.bank b.published (bankWordBytes b.publishedSeq n b.review b.flipTime)
    (s.setRobot r (some { b with nudgesUsed := n, toDeadline := b.echoLimit }))

/-- The echo becomes STALE and ROBOT-STALE is posted (R109). -/
def makeStale (r : RobotIdx) (b : Bound) (s : State) : State :=
  postNotice (.robotStale r b.publishedSeq b.nudgesUsed)
    (s.setRobot r (some { b with echo := .stale, toDeadline := 0 }))

/-- The echo's deadline count at a boundary (R109): AWAITING counts down, and at 0 nudges and renews, or becomes STALE. -/
def countEcho (r : RobotIdx) (s : State) : State :=
  match s.bound? r with
  | some b =>
    if b.echo = .awaiting then
      if b.toDeadline ≤ 1 then
        if b.nudgesUsed < b.nudgeCount then nudge r b s else makeStale r b s
      else s.setRobot r (some { b with toDeadline := b.toDeadline - 1 })
    else s
  | none => s

/-- The boundaries since the last status rise by 1, holding at 16; the boundary that brings them to 16 makes the mode
UNKNOWN, and a change of mode is handed to the service unit (R110). -/
def countMode (r : RobotIdx) (s : State) : State :=
  match s.bound? r with
  | some b =>
    let n := min 16 (b.sinceStatus + 1)
    if n = 16 ∧ b.mode ≠ .unknown then
      serviceModeChange r .unknown (s.setRobot r (some { b with sinceStatus := n, mode := .unknown }))
    else s.setRobot r (some { b with sinceStatus := n })
  | none => s

/-- A boundary is handed to the robot unit (R73): a PENDING bank begins its flip, then the echo and the mode are counted
(R101, R109, R110; the order among the three is log 14's). -/
def robotBoundary (r : RobotIdx) (s : State) : State := countMode r (countEcho r (startFlip r s))

/-! ## ROBOT STATUS (R108, R110) -/

/-- The echo is examined when the applied sequence equals the published one (R108). -/
def Bound.confirmEcho (b : Bound) : Bound :=
  { b with echo := .confirmed,
           toDeadline := 0,
           review := b.review && !b.confirmPending,
           confirmPending := false }

/-- A ROBOT STATUS sets the mode, the fault code and the boundaries since last status (R108, R110). -/
def Bound.takeStatus (b : Bound) (st : RobotStatus) : Bound :=
  { b with mode := st.mode, faultCode := st.faultCode, sinceStatus := 0 }

/-- A ROBOT STATUS is taken at its dispatch (R108): mode and fault code, the echo, ROBOT-RECOVERED for a STALE echo, and
a change of mode handed to the service unit (R110), in this order, which no rule gives (log 38). -/
def robotStatusAct (st : RobotStatus) (s : State) : State :=
  match s.bound? st.robot with
  | some b =>
    let echoed := decide (st.applied = b.publishedSeq)
    let b' := b.takeStatus st
    let s := s.setRobot st.robot (some (if echoed then b'.confirmEcho else b'))
    let s := if echoed ∧ b.echo = .stale then postNotice (.robotRecovered st.robot b.publishedSeq) s else s
    if st.mode ≠ b.mode then serviceModeChange st.robot st.mode s else s
  | none => s

/-! ## ROBOT BIND and ROBOT UNBIND (R94 to R96) -/

/-- The window is LOADED, BANKED and carries this robot number (R94, ROLE). -/
def State.bankCarries (s : State) (i : WinIdx) (r : RobotIdx) : Bool :=
  match s.loaded? i with
  | some w =>
    match w.role with
    | .banked _ _ n _ _ => decide (n = r)
    | _                 => false
  | none => false

/-- The window is LOADED as a FEED window of a kind (R94, R116, ROLE). -/
def State.isFeed (s : State) (i : WinIdx) (k : FeedKind) : Bool :=
  match s.loaded? i with
  | some w =>
    match w.role with
    | .feed k' _ => decide (k' = k)
    | _          => false
  | none => false

/-- The parameters of a ROBOT BIND in range (R94): robot, bank window, feed window, reader tag. -/
def bindRange (p : BindParams) : Option (RobotIdx × WinIdx × WinIdx × Tag) :=
  match robotIdx? p.robot, winIdx? p.bank, winIdx? p.feed, tag? p.reader with
  | some r, some w, some f, some t =>
    if 250 ≤ p.period.toNat ∧ p.period.toNat ≤ 100000 ∧ 1 ≤ p.echoLimit.toNat ∧ p.echoLimit.toNat ≤ 64
        ∧ p.nudges.toNat ≤ 7 then some (r, w, f, t) else none
  | _, _, _, _ => none

/-- The record of a robot that has just been bound (R95), its detector on with the first multiple of its period after
machine time (R70), which may lie past the end of machine time (log 47). -/
def newBound (p : BindParams) (w f : WinIdx) (t : Tag) (s : State) : Bound where
  bank := w
  feed := f
  reader := t
  period := p.period.toNat
  echoLimit := p.echoLimit.toNat
  nudgeCount := p.nudges.toNat
  unbinding := false
  published := .a
  publishedSeq := 0
  publish := .copying
  pendingReq := none
  nextReq := none
  confirmPending := false
  echo := .confirmed
  toDeadline := 0
  nudgesUsed := 0
  mode := .unknown
  sinceStatus := 0
  faultCode := 0
  review := false
  grantHold := false
  nextBoundary := multipleAfter (p.period.toNat * 1000) s.time
  flipTime := s.lowTime
  newFlipTime := none

/-- ROBOT BIND (R94, R95): the robot is bound at once, half A's bank word is written, the copy from half A to half B
begins, and the command completes when the bank-word write joins the own queue. Where it joins at once, the copy's first
read comes before the completion, an order R95 does not give (log 44). -/
def robotBindAct (p : BindParams) (s : State) : State :=
  match bindRange p with
  | none => completeRefused .range s
  | some (r, w, f, t) =>
    if (s.bound? r).isSome then completeRefused .bound s
    else if !(s.bankCarries w r && s.isFeed f .robot) then completeRefused .role s
    else
      let b := newBound p w f t s
      let joins := s.path.hasPlace
      let s := s.setRobot r (some b)
      let s := writeBankWord (.bankBind r) w .a (bankWordBytes 0 0 false s.lowTime) s
      let s := startCopy r s
      if joins then completeDone s else s.setPhase (.executing (.bindJoin r))

/-- A reader read of the published half is in flight (R96). -/
def readerReadInFlight (s : State) (b : Bound) : Bool :=
  s.path.inflight.any fun e =>
    e.readerRead && decide (e.checked = .window b.bank) && decide (e.half = some b.published)

/-- An unbinding robot can be unbound: IDLE, with no reader read of the published half in flight (R96). -/
def unbindReady (s : State) (r : RobotIdx) : Bool :=
  match s.bound? r with
  | some b => b.unbinding && decide (b.publish = .idle) && !readerReadInFlight s b
  | none   => false

/-- The robot is unbound and ROBOT UNBIND completes (R96). -/
def finishUnbind (r : RobotIdx) (s : State) : State := completeDone (s.setRobot r none)

/-- ROBOT UNBIND (R96). -/
def robotUnbindAct (robot : Byte) (s : State) : State :=
  match robotIdx? robot with
  | none => completeRefused .range s
  | some r =>
    match s.bound? r with
    | none => completeRefused .notBound s
    | some b =>
      if b.unbinding then completeRefused .notBound s
      else if s.authority? b.bank = some .service ∨ s.authority? b.bank = some .frozen then completeRefused .busy s
      else
        let s := s.setRobot r (some { b with unbinding := true })
        if unbindReady s r then finishUnbind r s else s.setPhase (.executing (.unbind r))

end Sys2Proof.Machine
end

