-- ==== Sys2Proof/Machine/Clock.lean ====
section
/-! DEFINITION. Elapsed time and machine time: the REFCLK period, steps, MARK, CODE and the cycle boundary detectors
(R59 to R72). -/

namespace Sys2Proof.Machine
open Sys2Proof

/-- A change of the clock unit that touches no status field. -/
def State.setClk (s : State) (c : Clock) : State := { s with clk := c }

/-- The rate and the increment it gives (R61). -/
def Clock.setRate (c : Clock) (rate : Int) : Clock := { c with rate := rate, increment := incrementOf rate }

/-! ## CODE (R66 to R69) -/

/-- The place that serves a window (R75). -/
def Clock.placeOf? (c : Clock) (i : WinIdx) : Option (Fin 2 × Place) :=
  if c.place0.window = some i then some (0, c.place0)
  else if c.place1.window = some i then some (1, c.place1)
  else none

/-- At least one source is heard (R69, R89). -/
def Clock.anyHeard (c : Clock) : Bool := c.place0.heard || c.place1.heard

/-- The SOURCE bit: a source is selected and its LOADED TIME feed window has the higher index of the two loaded TIME
feed windows (R69, log 18). -/
def State.sourceBit (s : State) : Bool :=
  match s.clk.selected with
  | some i => s.isFeed i .time && allWindows.any fun j => decide (j < i) && s.isFeed j .time
  | none   => false

/-- The contents of a frame that falls due at the mark of millisecond `m` (R69). -/
def State.frameAt (s : State) (m : Nat) (stepped : Bool) : CodeFrame where
  seconds := m / Config.secNs
  state := s.clk.state
  stepped := stepped
  heard := s.clk.anyHeard
  source := s.sourceBit

/-- The waiting frame, if any, has STEPPED set: its replacement has it too (R68). -/
def Clock.waitingStepped (c : Clock) : Bool :=
  match c.codeWaiting with
  | some (f, _) => f.stepped
  | none        => false

/-- A frame falls due at a mark for a whole second, or with the stepped mark set (R66); it replaces a waiting frame
(R68) and clears the stepped mark (R67). -/
def codeDue (m : Nat) (s : State) : State :=
  if m % Config.secNs = 0 ∨ s.clk.stepped = true then
    let f := s.frameAt m (s.clk.stepped || s.clk.waitingStepped)
    s.setClk { s.clk with codeWaiting := some (f, s.clk.elapsed + Config.tenUs), stepped := false }
  else s

/-! ## MARK (R64) -/

/-- A mark for millisecond `m`: MARK is high until 10 µs of elapsed time later, and a frame may fall due (R64, R66). -/
def giveMark (m : Nat) (s : State) : State :=
  codeDue m { s with
    pins := { s.pins with mark := true },
    clk := { s.clk with markEnd := some (s.clk.elapsed + Config.tenUs) } }

/-- The marks of an advance from `old`: the whole millisecond it reached, if it reached one (R64). -/
def advanceMark (old : Nat) (s : State) : State :=
  let ms := s.time / Config.msNs
  if old / Config.msNs < ms then giveMark (ms * Config.msNs) s else s

/-! ## Cycle boundaries (R70 to R72) -/

/-- An advance reaches a robot's next boundary: the detector gives it and adds its period, and the robot unit takes it
(R70, R73). -/
def advanceBoundary (r : RobotIdx) (s : State) : State :=
  match s.bound? r with
  | some b =>
    if b.nextBoundary ≤ s.time then
      robotBoundary r (s.setRobot r (some { b with nextBoundary := b.nextBoundary + b.period * 1000 }))
    else s
  | none => s

/-- The boundaries an advance gives, robots in number order (R73, log 14). -/
def advanceBoundaries : List RobotIdx → State → State
  | [], s      => s
  | r :: rs, s => advanceBoundaries rs (advanceBoundary r s)

/-- A step's effect on one detector (R71, R72): a forward step at or past the next boundary gives exactly one boundary;
in every case the next boundary is the first multiple after the new value, which may lie past the end of machine time
(log 47). -/
def stepBoundary (old : Nat) (r : RobotIdx) (s : State) : State :=
  match s.bound? r with
  | some b =>
    let s' := s.setRobot r (some { b with nextBoundary := multipleAfter (b.period * 1000) s.time })
    if old < s.time ∧ b.nextBoundary ≤ s.time then robotBoundary r s' else s'
  | none => s

/-- A step's effect on every detector, robots in number order (R71 to R73, log 14). What these boundaries cause reads
machine time after the step (log 36). -/
def stepBoundaries (old : Nat) : List RobotIdx → State → State
  | [], s      => s
  | r :: rs, s => stepBoundaries old rs (stepBoundary old r s)

/-! ## Steps (R63) -/

/-- A step replaces machine time with `new` ns, fraction 0; it sets the stepped mark, sets the rate to 0 and hands the
detectors the old and the new value (R63). The servo's clearing of R88 and R89 is `clear` of Discipline.lean. -/
def stepTime (new : Word) (s : State) : State :=
  let old := s.time
  stepBoundaries old allRobots
    (s.setClk (Clock.setRate { s.clk with ns := new, frac := 0, stepped := true } 0))

/-! ## One REFCLK period (R59, R60) -/

/-- Machine time as one count of units of 2^-32 ns (R60). -/
def Clock.units (c : Clock) : Nat := c.ns.toNat * 2 ^ 32 + c.frac.toNat

/-- Machine time after one advance; past its largest count it is a free value (R60, log 11). -/
def Clock.advanced (c : Clock) (openCount : Nat) : BitVec 96 :=
  if c.units + c.increment < 2 ^ 96 then BitVec.ofNat 96 (c.units + c.increment)
  else Config.machinePastEnd openCount

/-- Elapsed time gains 8 ns and machine time the increment (R59, R60). -/
def advanceCounts (s : State) : State :=
  let t := s.clk.advanced s.openCount
  { s with
    clk := { s.clk with elapsed := s.clk.elapsed + Config.refclkNs, ns := t.extractLsb' 32 64, frac := t.setWidth 32 },
    openCount := if s.clk.units + s.clk.increment < 2 ^ 96 then s.openCount else s.openCount + 1 }

/-- One REFCLK period: the counts advance (R59, R60), then the mark (R64) and the cycle boundaries (R70) the advance has
reached are given, before the timer expiries it has reached (log 37). While POWER-GOOD is low nothing advances (R16). -/
def refclk (s : State) : State :=
  if s.pins.powerGood then advanceBoundaries allRobots (advanceMark s.time (advanceCounts s)) else s

/-- The next advance reaches a whole millisecond (R64). -/
def markNext (s : State) : Bool :=
  s.pins.powerGood && decide (s.time / Config.msNs < (advanceCounts s).time / Config.msNs)

/-- The next advance reaches a robot's next boundary (R70). -/
def boundaryNext (s : State) (r : RobotIdx) : Bool :=
  s.pins.powerGood &&
    match s.bound? r with
    | some b => decide (b.nextBoundary ≤ (advanceCounts s).time)
    | none   => false

/-! ## The ends of pulses and frames (R64, R66, R68) -/

/-- A timer has reached its expiry and the clock unit runs: it runs through CABINET RESET too (R59, R65, R68). -/
def clockDue (s : State) (timer : Option Nat) : Bool := s.pins.powerGood && expired timer s.clk.elapsed

/-- MARK goes low at the end of its 10 µs (R64). -/
def endMark (s : State) : State :=
  { s with pins := { s.pins with mark := false }, clk := { s.clk with markEnd := none } }

/-- A due or waiting frame may begin: no frame is being sent and 10 µs have passed since its mark (R66, R68). -/
def codeStartDue (s : State) : Bool :=
  s.clk.codeSending.isNone && clockDue s (s.clk.codeWaiting.map (·.2))

/-- The waiting frame begins to be sent (R66, R170). -/
def startCode (s : State) : State :=
  match s.clk.codeWaiting with
  | some (f, _) => s.setClk { s.clk with codeSending := some (f.bits, s.clk.elapsed), codeWaiting := none }
  | none        => s

/-- The frame being sent has lasted its 56 µs (R66). -/
def codeEndDue (s : State) : Bool :=
  clockDue s (s.clk.codeSending.map fun f => f.2 + Config.codeBits * Config.codeBitNs)

/-- The frame has been sent; CODE is low (R66, R68). -/
def endCode (s : State) : State := s.setClk { s.clk with codeSending := none }

end Sys2Proof.Machine
end

