-- ==== Sys2Proof/Machine/Discipline.lean ====
section
/-! DEFINITION. Time discipline: sources, selection, the offset, the clock states, the servo, discipline steps, CLOCK
SET and CLOCK TUNE (R75 to R91). -/

namespace Sys2Proof.Machine
open Sys2Proof

/-! ## Places (R75) -/

/-- The clock unit with another place. -/
def Clock.setPlace (c : Clock) (n : Fin 2) (p : Place) : Clock :=
  if n = 0 then { c with place0 := p } else { c with place1 := p }

/-- A place by number. -/
def Clock.place (c : Clock) (n : Fin 2) : Place := if n = 0 then c.place0 else c.place1

/-- The holdover interval in ns (Table 5-4). -/
def Clock.holdoverNs (c : Clock) : Nat := msToNs c.params.holdover

/-! ## Clock state (R81) -/

/-- A change of the clock state posts one CLOCK-STATE notice, with the machine time `time` read at the event that causes it
(R158); entering ACQUIRING, LOCKED or HOLDOVER clears both counts (R81, R85). A state left for itself is not a change. -/
def setClockStateAt (time : Nat) (new : ClockState) (cause : ClockCause) (s : State) : State :=
  if s.clk.state = new then s
  else
    let old := s.clk.state
    postNoticeAt time (.clockState old new cause)
      (s.noteStatus (s.setClk { s.clk with state := new, lockCount := 0, outlierCount := 0 }))

/-- A change of the clock state at an event that reads machine time now (R81). -/
def setClockState (new : ClockState) (cause : ClockCause) (s : State) : State := setClockStateAt s.time new cause s

/-! ## Selection (R78, R79) -/

/-- A heard place as a candidate: its window and last grade. -/
def Place.candidate? (p : Place) : Option (WinIdx × Byte) :=
  match p.heard, p.window, p.lastGrade with
  | true, some i, some g => some (i, g)
  | _, _, _              => none

/-- The heard source with the lowest last grade, of equal grades the lower window index (R78). -/
def Clock.best (c : Clock) : Option (WinIdx × Byte) :=
  match c.place0.candidate?, c.place1.candidate? with
  | some (i, g), some (j, h) =>
    if g.toNat < h.toNat ∨ (g = h ∧ i < j) then some (i, g) else some (j, h)
  | some a, none => some a
  | none, b      => b

/-- The effect of a change to a source on the clock state, at an event that read machine time as `time` (R79). -/
def sourceEffect (time : Nat) (s : State) : State :=
  match s.clk.state with
  | .locked    => setClockStateAt time .acquiring .source s
  | .holdover  => setClockStateAt time .acquiring .source s
  | .acquiring => s.setClk { s.clk with lockCount := 0 }
  | .free      => s

/-- The selection is re-evaluated at an event that read machine time as `time` (R78, R158); a change posts SOURCE-CHANGE, and
a change to a source acts on the clock state (R79). -/
def reselectAt (time : Nat) (s : State) : State :=
  let best := s.clk.best
  let new := best.map (·.1)
  if new = s.clk.selected then s
  else
    let s := postNoticeAt time (.sourceChange s.clk.selected new (best.map (·.2))) (s.setClk { s.clk with selected := new })
    if new.isSome then sourceEffect time s else s

/-- The selection is re-evaluated at an event that reads machine time now (R78). -/
def reselect (s : State) : State := reselectAt s.time s

/-! ## Sources come and go (R75) -/

/-- A TIME feed window's contents apply: it takes the lowest-numbered place that holds no source (R75). -/
def createSource (i : WinIdx) (s : State) : State :=
  let fresh : Place := { Place.vacant 0 with window := some i }
  if s.clk.place0.window.isNone then s.setClk { s.clk with place0 := fresh }
  else if s.clk.place1.window.isNone then s.setClk { s.clk with place1 := fresh }
  else s

/-- A TIME feed window ceases to apply: its place stops holding a source and keeps its path delay; selection is
re-evaluated (R75, R77). -/
def vanishSource (i : WinIdx) (s : State) : State :=
  match s.clk.placeOf? i with
  | some (n, p) => reselect (s.setClk (s.clk.setPlace n (Place.vacant p.pathDelay)))
  | none        => s

/-! ## The servo (R87) -/

/-- A servo update with offset `o`: the integral, then the rate, each limited to the rate limit; quotients round toward
minus infinity (R87). -/
def Clock.servo (c : Clock) (o : Int) : Clock :=
  let i := clampTo c.params.rateLimit (c.integral + o / (2 ^ c.params.iShift : Int))
  { c with integral := i }.setRate (clampTo c.params.rateLimit (o / (2 ^ c.params.pShift : Int) + i))

/-! ## Steps (R88, R89) -/

/-- The integral and the two counts become 0 (R88, R89). -/
def Clock.clear (c : Clock) : Clock := { c with integral := 0, lockCount := 0, outlierCount := 0 }

/-- Machine time less an offset, held at 0 and at the largest count (R63). -/
def lessOffset (t : Word) (o : Int) : Word :=
  let v := Int.ofNat t.toNat - o
  if v < 0 then 0 else if 2 ^ 64 - 1 < v then BitVec.allOnes 64 else BitVec.ofInt 64 v

/-- A step to `new` with the servo cleared and CLOCK-STEP posted, its machine time the one before the step (R63, R88,
R89, Table 10-9). -/
def stepAndPost (source : Option WinIdx) (offset : List Byte) (new : Word) (s : State) : State :=
  let old := s.time
  let s := stepTime new s
  postNoticeAt old (.clockStep source offset new.toNat) (s.setClk s.clk.clear)

/-- A discipline step with offset `o` (R88). -/
def disciplineStep (i : WinIdx) (o : Int) (s : State) : State :=
  stepAndPost (some i) (intBytes8 o) (lessOffset s.clk.ns o) s

/-! ## A selected record at the clock state (R80, R82 to R86, Table 5-3) -/

/-- The offset of a record: receive stamp less origin less path delay, held as a signed 64-bit count (R80). -/
def offsetOf (r : TimeSync) (delay : Nat) : Int :=
  clampOffset (Int.ofNat r.receive.toNat - Int.ofNat r.origin.toNat - Int.ofNat delay)

/-- The lock count after a servo update in ACQUIRING; at 4 the clock goes to LOCKED (R83). -/
def countLock (o : Int) (s : State) : State :=
  if o.natAbs ≤ s.clk.params.lock then
    let n := s.clk.lockCount + 1
    let s := s.setClk { s.clk with lockCount := n }
    if 4 ≤ n then setClockState .locked .record s else s
  else s.setClk { s.clk with lockCount := 0 }

/-- A selected record reaches the clock state (Table 5-3); the flag answers whether it stepped machine time. A CLOCK-STATE
that follows a step carries the one machine time of the record's acceptance, read before the step (R54, R62, R158, log 36). -/
def selectedRecord (i : WinIdx) (o : Int) (s : State) : State × Bool :=
  let above := decide (s.clk.params.step < o.natAbs)
  match s.clk.state with
  | .free =>
    if above then (setClockStateAt s.time .acquiring .record (disciplineStep i o s), true)
    else (setClockState .acquiring .record (s.setClk (s.clk.servo o)), false)
  | .acquiring =>
    if above then (disciplineStep i o s, true)
    else (countLock o (s.setClk (s.clk.servo o)), false)
  | .locked =>
    if above then
      let n := s.clk.outlierCount + 1
      if n < 3 then (s.setClk { s.clk with outlierCount := n }, false)
      else (setClockStateAt s.time .acquiring .record (disciplineStep i o s), true)
    else (s.setClk { s.clk.servo o with outlierCount := 0 }, false)
  | .holdover =>
    if above then (setClockStateAt s.time .acquiring .record (disciplineStep i o s), true)
    else (countLock o (setClockState .acquiring .record (s.setClk (s.clk.servo o))), false)

/-! ## TIME SYNC (R76, R88) -/

/-- The record is a duplicate: its origin is not greater than the last one accepted (R76). -/
def Place.duplicate (p : Place) (r : TimeSync) : Bool :=
  match p.lastOrigin with
  | some o => decide (r.origin.toNat ≤ o.toNat)
  | none   => false

/-- An accepted record refreshes its source, whose heard timer and the silence timer restart (R76, R77, R85). -/
def acceptSync (n : Fin 2) (p : Place) (r : TimeSync) (s : State) : State :=
  let expiry := s.clk.elapsed + s.clk.holdoverNs
  let p' := { p with
    lastOrigin := some r.origin, lastGrade := some r.grade, lastAccept := some s.clk.elapsed,
    heard := true, heardTimer := some expiry }
  s.setClk { s.clk.setPlace n p' with lastAny := some s.clk.elapsed, silence := some expiry }

/-- A TIME SYNC at its dispatch (R76). `accepted` is the machine time at the write's acceptance where a record dispatched
earlier by the same write has stepped machine time since, and absent where none has: after such a step the record is
accepted, with that one reading for its notices (R54, R62), but does not reach the clock state (R88). The answer holds that
reading once a step has happened. -/
def timeSyncAct (i : WinIdx) (r : TimeSync) (accepted : Option Word) (s : State) : State × Option Word :=
  match s.clk.placeOf? i with
  | some (n, p) =>
    if p.duplicate r then (s, accepted)
    else
      let now := s.clk.ns
      let s := reselectAt (accepted.getD now).toNat (acceptSync n p r s)
      if s.clk.selected = some i ∧ accepted = none then
        let taken := selectedRecord i (offsetOf r p.pathDelay) s
        (taken.1, if taken.2 then some now else none)
      else (s, accepted)
  | none => (s, accepted)

/-! ## Timers (R77, R85) -/

/-- A place's heard timer is due (R77). -/
def heardDue (s : State) (n : Fin 2) : Bool := clockDue s (s.clk.place n).heardTimer

/-- A place stops being heard; it keeps its last origin and grade (R77). -/
def Place.unheard (p : Place) : Place := { p with heard := false, heardTimer := none }

/-- A heard timer expires: the source stops being heard and selection is re-evaluated (R77). -/
def heardExpiry (n : Fin 2) (s : State) : State :=
  reselect (s.setClk (s.clk.setPlace n (s.clk.place n).unheard))

/-- The silence timer is due (R85). -/
def silenceDue (s : State) : Bool := clockDue s s.clk.silence

/-- The silence timer expires: an ACQUIRING or LOCKED clock goes to HOLDOVER (R85). -/
def silenceExpiry (s : State) : State :=
  let s := s.setClk { s.clk with silence := none }
  match s.clk.state with
  | .acquiring => setClockState .holdover .silence s
  | .locked    => setClockState .holdover .silence s
  | _          => s

/-! ## CLOCK SET (R89) -/

/-- The offset bytes of a CLOCK SET's notice: machine time before less after; a difference no signed 64-bit value holds
is open (Table 10-9, log 13). -/
def clockSetOffset (count : Nat) (old new : Nat) : List Byte :=
  let d := Int.ofNat old - Int.ofNat new
  if -(2 ^ 63 : Int) ≤ d ∧ d < 2 ^ 63 then intBytes8 d else openBytes count 16 8

/-- CLOCK SET (R89). Its CLOCK-STEP and its CLOCK-STATE carry the one machine time of its begin, read before the step (R62,
R158); its completion is stamped after the step (log 36), and its writes come after those of the notices (log 48). -/
def clockSetAct (t : Word) (s : State) : State :=
  let now := s.time
  let off := clockSetOffset s.openCount now t.toNat
  let s := stepAndPost none off t s.bumpOpen
  completeDone (setClockStateAt now (if s.clk.anyHeard then .acquiring else .free) .set s)

/-! ## CLOCK TUNE (R90, R91) -/

/-- A parameter of CLOCK TUNE is given (10 section 10.2: bits 0 to 7 of the given mask). -/
def tuneHas (p : TuneParams) (n : Nat) : Bool := p.given.getLsbD n

/-- A given value lies in its range. -/
def givenIn (given : Bool) (v lo hi : Nat) : Bool := !given || (decide (lo ≤ v) && decide (v ≤ hi))

/-- The discipline parameters that would stand after the command (R90). -/
def tuneApply (p : TuneParams) (d : Discipline) : Discipline where
  step := if tuneHas p 0 then p.step.toNat else d.step
  lock := if tuneHas p 1 then p.lock.toNat else d.lock
  pShift := if tuneHas p 2 then p.pShift.toNat else d.pShift
  iShift := if tuneHas p 3 then p.iShift.toNat else d.iShift
  rateLimit := if tuneHas p 4 then p.rateLimit.toNat else d.rateLimit
  holdover := if tuneHas p 5 then p.holdover.toNat else d.holdover

/-- RANGE of R90: every given value in its range (Table 5-4), the two path delays for different windows, the lock
threshold that would stand not above the step threshold that would stand. -/
def tuneInRange (p : TuneParams) (d : Discipline) : Bool :=
  givenIn (tuneHas p 0) p.step.toNat 1000 100000000 && givenIn (tuneHas p 1) p.lock.toNat 10 1000000
    && givenIn (tuneHas p 2) p.pShift.toNat 0 15 && givenIn (tuneHas p 3) p.iShift.toNat 0 20
    && givenIn (tuneHas p 4) p.rateLimit.toNat 1000 500000 && givenIn (tuneHas p 5) p.holdover.toNat 100 10000
    && givenIn (tuneHas p 6) p.delay1.toNat 0 1000000 && givenIn (tuneHas p 7) p.delay2.toNat 0 1000000
    && !(tuneHas p 6 && tuneHas p 7 && decide (p.window1 = p.window2))
    && decide ((tuneApply p d).lock ≤ (tuneApply p d).step)

/-- A path delay names a window that a source entry serves (R90, ROLE). -/
def Clock.serves (c : Clock) (b : Byte) : Bool :=
  match winIdx? b with
  | some i => (c.placeOf? i).isSome
  | none   => false

/-- A path delay replaces that of the window's source entry (R91). -/
def Clock.setDelay (c : Clock) (given : Bool) (b : Byte) (d : Nat) : Clock :=
  if given then
    match winIdx? b with
    | some i =>
      match c.placeOf? i with
      | some (n, p) => c.setPlace n { p with pathDelay := d }
      | none        => c
    | none => c
  else c

/-- A running heard timer's expiry under a new holdover interval (R91). -/
def Place.retime (p : Place) (interval : Nat) : Place :=
  match p.heardTimer, p.lastAccept with
  | some _, some a => { p with heardTimer := some (a + interval) }
  | _, _           => p

/-- The silence timer's expiry under a new holdover interval (R91). -/
def Clock.retimeSilence (c : Clock) : Option Nat :=
  match c.silence, c.lastAny with
  | some _, some a => some (a + c.holdoverNs)
  | t, _           => t

/-- The parameters a CLOCK TUNE applies to the clock unit (R91): thresholds, shifts, a rate limit that limits the integral
and the rate at once, path delays. -/
def Clock.tune (c : Clock) (p : TuneParams) : Clock :=
  let c := { c with params := tuneApply p c.params }
  let c := { c with integral := clampTo c.params.rateLimit c.integral }.setRate (clampTo c.params.rateLimit c.rate)
  (c.setDelay (tuneHas p 6) p.window1 p.delay1.toNat).setDelay (tuneHas p 7) p.window2 p.delay2.toNat

/-- A place whose moved expiry is already reached stops being heard at once (R91). -/
def Place.expireNow (p : Place) (now : Nat) : Place := if expired p.heardTimer now then p.unheard else p

/-- A new holdover interval moves the running timers; those already reached expire at once: the heard timers, one
re-evaluation of selection, then the silence timer (R91). -/
def retimeHoldover (s : State) : State :=
  let h := s.clk.holdoverNs
  let now := s.clk.elapsed
  let s := s.setClk { s.clk with
    place0 := (s.clk.place0.retime h).expireNow now,
    place1 := (s.clk.place1.retime h).expireNow now,
    silence := s.clk.retimeSilence }
  let s := reselect s
  if expired s.clk.silence now then silenceExpiry s else s

/-- CLOCK TUNE (R90, R91). The notices of the timers that expire at once come before the completion (log 48). -/
def clockTuneAct (p : TuneParams) (s : State) : State :=
  if !tuneInRange p s.clk.params then completeRefused .range s
  else if (tuneHas p 6 && !s.clk.serves p.window1) || (tuneHas p 7 && !s.clk.serves p.window2) then completeRefused .role s
  else
    let s := s.setClk (s.clk.tune p)
    completeDone (if tuneHas p 5 then retimeHoldover s else s)

end Sys2Proof.Machine
end

