-- ==== Sys2Proof/Machine/Tracking.lean ====
section
/-! DEFINITION. The tracking unit: fill reports, the pocket pulse and the chain, verdicts, decisions, the reject schedule,
the decision ring, TRACK SETUP and TRACK CLEAR (R115 to R136). -/

namespace Sys2Proof.Machine
open Sys2Proof

/-- A change of the tracking unit; a change of its status fields schedules a status word write (R161). -/
def State.setTrk (s : State) (t : Tracking) : State := s.noteStatus { s with trk := t }

/-! ## Serials (07 section 7.1) -/

/-- The difference of two serials modulo 2^32, read as a signed number. -/
def serialDiff (a b : BitVec 32) : Int := (a - b).toInt

/-- Serial `a` is below serial `b`. -/
def serialBelow (a b : BitVec 32) : Bool := decide (serialDiff a b < 0)

/-! ## Verdicts of a bottle -/

/-- A camera's verdict in a bottle's entry (Table 7-4). -/
def Bottle.verdict? (b : Bottle) (c : Fin 3) : Option (Verdict × BitVec 16) :=
  if c = 0 then b.verdict0 else if c = 1 then b.verdict1 else b.verdict2

/-- The entry with a camera's verdict recorded (R128). -/
def Bottle.record (b : Bottle) (c : Fin 3) (v : Verdict × BitVec 16) : Bottle :=
  if c = 0 then { b with verdict0 := some v } else if c = 1 then { b with verdict1 := some v }
  else { b with verdict2 := some v }

/-- The verdicts an entry holds. -/
def Bottle.verdicts (b : Bottle) : List Verdict := [b.verdict0, b.verdict1, b.verdict2].filterMap (·.map (·.1))

/-! ## Decisions (R129 to R131) -/

/-- A camera of the required-camera set has no verdict in the entry (Table 7-5, VERDICT-MISSING). -/
def Bottle.missing (b : Bottle) (required : Byte) : Bool :=
  [(0 : Fin 3), 1, 2].any fun c => required.getLsbD c.val && (b.verdict? c).isNone

/-- A reason with whether it holds. -/
def reasonIf (r : RejectReason) (holds : Bool) : List RejectReason := if holds then [r] else []

/-- The reason set of a BOTTLE entry (Table 7-5); `purged` says that it leaves at a TRACK SETUP that shortens the chain. -/
def Bottle.reasons (b : Bottle) (cfg : TrackConfig) (purged : Bool) : List RejectReason :=
  reasonIf .purged purged
    ++ reasonIf .fillBad (b.fill.any (!·.good))
    ++ reasonIf .fillUnreported b.fill.isNone
    ++ reasonIf .verdictMissing (b.missing cfg.required)
    ++ reasonIf .verdictFail (b.verdicts.any (· == .fail))
    ++ reasonIf .verdictUnsure (b.verdicts.any (· == .unsure) && decide (cfg.unsure = .reject))
    ++ reasonIf .suspectStale (b.fill.any (·.stale))
    ++ reasonIf .suspectReview (b.fill.any (·.review))

/-- The decision of an entry that leaves the chain; a GAP gives none (R129, R131). -/
def decision? (cfg : TrackConfig) (purged : Bool) (time : Nat) : ChainEntry → Option Decision
  | .gap      => none
  | .purged   => some { serial := none, reasons := [.purged], robot := none, valve := none, time := time }
  | .bottle b => some { serial := b.serial, reasons := b.reasons cfg purged,
                        robot := b.fill.map (·.robot), valve := b.fill.map (·.valve), time := time }

/-! ## The reject schedule (R132, R133) -/

/-- The effective width of a reject pulse in µs (R132, Table 7-7). -/
def effectiveWidth (cfg : TrackConfig) (interval : Option Nat) : Nat :=
  match interval with
  | some i => if i < cfg.delay + cfg.width then max 1 (i - cfg.delay) else cfg.width
  | none   => cfg.width

/-- The pulse a REJECTED decision schedules at elapsed time `now` (R132). -/
def rejectPulse (cfg : TrackConfig) (interval : Option Nat) (now : Nat) : RejectPulse where
  rise := now + cfg.delay * 1000
  fall := now + cfg.delay * 1000 + effectiveWidth cfg interval * 1000

/-- A REJECTED decision schedules one pulse; a delay of 0 raises REJECT at once (R132, R133). -/
def schedulePulse (cfg : TrackConfig) (s : State) : State :=
  State.refreshReject { s with trk := { s.trk with
    schedule := s.trk.schedule ++ [rejectPulse cfg s.trk.interval s.clk.elapsed] } }

/-! ## The decision ring (R134) -/

/-- The decision ring is full: producer count less consumed count is 512 (R134). -/
def Reporting.decFull (r : Reporting) : Bool := decide (Config.decisionSlots ≤ r.decProducer - r.decConsumed)

/-- A decision takes the ring slot of the producer count: the record write, then the producer word write (R134). -/
def writeDecision (d : Decision) (s : State) : State :=
  let p := s.rep.decProducer
  let s := ownWrite .decision (s.areaBase + 0x4000 + 16 * (p % Config.decisionSlots)) (d.bytes s.openCount) s
  ownWrite .decisionProducer (s.areaBase + 0x28) (leBytes 8 (p + 1))
    { s.bumpOpen with rep := { s.rep with decProducer := p + 1 } }

/-- A decision finds the ring full: it is dropped, and the first drop sets DECISION-OVERFLOW and posts it (R134). -/
def dropDecision (d : Decision) (s : State) : State :=
  if s.rep.decOverflow then s
  else
    postNotice (.decisionOverflow d.serial)
      (s.noteStatus { s with rep := { s.rep with decOverflow := true } })

/-- Reporting acts on a decision (R134). -/
def recordDecision (d : Decision) (s : State) : State :=
  if s.rep.enabled then
    if s.rep.decFull then dropDecision d s else writeDecision d s
  else s

/-- An entry leaves the chain: it is decided, a REJECTED decision schedules its pulse, and reporting takes the decision
(R129, R132, R134). -/
def decideEntry (cfg : TrackConfig) (purged : Bool) (e : ChainEntry) (s : State) : State :=
  match decision? cfg purged s.time e with
  | some d => recordDecision d (if d.rejected then schedulePulse cfg s else s)
  | none   => s

/-- Entries leave the chain one at a time, in the order given (R117, R129). -/
def decideEntries (cfg : TrackConfig) (purged : Bool) : List ChainEntry → State → State
  | [], s      => s
  | e :: es, s => decideEntries cfg purged es (decideEntry cfg purged e s)

/-! ## Fill reports (R113, R119 to R121) -/

/-- The fault of a refused record (R121, Table 7-3): the tag is the feed tag of the record's window. -/
def trackFault (k : FaultKind) (src : Source) (serial : BitVec 32) (s : State) : FaultInfo where
  kind := k
  tag := (s.loaded? src.window).bind fun w => (tagsOf w.writeSet).head?
  addr := some src.slot
  dir := some .write
  window := some src.window
  serial := some serial

/-- GOOD: result OK and a net mass within the tolerance of the target (R119). -/
def fillGood (cfg : TrackConfig) (f : FillReport) : Bool :=
  decide (f.result = .ok)
    && decide ((Int.ofNat f.mass.toNat - Int.ofNat cfg.target).natAbs ≤ cfg.tolerance)

/-- The fill record of a placed report, with the marks STALE and REVIEW of the robot as it stands (R113, R119). -/
def fillRecord (cfg : TrackConfig) (f : FillReport) (b : Option Bound) : FillRecord where
  serial := f.serial
  robot := f.robot
  valve := f.valve
  result := f.result
  mass := f.mass
  good := fillGood cfg f
  stale := b.any fun b => decide (b.echo = .stale)
  review := b.any (·.review)

/-- A fill record joins the filled list at its place in serial order (R120). -/
def insertFill (next : BitVec 32) (f : FillRecord) : List FillRecord → List FillRecord
  | []      => [f]
  | g :: gs => if serialDiff f.serial next < serialDiff g.serial next then f :: g :: gs else g :: insertFill next f gs

/-- The BOTTLE entry of a serial, with its position (R120, R128). -/
def findBottle (serial : BitVec 32) : List ChainEntry → Option (Nat × Bottle)
  | []                => none
  | .bottle b :: rest =>
    if b.serial = some serial then some (0, b) else (findBottle serial rest).map fun p => (p.1 + 1, p.2)
  | _ :: rest         => (findBottle serial rest).map fun p => (p.1 + 1, p.2)

/-- A FILL REPORT at its dispatch (R119, R120). -/
def fillReportAct (src : Source) (f : FillReport) (s : State) : State :=
  match s.trk.cfg with
  | none => s
  | some cfg =>
    let next := s.trk.nextExit.getD f.serial
    let s := s.setTrk { s.trk with nextExit := some next }
    if serialBelow f.serial next then takeFault (trackFault .fillLate src f.serial s) s
    else if 16 ≤ serialDiff f.serial next then takeFault (trackFault .fillRange src f.serial s) s
    else if s.trk.filled.any (fun g => g.serial = f.serial) || (findBottle f.serial s.trk.chain).isSome then
      takeFault (trackFault .trackDup src f.serial s) s
    else
      s.setTrk { s.trk with filled := insertFill next (fillRecord cfg f (s.bound? f.robot)) s.trk.filled }

/-! ## Verdicts (R127, R128) -/

/-- A VERDICT at its dispatch (R128). -/
def verdictAct (src : Source) (v : VerdictRecord) (s : State) : State :=
  match s.trk.cfg, s.trk.nextExit with
  | some _, some next =>
    match findBottle v.serial s.trk.chain with
    | some (pos, b) =>
      if b.windowOpen then
        if (b.verdict? v.camera).isSome then takeFault (trackFault .verdictDup src v.serial s) s
        else s.setTrk { s.trk with chain := s.trk.chain.set pos (.bottle (b.record v.camera (v.verdict, v.defect))) }
      else takeFault (trackFault .verdictLate src v.serial s) s
    | none =>
      if serialBelow v.serial next then takeFault (trackFault .verdictLate src v.serial s) s
      else takeFault (trackFault .verdictEarly src v.serial s) s
  | _, _ => takeFault (trackFault .verdictEarly src v.serial s) s

/-! ## The pocket pulse (R122 to R126) -/

/-- The chatter guard: 1 ms of elapsed time (R122). -/
def chatterNs : Nat := 1000000

/-- A pulse less than 1 ms of elapsed time after the last accepted one is ignored (R122). -/
def pulseIgnored (s : State) : Bool :=
  match s.trk.lastPulse with
  | some p => decide (s.clk.elapsed < p + chatterNs)
  | none   => false

/-- The pocket interval an accepted pulse leaves (R123): measured when the line was RUNNING and the last accepted pulse
came after the latest setup, kept otherwise. -/
def measuredInterval (s : State) : Option Nat :=
  match s.trk.lastPulse with
  | some p =>
    if s.trk.line = .running ∧ s.trk.pulseSinceSetup = true then some ((s.clk.elapsed - p) / 1000)
    else s.trk.interval
  | none => s.trk.interval

/-- A verdict window closes (R127). -/
def ChainEntry.close : ChainEntry → ChainEntry
  | .bottle b => .bottle { b with windowOpen := false }
  | e         => e

/-- The chain after the last entry has left, with a free position 0 taken by `new`: every other entry has moved up one
position, and the one that moved to the verdict deadline pocket has its window closed (R124). -/
def moveChain (cfg : TrackConfig) (new : ChainEntry) (chain : List ChainEntry) : List ChainEntry :=
  (new :: chain.take (cfg.rejectPocket - 1)).modify cfg.deadline ChainEntry.close

/-- A new BOTTLE entry (R125). -/
def newBottle (serial : Option (BitVec 32)) (fill : Option FillRecord) (time : Nat) : ChainEntry :=
  .bottle { serial := serial, fill := fill, verdict0 := none, verdict1 := none, verdict2 := none,
            windowOpen := true, exitStamp := time }

/-- What position 0 takes at a pulse, with the filled list and the next exit serial it leaves (R125). -/
def newEntry (present : Bool) (time : Nat) (t : Tracking) : ChainEntry × List FillRecord × Option (BitVec 32) :=
  if present then
    match t.nextExit with
    | some n =>
      (newBottle (some n) (t.filled.find? fun f => f.serial = n) time, t.filled.filter (fun f => f.serial ≠ n),
        some (n + 1))
    | none => (newBottle none none time, t.filled, none)
  else (.gap, t.filled, t.nextExit)

/-- Steps 2 to 4 of an accepted pulse of a CONFIGURED unit (R124, R125). -/
def advanceChain (cfg : TrackConfig) (present : Bool) (s : State) : State :=
  let last := s.trk.chain.getD (cfg.rejectPocket - 1) .gap
  let s := decideEntry cfg false last s
  let new := newEntry present s.time s.trk
  s.setTrk { s.trk with
    chain := moveChain cfg new.1 s.trk.chain, filled := new.2.1, nextExit := new.2.2 }

/-- Step 5 of an accepted pulse: a STOPPED line becomes RUNNING and posts LINE-RUNNING (R126). -/
def startLine (s : State) : State :=
  if s.trk.line = .stopped then postNotice .lineRunning (s.setTrk { s.trk with line := .running }) else s

/-- An accepted pulse becomes the last accepted pulse, and the line-stop timer restarts from it (R122, R126). -/
def notePulse (s : State) : State :=
  s.setTrk { s.trk with
    lastPulse := some s.clk.elapsed, pulseSinceSetup := true,
    lineStop := some (s.clk.elapsed + msToNs s.trk.lineStopMs) }

/-- A rise of POCKET (R122): ignored, or accepted with the five steps in order and handed to the service unit, which acts on
it after them (log 40). -/
def pocketPulseAct (present : Bool) (s : State) : State :=
  if pulseIgnored s then s
  else
    let s := s.setTrk { s.trk with interval := measuredInterval s }
    let s := match s.trk.cfg with
      | some cfg => advanceChain cfg present s
      | none     => s
    servicePulse (notePulse (startLine s))

/-- The line-stop timer is due (R126). -/
def lineStopDue (s : State) : Bool := s.running && expired s.trk.lineStop s.clk.elapsed

/-- The line-stop timer expires: the line is STOPPED and LINE-STOPPED is posted (R126). -/
def stopLine (s : State) : State :=
  postNotice .lineStopped (s.setTrk { s.trk with line := .stopped, lineStop := none })

/-! ## TRACK SETUP and TRACK CLEAR (R116 to R118) -/

/-- One camera's place in a TRACK SETUP: station pocket, feed window byte. -/
def cameraBytes (p : TrackParams) : List (Byte × Byte) :=
  [(p.station0, p.feed0), (p.station1, p.feed1), (p.station2, p.feed2)].take p.cameras.toNat

/-- A camera in range (Table 7-2): station pocket 1 to reject pocket − 1, window index 0 to 31. -/
def camera? (p : TrackParams) (b : Byte × Byte) : Option Camera :=
  match winIdx? b.2 with
  | some i =>
    if 1 ≤ b.1.toNat ∧ b.1.toNat < p.rejectPocket.toNat then some { feed := i, station := b.1.toNat } else none
  | none => none

/-- The cameras in use, if every one is in range. -/
def cameras? (p : TrackParams) : List (Byte × Byte) → Option (List Camera)
  | []      => some []
  | b :: bs =>
    match camera? p b, cameras? p bs with
    | some c, some cs => some (c :: cs)
    | _, _            => none

/-- The UNSURE policy's codes (Table 10-4). -/
def unsure? (b : Byte) : Option UnsurePolicy :=
  match b.toNat with
  | 1 => some .reject
  | 2 => some .pass
  | _ => none

/-- RANGE of R116 for the values that are not cameras (Table 7-2). -/
def trackInRange (p : TrackParams) (cs : List Camera) : Bool :=
  decide (4 ≤ p.rejectPocket.toNat) && decide (p.rejectPocket.toNat ≤ 64) && decide (p.cameras.toNat ≤ 3)
    && decide (1 ≤ p.deadline.toNat) && decide (p.deadline.toNat ≤ p.rejectPocket.toNat)
    && (cs.all fun c => decide (c.station < p.deadline.toNat))
    && decide (p.required.toNat < 2 ^ p.cameras.toNat)
    && decide (p.delay.toNat ≤ 50000) && decide (1 ≤ p.width.toNat) && decide (p.width.toNat ≤ 50000)
    && decide (100 ≤ p.lineStop.toNat) && decide (p.lineStop.toNat ≤ 10000)

/-- The parameters of a TRACK SETUP in range (R116). -/
def trackConfig? (p : TrackParams) : Option TrackConfig :=
  match cameras? p (cameraBytes p), unsure? p.unsure with
  | some cs, some u =>
    if trackInRange p cs then
      some { rejectPocket := p.rejectPocket.toNat, cameras := cs, deadline := p.deadline.toNat,
             required := p.required, unsure := u, target := p.target.toNat, tolerance := p.tolerance.toNat,
             delay := p.delay.toNat, width := p.width.toNat }
    else none
  | _, _ => none

/-- Step 3 of R117: an old GAP or BOTTLE entry becomes PURGED, positions are cut or created, all PURGED. -/
def purgedChain (n : Nat) : List ChainEntry := List.replicate n .purged

/-- A TRACK SETUP that passes its checks applies (R117, steps 1 to 5). -/
def applySetup (cfg : TrackConfig) (lineStopMs : Nat) (s : State) : State :=
  let s := match s.trk.cfg with
    | some old => decideEntries old true (s.trk.chain.drop cfg.rejectPocket).reverse s
    | none     => s
  let s := s.setTrk { s.trk with
    cfg := some cfg, lineStopMs := lineStopMs, chain := purgedChain cfg.rejectPocket, filled := [],
    nextExit := none, interval := none, pulseSinceSetup := false,
    lineStop := match s.trk.lineStop, s.trk.lastPulse with
      | some _, some p => some (p + msToNs lineStopMs)
      | t, _           => t }
  if expired s.trk.lineStop s.clk.elapsed then stopLine s else s

/-- TRACK SETUP (R116, R117). R117 and R164 give no order between the own writes of its decisions and of its LINE-STOPPED
notice and those of its completion: the completion and the head word come last (log 48). -/
def trackSetupAct (p : TrackParams) (s : State) : State :=
  match trackConfig? p with
  | none => completeRefused .range s
  | some cfg =>
    if s.trk.cfg.isSome ∧ s.trk.line = .running then completeRefused .busy s
    else if !(cfg.cameras.all fun c => s.isFeed c.feed .verdict) then completeRefused .role s
    else completeDone (applySetup cfg p.lineStop.toNat s)

/-- TRACK CLEAR's effect on an entry: a BOTTLE becomes PURGED, a GAP stays (R118). -/
def ChainEntry.clear : ChainEntry → ChainEntry
  | .bottle _ => .purged
  | e         => e

/-- TRACK CLEAR (R118). -/
def trackClearAct (s : State) : State :=
  if s.trk.line = .running then completeRefused .busy s
  else if s.trk.cfg.isSome then
    completeDone (s.setTrk { s.trk with chain := s.trk.chain.map ChainEntry.clear, filled := [], nextExit := none })
  else completeDone s

/-! ## REJECT (R133) -/

/-- A scheduled pulse is high and REJECT is still low (R133). -/
def rejectRiseDue (s : State) : Bool := s.running && !s.pins.reject && s.rejectLevel

/-- A scheduled pulse has reached its fall (R133). -/
def rejectFallDue (s : State) : Bool := s.running && s.trk.schedule.any fun p => decide (p.fall ≤ s.clk.elapsed)

/-- The first pulse that has reached its fall leaves the schedule; REJECT stays high if another pulse is high (R133). -/
def endPulse (s : State) : State :=
  State.refreshReject { s with trk := { s.trk with
    schedule := s.trk.schedule.eraseP fun p => decide (p.fall ≤ s.clk.elapsed) } }

/-! ## The decision consumed word (R135) -/

/-- An observation of the decision consumed word (R135). -/
def decisionConsumedAct (v : Word) (s : State) : State :=
  if s.rep.decConsumed < v.toNat ∧ v.toNat ≤ s.rep.decProducer then
    s.noteStatus { s with rep := { s.rep with decConsumed := v.toNat, decOverflow := false } }
  else s

end Sys2Proof.Machine
end

