-- ==== Sys2Proof/Machine/Windows.lean ====
section
/-! DEFINITION. The window unit's table: the checks of WINDOW LOAD and WINDOW DROP, loading, draining and dropping, and
the hidden ranges (R19 to R21, R34 to R41). -/

namespace Sys2Proof.Machine
open Sys2Proof

/-! ## Extents -/

/-- A range of byte addresses, from the first up to, not including, the second. -/
abbrev Extent := Nat × Nat

/-- Two ranges share a byte. -/
def overlaps (a b : Extent) : Bool :=
  decide (a.1 < b.2) && decide (b.1 < a.2) && decide (a.1 < a.2) && decide (b.1 < b.2)

/-- The range of a window (R19); for a BANKED window the logical range. -/
def Window.range (w : Window) : Extent := (w.base.toNat, w.base.toNat + w.size.toNat)

/-- The halves of a BANKED window, each of the window's size (R20, R21). -/
def Window.halves (w : Window) : List Extent :=
  match w.role with
  | .banked _ _ _ a b => [(a.toNat, a.toNat + w.size.toNat), (b.toNat, b.toNat + w.size.toNat)]
  | _                 => []

/-- The contents that an entry's hidden ranges come from: a DRAINING entry keeps its old halves hidden (R21). -/
def WinState.contents? : WinState → Option Window
  | .empty          => none
  | .loaded w       => some w
  | .draining old _ => some old

/-- The hidden ranges of one entry (R21). -/
def WinState.hidden (e : WinState) : List Extent :=
  match e.contents? with
  | some w => w.halves
  | none   => []

/-- The hidden ranges as they stand (R21, R24). -/
def State.hiddenRanges (s : State) : List Extent := allWindows.flatMap fun i => (s.entry i).hidden

/-- The hidden ranges of the entries other than the one at an index (R36). -/
def State.hiddenOthers (s : State) (i : WinIdx) : List Extent :=
  (allWindows.filter (· ≠ i)).flatMap fun j => (s.entry j).hidden

/-- The ranges of the LOADED entries other than the one at an index (R36). -/
def State.rangesOthers (s : State) (i : WinIdx) : List Extent :=
  (allWindows.filter (· ≠ i)).filterMap fun j => (s.loaded? j).map Window.range

/-- The range of the control area (R18). -/
def State.areaRange (s : State) : Extent := (s.areaBase, areaSize + s.areaBase)

/-! ## The parameters of WINDOW LOAD (R34) -/

/-- A stamp offset of a WINDOW LOAD: 0 none, 8 or 16 (Tables 2-1 and 10-2). -/
def stamp? (b : Byte) : Option (Option StampAt) :=
  match b.toNat with
  | 0  => some none
  | 8  => some (some .at8)
  | 16 => some (some .at16)
  | _  => none

/-- A feed kind of a WINDOW LOAD (Table 10-4). -/
def feedKind? (b : Byte) : Option FeedKind :=
  match b.toNat with
  | 1 => some .time
  | 2 => some .robot
  | 3 => some .verdict
  | 4 => some .service
  | _ => none

/-- The role of a WINDOW LOAD with the fields of its role (Table 2-1), if none is out of range (R34). -/
def loadRole? (p : LoadParams) : Option Role :=
  match stamp? p.stamp with
  | none    => none
  | some st =>
    match p.role.toNat with
    | 1 => if p.eligible then none else some (.plain st)
    | 2 => if st.isSome then none else some (.guarded p.eligible .production)
    | 3 => if st.isSome then none
           else (robotIdx? p.robot).map fun r => .banked p.eligible .production r p.halfA p.halfB
    | 4 => if p.eligible || (tagsOf p.writeSet).length != 1 then none
           else (feedKind? p.feedKind).map fun k => .feed k st
    | _ => none

/-- A size is 1 byte to 1 GiB, to 64 KiB for a BANKED window (R34, RANGE). -/
def sizeInRange (w : Window) : Bool :=
  decide (w.size.toNat ≠ 0) && decide (w.size.toNat ≤ 1073741824)
    && match w.role with
       | .banked .. => decide (w.size.toNat ≤ 65536)
       | _          => true

/-- The range and the halves stay within the 32-bit addresses (R34, RANGE). -/
def extentsFit (w : Window) : Bool := (w.range :: w.halves).all fun x => decide (x.2 ≤ 4294967296)

/-- The index and the window a WINDOW LOAD names, if R34 finds nothing for RANGE. -/
def loadWindow? (p : LoadParams) : Option (WinIdx × Window) :=
  match winIdx? p.index, loadRole? p with
  | some i, some role =>
    let w : Window := { base := p.base, size := p.size, readSet := p.readSet, writeSet := p.writeSet, role := role }
    if sizeInRange w && extentsFit w then some (i, w) else none
  | _, _ => none

/-- Base, size and halves are multiples of 64, and each half shares the base's offset within its 4 KiB block (R34,
ALIGN). -/
def aligned (w : Window) : Bool :=
  decide (w.base.toNat % 64 = 0) && decide (w.size.toNat % 64 = 0)
    && w.halves.all fun h => decide (h.1 % 64 = 0) && decide (h.1 % 4096 = w.base.toNat % 4096)

/-! ## Refusals by the state of the entry and of the table (R35 to R37) -/

/-- BOUND: a BANKED window bound to a robot, or a ROBOT feed named in a binding (R35). -/
def State.entryBound (s : State) (i : WinIdx) : Bool :=
  (s.bankRobot? i).isSome
    || allRobots.any fun r =>
         match s.bound? r with
         | some b => decide (b.feed = i)
         | none   => false

/-- The service session is CLAIMED, GRANTED or RETURNING (R35). -/
def State.inSession (s : State) : Bool :=
  match s.svc.state with
  | .claimed   => true
  | .granted   => true
  | .returning => true
  | _          => false

/-- BUSY: the entry's authority is SERVICE or FROZEN, or it is the SERVICE feed of a session (R35). -/
def State.entryBusy (s : State) (i : WinIdx) : Bool :=
  decide (s.authority? i = some .service) || decide (s.authority? i = some .frozen)
    || (s.isFeed i .service && s.inSession)

/-- The refusal of R35, BOUND before BUSY. -/
def entryRefusal (s : State) (i : WinIdx) : Option Reason :=
  if s.entryBound i then some .bound else if s.entryBusy i then some .busy else none

/-- OVERLAP-CONTROL (R36). -/
def overlapControl (s : State) (w : Window) : Bool := (w.range :: w.halves).any (overlaps s.areaRange)

/-- The two halves of a BANKED window overlap (R36). -/
def Window.halvesMeet (w : Window) : Bool :=
  match w.role with
  | .banked _ _ _ a b => overlaps (a.toNat, a.toNat + w.size.toNat) (b.toNat, b.toNat + w.size.toNat)
  | _                 => false

/-- HIDDEN-OVERLAP (R36): the new range or a new half meets a hidden range of another entry, a new half meets another
LOADED entry's range, the new range or the other new half. -/
def hiddenOverlap (s : State) (i : WinIdx) (w : Window) : Bool :=
  ((w.range :: w.halves).any fun x => (s.hiddenOthers i).any (overlaps x))
    || (w.halves.any fun h => (s.rangesOthers i).any (overlaps h))
    || w.halves.any (overlaps w.range) || w.halvesMeet

/-- The most LOADED feed windows of a kind (Table 2-5). -/
def feedLimit : FeedKind → Nat
  | .time    => 2
  | .robot   => 6
  | .verdict => 3
  | .service => 1

/-- LIMIT: as many other LOADED feed windows of the kind as Table 2-5 allows (R37). -/
def feedLimitReached (s : State) (i : WinIdx) (w : Window) : Bool :=
  match w.role with
  | .feed k _ => decide (feedLimit k ≤ (allWindows.filter fun j => decide (j ≠ i) && s.isFeed j k).length)
  | _         => false

/-- The refusal of a WINDOW LOAD whose parameters pass R34, in the order of R35, R36 and R37. -/
def loadRefusal (s : State) (i : WinIdx) (w : Window) : Option Reason :=
  match entryRefusal s i with
  | some why => some why
  | none =>
    if overlapControl s w then some .overlapControl
    else if hiddenOverlap s i w then some .hiddenOverlap
    else if feedLimitReached s i w then some .limit
    else none

/-! ## Applying and draining (R38 to R40) -/

/-- A window's feed kind. -/
def Window.feedKind? (w : Window) : Option FeedKind :=
  match w.role with
  | .feed k _ => some k
  | _         => none

/-- New contents apply (R38, R43, R75): the entry is LOADED, a FEED window gets an EMPTY assembly slot and a TIME feed a
source. -/
def applyWindow (i : WinIdx) (w : Window) (s : State) : State :=
  let s := s.setEntry i (.loaded w)
  let s := s.setSlot i (w.feedKind?.map fun _ => .empty)
  if w.feedKind? = some .time then createSource i s else s

/-- Old contents cease to apply: a TIME feed's source vanishes (R40, R75). -/
def ceaseWindow (i : WinIdx) (old : Window) (s : State) : State :=
  if old.feedKind? = some .time then vanishSource i s else s

/-- No in-flight entry checked against the index remains (R40). -/
def drainReady (s : State) (i : WinIdx) : Bool := s.path.inflight.all fun e => decide (e.checked ≠ .window i)

/-- The drain ends: the entry becomes EMPTY or takes its new contents, and the command completes DONE (R40). No rule orders
the notices of a vanishing TIME source against the completion and the head word: the notices come first (log 46). -/
def finishDrain (i : WinIdx) (s : State) : State :=
  match s.entry i with
  | .draining old none =>
    completeDone (ceaseWindow i old ((s.setEntry i .empty).setSlot i none))
  | .draining old (some new) =>
    completeDone (applyWindow i new (ceaseWindow i old ((s.setEntry i .empty).setSlot i none)))
  | _ => s

/-- A load or drop of a LOADED entry starts a drain: the entry is DRAINING and its assembly slot is emptied (R39); the
drain may end at once (R40). -/
def startDrain (i : WinIdx) (old : Window) (new : Option Window) (s : State) : State :=
  let s := s.setEntry i (.draining old new)
  let s := s.setSlot i ((s.slot? i).map fun _ => .empty)
  if drainReady s i then finishDrain i s else s.setPhase (.executing (.drain i))

/-- WINDOW LOAD (R34 to R39). -/
def windowLoadAct (p : LoadParams) (s : State) : State :=
  match loadWindow? p with
  | none => completeRefused .range s
  | some (i, w) =>
    if !aligned w then completeRefused .align s
    else
      match loadRefusal s i w with
      | some why => completeRefused why s
      | none =>
        match (s.entry i).contents? with
        | none     => completeDone (applyWindow i w s)
        | some old => startDrain i old (some w) s

/-- WINDOW DROP (R41). -/
def windowDropAct (index : Byte) (s : State) : State :=
  match winIdx? index with
  | none => completeRefused .range s
  | some i =>
    match (s.entry i).contents? with
    | none => completeDone s
    | some old =>
      match entryRefusal s i with
      | some why => completeRefused why s
      | none     => startDrain i old none s

/-- The index whose drain the executing command waits for (R40). -/
def drainIndex? (s : State) : Option WinIdx :=
  match s.cmd.phase with
  | .executing (.drain i) => some i
  | _                     => none

/-- The end of a drain that waited (R40). -/
def drainEndAct (s : State) : State :=
  match drainIndex? s with
  | some i => if s.running && drainReady s i then finishDrain i s else s
  | none   => s

end Sys2Proof.Machine
end

