-- ==== Sys2Proof/Machine/Snapshots.lean ====
section
/-! DEFINITION. The snapshot kinds and their layouts (R167, R169, Table 10-12). A byte of an absent value that neither
R169 nor Table 10-12 gives an encoding is a free byte (log 12). -/

namespace Sys2Proof.Machine
open Sys2Proof

/-- The snapshot kinds (Table 10-12). -/
inductive SnapshotKind
  | identity
  | windows
  | robots
  | tracking
  | clock
  | service
  deriving DecidableEq, Repr

/-- The kind a code names (Table 10-12). -/
def snapshotKind? (b : Byte) : Option SnapshotKind :=
  match b.toNat with
  | 1 => some .identity
  | 2 => some .windows
  | 3 => some .robots
  | 4 => some .tracking
  | 5 => some .clock
  | 6 => some .service
  | _ => none

/-- A flags byte of an absent structure: the bits of `mask` are open, the others 0 (log 12). -/
def openBits (count off mask : Nat) : List Byte := [Config.openByte count off &&& BitVec.ofNat 8 mask]

/-- An optional 4-byte address or 1-byte set as bytes, open when absent (log 12). -/
def optVec {n : Nat} (count off len : Nat) (v : Option (BitVec n)) : List Byte := optBytes count off len (v.map (·.toNat))

/-! ## IDENTITY -/

/-- The IDENTITY snapshot (64 B). -/
def identityBytes (s : State) : List Byte :=
  leBytes 4 0x412 ++ b1 1 ++ b1 s.pins.strap.val ++ b1 32 ++ b1 6 ++ b1 8 ++ b1 4 ++ b1 16 ++ zeroBytes 1
    ++ leBytes 2 128 ++ leBytes 2 512 ++ zeroBytes 48

/-! ## WINDOWS -/

/-- Codes of the window states (Table 10-4). -/
def WinState.code : WinState → Nat
  | .empty       => 0
  | .loaded _    => 1
  | .draining .. => 2

/-- Codes of the roles (Table 10-4). -/
def Role.code : Role → Nat
  | .plain _    => 1
  | .guarded .. => 2
  | .banked ..  => 3
  | .feed ..    => 4

/-- The stamp of a role, if it has one. -/
def Role.stamp? : Role → Option StampAt
  | .plain st  => st
  | .feed _ st => st
  | _          => none

/-- The service-eligible mark: no for the roles that cannot be eligible (R34). -/
def Role.eligible : Role → Bool
  | .guarded e _      => e
  | .banked e _ _ _ _ => e
  | _                 => false

/-- The authority of a role, if it has one (R28). -/
def Role.authority? : Role → Option Authority
  | .guarded _ a      => some a
  | .banked _ a _ _ _ => some a
  | _                 => none

/-- The robot number and halves of a role, if it is BANKED. -/
def Role.bank? : Role → Option (RobotIdx × Addr × Addr)
  | .banked _ _ r a b => some (r, a, b)
  | _                 => none

/-- One entry of the WINDOWS snapshot at offset `o` (32 B); a DRAINING entry shows its old contents. -/
def windowBytes (c o : Nat) (e : WinState) : List Byte :=
  let w := e.contents?
  b1 e.code
    ++ optBytes c (o + 1) 1 (w.map fun w => w.role.code)
    ++ optBytes c (o + 2) 1 (w.bind fun w => w.feedKind?.map feedKindCode)
    ++ optBytes c (o + 3) 1 (w.map fun w => (w.role.stamp?.map StampAt.offset).getD 0)
    ++ (match w with
        | some w => b1 (bit w.role.eligible 0)
        | none   => openBits c (o + 4) 1)
    ++ optBytes c (o + 5) 1 (w.bind fun w => w.role.authority?.map Authority.code)
    ++ optVec c (o + 6) 1 (w.map (·.readSet)) ++ optVec c (o + 7) 1 (w.map (·.writeSet))
    ++ optVec c (o + 8) 4 (w.map (·.base)) ++ optVec c (o + 12) 4 (w.map (·.size))
    ++ optVec c (o + 16) 4 (w.bind fun w => w.role.bank?.map (·.2.1))
    ++ optVec c (o + 20) 4 (w.bind fun w => w.role.bank?.map (·.2.2))
    ++ [robotByte (w.bind fun w => w.role.bank?.map (·.1))] ++ zeroBytes 7

/-- The WINDOWS snapshot (1,024 B). -/
def windowsBytes (c : Nat) (s : State) : List Byte := allWindows.flatMap fun i => windowBytes c (32 * i.val) (s.entry i)

/-! ## ROBOTS -/

/-- A pending or next request's byte at offset `o`: present, confirm, origin SERVICE. -/
def requestByte (c o : Nat) : Option PublishRequest → List Byte
  | some q => b1 (bit true 0 + bit q.confirm 1 + bit (decide (q.origin = .service)) 2)
  | none   => openBits c o 6

/-- A pending or next sequence; absent, its presence bit is clear and it is zero (R169). -/
def requestSeq (q : Option PublishRequest) : List Byte := leBytes 2 ((q.map PublishRequest.seq).getD 0).toNat

/-- The next cycle boundary, if the 8 bytes of the ROBOTS snapshot can hold it (log 47). -/
def Bound.shownBoundary (b : Bound) : Option Nat := if b.nextBoundary < 2 ^ 64 then some b.nextBoundary else none

/-- One record of the ROBOTS snapshot at offset `o` (64 B). An unbound record has no flag set (R93, R111, log 33). The
boundaries to deadline are open while no deadline runs, and the next cycle boundary where its 8 bytes do not hold it
(log 47). -/
def robotBytes (c o : Nat) (r : Option Bound) : List Byte :=
  (match r with
   | some b => b1 (bit true 0 + bit b.unbinding 1 + bit b.review 2 + bit b.grantHold 3 + bit b.confirmPending 4)
   | none   => b1 0)
    ++ [winByte (r.map (·.bank))] ++ [winByte (r.map (·.feed))] ++ [tagByte (r.map (·.reader))]
    ++ optBytes c (o + 4) 4 (r.map (·.period))
    ++ optBytes c (o + 8) 1 (r.map (·.echoLimit)) ++ optBytes c (o + 9) 1 (r.map (·.nudgeCount))
    ++ optBytes c (o + 10) 1 (r.map fun b => if b.published = .a then 0 else 1)
    ++ optBytes c (o + 11) 1 (r.map fun b => b.publish.code)
    ++ leBytes 2 ((r.map Bound.publishedSeq).getD 0).toNat
    ++ requestByte c (o + 14) (r.bind (·.pendingReq)) ++ requestByte c (o + 15) (r.bind (·.nextReq))
    ++ requestSeq (r.bind (·.pendingReq)) ++ requestSeq (r.bind (·.nextReq))
    ++ optBytes c (o + 20) 1 (r.map fun b => b.echo.code)
    ++ optBytes c (o + 21) 1 (r.bind fun b => if b.echo = .awaiting then some b.toDeadline else none)
    ++ optBytes c (o + 22) 1 (r.map (·.nudgesUsed))
    ++ optBytes c (o + 23) 1 (r.map fun b => modeCode b.mode)
    ++ optBytes c (o + 24) 1 (r.map (·.sinceStatus)) ++ zeroBytes 1
    ++ optVec c (o + 26) 2 (r.map (·.faultCode))
    ++ optBytes c (o + 28) 8 (r.bind Bound.shownBoundary) ++ zeroBytes 28

/-- The ROBOTS snapshot (384 B). -/
def robotsBytes (c : Nat) (s : State) : List Byte := allRobots.flatMap fun r => robotBytes c (64 * r.val) (s.bound? r)

/-! ## TRACKING -/

/-- The header of the TRACKING snapshot (64 B). -/
def trackHeaderBytes (c : Nat) (t : Tracking) : List Byte :=
  let camera (n : Nat) : Option Camera := t.cfg.bind fun g => g.cameras[n]?
  b1 (bit t.cfg.isSome 0) ++ b1 t.line.code
    ++ optBytes c 2 1 (t.cfg.map (·.rejectPocket)) ++ optBytes c 3 1 (t.cfg.map (·.cameras.length))
    ++ optVec c 4 1 (t.cfg.map (·.required)) ++ optBytes c 5 1 (t.cfg.map fun g => g.unsure.code)
    ++ optBytes c 6 1 (t.cfg.map (·.deadline))
    ++ optBytes c 7 1 ((camera 0).map (·.station)) ++ optBytes c 8 1 ((camera 1).map (·.station))
    ++ optBytes c 9 1 ((camera 2).map (·.station))
    ++ [winByte ((camera 0).map (·.feed))] ++ [winByte ((camera 1).map (·.feed))] ++ [winByte ((camera 2).map (·.feed))]
    ++ b1 t.filled.length
    ++ optBytes c 14 2 (t.cfg.map (·.target)) ++ optBytes c 16 2 (t.cfg.map (·.tolerance))
    ++ leBytes 2 t.lineStopMs
    ++ optBytes c 20 4 (t.cfg.map (·.delay)) ++ optBytes c 24 4 (t.cfg.map (·.width))
    ++ leBytes 4 (t.nextExit.getD 0).toNat
    ++ b1 (bit t.nextExit.isSome 0 + bit t.interval.isSome 1) ++ zeroBytes 3
    ++ optBytes c 36 4 t.interval ++ optBytes c 40 8 t.lastPulse ++ zeroBytes 16

/-- The judgement of a bottle (Table 10-4). -/
def Bottle.judgement (b : Bottle) : Nat :=
  match b.fill with
  | some f => if f.good then 1 else 2
  | none   => 3

/-- A verdict byte; absent is 0 (Table 10-4). -/
def verdictByte (v : Option (Verdict × BitVec 16)) : List Byte := b1 ((v.map fun v => verdictCode v.1).getD 0)

/-- A BOTTLE entry of the TRACKING snapshot at offset `o` (32 B). -/
def bottleBytes (c o : Nat) (b : Bottle) : List Byte :=
  b1 1
    ++ b1 (bit b.serial.isSome 0 + bit b.windowOpen 1 + bit (b.fill.any (·.stale)) 2 + bit (b.fill.any (·.review)) 3)
    ++ b1 b.judgement ++ [robotByte (b.fill.map (·.robot))] ++ optVec c (o + 4) 1 (b.fill.map (·.valve))
    ++ optBytes c (o + 5) 1 (b.fill.map fun f => fillResultCode f.result)
    ++ optVec c (o + 6) 2 (b.fill.map (·.mass)) ++ leBytes 4 (b.serial.getD 0).toNat
    ++ verdictByte b.verdict0 ++ verdictByte b.verdict1 ++ verdictByte b.verdict2 ++ zeroBytes 1
    ++ optVec c (o + 16) 2 (b.verdict0.map (·.2)) ++ optVec c (o + 18) 2 (b.verdict1.map (·.2))
    ++ optVec c (o + 20) 2 (b.verdict2.map (·.2)) ++ zeroBytes 2 ++ leBytes 8 b.exitStamp

/-- A GAP or PURGED entry of the TRACKING snapshot at offset `o` (32 B): it has no serial, no verdict window, no suspect
marks, no robot and no verdicts (R118, R127, log 33), and what is left of the layout is open. -/
def bareEntryBytes (c o kind : Nat) : List Byte :=
  b1 kind ++ b1 0 ++ openBytes c (o + 2) 1 ++ [absentByte] ++ openBytes c (o + 4) 4 ++ zeroBytes 8
    ++ openBytes c (o + 16) 6 ++ zeroBytes 2 ++ openBytes c (o + 24) 8

/-- A position of the chain at offset `o` (32 B). -/
def chainEntryBytes (c o : Nat) : ChainEntry → List Byte
  | .bottle b => bottleBytes c o b
  | .gap      => bareEntryBytes c o 2
  | .purged   => bareEntryBytes c o 3

/-- The 64 positions of the chain; those at or beyond its length are zero. -/
def chainBytes (c : Nat) (chain : List ChainEntry) : List Byte :=
  (List.range 64).flatMap fun p =>
    match chain[p]? with
    | some e => chainEntryBytes c (64 + 32 * p) e
    | none   => zeroBytes 32

/-- A filled-list record (16 B); an unused record is zero. -/
def filledBytes : Option FillRecord → List Byte
  | none   => zeroBytes 16
  | some f =>
    leBytes 4 f.serial.toNat ++ [robotByte (some f.robot)] ++ [f.valve] ++ b1 (fillResultCode f.result)
      ++ b1 (bit f.good 0 + bit f.stale 1 + bit f.review 2) ++ leBytes 2 f.mass.toNat ++ zeroBytes 6

/-- The TRACKING snapshot (2,368 B). -/
def trackingBytes (c : Nat) (s : State) : List Byte :=
  trackHeaderBytes c s.trk ++ chainBytes c s.trk.chain ++ (List.range 16).flatMap fun n => filledBytes s.trk.filled[n]?

/-! ## CLOCK -/

/-- A source place of the CLOCK snapshot (24 B); its absent values are zero, marked by the last-origin-present bit (R169). -/
def placeBytes (p : Place) : List Byte :=
  [winByte p.window] ++ b1 (bit p.heard 0 + bit p.lastOrigin.isSome 1) ++ [p.lastGrade.getD 0] ++ zeroBytes 1
    ++ leBytes 4 p.pathDelay ++ leBytes 8 (p.lastOrigin.getD 0).toNat ++ leBytes 8 (p.lastAccept.getD 0)

/-- The CLOCK snapshot (128 B). -/
def clockBytes (c : Nat) (s : State) : List Byte :=
  let k := s.clk
  leBytes 8 k.ns.toNat ++ leBytes 4 k.frac.toNat ++ zeroBytes 4 ++ leBytes 8 k.elapsed ++ leBytes 8 k.increment
    ++ intBytes4 k.integral ++ intBytes4 k.rate ++ leBytes 4 k.params.step ++ leBytes 4 k.params.lock
    ++ leBytes 4 k.params.rateLimit ++ leBytes 2 k.params.holdover ++ b1 k.params.pShift ++ b1 k.params.iShift
    ++ b1 k.state.code ++ [winByte k.selected] ++ b1 k.lockCount ++ b1 k.outlierCount
    ++ b1 (bit k.stepped 0 + bit k.silence.isSome 1) ++ zeroBytes 3 ++ optBytes c 64 8 k.silence
    ++ placeBytes k.place0 ++ placeBytes k.place1 ++ zeroBytes 8

/-! ## SERVICE -/

/-- The named robots as a set (10 section 10.2). -/
def robotSet (rs : List RobotIdx) : Nat := (allRobots.map fun r => bit (decide (r ∈ rs)) r.val).sum

/-- The SERVICE snapshot (64 B). -/
def serviceBytes (c : Nat) (s : State) : List Byte :=
  let v := s.svc
  b1 v.state.code
    ++ b1 (bit v.consentWaiting 0 + bit v.claim.isSome 1 + bit v.keepPhase.isSome 2 + bit s.pins.key 3)
    ++ optBytes c 2 1 (v.keepPhase.map fun p => bit p 0)
    ++ b1 ((v.cause.map fun x => x.reason.code).getD 0)
    ++ optBytes c 4 1 (v.claim.map (·.windows.length)) ++ b1 (robotSet v.named)
    ++ optBytes c 6 2 (v.claim.map (·.keepMs)) ++ leBytes 4 v.claimSeq.toNat ++ leBytes 4 v.replySeq.toNat
    ++ claimWindowBytes v.windows ++ leBytes 2 v.consentS ++ leBytes 2 v.lockoutS ++ zeroBytes 4
    ++ leBytes 8 (v.consentTimer.getD 0) ++ leBytes 8 (v.keepTimer.getD 0) ++ leBytes 8 (v.lockoutTimer.getD 0)
    ++ zeroBytes 8

/-! ## The copy and its writes (R167) -/

/-- The copy of the state a kind covers. -/
def snapshotBytes (k : SnapshotKind) (s : State) : List Byte :=
  match k with
  | .identity => identityBytes s
  | .windows  => windowsBytes s.openCount s
  | .robots   => robotsBytes s.openCount s
  | .tracking => trackingBytes s.openCount s
  | .clock    => clockBytes s.openCount s
  | .service  => serviceBytes s.openCount s

/-- The size of a kind's copy (Table 10-12). -/
def snapshotSize : SnapshotKind → Nat
  | .identity => 64
  | .windows  => 1024
  | .robots   => 384
  | .tracking => 2368
  | .clock    => 128
  | .service  => 64

/-- The offsets, in the snapshot area, of the pieces of a copy (R167). -/
def pieceOffsets (size : Nat) : List Nat := (List.range ((size + 127) / 128)).map (128 * ·)

/-- The own writes of a copy, piece by piece; the last one is marked (R167). -/
def writePieces (bytes : List Byte) : List Nat → State → State
  | [], s       => s
  | o :: os, s =>
    writePieces bytes os
      (ownWrite (.snapshot os.isEmpty) (s.areaBase + 0x6000 + o) ((bytes.drop o).take 128) s)

end Sys2Proof.Machine
end

