-- ==== Sys2Proof/Machine/Commands.lean ====
section
/-! DEFINITION. The command unit and reporting: the command ring and its fetch, the commands POLICY ENFORCE, FAULT CLEAR,
REPORTING, SNAPSHOT and FENCE, the consumed word and the published producer (R26, R156, R159, R160, R163 to R168). -/

namespace Sys2Proof.Machine
open Sys2Proof

/-! ## The tail word (R163) -/

/-- The COMMAND-RING fault of a tail value of 64 or more (R163). -/
def ringFault (v : Word) (s : State) : FaultInfo where
  kind := .commandRing
  tag := some 0
  addr := some (BitVec.ofNat 32 (s.areaBase + 8))
  dir := some .write
  window := none
  serial := some (v.setWidth 32)

/-- An observation of the tail word (R163). -/
def commandTailAct (v : Word) (s : State) : State :=
  if h : v.toNat < 64 then
    match s.cmd.ring with
    | .running => { s with cmd := { s.cmd with tail := ⟨v.toNat, h⟩ } }
    | .stopped =>
      if v.toNat = s.cmd.head.val then
        s.noteStatus { s with cmd := { s.cmd with ring := .running, tail := ⟨v.toNat, h⟩ } }
      else s
  else takeFault (ringFault v s) (s.noteStatus { s with cmd := { s.cmd with ring := .stopped } })

/-! ## The fetch (R164) -/

/-- A transaction of the command unit. -/
def OwnKind.ofCommandUnit : OwnKind → Bool
  | .fetch      => true
  | .completion => true
  | .headWord   => true
  | _           => false

/-- The command unit waits for a place in the own queue (R164). -/
def commandUnitWaits (s : State) : Bool :=
  s.path.waiting.any fun w =>
    match w with
    | .txn t => t.kind.ofCommandUnit
    | _      => false

/-- A fetch is to be generated: the ring is RUNNING, no command is executing, the head differs from the tail, and the
unit does not wait for a place (R164). -/
def fetchDue (s : State) : Bool :=
  s.running && decide (s.cmd.ring = .running) && decide (s.cmd.phase = .idle) && decide (s.cmd.head ≠ s.cmd.tail)
    && !commandUnitWaits s

/-- The fetch of the slot at the head: one own read of its 64 bytes (R164). -/
def fetchAct (s : State) : State :=
  ownRead .fetch (s.areaBase + 0x1000 + 64 * s.cmd.head.val) 64 (s.setPhase .fetching)

/-! ## The commands of the command unit and of reporting -/

/-- POLICY ENFORCE (R26). -/
def policyEnforceAct (s : State) : State :=
  completeDone (s.noteStatus { s with win := { s.win with policy := .enforcing } })

/-- A command code not in Table 10-2 (R165). -/
def unknownAct (s : State) : State := completeRefused .unknown s

/-- A named held record becomes free, its mirror write scheduled; a free one stays (R156). -/
def FaultUnit.freeRecord (u : FaultUnit) (n : Fin 8) : FaultUnit :=
  if u.records[n].isSome then FaultUnit.mark { u with records := u.records.set n.val none n.isLt } n else u

/-- The named records become free (R156), their marks set in number order, which the rule leaves open (log 41). -/
def FaultUnit.freeAll (set : Byte) : List (Fin 8) → FaultUnit → FaultUnit
  | [], u      => u
  | n :: ns, u => FaultUnit.freeAll set ns (if set.getLsbD n.val then u.freeRecord n else u)

/-- FAULT CLEAR (R156). The mirror writes and the status word write that it schedules join after its completion (log 49). -/
def faultClearAct (set overflow : Byte) (s : State) : State :=
  if overflow ≠ 0 ∧ overflow ≠ 1 then completeRefused .range s
  else
    let u := FaultUnit.freeAll set allRecords s.flt
    completeDone (s.noteStatus { s with flt := { u with overflow := if overflow = 1 then false else u.overflow } })

/-- Reporting with another enable and mask; disabling clears the dropped flag and count (R160). -/
def Reporting.configure (r : Reporting) (enabled mask : Bool) : Reporting :=
  if enabled then { r with enabled := true, mask := mask }
  else { r with enabled := false, mask := mask, dropped := false, droppedCount := 0 }

/-- REPORTING (R160). The status word write that it schedules joins after its completion (log 49). -/
def reportingAct (enable mask : Byte) (s : State) : State :=
  if (enable ≠ 0 ∧ enable ≠ 1) ∨ (mask ≠ 0 ∧ mask ≠ 1) then completeRefused .range s
  else
    let r := s.rep.configure (decide (enable = 1)) (decide (mask = 1))
    completeDone (State.refreshAttention (s.noteStatus { s with rep := r }))

/-- SNAPSHOT (R167): the copy is taken as the command begins and written piece by piece; the command completes when the
last piece has joined the own queue. -/
def snapshotAct (kind : Byte) (s : State) : State :=
  match snapshotKind? kind with
  | none   => completeRefused .range s
  | some k =>
    let s := writePieces (snapshotBytes k s) (pieceOffsets (snapshotSize k)) s.bumpOpen
    if s.path.waiting.isEmpty then completeDone s else s.setPhase (.executing .snapshotJoin)

/-- The own writes already generated and not answered: those of the own queue and those that wait for a place (R168,
log 8). -/
def unansweredWrites (s : State) : List Nat :=
  (s.path.own.filter (·.body.isSome)).map (·.id)
    ++ s.path.waiting.filterMap fun w =>
         match w with
         | .txn t => if t.body.isSome then some t.id else none
         | _      => none

/-- A FENCE completes: FENCE-DONE with its slot number if notify is set, then the completion (R168). -/
def finishFence (notify : Bool) (s : State) : State :=
  completeDone (if notify then postNotice (.fenceDone s.cmd.head.val) s else s)

/-- FENCE (R168). -/
def fenceAct (notify : Bool) (s : State) : State :=
  match unansweredWrites s with
  | []  => finishFence notify s
  | ids => s.setPhase (.executing (.fence ids notify))

/-- The waiting fence's notify flag, if every write it noted is answered (R168). -/
def fenceReady? (s : State) : Option Bool :=
  match s.cmd.phase with
  | .executing (.fence ids notify) =>
    if ids.all fun n => decide (n ∉ unansweredWrites s) then some notify else none
  | _ => none

/-- The end of a fence that waited (R168). -/
def fenceCompleteAct (s : State) : State :=
  match fenceReady? s with
  | some notify => if s.running then finishFence notify s else s
  | none        => s

/-! ## Running a fetched command (R164, R165) -/

/-- The effect of a command as it begins. -/
def runCommand (c : Command) (s : State) : State :=
  match c with
  | .unknown _           => unknownAct s
  | .policyEnforce       => policyEnforceAct s
  | .windowLoad p        => windowLoadAct p s
  | .windowDrop i        => windowDropAct i s
  | .robotBind p         => robotBindAct p s
  | .robotUnbind r       => robotUnbindAct r s
  | .trackSetup p        => trackSetupAct p s
  | .trackClear          => trackClearAct s
  | .clockSet t          => clockSetAct t s
  | .clockTune p         => clockTuneAct p s
  | .serviceSetup p      => serviceSetupAct p s
  | .serviceConsent d q  => serviceConsentAct d q s
  | .serviceRevoke       => serviceRevokeAct s
  | .faultClear m o      => faultClearAct m o s
  | .reporting e m       => reportingAct e m s
  | .snapshot k          => snapshotAct k s
  | .fence n             => fenceAct n s

/-- A transaction leaves the own queue (R13). -/
def Path.dropOwn (p : Path) (id : Nat) : Path := { p with own := p.own.filter fun t => decide (t.id ≠ id) }

/-- The outstanding fetch, if memory can answer it: it has been presented (R13, R164). -/
def State.fetchTxn? (s : State) : Option OwnTxn :=
  s.path.own.find? fun t => decide (t.kind = .fetch) && t.presented

/-- The state in which a fetched command begins: the fetch has left the own queue and the command is executing (R164). -/
def State.begun (s : State) (t : OwnTxn) : State :=
  { s with path := s.path.dropOwn t.id, cmd := { s.cmd with phase := .executing .begun } }

/-- Memory answers the outstanding fetch, and the state in which the command begins results, if it can (R13, R164). -/
def State.beginCommand? (s : State) : Option State :=
  if s.running then s.fetchTxn?.map s.begun else none

/-! ## The consumed word and the published producer (R158 to R160) -/

/-- A DROPPED notice takes the first freed slot, and the dropped flag and count clear (R159). -/
def reportDropped (s : State) : State :=
  if s.rep.enabled ∧ s.rep.dropped = true then
    let s' := postNotice (.dropped s.rep.droppedCount s.rep.firstDrop) s
    s'.noteStatus { s' with rep := { s'.rep with dropped := false, droppedCount := 0 } }
  else s

/-- An observation of the notice consumed word (R159, R160). -/
def noticeConsumedAct (v : Word) (s : State) : State :=
  if s.rep.consumed < v.toNat ∧ v.toNat ≤ s.rep.producer then
    State.refreshAttention (reportDropped { s with rep := { s.rep with consumed := v.toNat } })
  else s

/-- Memory answers a notice producer word write: the published producer advances and ATTENTION follows (R158, R160). -/
def publishProducer (count : Nat) (s : State) : State :=
  State.refreshAttention { s with rep := { s.rep with published := count } }

end Sys2Proof.Machine
end

