-- ==== Sys2Proof/Machine/Port.lean ====
section
/-! DEFINITION. The memory port: the arbiter, the answers of memory, joining the own queue, mirror writes and status word
writes (R9, R12 to R15, R157, R161). -/

namespace Sys2Proof.Machine
open Sys2Proof

/-! ## The arbiter (R14, R15) -/

/-- The oldest own transaction not yet presented (R14). -/
def Path.nextOwn? (p : Path) : Option OwnTxn := p.own.find? fun t => !t.presented

/-- An own read is held back by a passing write it must follow (R15). -/
def Path.blocked (p : Path) (t : OwnTxn) : Bool := p.passing.any fun x => decide (x.id ∈ t.after)

/-- The class the arbiter presents now, if a transaction waits (R14, R15): with both classes waiting the class it did not
present last time, and at the first such choice after a reset the passing stream, whatever went alone before it. -/
def Path.choose (p : Path) : Option PortClass :=
  match p.passing, p.nextOwn? with
  | [], none        => none
  | [], some _      => some .own
  | _ :: _, none    => some .passing
  | _ :: _, some t  => if p.blocked t || decide (p.last ≠ some .passing) then some .passing else some .own

/-- Both classes have a transaction waiting (R14). -/
def Path.bothWait (p : Path) : Bool := !p.passing.isEmpty && p.nextOwn?.isSome

/-- The class presented last once `c` is presented. A transaction that goes alone before the first choice with both classes
waiting leaves that choice to come; one that R15 decides is such a choice (R14, log 34). -/
def Path.lastAfter (p : Path) (c : PortClass) : Option PortClass := if p.last.isSome || p.bothWait then some c else none

/-- The head of the passing stream is presented to memory (R12). -/
def Path.presentPassing (p : Path) : Path :=
  match p.passing with
  | []      => p
  | t :: ts => { p with passing := ts, downstream := p.downstream ++ [t], last := p.lastAfter .passing }

/-- The first own transaction not yet presented is marked presented. -/
def markPresented : List OwnTxn → List OwnTxn
  | []      => []
  | t :: ts => if t.presented then t :: markPresented ts else { t with presented := true } :: ts

/-- The oldest own transaction not yet presented is presented to memory (R13). -/
def Path.presentOwn (p : Path) : Path := { p with own := markPresented p.own, last := p.lastAfter .own }

/-- The memory port can take a transaction (R14, R15); while the part is held nothing is presented (R16, R17). -/
def presentAct (s : State) : State :=
  if s.running then
    match s.path.choose with
    | none          => s
    | some .passing => { s with path := s.path.presentPassing }
    | some .own     => { s with path := s.path.presentOwn }
  else s

/-! ## Answers to passing transactions (R9) -/

/-- An entry that memory has answered, with the data its response will carry (R9). -/
def Entry.answer (id : Nat) (data : List Byte) (e : Entry) : Entry :=
  if e.id = id then { e with answered := true, data := data } else e

/-- The data an answer brings: the span of a read (log 21), nothing for a write. -/
def PassingTxn.answerData (t : PassingTxn) (data : List Byte) : List Byte :=
  if t.dir = .read then fitBytes t.len data else []

/-- The path after memory's answer to a presented passing transaction: it is no longer outstanding, its entry is
answered, and the ready responses of its tag are given (R9). -/
def Path.answerPassing (p : Path) (t : PassingTxn) (data : List Byte) : Path :=
  let p' := { p with
    downstream := p.downstream.filter fun x => decide (x.id ≠ t.id),
    inflight := p.inflight.map (Entry.answer t.id (t.answerData data)) }
  match p.inflight.find? fun e => decide (e.id = t.id) with
  | some e => giveResponses e.tag p'
  | none   => p'

/-- Memory answers a forwarded transaction; an answer to none that is outstanding is discarded (R9, R16, R17). -/
def passingAnswerAct (id : Nat) (data : List Byte) (s : State) : State :=
  if s.running then
    match s.path.downstream.find? fun t => decide (t.id = id) with
    | some t => { s with path := s.path.answerPassing t data }
    | none   => s
  else s

/-! ## Answers to own transactions (R13) -/

/-- The first own write of the own queue. -/
def Path.firstWrite? (p : Path) : Option OwnTxn := p.own.find? fun t => t.body.isSome

/-- Memory can answer an own transaction: it has been presented, and a write is answered in the order the writes joined
(R13, R158). -/
def Path.canAnswer (p : Path) (t : OwnTxn) : Bool :=
  t.presented && (t.body.isNone || decide (p.firstWrite?.map (·.id) = some t.id))

/-- The first own transaction of the queue that memory can answer and that `want` picks. -/
def State.answerable? (s : State) (want : OwnTxn → Bool) : Option OwnTxn :=
  if s.running then s.path.own.find? fun t => s.path.canAnswer t && want t else none

/-- The state after an own transaction has left the queue (R13). -/
def State.dropOwn (s : State) (t : OwnTxn) : State := { s with path := s.path.dropOwn t.id }

/-- The answer of an own transaction that has left the queue is handed to the unit that waits on it (R13): the command
unit for a fetch, reporting for a producer word, the robot unit for a flip and a copy. -/
def handAnswer (t : OwnTxn) (data : List Byte) (s : State) : State :=
  match t.kind with
  | .fetch                => runCommand (decodeSlot (fitBytes 64 data)) (s.setPhase (.executing .begun))
  | .noticeProducer n     => publishProducer n s
  | .bankFlip r           => swapBank r s
  | .copyRead r off len   => writeCopy r off len data s
  | .copyWrite r off len  => if lastPiece s r off len then endCopy r s else s
  | _                     => s

/-- Memory answers an own transaction; an answer to none that it can answer is discarded (R13, R17). -/
def ownAnswerAct (id : Nat) (data : List Byte) (s : State) : State :=
  match s.answerable? fun t => decide (t.id = id) with
  | some t => handAnswer t data (s.dropOwn t)
  | none   => s

/-- Memory answers the flip's bank-word write of a robot (R103). -/
def swapAct (r : RobotIdx) (s : State) : State :=
  match s.answerable? fun t => decide (t.kind = .bankFlip r) with
  | some t => swapBank r (s.dropOwn t)
  | none   => s

/-- A transaction is a robot's copy read. -/
def OwnKind.isCopyRead (r : RobotIdx) : OwnKind → Bool
  | .copyRead r' _ _ => decide (r' = r)
  | _                => false

/-- Memory answers a robot's copy read: the matching copy write is generated (R104). -/
def copyReadAnswerAct (r : RobotIdx) (data : List Byte) (s : State) : State :=
  match s.answerable? fun t => t.kind.isCopyRead r with
  | some t => handAnswer t data (s.dropOwn t)
  | none   => s

/-- A transaction is the write of the last piece of a robot's copy (R104). -/
def lastCopyWrite (s : State) (r : RobotIdx) (t : OwnTxn) : Bool :=
  match t.kind with
  | .copyWrite r' off len => decide (r' = r) && lastPiece s r off len
  | _                     => false

/-- Memory answers the last copy write of a robot: the copy ends (R106). -/
def copyEndAct (r : RobotIdx) (s : State) : State :=
  match s.answerable? (lastCopyWrite s r) with
  | some t => endCopy r (s.dropOwn t)
  | none   => s

/-- A transaction is a notice producer word write. -/
def OwnKind.isNoticeProducer : OwnKind → Bool
  | .noticeProducer _ => true
  | _                 => false

/-- Memory answers a notice producer word write (R158, R160). -/
def noticeProducerAnswerAct (s : State) : State :=
  match s.answerable? fun t => t.kind.isNoticeProducer with
  | some t => handAnswer t [] (s.dropOwn t)
  | none   => s

/-! ## Mirror writes and status word writes (R157, R161) -/

/-- A write whose values are taken as it joins the own queue (R157, R161). -/
def joinWrite (kind : OwnKind) (addr : Nat) (body : List Byte) (s : State) : State :=
  let p := s.path
  { s with path := { p with own := p.own ++ [p.newTxn kind addr body.length (some body)], nextId := p.nextId + 1 } }

/-- The FAULT-NEW notices of a record's creations, in the order of creation (R157). -/
def postCreations (n : Fin 8) : List Creation → State → State
  | [], s      => s
  | c :: cs, s =>
    postCreations n cs (if c.record = n then postNotice (.faultNew n c.kind c.tag c.window) s else s)

/-- The mirror write of the record marked first joins the own queue: it takes the record's values, its mark clears, and
the FAULT-NEW notices of its creations follow (R157). -/
def joinMirror (s : State) : State :=
  match s.flt.marks with
  | []      => s
  | n :: ns =>
    let created := s.flt.created
    let s := joinWrite (.mirror n) (s.areaBase + 0x3000 + 32 * n.val) (mirrorBytes s.openCount s.flt.records[n]) s
    let s := { s.bumpOpen with
      flt := { s.flt with marks := ns, created := created.filter fun c => decide (c.record ≠ n) } }
    postCreations n created s

/-- The status word write joins the own queue with the fields' values (R161). -/
def joinStatus (s : State) : State :=
  if s.rep.statusMark then
    let s' := joinWrite .statusWord s.areaBase s.statusFields.bytes s
    { s' with rep := { s'.rep with statusMark := false } }
  else s

/-- A place is free in the own queue (R13). -/
def Path.placeFree (p : Path) : Bool := decide (p.own.length < Config.ownPlaces)

/-- The transactions waiting for a place, less their first. -/
def State.popWaiter (s : State) : State := { s with path := { s.path with waiting := s.path.waiting.tail } }

/-- A waiter joins the line for a place, if it is not in it yet (R13). -/
def State.awaitPlace (s : State) (w : Waiter) : State :=
  if w ∈ s.path.waiting then s else { s with path := { s.path with waiting := s.path.waiting ++ [w] } }

/-- A unit whose write takes its values at the join joins when a place is free and no other unit waits before it, and
waits for a place otherwise (R13, R157, R161). It begins to wait when this row finds no place for it, not at the mark
(log 35). -/
def joinOrWait (w : Waiter) (join : State → State) (s : State) : State :=
  if s.path.placeFree && s.path.waiting.isEmpty then join s
  else if s.path.placeFree && decide (s.path.waiting.head? = some w) then join s.popWaiter
  else s.awaitPlace w

/-- A marked record's mirror write (R157). It is a step of its own, so it joins after every own write that the step which set
the mark generates (log 49). -/
def mirrorWriteAct (s : State) : State :=
  if s.running && !s.flt.marks.isEmpty then joinOrWait .mirror joinMirror s else s

/-- A scheduled status word write (R161). It is a step of its own, so it joins after every own write that the step which
scheduled it generates (log 49). -/
def statusWordWriteAct (s : State) : State :=
  if s.running && s.rep.statusMark then joinOrWait .status joinStatus s else s

/-! ## Joining the own queue (R13) -/

/-- What follows the join of a transaction that waited for a place (R95, R104, R167): a bind and a snapshot complete with
it, a copy reads its next piece. -/
def afterJoin (k : OwnKind) (s : State) : State :=
  match k with
  | .bankBind r          => if s.cmd.phase = .executing (.bindJoin r) then completeDone s else s
  | .snapshot true       => if s.cmd.phase = .executing .snapshotJoin then completeDone s else s
  | .copyWrite r off len => copyReadAt r (off + len) s
  | _                    => s

/-- A waiting transaction takes a place of the own queue (R13). -/
def joinTxn (t : OwnTxn) (s : State) : State := { s with path := { s.path with own := s.path.own ++ [t] } }

/-- The place that has fallen free goes to the unit that began to wait first (R13). -/
def ownQueueJoinAct (s : State) : State :=
  if s.running && s.path.placeFree then
    match s.path.waiting with
    | []          => s
    | .txn t :: _ => afterJoin t.kind (joinTxn t s.popWaiter)
    | .mirror :: _ => joinMirror s.popWaiter
    | .status :: _ => joinStatus s.popWaiter
  else s

end Sys2Proof.Machine
end

