-- ==== Sys2Proof/Machine/Feeds.lean ====
section
/-! DEFINITION. The feed assembler: the assembly step of a write, the judgement of a completed record, the assembler's
faults and the dispatch of records (R43 to R54). -/

namespace Sys2Proof.Machine
open Sys2Proof

/-! ## One word of an assembly step (R46 to R49) -/

/-- What the handling of a word brings about: a torn record slot with the record sequence of its collected header, or a
completed record. -/
inductive FeedEvent
  | torn (offset : Nat) (serial : Option (BitVec 32))
  | completed (offset : Nat) (record : RawRecord)
  deriving DecidableEq, Repr

/-- The FEED-TORN of a record in collection, if there is one (R46, R48). -/
def Slot.tear : Slot → List FeedEvent
  | .empty               => []
  | .collecting o w0 _ _ => [.torn o (some (headerSeq w0))]

/-- A word 1 written in full (R47). -/
def Slot.takeWord1 (slot : Slot) (offset : Nat) (v : Word) : Slot :=
  match slot with
  | .collecting o w0 w1 w2 => if o = offset then .collecting o w0 (some v) w2 else .collecting o w0 w1 w2
  | .empty                 => .empty

/-- A word 2 written in full (R47). -/
def Slot.takeWord2 (slot : Slot) (offset : Nat) (v : Word) : Slot :=
  match slot with
  | .collecting o w0 w1 w2 => if o = offset then .collecting o w0 w1 (some v) else .collecting o w0 w1 w2
  | .empty                 => .empty

/-- A closing word written in full (R49): it completes the record, tears it for want of a word, or closes a record slot
that has no header. -/
def Slot.close (slot : Slot) (offset : Nat) (v : Word) : Slot × List FeedEvent :=
  match slot with
  | .collecting o w0 w1 w2 =>
    if o = offset then
      match w1, w2 with
      | some w1, some w2 => (.empty, [.completed o { w0 := w0, w1 := w1, w2 := w2, w3 := v }])
      | _, _             => (.empty, [.torn o (some (headerSeq w0))])
    else (slot, [.torn offset none])
  | .empty => (.empty, [.torn offset none])

/-- The handling of word `n` of the window's record grid, written in full with `value` or in part (R45 to R49). -/
def Slot.step (slot : Slot) (n : Nat) (value : Option Word) : Slot × List FeedEvent :=
  let offset := n / 4 * 32
  match value with
  | none   => (.empty, slot.tear)
  | some v =>
    match n % 4 with
    | 0 => (.collecting offset v none none, slot.tear)
    | 1 => (slot.takeWord1 offset v, [])
    | 2 => (slot.takeWord2 offset v, [])
    | _ => slot.close offset v

/-- The words of a step, each with its value if written in full, handled in ascending order (R45). -/
def Slot.steps (slot : Slot) : List (Nat × Option Word) → Slot × List FeedEvent
  | []      => (slot, [])
  | w :: ws =>
    let one := slot.step w.1 w.2
    let rest := Slot.steps one.1 ws
    (rest.1, one.2 ++ rest.2)

/-- The words that a write of `len` bytes at offset `o0` of the window touches, each with its value if the write covers
and enables all of it (R45). -/
def writtenWords (o0 len : Nat) (data : List Byte) (enables : List Bool) : List (Nat × Option Word) :=
  (touchedWords o0 len).map fun n =>
    (n, if coversWord o0 len enables (8 * n) then some (wordAt o0 data (8 * n)) else none)

/-! ## Judging and dispatching (R49 to R54) -/

/-- An assembler fault (R53, Table 3-5). -/
def feedFault (k : FaultKind) (i : WinIdx) (w : Window) (offset : Nat) (serial : Option (BitVec 32)) : FaultInfo where
  kind := k
  tag := (tagsOf w.writeSet).head?
  addr := some (BitVec.ofNat 32 (w.base.toNat + offset))
  dir := some .write
  window := some i
  serial := serial

/-- The robot is bound and its binding names this window as its feed (R52). -/
def State.feedsRobot (s : State) (i : WinIdx) (r : RobotIdx) : Bool :=
  match s.bound? r with
  | some b => decide (b.feed = i)
  | none   => false

/-- The camera is in use and this window is its feed, or tracking is UNCONFIGURED (R52). -/
def State.feedsCamera (s : State) (i : WinIdx) (c : Fin 3) : Bool :=
  match s.trk.cfg with
  | none     => true
  | some cfg =>
    match cfg.cameras[c.val]? with
    | some k => decide (k.feed = i)
    | none   => false

/-- Step 4 of Table 3-3: the subject is bound to this window (R52). -/
def subjectBound (s : State) (i : WinIdx) : Record → Bool
  | .robotStatus r => s.feedsRobot i r.robot
  | .fillReport r  => s.feedsRobot i r.robot
  | .verdict r     => s.feedsCamera i r.camera
  | _              => true

/-- A taken record is handed to its unit (R54, Table 3-6). `stepped` is the machine time at the write's acceptance once a
record of the same write has stepped machine time, and absent before; the answer says so for the next record (R62, R88). -/
def dispatch (src : Source) (rec : Record) (stepped : Option Word) (s : State) : State × Option Word :=
  match rec with
  | .timeSync r       => timeSyncAct src.window r stepped s
  | .robotStatus r    => (robotStatusAct r s, stepped)
  | .fillReport r     => (fillReportAct src r s, stepped)
  | .verdict r        => (verdictAct src r s, stepped)
  | .serviceClaim c   => (serviceClaimAct c s, stepped)
  | .serviceKeep p    => (serviceKeepAct p s, stepped)
  | .serviceRelease   => (serviceReleaseAct s, stepped)
  | .servicePublish p => (servicePublishAct src.seq p s, stepped)

/-- A completed record is judged by Table 3-3 and taken or discarded with a fault (R49 to R53). -/
def judge (i : WinIdx) (w : Window) (kind : FeedKind) (offset : Nat) (r : RawRecord) (stepped : Option Word)
    (s : State) : State × Option Word :=
  let seq := headerSeq r.w0
  let refuse (k : FaultKind) : State × Option Word := (takeFault (feedFault k i w offset (some seq)) s, stepped)
  if !r.whole then refuse .feedTorn
  else if !kind.allows r.typeCode then refuse .feedType
  else
    match r.typed with
    | .badField   => refuse .feedType
    | .badSubject => refuse .feedSubject
    | .good rec   =>
      if subjectBound s i rec then
        dispatch { window := i, slot := BitVec.ofNat 32 (w.base.toNat + offset), seq := seq } rec stepped s
      else refuse .feedSubject

/-- What the handling of the words brought about is acted on, in order (R53, R54). A fault that follows a step of machine time
by an earlier record of the same write is stamped with the time after the step (log 43). -/
def handleEvents (i : WinIdx) (w : Window) (kind : FeedKind) : List FeedEvent → Option Word → State → State
  | [], _, s => s
  | .torn o q :: es, stepped, s => handleEvents i w kind es stepped (takeFault (feedFault .feedTorn i w o q) s)
  | .completed o r :: es, stepped, s =>
    let next := judge i w kind o r stepped s
    handleEvents i w kind es next.2 next.1

/-- The assembly step of an admitted feed-tag write, with its data and enables after stamping (R33, R45). -/
def assemblyStep (i : WinIdx) (w : Window) (kind : FeedKind) (r : LinkRequest) (data : List Byte) (enables : List Bool)
    (s : State) : State :=
  match s.slot? i with
  | none      => s
  | some slot =>
    let result := slot.steps (writtenWords (spanFirst r - w.base.toNat) (spanLen r) data enables)
    handleEvents i w kind result.2 none (s.setSlot i (some result.1))

end Sys2Proof.Machine
end

