-- ==== Sys2Proof/Machine/Link.lean ====
section
/-! DEFINITION. A link request at its presentation: the stalls (R5), the checks of Table 2-2 in order (R22 to R28, R31,
R33), the redirect of a bank (R30, R32, R105), stamping (R55, R56), the observations of watched words (R10), and the
in-flight entry (R8). -/

namespace Sys2Proof.Machine
open Sys2Proof

/-! ## The checks (Table 2-2) -/

/-- The answer of the checks to a well-formed request. -/
inductive CheckResult
  | refuse (kind : FaultKind) (checked : Checked)
  | area
  | unwindowed
  | window (i : WinIdx) (w : Window)
  deriving DecidableEq, Repr

/-- The span lies in the control area; a well-formed span lies wholly inside or wholly outside (R18, R23). -/
def inArea (s : State) (r : LinkRequest) : Bool := touches r s.areaBase (areaSize + s.areaBase)

/-- Every byte of the span lies in a region admitted to tag 0 (R23, Table 2-3). -/
def areaAdmits (s : State) (r : LinkRequest) : Bool :=
  (spanBytes r).all fun a =>
    match r.dir with
    | .read  => readableOffset (a - s.areaBase)
    | .write => writableOffset (a - s.areaBase)

/-- Step 2: the control-area rules (R23). -/
def checkArea (s : State) (r : LinkRequest) : CheckResult :=
  if r.tag = 0 ∧ areaAdmits s r = true then .area else .refuse .control .control

/-- Step 3: any byte in a hidden range (R24). -/
def touchesHidden (s : State) (r : LinkRequest) : Bool := s.hiddenRanges.any fun h => touches r h.1 h.2

/-- The window contains an address. -/
def Window.contains (w : Window) (a : Nat) : Bool := decide (w.range.1 ≤ a) && decide (a < w.range.2)

/-- The entry is LOADED and its range contains the address. -/
def State.rangeHas (s : State) (a : Nat) (i : WinIdx) : Bool :=
  match s.loaded? i with
  | some w => w.contains a
  | none   => false

/-- The governing window of a byte: the LOADED entry of lowest index whose range contains it (R25). -/
def State.governor? (s : State) (a : Nat) : Option WinIdx := allWindows.find? (s.rangeHas a)

/-- The governing windows of the span's bytes, in order (R25). -/
def governors (s : State) (r : LinkRequest) : List (Option WinIdx) := (spanBytes r).map s.governor?

/-- Tag 0 under policy OPEN (R26). -/
def openTagZero (s : State) (r : LinkRequest) : Bool := decide (r.tag = 0) && decide (s.win.policy = .openAll)

/-- Step 5: a write that covers a byte of the bank word (R31). -/
def coversBankWord (w : Window) (r : LinkRequest) : Bool :=
  decide (r.dir = .write) && decide (r.addr.toNat < w.base.toNat + 8)
    && match w.role with
       | .banked .. => true
       | _          => false

/-- Step 6, first half: a write by the reader tag of the bound robot (R31). -/
def readerTagWrite (s : State) (i : WinIdx) (r : LinkRequest) : Bool :=
  decide (r.dir = .write) &&
    match s.bankRobot? i with
    | some (_, b) => decide (r.tag = b.reader)
    | none        => false

/-- Step 6, second half: a write into the reply slot of a SERVICE feed (R33). -/
def replySlotWrite (w : Window) (r : LinkRequest) : Bool :=
  decide (r.dir = .write) && decide (w.feedKind? = some .service) && touches r (w.range.2 - 32) w.range.2

/-- Step 7: the read set or the write set (R27). -/
def rightsPass (s : State) (w : Window) (r : LinkRequest) : Bool :=
  openTagZero s r ||
    match r.dir with
    | .read  => inSet w.readSet r.tag
    | .write => inSet w.writeSet r.tag

/-- What an authority admits of the writes that have passed the rights check (R28, Table 2-4). -/
def Authority.admits (a : Authority) (t : Tag) : Bool :=
  match a with
  | .production => decide (t ≠ 4)
  | .service    => decide (t = 4)
  | .frozen     => false

/-- Step 8: the authority of a GUARDED or BANKED window, for writes (R28). -/
def authorityPass (w : Window) (r : LinkRequest) : Bool :=
  match r.dir, w.role.authority? with
  | .write, some a => a.admits r.tag
  | _, _           => true

/-- Steps 5 to 8 against the governing window; the first that fails decides (R22). -/
def checkWindow (s : State) (i : WinIdx) (w : Window) (r : LinkRequest) : CheckResult :=
  if coversBankWord w r then .refuse .bankWord (.window i)
  else if readerTagWrite s i r || replySlotWrite w r then .refuse .rights (.window i)
  else if !rightsPass s w r then .refuse .rights (.window i)
  else if !authorityPass w r then .refuse .authority (.window i)
  else .window i w

/-- Step 4: one governing window for the whole span (R25), then steps 5 to 8. -/
def checkGoverning (s : State) (r : LinkRequest) : CheckResult :=
  match (governors s r).findSome? id with
  | none   => if openTagZero s r then .unwindowed else .refuse .unmapped .nothing
  | some i =>
    if (governors s r).all (· == some i) then
      match s.loaded? i with
      | some w => checkWindow s i w r
      | none   => .refuse .straddle (.window i)
    else .refuse .straddle (.window i)

/-- The checks of Table 2-2 on a well-formed request, in order; the first that fails decides (R22). -/
def checkRequest (s : State) (r : LinkRequest) : CheckResult :=
  if inArea s r then checkArea s r
  else if touchesHidden s r then .refuse .hidden .nothing
  else checkGoverning s r

/-! ## Stalls (R5) -/

/-- The span touches the old range, the new range or a new half of a DRAINING entry (R39). -/
def WinState.stalls (e : WinState) (r : LinkRequest) : Bool :=
  match e with
  | .draining old new =>
    (old.range :: (match new with
                   | some w => w.range :: w.halves
                   | none   => [])).any fun x => touches r x.1 x.2
  | _ => false

/-- Some DRAINING entry stalls the request (R5, R39). -/
def drainStalls (s : State) (r : LinkRequest) : Bool := allWindows.any fun i => (s.entry i).stalls r

/-- The hold queue is full (R105). -/
def holdFull (s : State) : Bool := decide (Config.holdPlaces ≤ s.hold.length)

/-- A read by the reader tag of a bank's robot (R30). -/
def isReaderRead (b : Bound) (r : LinkRequest) : Bool := decide (r.dir = .read) && decide (r.tag = b.reader)

/-- An admitted request to a bound bank is stalled: a reader read or a write in FLIPPING, a write in COPYING with the
hold queue full (R32). -/
def bankStalls (s : State) (b : Bound) (r : LinkRequest) : Bool :=
  match b.publish with
  | .flipping => isReaderRead b r || decide (r.dir = .write)
  | .copying  => decide (r.dir = .write) && holdFull s
  | _         => false

/-- An admitted write to a bank in COPYING is HELD (R105). -/
def bankHolds (b : Bound) (r : LinkRequest) : Bool := decide (b.publish = .copying) && decide (r.dir = .write)

/-! ## Entering the in-flight set (R2, R8) -/

/-- The window a request is checked against, as its fault carries it (02 section 2.2.1). -/
def Checked.window? : Checked → Option WinIdx
  | .window i => some i
  | _         => none

/-- The fault of a refused request (R7). -/
def requestFault (k : FaultKind) (checked : Checked) (r : LinkRequest) : FaultInfo where
  kind := k
  tag := some r.tag
  addr := some r.addr
  dir := some r.dir
  window := checked.window?
  serial := none

/-- The in-flight entry of a request at its acceptance (Table 1-4). -/
def entryOf (s : State) (r : LinkRequest) (d : Disposition) (checked : Checked) (half : Option Half)
    (readerRead : Bool) (forwarded : Option Addr) : Entry where
  id := s.path.nextId
  tag := r.tag
  dir := r.dir
  first := spanFirst r
  last := spanLast r
  disposition := d
  checked := checked
  half := half
  readerRead := readerRead
  forwarded := forwarded
  answered := decide (d = .refused)
  data := if d = .refused then refusedData r else []

/-- An entry joins the in-flight set (R8). -/
def State.addEntry (s : State) (e : Entry) : State :=
  { s with path := { s.path with inflight := s.path.inflight ++ [e], nextId := s.path.nextId + 1 } }

/-- The reader-read mark of a refused request: it is a read by the reader tag of the robot bound to the window it is
checked against (Table 1-4, which makes no exception for REFUSED; a STRADDLE counts too, log 42). -/
def refusedReaderRead (s : State) (checked : Checked) (r : LinkRequest) : Bool :=
  match checked with
  | .window i =>
    match s.bankRobot? i with
    | some (_, b) => isReaderRead b r
    | none        => false
  | _ => false

/-- A request is accepted and refused: one fault, and a REFUSED response in its tag's order (R7, R9). -/
def refuseRequest (k : FaultKind) (checked : Checked) (r : LinkRequest) (s : State) : State :=
  let s := s.addEntry (entryOf s r .refused checked none (refusedReaderRead s checked r) none)
  let s := takeFault (requestFault k checked r) s
  { s with path := giveResponses r.tag s.path }

/-- A request is accepted and FORWARDED: it joins the passing stream with its forwarded address, data and enables (R12). -/
def forwardRequest (checked : Checked) (half : Option Half) (readerRead : Bool) (addr : Addr) (r : LinkRequest)
    (data : List Byte) (enables : List Bool) (s : State) : State :=
  let t : PassingTxn :=
    { id := s.path.nextId, dir := r.dir, addr := addr, len := spanLen r, data := data, enables := enables }
  let s := s.addEntry (entryOf s r .forwarded checked half readerRead (some addr))
  { s with path := { s.path with passing := s.path.passing ++ [t] } }

/-- A write is accepted and HELD: it takes a place of the hold queue (R105). -/
def holdRequest (checked : Checked) (half : Half) (robot : RobotIdx) (addr : Addr) (r : LinkRequest) (s : State) : State :=
  let h : HeldWrite :=
    { robot := robot, id := s.path.nextId, tag := r.tag, addr := addr, data := r.data, enables := r.enables }
  let s := s.addEntry (entryOf s r .held checked (some half) false (some addr))
  { s with hold := s.hold ++ [h] }

/-! ## Banks (R30, R32, R105) -/

/-- The half a request to a BANKED window is sent to, with the reader-read mark (R30). -/
def chooseHalf (b : Option (RobotIdx × Bound)) (r : LinkRequest) : Half × Bool :=
  match b with
  | none        => (.a, false)
  | some (_, b) => if isReaderRead b r then (b.published, true) else (b.published.other, false)

/-- The redirected address (R30). -/
def redirect (k : Bank) (h : Half) (w : Window) (r : LinkRequest) : Addr :=
  BitVec.ofNat 32 (k.half h + (r.addr.toNat - w.base.toNat))

/-- An admitted request to a BANKED window: stalled, HELD or FORWARDED to its half (R30, R32, R105). -/
def bankRequest (i : WinIdx) (w : Window) (k : Bank) (r : LinkRequest) (s : State) : State :=
  let robot := s.bankRobot? i
  let half := chooseHalf robot r
  let addr := redirect k half.1 w r
  match robot with
  | none => forwardRequest (.window i) (some half.1) half.2 addr r r.data r.enables s
  | some (n, b) =>
    if bankStalls s b r then s
    else if bankHolds b r then holdRequest (.window i) half.1 n addr r s
    else forwardRequest (.window i) (some half.1) half.2 addr r r.data r.enables s

/-! ## Plain, guarded and feed windows (R33, R55, R56) -/

/-- The stamp offset that applies to a request: its window has one and the request is a write by a tag of the write set
(R55). -/
def stampFor (w : Window) (r : LinkRequest) : Option StampAt :=
  if r.dir = .write ∧ inSet w.writeSet r.tag = true then w.role.stamp? else none

/-- The write's data and enables after stamping with machine time `time` (R55, R56). -/
def stamped (w : Window) (r : LinkRequest) (time : Nat) : List Byte × List Bool :=
  let o0 := spanFirst r - w.base.toNat
  match stampFor w r with
  | some p => (stampData p o0 (spanLen r) time r.data, stampEnables p o0 (spanLen r) r.enables)
  | none   => (r.data, r.enables)

/-- An admitted request to a PLAIN, GUARDED or FEED window is forwarded, stamped where its window says so; a feed-tag
write is also one assembly step (R33, R55). -/
def windowRequest (i : WinIdx) (w : Window) (r : LinkRequest) (s : State) : State :=
  let body := stamped w r s.time
  let s := forwardRequest (.window i) none false r.addr r body.1 body.2 s
  match w.feedKind? with
  | some kind =>
    if r.dir = .write ∧ inSet w.writeSet r.tag = true then assemblyStep i w kind r body.1 body.2 s else s
  | none => s

/-! ## The control area (R10, R23) -/

/-- An observation is handed to the unit that owns the word (R10). -/
def observe (w : Watched) (v : Word) (s : State) : State :=
  match w with
  | .tail             => commandTailAct v s
  | .noticeConsumed   => noticeConsumedAct v s
  | .decisionConsumed => decisionConsumedAct v s
  | .publish r        => productionPublish r (publishSeq v) (publishConfirm v) s

/-- Observations are handed over in order (R10). -/
def observeAll : List (Watched × Word) → State → State
  | [], s      => s
  | w :: ws, s => observeAll ws (observe w.1 w.2 s)

/-- An admitted request to the control area is forwarded unchanged and, if a write, observed (R10, R23). -/
def areaRequest (r : LinkRequest) (s : State) : State :=
  let seen := if r.dir = .write then observations s.areaBase r else []
  observeAll seen (forwardRequest .control none false r.addr r r.data r.enables s)

/-! ## The request (R2 to R6) -/

/-- A well-formed request that no limit and no drain stalls is decided by the checks (R22, R32). -/
def decideRequest (r : LinkRequest) (s : State) : State :=
  match checkRequest s r with
  | .refuse k checked => refuseRequest k checked r s
  | .area             => areaRequest r s
  | .unwindowed       => forwardRequest .nothing none false r.addr r r.data r.enables s
  | .window i w       =>
    match s.bank? i with
    | some k => bankRequest i w k r s
    | none   => windowRequest i w r s

/-- A link request is presented as its tag's head: it is left on the link (R5), refused, or accepted (R2, R6). A stalled
request changes nothing; the interconnect presents it again (log 5). -/
def linkRequestAct (r : LinkRequest) (s : State) : State :=
  if !s.running then s
  else if Config.tagLimit ≤ s.tagCount r.tag then s
  else if malformed r then refuseRequest .linkForm .nothing r s
  else if drainStalls s r then s
  else decideRequest r s

end Sys2Proof.Machine
end

