-- ==== Sys2Proof/Machine/Resets.lean ====
section
/-! DEFINITION. POWER-GOOD, CABINET RESET and KEY as levels: the fall and rise of POWER-GOOD, the assertion and release of
CABINET RESET (R16, R17, R18, R42, R92, R114, R115, R137, R138, R154, R162, R163, R166). -/

namespace Sys2Proof.Machine
open Sys2Proof

/-- POWER-GOOD falls: the part is held and REJECT, MARK and ATTENTION are low; CODE is low with it, by
`State.codeLevel` (R16, R68; log 26). -/
def powerFallAct (s : State) : State :=
  { s with pins := { s.pins with powerGood := false, reject := false, mark := false, attention := false } }

/-- POWER-GOOD rises: power reset (R16). -/
def powerRiseAct (straps : Fin 16) (s : State) : State :=
  if s.pins.powerGood then s
  else State.powerReset straps s.pins.key s.pins.cabinetReset s.path.nextId s.openCount s.path.responses s.pending

/-- The transaction path at the assertion of CABINET RESET (R17, Table 1-5). -/
def Path.abandoned (p : Path) : Path :=
  { p with inflight := [], passing := [], downstream := [], own := [], waiting := [], last := none }

/-- The clock unit at the assertion of CABINET RESET (R92): both places stop holding sources and keep their path delays,
the selection becomes none, everything else is kept. The SOURCE-CHANGE is discarded (R162). -/
def Clock.cabinetReset (c : Clock) : Clock :=
  { c with place0 := Place.vacant c.place0.pathDelay, place1 := Place.vacant c.place1.pathDelay, selected := none }

/-- Every block in its cabinet-reset state at the assertion (log 16): the session CLOSED until the release reads KEY, no
write scheduled until the release schedules them. -/
def State.cabinetHeld (s : State) : State :=
  { s with
    pins := { s.pins with cabinetReset := true, reject := false, attention := false }
    path := s.path.abandoned
    win := WindowUnit.reset
    feeds := Vector.replicate 32 none
    clk := s.clk.cabinetReset
    robots := Vector.replicate 6 none
    hold := []
    trk := Tracking.reset
    svc := Session.reset false
    flt := { s.flt with marks := [] }
    cmd := CommandUnit.reset
    rep := { Reporting.reset with statusMark := false } }

/-- CABINET RESET is asserted (R17); while POWER-GOOD is low only its level is noted (log 30). -/
def cabinetAssertAct (s : State) : State :=
  if s.pins.cabinetReset then s
  else if s.pins.powerGood then s.cabinetHeld
  else { s with pins := { s.pins with cabinetReset := true } }

/-- The state right after the release of CABINET RESET: the straps sampled, the head word write made, the eight mirror
writes and the status word write scheduled, the session by KEY, REJECT and ATTENTION low (R17, R18, R115, R137, R154,
R160, R161, R163). The mirror marks are set in number order (log 41). -/
def State.cabinetReleased (s : State) (straps : Fin 16) : State :=
  { s with
    pins := { s.pins with cabinetReset := false, strap := straps, reject := false, attention := false }
    path := Path.reset s.path.nextId straps s.path.responses
    svc := Session.reset s.pins.key
    flt := { s.flt with marks := allRecords }
    cmd := CommandUnit.reset
    rep := Reporting.reset }

/-- CABINET RESET is released (R17); while POWER-GOOD is low only its level is noted (log 30). -/
def cabinetReleaseAct (straps : Fin 16) (s : State) : State :=
  if s.pins.cabinetReset then
    if s.pins.powerGood then s.cabinetReleased straps
    else { s with pins := { s.pins with cabinetReset := false } }
  else s

/-- KEY takes a level: a change is one event of the service unit while the part runs (R138). -/
def keyAct (level : Bool) (s : State) : State :=
  if s.pins.key = level then s
  else
    let s := { s with pins := { s.pins with key := level } }
    if s.running then (if level then keyOnAct s else keyOffAct s) else s

end Sys2Proof.Machine
end

