-- ==== Sys2Proof/Machine/ExecLink.lean ====
section
/-! DEFINITION. The meanings of the rows of the link, the memory port, the watched words and the resets (01, and R135,
R159, R163 for the watched words). -/

namespace Sys2Proof.Machine
open Sys2Proof

/-- The outcome of every command: the part never stops. -/
abbrev Result := Host.Outcome State Fault Refusal

/-- An event that the part takes only while it runs (R16, R17). -/
def whenRunning (act : State → State) (s : State) : State := if s.running then act s else s

/-- LINK_REQUEST (R2): the link presents a request as its tag's head. -/
def execLinkRequest (r : LinkRequest) (s : State) : Result := .next (linkRequestAct r s)

/-- COMMAND_TAIL_WRITE (R163): the tail word is observed. -/
def execCommandTailWrite (v : Word) (s : State) : Result := .next (whenRunning (commandTailAct v) s)

/-- NOTICE_CONSUMED_WRITE (R159): the notice consumed word is observed. -/
def execNoticeConsumedWrite (v : Word) (s : State) : Result := .next (whenRunning (noticeConsumedAct v) s)

/-- DECISION_CONSUMED_WRITE (R135): the decision consumed word is observed. -/
def execDecisionConsumedWrite (v : Word) (s : State) : Result := .next (whenRunning (decisionConsumedAct v) s)

/-- PUBLISH_WORD_WRITE (R98): a robot's publish word is observed. -/
def execPublishWordWrite (robot : RobotIdx) (v : Word) (s : State) : Result :=
  .next (whenRunning (productionPublish robot (publishSeq v) (publishConfirm v)) s)

/-- MEMORY_PORT_PRESENT (R14): the memory port can take a transaction. -/
def execMemoryPortPresent (s : State) : Result := .next (presentAct s)

/-- PASSING_ANSWER (R9): memory answers the forwarded transaction `id`. -/
def execPassingAnswer (id : Nat) (data : List Byte) (s : State) : Result := .next (passingAnswerAct id data s)

/-- OWN_ANSWER (R13): memory answers the own transaction `id`. -/
def execOwnAnswer (id : Nat) (data : List Byte) (s : State) : Result := .next (ownAnswerAct id data s)

/-- OWN_QUEUE_JOIN (R13): the free place goes to the first unit that waits. -/
def execOwnQueueJoin (s : State) : Result := .next (ownQueueJoinAct s)

/-- POWER_GOOD_FALL (R16). -/
def execPowerGoodFall (s : State) : Result := .next (powerFallAct s)

/-- POWER_GOOD_RISE (R16, R18). -/
def execPowerGoodRise (straps : Fin 16) (s : State) : Result := .next (powerRiseAct straps s)

/-- CABINET_RESET_ASSERT (R17). -/
def execCabinetResetAssert (s : State) : Result := .next (cabinetAssertAct s)

/-- CABINET_RESET_RELEASE (R17, R18). -/
def execCabinetResetRelease (straps : Fin 16) (s : State) : Result := .next (cabinetReleaseAct straps s)

end Sys2Proof.Machine
end

