-- ==== Sys2Proof/Machine/ExecCommands.lean ====
section
/-! DEFINITION. The meanings of the rows of the command ring (10 section 10.2): the fetch, the commands as memory's answer
to the fetch brings them, and the ends of the commands that wait. -/

namespace Sys2Proof.Machine
open Sys2Proof

/-- Memory answers the outstanding fetch with a command, which begins (R164). Without a fetch that memory can answer the
event cannot happen, and nothing changes (log 2). -/
def onCommand (act : State → State) (s : State) : State :=
  match s.beginCommand? with
  | some s' => act s'
  | none    => s

/-- COMMAND_FETCH (R164). -/
def execCommandFetch (s : State) : Result := .next (if fetchDue s then fetchAct s else s)

/-- UNKNOWN_COMMAND (R165): the fetched slot holds a code that is not in Table 10-2. -/
def execUnknownCommand (code : Byte) (s : State) : Result :=
  .next (if knownCode code then s else onCommand unknownAct s)

/-- POLICY_ENFORCE (R26). -/
def execPolicyEnforce (s : State) : Result := .next (onCommand policyEnforceAct s)

/-- WINDOW_LOAD (R34 to R39). -/
def execWindowLoad (p : LoadParams) (s : State) : Result := .next (onCommand (windowLoadAct p) s)

/-- WINDOW_DROP (R41). -/
def execWindowDrop (index : Byte) (s : State) : Result := .next (onCommand (windowDropAct index) s)

/-- DRAIN_END (R40). -/
def execDrainEnd (s : State) : Result := .next (drainEndAct s)

/-- ROBOT_BIND (R94, R95). -/
def execRobotBind (p : BindParams) (s : State) : Result := .next (onCommand (robotBindAct p) s)

/-- ROBOT_UNBIND (R96). -/
def execRobotUnbind (robot : Byte) (s : State) : Result := .next (onCommand (robotUnbindAct robot) s)

/-- The robot whose unbind the executing command waits for (R96). -/
def unbindRobot? (s : State) : Option RobotIdx :=
  match s.cmd.phase with
  | .executing (.unbind r) => some r
  | _                      => none

/-- UNBIND_COMPLETE's condition: the unbinding robot is IDLE, without a reader read of its published half (R96). -/
def unbindDue? (s : State) : Option RobotIdx :=
  (unbindRobot? s).filter fun r => s.running && unbindReady s r

/-- UNBIND_COMPLETE (R96). -/
def execUnbindComplete (s : State) : Result :=
  .next (match unbindDue? s with
         | some r => finishUnbind r s
         | none   => s)

/-- TRACK_SETUP (R116, R117). -/
def execTrackSetup (p : TrackParams) (s : State) : Result := .next (onCommand (trackSetupAct p) s)

/-- TRACK_CLEAR (R118). -/
def execTrackClear (s : State) : Result := .next (onCommand trackClearAct s)

/-- CLOCK_SET (R89). -/
def execClockSet (time : Word) (s : State) : Result := .next (onCommand (clockSetAct time) s)

/-- CLOCK_TUNE (R90, R91). -/
def execClockTune (p : TuneParams) (s : State) : Result := .next (onCommand (clockTuneAct p) s)

/-- SERVICE_SETUP (R152). -/
def execServiceSetup (p : ServiceParams) (s : State) : Result := .next (onCommand (serviceSetupAct p) s)

/-- SERVICE_CONSENT (R143). -/
def execServiceConsent (decision : Byte) (claim : BitVec 32) (s : State) : Result :=
  .next (onCommand (serviceConsentAct decision claim) s)

/-- SERVICE_REVOKE (R147). -/
def execServiceRevoke (s : State) : Result := .next (onCommand serviceRevokeAct s)

/-- FAULT_CLEAR (R156). -/
def execFaultClear (set overflow : Byte) (s : State) : Result := .next (onCommand (faultClearAct set overflow) s)

/-- REPORTING (R160). -/
def execReporting (enable mask : Byte) (s : State) : Result := .next (onCommand (reportingAct enable mask) s)

/-- SNAPSHOT (R167). -/
def execSnapshot (kind : Byte) (s : State) : Result := .next (onCommand (snapshotAct kind) s)

/-- FENCE (R168). -/
def execFence (notify : Bool) (s : State) : Result := .next (onCommand (fenceAct notify) s)

/-- FENCE_COMPLETE (R168). -/
def execFenceComplete (s : State) : Result := .next (fenceCompleteAct s)

end Sys2Proof.Machine
end

