-- ==== Sys2Proof/Machine/ExecEvents.lean ====
section
/-! DEFINITION. The meanings of the rows of the records, of time, of the robots, of tracking, of the service session and
of the fault unit and reporting (03 to 09). -/

namespace Sys2Proof.Machine
open Sys2Proof

/-- An event whose own condition holds; otherwise it cannot happen, and nothing changes (log 2). -/
def onEvent (due : Bool) (act : State → State) (s : State) : State := if due then act s else s

/-! ## Records at their dispatch (R54) -/

/-- TIME_SYNC (R76); `accepted` is the machine time of the write's acceptance where an earlier record of the write has stepped
machine time since (R88, log 28). -/
def execTimeSync (src : Source) (rec : TimeSync) (accepted : Option Word) (s : State) : Result :=
  .next (whenRunning (fun s => (timeSyncAct src.window rec accepted s).1) s)

/-- ROBOT_STATUS (R108). -/
def execRobotStatus (_src : Source) (rec : RobotStatus) (s : State) : Result :=
  .next (whenRunning (robotStatusAct rec) s)

/-- FILL_REPORT (R119). -/
def execFillReport (src : Source) (rec : FillReport) (s : State) : Result :=
  .next (whenRunning (fillReportAct src rec) s)

/-- VERDICT (R128). -/
def execVerdict (src : Source) (rec : VerdictRecord) (s : State) : Result :=
  .next (whenRunning (verdictAct src rec) s)

/-- SERVICE_CLAIM (R139, R140). -/
def execServiceClaim (_src : Source) (claim : Claim) (s : State) : Result :=
  .next (whenRunning (serviceClaimAct claim) s)

/-- SERVICE_KEEP (R146). -/
def execServiceKeep (_src : Source) (phase : Bool) (s : State) : Result :=
  .next (whenRunning (serviceKeepAct phase) s)

/-- SERVICE_RELEASE (R141, R147). -/
def execServiceRelease (_src : Source) (s : State) : Result := .next (whenRunning serviceReleaseAct s)

/-- SERVICE_PUBLISH (R142). -/
def execServicePublish (src : Source) (rec : ServicePublish) (s : State) : Result :=
  .next (whenRunning (servicePublishAct src.seq rec) s)

/-! ## Time (R64 to R73, R77, R85) -/

/-- HEARD_TIMER_EXPIRY (R77). -/
def execHeardTimerExpiry (place : Fin 2) (s : State) : Result := .next (onEvent (heardDue s place) (heardExpiry place) s)

/-- SILENCE_TIMER_EXPIRY (R85). -/
def execSilenceTimerExpiry (s : State) : Result := .next (onEvent (silenceDue s) silenceExpiry s)

/-- MARK (R64): the REFCLK period whose advance reaches a whole millisecond. -/
def execMark (s : State) : Result := .next (onEvent (markNext s) refclk s)

/-- The MARK pulse has lasted its 10 µs (R64). -/
def markEndDue (s : State) : Bool := clockDue s s.clk.markEnd

/-- MARK_PULSE_END (R64). -/
def execMarkPulseEnd (s : State) : Result := .next (onEvent (markEndDue s) endMark s)

/-- CODE_FRAME_START (R66, R68). -/
def execCodeFrameStart (s : State) : Result := .next (onEvent (codeStartDue s) startCode s)

/-- CODE_FRAME_END (R68). -/
def execCodeFrameEnd (s : State) : Result := .next (onEvent (codeEndDue s) endCode s)

/-- CYCLE_BOUNDARY (R70): the REFCLK period whose advance reaches the robot's next boundary. -/
def execCycleBoundary (robot : RobotIdx) (s : State) : Result := .next (onEvent (boundaryNext s robot) refclk s)

/-! ## Robots (R102 to R110) -/

/-- The next boundary brings the robot's deadline to 0 (R109). -/
def deadlineNext (s : State) (r : RobotIdx) : Bool :=
  boundaryNext s r &&
    match s.bound? r with
    | some b => decide (b.echo = .awaiting) && decide (b.toDeadline ≤ 1)
    | none   => false

/-- ECHO_DEADLINE (R109): the REFCLK period whose boundary brings the deadline to 0. -/
def execEchoDeadline (robot : RobotIdx) (s : State) : Result := .next (onEvent (deadlineNext s robot) refclk s)

/-- The next boundary is the robot's sixteenth without a status, and its mode is known (R110). -/
def lapseNext (s : State) (r : RobotIdx) : Bool :=
  boundaryNext s r &&
    match s.bound? r with
    | some b => decide (15 ≤ b.sinceStatus) && decide (b.mode ≠ .unknown)
    | none   => false

/-- MODE_LAPSE (R110): the REFCLK period whose boundary makes the mode UNKNOWN. -/
def execModeLapse (robot : RobotIdx) (s : State) : Result := .next (onEvent (lapseNext s robot) refclk s)

/-- FLIP_WAIT_END (R102). -/
def execFlipWaitEnd (robot : RobotIdx) (s : State) : Result :=
  .next (onEvent (s.running && flipReady s robot) (writeFlip robot) s)

/-- SWAP (R103). -/
def execSwap (robot : RobotIdx) (s : State) : Result := .next (swapAct robot s)

/-- COPY_READ_ANSWER (R104). -/
def execCopyReadAnswer (robot : RobotIdx) (data : List Byte) (s : State) : Result := .next (copyReadAnswerAct robot data s)

/-- COPY_END (R106). -/
def execCopyEnd (robot : RobotIdx) (s : State) : Result := .next (copyEndAct robot s)

/-! ## Tracking (R122, R126, R133) -/

/-- POCKET_PULSE (R122): a rise of POCKET with PRESENT as read at it. -/
def execPocketPulse (present : Bool) (s : State) : Result := .next (whenRunning (pocketPulseAct present) s)

/-- LINE_STOP_TIMER_EXPIRY (R126). -/
def execLineStopTimerExpiry (s : State) : Result := .next (onEvent (lineStopDue s) stopLine s)

/-- REJECT_RISE (R133). -/
def execRejectRise (s : State) : Result := .next (onEvent (rejectRiseDue s) State.refreshReject s)

/-- REJECT_FALL (R133). -/
def execRejectFall (s : State) : Result := .next (onEvent (rejectFallDue s) endPulse s)

/-! ## The service session (R138, R144, R145, R147, R149, R151) -/

/-- KEY_ON (R138). -/
def execKeyOn (s : State) : Result := .next (keyAct true s)

/-- KEY_OFF (R138). -/
def execKeyOff (s : State) : Result := .next (keyAct false s)

/-- The consent timer expires: reply TIMEOUT, the claim is dropped, a waiting consent is refused STATE (R144). -/
def consentExpiry (s : State) : State := withdrawClaim .timeout .none .keyed .state s

/-- CONSENT_TIMER_EXPIRY (R144). -/
def execConsentTimerExpiry (s : State) : Result := .next (onEvent (consentDue s) consentExpiry s)

/-- SERVICE_GRANT (R145). -/
def execServiceGrant (s : State) : Result := .next (onEvent (s.running && grantReady s) grantSession s)

/-- KEEP_ALIVE_TIMER_EXPIRY (R147). -/
def execKeepAliveTimerExpiry (s : State) : Result := .next (onEvent (keepDue s) (beginReturn .timeout) s)

/-- RETURN_END (R149). -/
def execReturnEnd (s : State) : Result := .next (onEvent (s.running && returnReady s) endReturn s)

/-- LOCKOUT_TIMER_EXPIRY (R151). -/
def execLockoutTimerExpiry (s : State) : Result := .next (onEvent (lockoutDue s) endLockout s)

/-! ## Fault unit and reporting (R157, R158, R160, R161) -/

/-- MIRROR_WRITE (R157). -/
def execMirrorWrite (s : State) : Result := .next (mirrorWriteAct s)

/-- STATUS_WORD_WRITE (R161). -/
def execStatusWordWrite (s : State) : Result := .next (statusWordWriteAct s)

/-- NOTICE_PRODUCER_ANSWER (R158, R160). -/
def execNoticeProducerAnswer (s : State) : Result := .next (noticeProducerAnswerAct s)

end Sys2Proof.Machine
end

