-- ==== Sys2Proof/Machine/Dispatch.lean ====
section
/-! DEFINITION. `exec`: one arm per command of the block, each one call of its meaning. -/

namespace Sys2Proof.Machine
open Sys2Proof

/-- The effect of a command on everything but the queue. -/
def exec (i : Instr) (s : State) : Host.Outcome State Fault Refusal :=
  match i with
  | .linkRequest r => Sys2Proof.Machine.execLinkRequest r s
  | .commandTailWrite v => Sys2Proof.Machine.execCommandTailWrite v s
  | .noticeConsumedWrite v => Sys2Proof.Machine.execNoticeConsumedWrite v s
  | .decisionConsumedWrite v => Sys2Proof.Machine.execDecisionConsumedWrite v s
  | .publishWordWrite robot v => Sys2Proof.Machine.execPublishWordWrite robot v s
  | .memoryPortPresent => Sys2Proof.Machine.execMemoryPortPresent s
  | .passingAnswer id data => Sys2Proof.Machine.execPassingAnswer id data s
  | .ownAnswer id data => Sys2Proof.Machine.execOwnAnswer id data s
  | .ownQueueJoin => Sys2Proof.Machine.execOwnQueueJoin s
  | .powerGoodFall => Sys2Proof.Machine.execPowerGoodFall s
  | .powerGoodRise straps => Sys2Proof.Machine.execPowerGoodRise straps s
  | .cabinetResetAssert => Sys2Proof.Machine.execCabinetResetAssert s
  | .cabinetResetRelease straps => Sys2Proof.Machine.execCabinetResetRelease straps s
  | .drainEnd => Sys2Proof.Machine.execDrainEnd s
  | .commandFetch => Sys2Proof.Machine.execCommandFetch s
  | .unknownCommand code => Sys2Proof.Machine.execUnknownCommand code s
  | .policyEnforce => Sys2Proof.Machine.execPolicyEnforce s
  | .windowLoad p => Sys2Proof.Machine.execWindowLoad p s
  | .windowDrop index => Sys2Proof.Machine.execWindowDrop index s
  | .robotBind p => Sys2Proof.Machine.execRobotBind p s
  | .robotUnbind robot => Sys2Proof.Machine.execRobotUnbind robot s
  | .unbindComplete => Sys2Proof.Machine.execUnbindComplete s
  | .trackSetup p => Sys2Proof.Machine.execTrackSetup p s
  | .trackClear => Sys2Proof.Machine.execTrackClear s
  | .clockSet time => Sys2Proof.Machine.execClockSet time s
  | .clockTune p => Sys2Proof.Machine.execClockTune p s
  | .serviceSetup p => Sys2Proof.Machine.execServiceSetup p s
  | .serviceConsent decision claim => Sys2Proof.Machine.execServiceConsent decision claim s
  | .serviceRevoke => Sys2Proof.Machine.execServiceRevoke s
  | .faultClear set overflow => Sys2Proof.Machine.execFaultClear set overflow s
  | .reporting enable mask => Sys2Proof.Machine.execReporting enable mask s
  | .snapshot kind => Sys2Proof.Machine.execSnapshot kind s
  | .fence notify => Sys2Proof.Machine.execFence notify s
  | .fenceComplete => Sys2Proof.Machine.execFenceComplete s
  | .timeSync src rec accepted => Sys2Proof.Machine.execTimeSync src rec accepted s
  | .heardTimerExpiry place => Sys2Proof.Machine.execHeardTimerExpiry place s
  | .silenceTimerExpiry => Sys2Proof.Machine.execSilenceTimerExpiry s
  | .mark => Sys2Proof.Machine.execMark s
  | .markPulseEnd => Sys2Proof.Machine.execMarkPulseEnd s
  | .codeFrameStart => Sys2Proof.Machine.execCodeFrameStart s
  | .codeFrameEnd => Sys2Proof.Machine.execCodeFrameEnd s
  | .cycleBoundary robot => Sys2Proof.Machine.execCycleBoundary robot s
  | .echoDeadline robot => Sys2Proof.Machine.execEchoDeadline robot s
  | .modeLapse robot => Sys2Proof.Machine.execModeLapse robot s
  | .flipWaitEnd robot => Sys2Proof.Machine.execFlipWaitEnd robot s
  | .swap robot => Sys2Proof.Machine.execSwap robot s
  | .copyReadAnswer robot data => Sys2Proof.Machine.execCopyReadAnswer robot data s
  | .copyEnd robot => Sys2Proof.Machine.execCopyEnd robot s
  | .robotStatus src rec => Sys2Proof.Machine.execRobotStatus src rec s
  | .fillReport src rec => Sys2Proof.Machine.execFillReport src rec s
  | .verdict src rec => Sys2Proof.Machine.execVerdict src rec s
  | .pocketPulse present => Sys2Proof.Machine.execPocketPulse present s
  | .lineStopTimerExpiry => Sys2Proof.Machine.execLineStopTimerExpiry s
  | .rejectRise => Sys2Proof.Machine.execRejectRise s
  | .rejectFall => Sys2Proof.Machine.execRejectFall s
  | .keyOn => Sys2Proof.Machine.execKeyOn s
  | .keyOff => Sys2Proof.Machine.execKeyOff s
  | .serviceClaim src claim => Sys2Proof.Machine.execServiceClaim src claim s
  | .serviceKeep src phase => Sys2Proof.Machine.execServiceKeep src phase s
  | .serviceRelease src => Sys2Proof.Machine.execServiceRelease src s
  | .servicePublish src rec => Sys2Proof.Machine.execServicePublish src rec s
  | .consentTimerExpiry => Sys2Proof.Machine.execConsentTimerExpiry s
  | .serviceGrant => Sys2Proof.Machine.execServiceGrant s
  | .keepAliveTimerExpiry => Sys2Proof.Machine.execKeepAliveTimerExpiry s
  | .returnEnd => Sys2Proof.Machine.execReturnEnd s
  | .lockoutTimerExpiry => Sys2Proof.Machine.execLockoutTimerExpiry s
  | .mirrorWrite => Sys2Proof.Machine.execMirrorWrite s
  | .statusWordWrite => Sys2Proof.Machine.execStatusWordWrite s
  | .noticeProducerAnswer => Sys2Proof.Machine.execNoticeProducerAnswer s

end Sys2Proof.Machine
end

