-- ==== Sys2Proof/Machine/Idle.lean ====
section
/-! DEFINITION. What the part does of its own when no command waits: the first of its own events that is due, else one
REFCLK period (log 3). -/

namespace Sys2Proof.Machine
open Sys2Proof

/-- A write that takes its values as it joins can join now, or its unit is not in the line for a place yet (R13). -/
def joinDue (w : Waiter) (s : State) : Bool :=
  (s.path.placeFree && (s.path.waiting.isEmpty || decide (s.path.waiting.head? = some w)))
    || decide (w ∉ s.path.waiting)

/-- A wait for a flip's traffic has ended, robots in number order (R102). -/
def flipEvents (s : State) : List (Bool × Instr) := allRobots.map fun r => (s.running && flipReady s r, .flipWaitEnd r)

/-- The events of timers and pulses, each with whether it is due (R74). -/
def timedEvents (s : State) : List (Bool × Instr) :=
  [(rejectRiseDue s, .rejectRise), (rejectFallDue s, .rejectFall), (markEndDue s, .markPulseEnd),
   (codeEndDue s, .codeFrameEnd), (codeStartDue s, .codeFrameStart), (lineStopDue s, .lineStopTimerExpiry),
   (heardDue s 0, .heardTimerExpiry 0), (heardDue s 1, .heardTimerExpiry 1), (silenceDue s, .silenceTimerExpiry),
   (consentDue s, .consentTimerExpiry), (keepDue s, .keepAliveTimerExpiry), (lockoutDue s, .lockoutTimerExpiry)]

/-- The events that follow from the state at once, each with whether it is due. -/
def internalEvents (s : State) : List (Bool × Instr) :=
  [(s.running && s.path.placeFree && !s.path.waiting.isEmpty, .ownQueueJoin),
   ((drainIndex? s).any fun i => s.running && drainReady s i, .drainEnd)]
    ++ flipEvents s
    ++ [((unbindDue? s).isSome, .unbindComplete), (s.running && grantReady s, .serviceGrant),
        (s.running && returnReady s, .returnEnd), (s.running && (fenceReady? s).isSome, .fenceComplete),
        (s.running && !s.flt.marks.isEmpty && joinDue .mirror s, .mirrorWrite),
        (s.running && s.rep.statusMark && joinDue .status s, .statusWordWrite), (fetchDue s, .commandFetch)]

/-- The first event of the part's own that is due (log 3). -/
def ownEvent? (s : State) : Option Instr :=
  (timedEvents s ++ internalEvents s).findSome? fun e => if e.1 then some e.2 else none

/-- What the part does when no command waits: its first due event, else one REFCLK period (log 3). -/
def idle (s : State) : Host.Outcome State Fault Refusal :=
  match ownEvent? s with
  | some i => exec i s
  | none   => .next (refclk s)

end Sys2Proof.Machine
end

