-- ==== Sys2Proof/Safety.lean ====
section
/-! DEFINITION. What holds of every state of a run, in the terms the statements use: the bounds of the queues, the use of
SERVICE authority, the servo's limits, the level of ATTENTION and the fill of the two rings, the tracking unit's chain and
lists, the robot records, the window table and the command unit; the layouts of the spec's tables, written from the tables
and not from the model's own functions; and the terms that several statements share. -/

namespace Sys2Proof.Machine
open Sys2Proof

/-- The queues stay within their places: the own queue holds at most 16 transactions (R13), the hold queue at most 4
writes (R105), and each tag has at most 4 transactions in the in-flight set (R4). -/
def State.QueuesBounded (s : State) : Prop :=
  s.path.own.length ≤ Config.ownPlaces ∧ s.hold.length ≤ Config.holdPlaces ∧ ∀ t : Tag, s.tagCount t ≤ Config.tagLimit

/-- A window's authority is SERVICE only while the session is GRANTED, and then only for a window the claim names; new
contents that wait for a drain do not carry SERVICE (R29); and while CABINET RESET is asserted the window table is empty
(R17, R42). -/
def State.ServiceOnlyGranted (s : State) : Prop :=
  (∀ i : WinIdx, s.authority? i = some .service → s.svc.state = .granted ∧ i ∈ s.svc.windows)
    ∧ (∀ (i : WinIdx) (old new : Window), s.entry i = .draining old (some new) → new.role.authority? ≠ some .service)
    ∧ (s.pins.powerGood = true → s.pins.cabinetReset = true → ∀ i : WinIdx, s.entry i = .empty)

/-- The increment is the one the rate gives, and the rate and the integral lie within the rate limit, which is at most
500,000 ppb (R61, R87, R90). -/
def State.RateWithinLimit (s : State) : Prop :=
  s.clk.increment = incrementOf s.clk.rate ∧ s.clk.rate.natAbs ≤ s.clk.params.rateLimit
    ∧ s.clk.integral.natAbs ≤ s.clk.params.rateLimit ∧ s.clk.params.rateLimit ≤ 500000

/-- ATTENTION is high exactly while POWER-GOOD is high, reporting is enabled, the mask is clear and the published
producer differs from the consumed count (R16, R160). -/
def State.AttentionRight (s : State) : Prop := s.pins.attention = (s.pins.powerGood && s.rep.attention)

/-- The notice ring holds at most 128 notices and the decision ring at most 512 decisions, and neither consumed count
passes its producer count (R134, R135, R158, R159). -/
def State.RingsHeld (s : State) : Prop :=
  s.rep.consumed ≤ s.rep.producer ∧ s.rep.producer ≤ s.rep.consumed + Config.noticeSlots
    ∧ s.rep.decConsumed ≤ s.rep.decProducer ∧ s.rep.decProducer ≤ s.rep.decConsumed + Config.decisionSlots

/-! ## The invariants of the units' records -/

/-- The serial that an entry of the chain carries, if it has one. -/
def ChainEntry.serial? : ChainEntry → Option (BitVec 32)
  | .bottle b => b.serial
  | .gap      => none
  | .purged   => none

/-- The tracking unit's chain and lists (R115, R120, R124, R125, R127). UNCONFIGURED it holds none. CONFIGURED its chain is
as long as the reject pocket, and an entry's verdict window is open exactly below the verdict deadline pocket. Without a
next exit serial no record and no serial is held; with one, `next`, the filled records lie in serial order from 0 to 15
above it, at most 16 of them, and the serials of the bottles count down from `next` - 1, entrance first. -/
def Tracking.Right (t : Tracking) : Prop :=
  (t.cfg = none → t.chain = [] ∧ t.filled = [] ∧ t.nextExit = none)
    ∧ (∀ cfg, t.cfg = some cfg →
        4 ≤ cfg.rejectPocket ∧ cfg.rejectPocket ≤ 64 ∧ 1 ≤ cfg.deadline ∧ cfg.deadline ≤ cfg.rejectPocket
          ∧ t.chain.length = cfg.rejectPocket
          ∧ ∀ p b, t.chain[p]? = some (.bottle b) → (b.windowOpen = true ↔ p < cfg.deadline))
    ∧ (t.nextExit = none → t.filled = [] ∧ ∀ b, ChainEntry.bottle b ∈ t.chain → b.serial = none)
    ∧ ∀ next, t.nextExit = some next →
        t.filled.length ≤ 16
          ∧ (∀ f ∈ t.filled, 0 ≤ (f.serial - next).toInt ∧ (f.serial - next).toInt < 16)
          ∧ t.filled.Pairwise (fun f g => (f.serial - next).toInt < (g.serial - next).toInt)
          ∧ ∀ k serial,
              (t.chain.filterMap ChainEntry.serial?)[k]? = some serial → serial = next - BitVec.ofNat 32 (k + 1)

/-- The tracking unit's chain and lists are right. -/
def State.TrackingRight (s : State) : Prop := s.trk.Right

/-- A bound robot's record (Table 6-1, R94, R95, R100 to R110): its parameters are in range; a pending sequence is present
exactly in PENDING and FLIPPING, a next sequence only in FLIPPING and COPYING; the deadline counts down from the echo
limit exactly while the echo is AWAITING; the nudges used stay within the nudge count, and the boundaries since the last
status within 16, where the mode is UNKNOWN. -/
def Bound.Right (b : Bound) : Prop :=
  250 ≤ b.period ∧ b.period ≤ 100000 ∧ 1 ≤ b.echoLimit ∧ b.echoLimit ≤ 64 ∧ b.nudgeCount ≤ 7
    ∧ (b.pendingReq ≠ none ↔ b.publish = .pending ∨ b.publish = .flipping)
    ∧ (b.nextReq ≠ none → b.publish = .flipping ∨ b.publish = .copying)
    ∧ (b.newFlipTime ≠ none → b.publish = .flipping)
    ∧ (b.echo = .awaiting → 1 ≤ b.toDeadline ∧ b.toDeadline ≤ b.echoLimit)
    ∧ (b.echo ≠ .awaiting → b.toDeadline = 0)
    ∧ b.nudgesUsed ≤ b.nudgeCount ∧ b.sinceStatus ≤ 16 ∧ (b.sinceStatus = 16 → b.mode = .unknown)

/-- Every bound robot's record is right, its bank window is LOADED and BANKED with the robot's own number, so that no bank
has two robots, and its feed window is a LOADED ROBOT feed (R94, R95, R35). -/
def State.RobotsRight (s : State) : Prop :=
  ∀ r b, s.bound? r = some b → b.Right
    ∧ (∃ w e x ha hb, s.entry b.bank = .loaded w ∧ w.role = .banked e x r ha hb)
    ∧ ∃ w p, s.entry b.feed = .loaded w ∧ w.role = .feed .robot p

end Sys2Proof.Machine

namespace Sys2Proof.Machine
open Sys2Proof

/-! ## Layouts, as the tables of the spec give them -/

/-- The code of a value: the values of a row of Table 10-4 in the order of their codes, of which the first is `first`. -/
def codeIn {α : Type} [DecidableEq α] (first : Nat) (row : List α) (x : α) : Nat := first + row.idxOf x

/-! Table 10-4. -/
def codeOfKind : FeedKind → Nat := codeIn 1 [.time, .robot, .verdict, .service]
def codeOfAuthority : Authority → Nat := codeIn 1 [.production, .service, .frozen]
def codeOfClock : ClockState → Nat := codeIn 0 [.free, .acquiring, .locked, .holdover]
def codeOfClockCause : ClockCause → Nat := codeIn 1 [.record, .source, .silence, .set]
def codeOfMode : Mode → Nat := codeIn 1 [.run, .hold, .fault, .unknown]
def codeOfEcho : Echo → Nat := codeIn 1 [.confirmed, .awaiting, .stale]
def codeOfPublish : PublishState → Nat := codeIn 0 [.idle, .pending, .flipping, .copying]
def codeOfFill : FillResult → Nat := codeIn 1 [.ok, .short, .over, .nofill, .abort]
def codeOfVerdict : Verdict → Nat := codeIn 1 [.pass, .fail, .unsure]
def codeOfUnsure : UnsurePolicy → Nat := codeIn 1 [.reject, .pass]
def codeOfSession : SessionState → Nat := codeIn 0 [.closed, .keyed, .claimed, .granted, .returning, .lockout]
def codeOfPolicy : Policy → Nat := codeIn 0 [.openAll, .enforcing]
def codeOfRing : Ring → Nat := codeIn 0 [.running, .stopped]
def codeOfLine : Line → Nat := codeIn 0 [.running, .stopped]
def codeOfReply : ReplyKind → Nat := codeIn 1 [.refused, .granted, .denied, .timeout, .withdrawn, .returned]
def codeOfReason : Reason → Nat := codeIn 0 [.none, .unknown, .range, .align, .bound, .busy, .overlapControl,
  .hiddenOverlap, .limit, .role, .notBound, .state, .window, .robotMode, .line, .lockout, .authority, .review,
  .sameSequence, .timeout, .released, .key, .revoked, .robot]
def codeOfFault : FaultKind → Nat := codeIn 1 [.linkForm, .unmapped, .rights, .authority, .straddle, .hidden, .control,
  .bankWord, .feedTorn, .feedType, .feedSubject, .fillLate, .fillRange, .trackDup, .verdictLate, .verdictEarly,
  .verdictDup, .commandRing]

/-- A return's cause in the codes of reasons and causes (Table 10-4). -/
def codeOfCause : Cause → Nat
  | .line     => 14
  | .timeout  => 19
  | .released => 20
  | .key      => 21
  | .revoked  => 22
  | .robot    => 23

/-- The status of a completion (Table 10-5). -/
def codeOfStatus : Status → Nat := codeIn 1 [.done, .refused]

/-- A set as a number: bit n stands for member n (10 section 10.2). -/
def bits : List Bool → Nat
  | []      => 0
  | b :: bs => (if b then 1 else 0) + 2 * bits bs

/-- A field of a layout: its first byte, its length, and what its number, least significant byte first, satisfies. -/
structure LayoutField where
  off   : Nat
  len   : Nat
  holds : Nat → Prop

/-- The field holds a number, as far as its bytes reach. -/
def isAt (off len v : Nat) : LayoutField := ⟨off, len, fun n => n = v % 256 ^ len⟩

/-- The field holds a number if it is present and is open if it is absent (log 12). -/
def mayBeAt (off len : Nat) (v : Option Nat) : LayoutField := ⟨off, len, fun n => ∀ x, v = some x → n = x % 256 ^ len⟩

/-- The byte holds the flags if they are present; absent, those of the mask are open and the others clear (log 12). -/
def flagsAt (off mask : Nat) (v : Option (List Bool)) : LayoutField :=
  ⟨off, 1, fun n => (∀ x, v = some x → n = bits x) ∧ (v = none → n &&& mask = n)⟩

/-- The byte holds an index, a tag or a robot number, and FFh if it is absent (R169). -/
def indexAt {k : Nat} (off : Nat) (v : Option (Fin k)) : LayoutField := isAt off 1 ((v.map Fin.val).getD 255)

/-- The field of a structure that begins at byte `n` of a larger one. -/
def LayoutField.shift (n : Nat) (f : LayoutField) : LayoutField := ⟨n + f.off, f.len, f.holds⟩

/-- The bytes are a structure of this size with these fields, and every byte of no field is zero (R169). -/
def laid (bytes : List Byte) (size : Nat) (fields : List LayoutField) : Prop :=
  bytes.length = size ∧ (∀ f ∈ fields, f.holds (fieldAt bytes f.off f.len))
    ∧ ∀ k, k < size → (∀ f ∈ fields, ¬ (f.off ≤ k ∧ k < f.off + f.len)) → bytes[k]? = some 0

/-- The eight window indices of a claim, one per byte, FFh beyond its count (Table 10-9; log 19). -/
def claimIndices (off : Nat) (ws : List WinIdx) : List LayoutField :=
  (List.range 8).map fun k => indexAt (off + k) ws[k]?

/-- A notice whose event has the machine time `time` (Table 10-9, its kinds numbered as in Table 9-3). -/
def noticeFields (n : Notice) (time : Nat) : List LayoutField :=
  let head := fun (kind subject : Nat) => [isAt 0 1 kind, isAt 1 1 subject, isAt 8 8 time]
  let fault := fun (kind : FaultKind) (tag : Option Tag) (window : Option WinIdx) =>
    [isAt 16 1 (codeOfFault kind), indexAt 17 tag, indexAt 18 window]
  match n with
  | .faultNew record kind tag window  => head 1 record.val ++ fault kind tag window
  | .faultOverflow kind tag window    => head 2 255 ++ fault kind tag window
  | .clockState before after cause    =>
    head 3 255 ++ [isAt 16 1 (codeOfClock before), isAt 17 1 (codeOfClock after), isAt 18 1 (codeOfClockCause cause)]
  | .clockStep source offset after    =>
    head 4 ((source.map Fin.val).getD 255) ++ [isAt 16 8 (leNat offset), isAt 24 8 after]
  | .sourceChange before after grade  =>
    head 5 255 ++ [indexAt 16 before, indexAt 17 after, isAt 18 1 (grade.getD 0).toNat, isAt 19 1 (bits [grade.isSome])]
  | .robotStale robot seq nudges      => head 6 robot.val ++ [isAt 16 2 seq.toNat, isAt 18 1 nudges]
  | .robotRecovered robot seq         => head 7 robot.val ++ [isAt 16 2 seq.toNat]
  | .publishRefused robot seq c why   =>
    head 8 robot.val ++ [isAt 16 2 seq.toNat, isAt 18 1 (bits [c]), isAt 19 1 (codeOfReason why)]
  | .publishCancelled robot p next    =>
    head 9 robot.val
      ++ [isAt 16 2 (p.getD 0).toNat, isAt 18 1 (bits [p.isSome, next.isSome]), isAt 20 2 (next.getD 0).toNat]
  | .lineStopped                      => head 10 255
  | .lineRunning                      => head 11 255
  | .serviceClaim c                   =>
    head 12 255 ++ [isAt 16 4 c.seq.toNat, isAt 20 1 c.windows.length, isAt 22 2 c.keepMs] ++ claimIndices 24 c.windows
  | .serviceGranted c                 =>
    head 13 255 ++ [isAt 16 4 c.seq.toNat, isAt 20 1 c.windows.length] ++ claimIndices 24 c.windows
  | .serviceReturned seq cause        => head 14 255 ++ [isAt 16 4 seq.toNat, isAt 20 1 (codeOfCause cause)]
  | .fenceDone slot                   => head 15 255 ++ [isAt 16 1 slot]
  | .decisionOverflow serial          =>
    head 16 255 ++ [isAt 16 4 (serial.getD 0).toNat, isAt 20 1 (bits [serial.isSome])]
  | .dropped count first              => head 17 255 ++ [isAt 16 2 count, isAt 24 8 first]

/-- The bytes are the notice's. The offset of a CLOCK-STEP is eight bytes. -/
def noticeLaid (n : Notice) (time : Nat) (bytes : List Byte) : Prop :=
  (∀ source offset after, n = .clockStep source offset after → offset.length = 8) → laid bytes 32 (noticeFields n time)

/-- A decision record (Table 10-10), its reasons in the order of Table 7-5. -/
def decisionFields (d : Decision) : List LayoutField :=
  [isAt 0 4 (d.serial.getD 0).toNat, isAt 4 1 (bits [decide (d.reasons ≠ []), d.serial.isSome, d.robot.isSome]),
   indexAt 5 d.robot, mayBeAt 6 1 (d.valve.map BitVec.toNat),
   isAt 7 1 (bits (([.purged, .fillBad, .fillUnreported, .verdictMissing, .verdictFail, .verdictUnsure, .suspectStale,
     .suspectReview] : List RejectReason).map fun why => decide (why ∈ d.reasons))),
   isAt 8 8 d.time]

/-- The mirror of a fault record (Table 10-10); a free record is 32 zero bytes (R169). -/
def mirrorFields : Option FaultRecord → List LayoutField
  | none   => []
  | some r =>
    let f := r.info
    [isAt 0 1 (codeOfFault f.kind),
     isAt 1 1 (bits [f.tag.isSome, f.addr.isSome, f.dir.isSome, f.window.isSome, f.serial.isSome]), indexAt 2 f.tag,
     mayBeAt 3 1 (f.dir.map fun d => if d = .write then 1 else 0), indexAt 4 f.window, isAt 6 2 r.repeats,
     mayBeAt 8 4 (f.addr.map BitVec.toNat), isAt 12 4 (f.serial.getD 0).toNat, isAt 16 8 r.first, isAt 24 8 r.last]

/-! ### Snapshots (Table 10-12) -/

/-- IDENTITY. -/
def identityFields (s : State) : List LayoutField :=
  [isAt 0 4 0x412, isAt 4 1 1, isAt 5 1 s.pins.strap.val, isAt 6 1 32, isAt 7 1 6, isAt 8 1 8, isAt 9 1 4, isAt 10 1 16,
   isAt 12 2 128, isAt 14 2 512]

/-- WINDOWS, one entry. A DRAINING entry shows its old contents; an EMPTY one has none. -/
def windowFields (e : WinState) : List LayoutField :=
  let state := match e with
    | .empty       => 0
    | .loaded _    => 1
    | .draining .. => 2
  let w? : Option Window := match e with
    | .empty          => none
    | .loaded w       => some w
    | .draining old _ => some old
  let role := fun (w : Window) => match w.role with
    | .plain _    => 1
    | .guarded .. => 2
    | .banked ..  => 3
    | .feed ..    => 4
  let stamp := fun (w : Window) => match w.role with
    | .plain (some .at8)   => 8
    | .plain (some .at16)  => 16
    | .feed _ (some .at8)  => 8
    | .feed _ (some .at16) => 16
    | _                    => 0
  let kind := fun (w : Window) => match w.role with
    | .feed k _ => some (codeOfKind k)
    | _         => none
  let eligible := fun (w : Window) => match w.role with
    | .guarded e _      => e
    | .banked e _ _ _ _ => e
    | _                 => false
  let authority := fun (w : Window) => match w.role with
    | .guarded _ a      => some (codeOfAuthority a)
    | .banked _ a _ _ _ => some (codeOfAuthority a)
    | _                 => none
  let bank := fun (w : Window) => match w.role with
    | .banked _ _ r a b => some (r, a.toNat, b.toNat)
    | _                 => none
  [isAt 0 1 state, mayBeAt 1 1 (w?.map role), mayBeAt 2 1 (w?.bind kind), mayBeAt 3 1 (w?.map stamp),
   flagsAt 4 1 (w?.map fun w => [eligible w]), mayBeAt 5 1 (w?.bind authority),
   mayBeAt 6 1 (w?.map fun w => w.readSet.toNat), mayBeAt 7 1 (w?.map fun w => w.writeSet.toNat),
   mayBeAt 8 4 (w?.map fun w => w.base.toNat), mayBeAt 12 4 (w?.map fun w => w.size.toNat),
   mayBeAt 16 4 (w?.bind fun w => (bank w).map fun x => x.2.1), mayBeAt 20 4 (w?.bind fun w => (bank w).map fun x => x.2.2),
   indexAt 24 (w?.bind fun w => (bank w).map fun x => x.1)]

/-- ROBOTS, one record. -/
def robotFields (r : Option Bound) : List LayoutField :=
  let request := fun (q : Option PublishRequest) => q.map fun q => [true, q.confirm, decide (q.origin = .service)]
  let seq := fun (q : Option PublishRequest) => match q with
    | some q => q.seq.toNat
    | none   => 0
  [isAt 0 1 (match r with
     | some b => bits [true, b.unbinding, b.review, b.grantHold, b.confirmPending]
     | none   => 0),
   indexAt 1 (r.map Bound.bank), indexAt 2 (r.map Bound.feed), indexAt 3 (r.map Bound.reader),
   mayBeAt 4 4 (r.map Bound.period), mayBeAt 8 1 (r.map Bound.echoLimit), mayBeAt 9 1 (r.map Bound.nudgeCount),
   mayBeAt 10 1 (r.map fun b => if b.published = .a then 0 else 1), mayBeAt 11 1 (r.map fun b => codeOfPublish b.publish),
   isAt 12 2 (match r with
     | some b => b.publishedSeq.toNat
     | none   => 0),
   flagsAt 14 6 (request (r.bind Bound.pendingReq)), flagsAt 15 6 (request (r.bind Bound.nextReq)),
   isAt 16 2 (seq (r.bind Bound.pendingReq)), isAt 18 2 (seq (r.bind Bound.nextReq)),
   mayBeAt 20 1 (r.map fun b => codeOfEcho b.echo),
   mayBeAt 21 1 (r.bind fun b => if b.echo = .awaiting then some b.toDeadline else none),
   mayBeAt 22 1 (r.map Bound.nudgesUsed), mayBeAt 23 1 (r.map fun b => codeOfMode b.mode),
   mayBeAt 24 1 (r.map Bound.sinceStatus), mayBeAt 26 2 (r.map fun b => b.faultCode.toNat),
   mayBeAt 28 8 (r.bind fun b => if b.nextBoundary < 2 ^ 64 then some b.nextBoundary else none)]

/-- TRACKING, the header. -/
def headerFields (t : Tracking) : List LayoutField :=
  let camera := fun (n : Nat) => t.cfg.bind fun cfg => cfg.cameras[n]?
  [isAt 0 1 (if t.cfg.isSome then 1 else 0), isAt 1 1 (codeOfLine t.line),
   mayBeAt 2 1 (t.cfg.map TrackConfig.rejectPocket), mayBeAt 3 1 (t.cfg.map fun g => g.cameras.length),
   mayBeAt 4 1 (t.cfg.map fun g => g.required.toNat), mayBeAt 5 1 (t.cfg.map fun g => codeOfUnsure g.unsure),
   mayBeAt 6 1 (t.cfg.map TrackConfig.deadline), mayBeAt 7 1 ((camera 0).map Camera.station),
   mayBeAt 8 1 ((camera 1).map Camera.station), mayBeAt 9 1 ((camera 2).map Camera.station),
   indexAt 10 ((camera 0).map Camera.feed), indexAt 11 ((camera 1).map Camera.feed),
   indexAt 12 ((camera 2).map Camera.feed), isAt 13 1 t.filled.length, mayBeAt 14 2 (t.cfg.map TrackConfig.target),
   mayBeAt 16 2 (t.cfg.map TrackConfig.tolerance), isAt 18 2 t.lineStopMs, mayBeAt 20 4 (t.cfg.map TrackConfig.delay),
   mayBeAt 24 4 (t.cfg.map TrackConfig.width), isAt 28 4 (t.nextExit.getD 0).toNat,
   isAt 32 1 (bits [t.nextExit.isSome, t.interval.isSome]), mayBeAt 36 4 t.interval, mayBeAt 40 8 t.lastPulse]

/-- TRACKING, one position of the chain: 64 of them, those at or beyond the reject pocket zero. A GAP and a PURGED entry
have no serial, verdict window, suspect marks, robot or verdicts. -/
def chainFields : Option ChainEntry → List LayoutField
  | none             => []
  | some (.bottle b) =>
    let verdict := fun (v : Option (Verdict × BitVec 16)) => match v with
      | some v => codeOfVerdict v.1
      | none   => 0
    let marked := fun (m : FillRecord → Bool) => match b.fill with
      | some f => m f
      | none   => false
    let judgement := match b.fill with
      | some f => if f.good then 1 else 2
      | none   => 3
    [isAt 0 1 1, isAt 1 1 (bits [b.serial.isSome, b.windowOpen, marked FillRecord.stale, marked FillRecord.review]),
     isAt 2 1 judgement, indexAt 3 (b.fill.map FillRecord.robot), mayBeAt 4 1 (b.fill.map fun f => f.valve.toNat),
     mayBeAt 5 1 (b.fill.map fun f => codeOfFill f.result), mayBeAt 6 2 (b.fill.map fun f => f.mass.toNat),
     isAt 8 4 (b.serial.getD 0).toNat, isAt 12 1 (verdict b.verdict0), isAt 13 1 (verdict b.verdict1),
     isAt 14 1 (verdict b.verdict2), mayBeAt 16 2 (b.verdict0.map fun v => v.2.toNat),
     mayBeAt 18 2 (b.verdict1.map fun v => v.2.toNat), mayBeAt 20 2 (b.verdict2.map fun v => v.2.toNat),
     isAt 24 8 b.exitStamp]
  | some e           =>
    [isAt 0 1 (if e = .gap then 2 else 3), isAt 1 1 0, mayBeAt 2 1 none, isAt 3 1 255, mayBeAt 4 4 none,
     mayBeAt 16 6 none, mayBeAt 24 8 none]

/-- TRACKING, one record of the filled list: 16 of them, unused ones zero. -/
def filledFields : Option FillRecord → List LayoutField
  | none   => []
  | some f =>
    [isAt 0 4 f.serial.toNat, isAt 4 1 f.robot.val, isAt 5 1 f.valve.toNat, isAt 6 1 (codeOfFill f.result),
     isAt 7 1 (bits [f.good, f.stale, f.review]), isAt 8 2 f.mass.toNat]

/-- CLOCK, one source place. -/
def placeFields (p : Place) : List LayoutField :=
  [indexAt 0 p.window, isAt 1 1 (bits [p.heard, p.lastOrigin.isSome]), isAt 2 1 (p.lastGrade.getD 0).toNat,
   isAt 4 4 p.pathDelay, isAt 8 8 (p.lastOrigin.getD 0).toNat, isAt 16 8 (p.lastAccept.getD 0)]

/-- CLOCK. -/
def clockFields (c : Clock) : List LayoutField :=
  [isAt 0 8 c.ns.toNat, isAt 8 4 c.frac.toNat, isAt 16 8 c.elapsed, isAt 24 8 c.increment,
   isAt 32 4 (BitVec.ofInt 32 c.integral).toNat, isAt 36 4 (BitVec.ofInt 32 c.rate).toNat, isAt 40 4 c.params.step,
   isAt 44 4 c.params.lock, isAt 48 4 c.params.rateLimit, isAt 52 2 c.params.holdover, isAt 54 1 c.params.pShift,
   isAt 55 1 c.params.iShift, isAt 56 1 (codeOfClock c.state), indexAt 57 c.selected, isAt 58 1 c.lockCount,
   isAt 59 1 c.outlierCount, isAt 60 1 (bits [c.stepped, c.silence.isSome]), mayBeAt 64 8 c.silence]
    ++ (placeFields c.place0).map (LayoutField.shift 72) ++ (placeFields c.place1).map (LayoutField.shift 96)

/-- SERVICE. Without a claim its count and its keep-alive period are open, and its sequence is zero. -/
def serviceFields (s : State) : List LayoutField :=
  let v := s.svc
  [isAt 0 1 (codeOfSession v.state), isAt 1 1 (bits [v.consentWaiting, v.claim.isSome, v.keepPhase.isSome, s.pins.key]),
   mayBeAt 2 1 (v.keepPhase.map fun p => if p then 1 else 0), isAt 3 1 (match v.cause with
     | some c => codeOfCause c
     | none   => 0),
   mayBeAt 4 1 (v.claim.map fun c => c.windows.length),
   isAt 5 1 (bits (([0, 1, 2, 3, 4, 5] : List RobotIdx).map fun r => decide (r ∈ v.named))),
   mayBeAt 6 2 (v.claim.map Claim.keepMs), isAt 8 4 (match v.claim with
     | some c => c.seq.toNat
     | none   => 0),
   isAt 12 4 v.replySeq.toNat]
    ++ claimIndices 16 (match v.claim with
     | some c => c.windows
     | none   => [])
    ++ [isAt 24 2 v.consentS, isAt 26 2 v.lockoutS, isAt 32 8 (v.consentTimer.getD 0), isAt 40 8 (v.keepTimer.getD 0),
        isAt 48 8 (v.lockoutTimer.getD 0)]

/-- The copy that a snapshot of the kind takes of the state, and its size. -/
def snapshotLaid (k : SnapshotKind) (s : State) (size : Nat) (bytes : List Byte) : Prop :=
  match k with
  | .identity => size = 64 ∧ laid bytes 64 (identityFields s)
  | .windows  => size = 1024 ∧ laid bytes 1024
      ((List.finRange 32).flatMap fun i => (windowFields (s.entry i)).map (LayoutField.shift (32 * i.val)))
  | .robots   => size = 384 ∧ laid bytes 384
      ((List.finRange 6).flatMap fun r => (robotFields (s.bound? r)).map (LayoutField.shift (64 * r.val)))
  | .tracking => size = 2368 ∧ laid bytes 2368 (headerFields s.trk
      ++ ((List.range 64).flatMap fun p => (chainFields s.trk.chain[p]?).map (LayoutField.shift (64 + 32 * p)))
      ++ (List.range 16).flatMap fun n => (filledFields s.trk.filled[n]?).map (LayoutField.shift (2112 + 16 * n)))
  | .clock    => size = 128 ∧ laid bytes 128 (clockFields s.clk)
  | .service  => size = 64 ∧ laid bytes 64 (serviceFields s)

/-- The 64 bytes of a slot spell the command (R165, Tables 10-2 and 10-5). -/
def spellsCommand (data : List Byte) (c : Command) : Prop :=
  let code := fun (n : Nat) => fieldAt data 0 1 = n
  let at_ := fieldAt data
  match c with
  | .unknown b          => code b.toNat ∧ (b.toNat = 0 ∨ 16 < b.toNat)
  | .policyEnforce      => code 1
  | .windowLoad p       =>
    code 2 ∧ at_ 8 1 = p.index.toNat ∧ at_ 9 1 = p.role.toNat ∧ at_ 10 1 = p.feedKind.toNat ∧ at_ 11 1 = p.stamp.toNat
      ∧ (at_ 12 1 % 2 = 1 ↔ p.eligible = true) ∧ at_ 13 1 = p.robot.toNat ∧ at_ 14 1 = p.readSet.toNat
      ∧ at_ 15 1 = p.writeSet.toNat ∧ at_ 16 4 = p.base.toNat ∧ at_ 20 4 = p.size.toNat ∧ at_ 24 4 = p.halfA.toNat
      ∧ at_ 28 4 = p.halfB.toNat
  | .windowDrop i       => code 3 ∧ at_ 8 1 = i.toNat
  | .robotBind p        =>
    code 4 ∧ at_ 8 1 = p.robot.toNat ∧ at_ 9 1 = p.bank.toNat ∧ at_ 10 1 = p.feed.toNat ∧ at_ 11 1 = p.reader.toNat
      ∧ at_ 12 1 = p.echoLimit.toNat ∧ at_ 13 1 = p.nudges.toNat ∧ at_ 16 4 = p.period.toNat
  | .robotUnbind r      => code 5 ∧ at_ 8 1 = r.toNat
  | .trackSetup p       =>
    code 6 ∧ at_ 8 1 = p.rejectPocket.toNat ∧ at_ 9 1 = p.cameras.toNat ∧ at_ 10 1 = p.required.toNat
      ∧ at_ 11 1 = p.unsure.toNat ∧ at_ 12 1 = p.deadline.toNat ∧ at_ 13 1 = p.station0.toNat
      ∧ at_ 14 1 = p.station1.toNat ∧ at_ 15 1 = p.station2.toNat ∧ at_ 16 1 = p.feed0.toNat ∧ at_ 17 1 = p.feed1.toNat
      ∧ at_ 18 1 = p.feed2.toNat ∧ at_ 20 2 = p.target.toNat ∧ at_ 22 2 = p.tolerance.toNat ∧ at_ 24 4 = p.delay.toNat
      ∧ at_ 28 4 = p.width.toNat ∧ at_ 32 2 = p.lineStop.toNat
  | .trackClear         => code 7
  | .clockSet t         => code 8 ∧ at_ 8 8 = t.toNat
  | .clockTune p        =>
    code 9 ∧ at_ 8 1 = p.given.toNat ∧ at_ 12 4 = p.step.toNat ∧ at_ 16 4 = p.lock.toNat ∧ at_ 20 1 = p.pShift.toNat
      ∧ at_ 21 1 = p.iShift.toNat ∧ at_ 24 4 = p.rateLimit.toNat ∧ at_ 28 2 = p.holdover.toNat
      ∧ at_ 30 1 = p.window1.toNat ∧ at_ 31 1 = p.window2.toNat ∧ at_ 32 4 = p.delay1.toNat ∧ at_ 36 4 = p.delay2.toNat
  | .serviceSetup p     =>
    code 10 ∧ at_ 8 1 = p.given.toNat ∧ at_ 10 2 = p.consent.toNat ∧ at_ 12 2 = p.lockout.toNat
  | .serviceConsent d q => code 11 ∧ at_ 8 1 = d.toNat ∧ at_ 12 4 = q.toNat
  | .serviceRevoke      => code 12
  | .faultClear m o     => code 13 ∧ at_ 8 1 = m.toNat ∧ at_ 9 1 = o.toNat
  | .reporting e m      => code 14 ∧ at_ 8 1 = e.toNat ∧ at_ 9 1 = m.toNat
  | .snapshot k         => code 15 ∧ at_ 8 1 = k.toNat
  | .fence n            => code 16 ∧ (at_ 1 1 % 2 = 1 ↔ n = true)

/-- The offsets of the control area that a tag 0 read may touch (Table 2-3). -/
def hostReadable (o : Nat) : Prop :=
  o < 0x38 ∨ (0x100 ≤ o ∧ o < 0x130) ∨ (0x1000 ≤ o ∧ o < 0x3100) ∨ (0x4000 ≤ o ∧ o < 0x8000)

/-- The offsets of the control area that a tag 0 write may touch (Table 2-3). -/
def hostWritable (o : Nat) : Prop :=
  (0x8 ≤ o ∧ o < 0x10) ∨ (0x20 ≤ o ∧ o < 0x28) ∨ (0x30 ≤ o ∧ o < 0x38) ∨ (0x100 ≤ o ∧ o < 0x130)
    ∨ (0x1000 ≤ o ∧ o < 0x2000)

/-- The watched words: offset and the row of an observation (R10, Table 10-1). -/
def watchedRows : List (Nat × (Word → Instr)) :=
  [(0x8, .commandTailWrite), (0x20, .noticeConsumedWrite), (0x30, .decisionConsumedWrite), (0x100, .publishWordWrite 0),
   (0x108, .publishWordWrite 1), (0x110, .publishWordWrite 2), (0x118, .publishWordWrite 3), (0x120, .publishWordWrite 4),
   (0x128, .publishWordWrite 5)]

end Sys2Proof.Machine

namespace Sys2Proof

/-- An address of the request's span (R1). -/
def LinkRequest.covers (r : LinkRequest) (a : Nat) : Prop := r.addr.toNat ≤ a ∧ a < r.addr.toNat + 8 * r.beats.val

/-- The row of the opcode table that a command of the ring stands on. -/
def Command.row : Command → Instr
  | .unknown code       => .unknownCommand code
  | .policyEnforce      => .policyEnforce
  | .windowLoad p       => .windowLoad p
  | .windowDrop i       => .windowDrop i
  | .robotBind p        => .robotBind p
  | .robotUnbind r      => .robotUnbind r
  | .trackSetup p       => .trackSetup p
  | .trackClear         => .trackClear
  | .clockSet t         => .clockSet t
  | .clockTune p        => .clockTune p
  | .serviceSetup p     => .serviceSetup p
  | .serviceConsent d q => .serviceConsent d q
  | .serviceRevoke      => .serviceRevoke
  | .faultClear m o     => .faultClear m o
  | .reporting e m      => .reporting e m
  | .snapshot k         => .snapshot k
  | .fence n            => .fence n

/-- The row of a record's dispatch to the unit that acts on it (R54); `after` is the machine time of the write's acceptance
where an earlier record of the same write has stepped machine time since (R62, R88). -/
def Record.row (src : Source) (after : Option Word) : Record → Instr
  | .timeSync r       => .timeSync src r after
  | .robotStatus r    => .robotStatus src r
  | .fillReport r     => .fillReport src r
  | .verdict r        => .verdict src r
  | .serviceClaim c   => .serviceClaim src c
  | .serviceKeep p    => .serviceKeep src p
  | .serviceRelease   => .serviceRelease src
  | .servicePublish r => .servicePublish src r

end Sys2Proof

namespace Sys2Proof.Machine
open Sys2Proof

/-! ## The terms of the statements about link requests -/

/-- The request is malformed (R6). -/
def badForm (r : LinkRequest) : Prop :=
  r.beats.val = 0 ∨ 16 < r.beats.val ∨ r.addr.toNat / 4096 ≠ (r.addr.toNat + 8 * r.beats.val - 1) / 4096
    ∨ (r.dir = .write ∧ ∀ i, i < 8 * r.beats.val → r.enables.getD i false = false)

/-- No transaction of the request's tag is in flight. -/
def State.tagFree (s : State) (r : LinkRequest) : Prop := ∀ e ∈ s.path.inflight, e.tag ≠ r.tag

/-- The part accepts the well-formed request as it is presented, as far as limits and drains go (R4, R5, R6, R39). -/
def State.takes (s : State) (r : LinkRequest) : Prop :=
  s.running = true ∧ s.tagCount r.tag < 4 ∧ malformed r = false ∧ drainStalls s r = false

/-- The address lies in the control area (R18). -/
def State.areaHas (s : State) (a : Nat) : Prop := s.areaBase ≤ a ∧ a < s.areaBase + 65536

/-- No byte of the span lies in the control area. -/
def State.outsideArea (s : State) (r : LinkRequest) : Prop := ∀ a, r.covers a → ¬ s.areaHas a

/-- The address lies in a half of a BANKED entry that is LOADED or DRAINING (R21). -/
def State.hides (s : State) (a : Nat) : Prop :=
  ∃ (i : WinIdx) (w : Window) (e : Bool) (x : Authority) (n : RobotIdx) (ha hb : Addr),
    (s.entry i = .loaded w ∨ ∃ new, s.entry i = .draining w new) ∧ w.role = .banked e x n ha hb
      ∧ ((ha.toNat ≤ a ∧ a < ha.toNat + w.size.toNat) ∨ (hb.toNat ≤ a ∧ a < hb.toNat + w.size.toNat))

/-- The entry `i` is LOADED with `w`, whose range holds the address, and no entry of a lower index does so (R25). -/
def State.governs (s : State) (i : WinIdx) (w : Window) (a : Nat) : Prop :=
  s.entry i = .loaded w ∧ (w.base.toNat ≤ a ∧ a < w.base.toNat + w.size.toNat)
    ∧ ∀ j v, j < i → s.entry j = .loaded v → ¬ (v.base.toNat ≤ a ∧ a < v.base.toNat + v.size.toNat)

/-- No LOADED entry's range holds the address (R25). -/
def State.ungoverned (s : State) (a : Nat) : Prop :=
  ∀ j v, s.entry j = .loaded v → ¬ (v.base.toNat ≤ a ∧ a < v.base.toNat + v.size.toNat)

/-- The request reaches step 5 of Table 2-2 against the window `w` of entry `i`: taken, outside the control area, no byte
hidden, every byte governed by `i`. -/
def State.reaches (s : State) (r : LinkRequest) (i : WinIdx) (w : Window) : Prop :=
  s.takes r ∧ s.outsideArea r ∧ (∀ a, r.covers a → ¬ s.hides a) ∧ ∀ a, r.covers a → s.governs i w a

/-- The bytes of the span lie in different windows, or only in part in one: the window `i` governs the lowest-addressed
governed byte of the span and not every byte of it (R25). -/
def State.straddles (s : State) (r : LinkRequest) (i : WinIdx) : Prop :=
  ∃ w a b, r.covers a ∧ s.governs i w a ∧ (∀ x, r.covers x → x < a → s.ungoverned x) ∧ r.covers b ∧ ¬ s.governs i w b

/-- A write that covers a byte of the bank word of a BANKED window (R31, step 5 of Table 2-2). -/
def Window.bankWordWritten (w : Window) (r : LinkRequest) : Prop :=
  r.dir = .write ∧ (∃ e x n ha hb, w.role = .banked e x n ha hb) ∧ r.addr.toNat < w.base.toNat + 8

/-- A write by the reader tag of the bank's robot, or into the reply slot of a SERVICE feed (R31, R33, step 6 of
Table 2-2). -/
def State.roleRefuses (s : State) (i : WinIdx) (w : Window) (r : LinkRequest) : Prop :=
  r.dir = .write ∧ ((∃ n b, s.bankRobot? i = some (n, b) ∧ r.tag = b.reader)
    ∨ (w.feedKind? = some .service ∧ ∃ a, r.covers a ∧ w.base.toNat + w.size.toNat - 32 ≤ a))

/-- A read by the reader tag of the robot that the bank `i` is bound to (Table 1-4). -/
def State.readsAsReader (s : State) (i : WinIdx) (r : LinkRequest) : Prop :=
  r.dir = .read ∧ ∃ n b, s.bankRobot? i = some (n, b) ∧ r.tag = b.reader

/-- Tag 0 under policy OPEN (R26). -/
def State.exempt (s : State) (r : LinkRequest) : Prop := r.tag = 0 ∧ s.win.policy = .openAll

/-- The rights check of a read and of a write (R27). -/
def State.hasRights (s : State) (w : Window) (r : LinkRequest) : Prop :=
  s.exempt r ∨ (r.dir = .read ∧ w.readSet.getLsbD r.tag.val = true) ∨ (r.dir = .write ∧ w.writeSet.getLsbD r.tag.val = true)

/-- Table 2-4: what the authority of the window, if it has one, admits of a write of this tag (R28). -/
def Window.authorizes (w : Window) (t : Tag) : Prop :=
  match w.role.authority? with
  | none             => True
  | some .production => t ≠ 4
  | some .service    => t = 4
  | some .frozen     => False

/-- A request is refused while no transaction of its tag is in flight: its fault, and its REFUSED response at once (R7, R9). -/
def State.refusing (s : State) (r : LinkRequest) (k : FaultKind) (window : Option WinIdx) : State :=
  let response : Response :=
    { tag := r.tag, id := s.path.nextId, kind := .refused,
      data := if r.dir = .read ∧ r.beats.val ≤ 16 then List.replicate (8 * r.beats.val) 0 else [] }
  let path : Path := { s.path with nextId := s.path.nextId + 1, responses := s.path.responses ++ [response] }
  takeFault { kind := k, tag := some r.tag, addr := some r.addr, dir := some r.dir, window := window, serial := none }
    { s with path := path }

/-- The entry of a request accepted FORWARDED or HELD (Table 1-4). -/
def State.newEntry (s : State) (r : LinkRequest) (d : Disposition) (checked : Checked) (half : Option Half) (reader : Bool)
    (addr : Addr) : Entry :=
  { id := s.path.nextId, tag := r.tag, dir := r.dir, first := r.addr.toNat,
    last := r.addr.toNat + 8 * r.beats.val - 1, disposition := d, checked := checked, half := half,
    readerRead := reader, forwarded := some addr, answered := false, data := [] }

/-- A request is FORWARDED: its entry joins the in-flight set and it joins the passing stream, with its forwarded address,
data and enables; nothing else changes (R8, R12). -/
def State.forwarding (s : State) (r : LinkRequest) (checked : Checked) (half : Option Half) (reader : Bool) (addr : Addr)
    (data : List Byte) (enables : List Bool) : State :=
  let t : PassingTxn :=
    { id := s.path.nextId, dir := r.dir, addr := addr, len := 8 * r.beats.val, data := data, enables := enables }
  let path : Path :=
    { s.path with inflight := s.path.inflight ++ [s.newEntry r .forwarded checked half reader addr],
                  passing := s.path.passing ++ [t], nextId := s.path.nextId + 1 }
  { s with path := path }

/-- The write covers the 8 bytes at offset `o` of the control area at `area`, all of them enabled, and gives them the value
`v` (R10). -/
def writesWord (r : LinkRequest) (area o : Nat) (v : Word) : Prop :=
  (∀ k, k < 8 → r.covers (area + o + k) ∧ r.enables.getD (area + o + k - r.addr.toNat) false = true)
    ∧ v = BitVec.ofNat 64 (leNat ((List.range 8).map fun k => r.data.getD (area + o + k - r.addr.toNat) 0))

/-- The rows run in their order from `u` to `t`, each for the value that the write gives its word; the row of a word that
the write does not cover, or not with every byte enabled, does not run (R10). -/
def wordsObserved (r : LinkRequest) (area : Nat) : List (Nat × (Word → Instr)) → State → State → Prop
  | [], u, t               => t = u
  | (o, row) :: rows, u, t =>
    (∀ v, writesWord r area o v → ∃ x, exec (row v) u = .next x ∧ wordsObserved r area rows x t)
      ∧ ((∀ v, ¬ writesWord r area o v) → wordsObserved r area rows u t)

/-! ## The terms of the statements about own transactions and the command ring -/

/-- The own queue is `pre`, `w`, `post`, and memory can answer `w` now: it has been presented, and a write is not behind
another unanswered write (R13). -/
def State.canBeAnswered (s : State) (pre : List OwnTxn) (w : OwnTxn) (post : List OwnTxn) : Prop :=
  s.running = true ∧ s.path.own = pre ++ w :: post ∧ w.presented = true ∧ (∀ x ∈ pre ++ post, x.id ≠ w.id)
    ∧ (w.body ≠ none → ∀ x ∈ pre, x.body = none)

/-- The state with another own queue. -/
def State.withOwn (s : State) (own : List OwnTxn) : State := { s with path := { s.path with own := own } }

/-- The outstanding fetch can be answered now, and `b` is the state in which the fetched command begins: the fetch has left
the own queue, and the command is executing (R164). -/
def State.fetchAnswered (s b : State) : Prop :=
  ∃ (pre : List OwnTxn) (w : OwnTxn) (post : List OwnTxn),
    s.canBeAnswered pre w post ∧ w.kind = .fetch ∧ w.body = none ∧ (∀ x ∈ pre, x.kind ≠ .fetch)
      ∧ b = (s.withOwn (pre ++ post)).setPhase (.executing .begun)

/-- The tracking unit as either reset leaves it: UNCONFIGURED, nothing held, no pulse accepted, the line STOPPED (R115). -/
def State.trackingReset (s : State) : Prop :=
  s.trk = { cfg := none, lineStopMs := 2000, chain := [], filled := [], nextExit := none, line := .stopped,
            lastPulse := none, pulseSinceSetup := false, interval := none, lineStop := none, schedule := [] }

/-- The session as either reset leaves it, in the state `state`: nothing held, every timer stopped, the intervals at their
defaults and the reply sequence 0 (R137). -/
def State.sessionReset (s : State) (state : SessionState) : Prop :=
  s.svc = { state := state, claim := none, named := [], consentWaiting := false, keepPhase := none, cause := none,
            consentTimer := none, keepTimer := none, lockoutTimer := none, consentS := 30, lockoutS := 10, replySeq := 0 }

/-- Reporting as either reset leaves it (Table 9-5), but for the schedule of the status word. -/
def State.reportingReset (s : State) : Prop :=
  s.rep.enabled = false ∧ s.rep.mask = false ∧ s.rep.producer = 0 ∧ s.rep.consumed = 0 ∧ s.rep.published = 0
    ∧ s.rep.dropped = false ∧ s.rep.droppedCount = 0 ∧ s.rep.decProducer = 0 ∧ s.rep.decConsumed = 0
    ∧ s.rep.decOverflow = false

/-- The transaction path holds nothing of the link's, no unit waits for a place, and the next choice with both classes
waiting is the passing stream (Table 1-5). -/
def State.pathReset (s : State) : Prop :=
  s.path.inflight = [] ∧ s.path.passing = [] ∧ s.path.downstream = [] ∧ s.path.waiting = [] ∧ s.path.last = none

/-- Memory's answers are discarded, whichever transaction they answer (R16, R17). -/
def State.discardsAnswers (s : State) : Prop :=
  ∀ (id : Nat) (data : List Byte), exec (.passingAnswer id data) s = .next s ∧ exec (.ownAnswer id data) s = .next s

/-- A place of a source that holds none, with its path delay (R75). -/
def vacantPlace (delay : Nat) : Place :=
  { window := none, lastOrigin := none, lastGrade := none, lastAccept := none, heard := false, heardTimer := none,
    pathDelay := delay }

/-- A new own write of `body` at `addr`. -/
def newWrite (id : Nat) (kind : OwnKind) (addr : Nat) (body : List Byte) : OwnTxn :=
  { id := id, kind := kind, addr := addr, len := body.length, body := some body, after := [], presented := false }

/-- `k` transactions can join the own queue at once: no unit waits, and `k` places are free (R13). -/
def State.ownRoom (s : State) (k : Nat) : Prop := s.path.own.length + k ≤ 16 ∧ s.path.waiting = []

/-- The own writes join the own queue in order, the first with the next name of a transaction. -/
def State.joined (s : State) (writes : List (OwnKind × Nat × List Byte)) : State :=
  let new := writes.mapIdx fun n w => newWrite (s.path.nextId + n) w.1 w.2.1 w.2.2
  { s with path := { s.path with own := s.path.own ++ new, nextId := s.path.nextId + writes.length } }

/-- Own transactions are generated, in order (R13): while no unit waits, each joins the own queue at once for which a place is
free; the others wait, behind those that wait already. None is lost. -/
def State.generates (s : State) (ts : List OwnTxn) : State :=
  let free := if s.path.waiting = [] then 16 - s.path.own.length else 0
  { s with path := { s.path with
      own := s.path.own ++ ts.take free, waiting := s.path.waiting ++ (ts.drop free).map Waiter.txn,
      nextId := s.path.nextId + ts.length } }

/-- Own writes are generated, in order, with the next names of transactions. -/
def State.makes (s : State) (writes : List (OwnKind × Nat × List Byte)) : State :=
  s.generates (writes.mapIdx fun n w => newWrite (s.path.nextId + n) w.1 w.2.1 w.2.2)

/-- An own read is generated, behind the passing writes still in the passing stream (R15). -/
def State.makesRead (s : State) (kind : OwnKind) (addr len : Nat) : State :=
  s.generates [{ id := s.path.nextId, kind := kind, addr := addr, len := len, body := none,
                 after := (s.path.passing.filter fun t => decide (t.dir = .write)).map PassingTxn.id, presented := false }]

/-- A place of the own queue is free for the unit `w`: no other unit waits before it, and `rest` waits behind it (R13). -/
def State.placeFor (s : State) (w : Waiter) (rest : List Waiter) : Prop :=
  s.path.own.length < 16 ∧ ((s.path.waiting = [] ∧ rest = []) ∨ s.path.waiting = w :: rest)

/-- The state with another line of waiting units. -/
def State.withWaiting (s : State) (waiting : List Waiter) : State := { s with path := { s.path with waiting := waiting } }

/-- The mirror write of the record `n`, marked first of `n :: marks`, has joined the own queue, `rest` waiting: the mark is
clear, and the FAULT-NEW notices of the record's creations have followed, in their order (R157). -/
def State.mirrorJoined (s : State) (rest : List Waiter) (n : Fin 8) (marks : List (Fin 8)) (body : List Byte) : State :=
  let t := (s.withWaiting rest).joined [(.mirror n, s.areaBase + 0x3000 + 32 * n.val, body)]
  (s.flt.created.filter fun c => decide (c.record = n)).foldl
    (fun u c => postNotice (.faultNew n c.kind c.tag c.window) u)
    { t with
      flt := { s.flt with marks := marks, created := s.flt.created.filter fun c => decide (c.record ≠ n) },
      openCount := s.openCount + 1 }

/-- The status word (Tables 9-4 and 10-8). -/
def statusWordFields (s : State) : List LayoutField :=
  [isAt 0 1 (codeOfPolicy s.win.policy), isAt 1 1 (codeOfClock s.clk.state), isAt 2 1 (if s.trk.cfg.isSome then 1 else 0),
   isAt 3 1 (codeOfLine s.trk.line), isAt 4 1 (codeOfSession s.svc.state), isAt 5 1 (codeOfRing s.cmd.ring),
   isAt 6 1 (bits [s.rep.enabled, s.rep.mask, s.rep.dropped, s.rep.decOverflow, s.flt.overflow])]

/-- The status word write has joined the own queue, `rest` waiting, and is no longer scheduled (R161). -/
def State.statusJoined (s : State) (rest : List Waiter) (body : List Byte) : State :=
  { (s.withWaiting rest).joined [(.statusWord, s.areaBase, body)] with rep := { s.rep with statusMark := false } }

/-! ## The terms of the statements about the window table (R34 to R40) -/

/-- A stamp offset of Table 2-1: 0 none, 8 or 16. -/
def stampCoded (b : Byte) (place : Option StampAt) : Prop :=
  (b.toNat = 0 ∧ place = none) ∨ (b.toNat = 8 ∧ place = some .at8) ∨ (b.toNat = 16 ∧ place = some .at16)

/-- A feed kind of Table 10-4. -/
def kindCoded (b : Byte) (k : FeedKind) : Prop :=
  (b.toNat = 1 ∧ k = .time) ∨ (b.toNat = 2 ∧ k = .robot) ∨ (b.toNat = 3 ∧ k = .verdict) ∨ (b.toNat = 4 ∧ k = .service)

/-- The role of a WINDOW LOAD with the fields of its role, none out of range (R34). -/
def roleCoded (p : LoadParams) (role : Role) : Prop :=
  (p.role.toNat = 1 ∧ p.eligible = false ∧ ∃ st, stampCoded p.stamp st ∧ role = .plain st)
    ∨ (p.role.toNat = 2 ∧ p.stamp.toNat = 0 ∧ role = .guarded p.eligible .production)
    ∨ (p.role.toNat = 3 ∧ p.stamp.toNat = 0 ∧ p.size.toNat ≤ 65536 ∧ p.halfA.toNat + p.size.toNat ≤ 4294967296
        ∧ p.halfB.toNat + p.size.toNat ≤ 4294967296
        ∧ ∃ r : RobotIdx, p.robot.toNat = r.val ∧ role = .banked p.eligible .production r p.halfA p.halfB)
    ∨ (p.role.toNat = 4 ∧ p.eligible = false
        ∧ (∃ t : Tag, p.writeSet.getLsbD t.val = true ∧ ∀ u : Tag, p.writeSet.getLsbD u.val = true → u = t)
        ∧ ∃ k st, kindCoded p.feedKind k ∧ stampCoded p.stamp st ∧ role = .feed k st)

/-- The parameters of a WINDOW LOAD name the index `i` and the window `w`, with no value out of range (R34, RANGE). -/
def describes (p : LoadParams) (i : WinIdx) (w : Window) : Prop :=
  p.index.toNat = i.val ∧ w.base = p.base ∧ w.size = p.size ∧ w.readSet = p.readSet ∧ w.writeSet = p.writeSet
    ∧ 1 ≤ p.size.toNat ∧ p.size.toNat ≤ 1073741824 ∧ p.base.toNat + p.size.toNat ≤ 4294967296 ∧ roleCoded p w.role

/-- `h` is the address of a half of a BANKED window. -/
def Window.hasHalf (w : Window) (h : Addr) : Prop :=
  ∃ e x n ha hb, w.role = .banked e x n ha hb ∧ (h = ha ∨ h = hb)

/-- The address lies in the window's range. -/
def Window.rangeHas (w : Window) (a : Nat) : Prop := w.base.toNat ≤ a ∧ a < w.base.toNat + w.size.toNat

/-- The address lies in a half of the window. -/
def Window.halfHas (w : Window) (a : Nat) : Prop := ∃ h, w.hasHalf h ∧ h.toNat ≤ a ∧ a < h.toNat + w.size.toNat

/-- R34, ALIGN. -/
def Window.misaligned (w : Window) : Prop :=
  w.base.toNat % 64 ≠ 0 ∨ w.size.toNat % 64 ≠ 0
    ∨ ∃ h, w.hasHalf h ∧ (h.toNat % 64 ≠ 0 ∨ h.toNat % 4096 ≠ w.base.toNat % 4096)

/-- R35, BOUND: a robot's binding names the window as its bank or as its feed. -/
def State.boundAt (s : State) (i : WinIdx) : Prop := ∃ r b, s.bound? r = some b ∧ (b.bank = i ∨ b.feed = i)

/-- R35, BUSY: the authority is SERVICE or FROZEN, or the entry is a SERVICE feed and the session is CLAIMED, GRANTED or
RETURNING. -/
def State.busyAt (s : State) (i : WinIdx) : Prop :=
  ∃ v, s.entry i = .loaded v ∧ (v.role.authority? = some .service ∨ v.role.authority? = some .frozen
    ∨ (v.feedKind? = some .service ∧ (s.svc.state = .claimed ∨ s.svc.state = .granted ∨ s.svc.state = .returning)))

/-- R36, OVERLAP-CONTROL. -/
def State.overlapsArea (s : State) (w : Window) : Prop := ∃ a, (w.rangeHas a ∨ w.halfHas a) ∧ s.areaHas a

/-- The address lies in a hidden range of another entry than `i` (R21, R36). -/
def State.hidesBeside (s : State) (i : WinIdx) (a : Nat) : Prop :=
  ∃ j v, j ≠ i ∧ (s.entry j = .loaded v ∨ ∃ new, s.entry j = .draining v new) ∧ v.halfHas a

/-- R36, HIDDEN-OVERLAP. -/
def State.overlapsHidden (s : State) (i : WinIdx) (w : Window) : Prop :=
  ∃ a, ((w.rangeHas a ∨ w.halfHas a) ∧ s.hidesBeside i a)
    ∨ (w.halfHas a ∧ ∃ j v, j ≠ i ∧ s.entry j = .loaded v ∧ v.rangeHas a)
    ∨ (w.halfHas a ∧ w.rangeHas a)
    ∨ ∃ e x n ha hb, w.role = .banked e x n ha hb ∧ (ha.toNat ≤ a ∧ a < ha.toNat + w.size.toNat)
        ∧ (hb.toNat ≤ a ∧ a < hb.toNat + w.size.toNat)

/-- R37, LIMIT: at other indices as many LOADED feed windows of the kind as Table 2-5 allows. -/
def State.feedsFull (s : State) (i : WinIdx) (w : Window) : Prop :=
  ∃ k limit, w.feedKind? = some k
    ∧ ((k = .time ∧ limit = 2) ∨ (k = .robot ∧ limit = 6) ∨ (k = .verdict ∧ limit = 3) ∨ (k = .service ∧ limit = 1))
    ∧ ∃ l : List WinIdx, l.Nodup ∧ l.length = limit ∧ ∀ j ∈ l, j ≠ i ∧ ∃ v, s.entry j = .loaded v ∧ v.feedKind? = some k

/-- A WINDOW LOAD of `w` at `i` passes R34 to R37. -/
def State.admitsLoad (s : State) (i : WinIdx) (w : Window) : Prop :=
  ¬ w.misaligned ∧ ¬ s.boundAt i ∧ ¬ s.busyAt i ∧ ¬ s.overlapsArea w ∧ ¬ s.overlapsHidden i w ∧ ¬ s.feedsFull i w

/-- No in-flight entry is checked against the index (R40). -/
def State.drained (s : State) (i : WinIdx) : Prop := ∀ e ∈ s.path.inflight, e.checked ≠ .window i

/-! ## The terms of the statements about robots (R94 to R110) -/

/-- The window `i` is LOADED and BANKED with these halves and this size, which is at least 64 (R34). -/
def State.bankAt (s : State) (i : WinIdx) (halfA halfB size : Nat) : Prop :=
  ∃ w e x n ha hb, s.entry i = .loaded w ∧ w.role = .banked e x n ha hb ∧ halfA = ha.toNat ∧ halfB = hb.toNat
    ∧ size = w.size.toNat ∧ 64 ≤ size

/-- The counts of the next REFCLK period and the mark it gives, from `s` to `t` (R59, R60, R64, R66 to R68): within a whole
millisecond no mark; past one MARK goes high for 10 µs, and at a whole second or with the stepped mark set a frame is due with
its contents fixed, in place of one that waits, whose STEPPED it keeps. -/
def State.markGiven (s t : State) : Prop :=
  let units := s.clk.units + s.clk.increment
  let ns := units / 4294967296
  let now := s.clk.elapsed + 8
  let clk : Clock := { s.clk with elapsed := now, ns := BitVec.ofNat 64 ns, frac := BitVec.ofNat 32 units }
  (s.clk.ns.toNat / 1000000 = ns / 1000000 → t = { s with clk := clk })
    ∧ (s.clk.ns.toNat / 1000000 < ns / 1000000 →
        let clk : Clock := { clk with markEnd := some (now + 10000) }
        let given := fun (c : Clock) => t = { s with pins := { s.pins with mark := true }, clk := c }
        (s.clk.stepped = false → ns / 1000000 % 1000 ≠ 0 → given clk)
        ∧ (s.clk.stepped = true ∨ ns / 1000000 % 1000 = 0 → ∀ (source replaced : Bool),
            (source = true ↔ ∃ i j : WinIdx, s.clk.selected = some i ∧ j < i
              ∧ (∃ w, s.entry i = .loaded w ∧ w.feedKind? = some .time)
              ∧ ∃ w, s.entry j = .loaded w ∧ w.feedKind? = some .time) →
            (replaced = true ↔ ∃ f t, s.clk.codeWaiting = some (f, t) ∧ f.stepped = true) →
            let frame : CodeFrame :=
              { seconds := ns / 1000000000, state := s.clk.state, stepped := s.clk.stepped || replaced,
                heard := s.clk.place0.heard || s.clk.place1.heard, source := source }
            given { clk with codeWaiting := some (frame, now + 10000), stepped := false }))

/-- Machine time having reached `ns`, the robots of the list take the boundaries it has reached, in the list's order, from `s`
to `t`: the detector adds its period, the bank's flip begins, the echo counts down and the mode ages (R70, R73). -/
def boundariesGiven (ns : Nat) : List RobotIdx → State → State → Prop
  | [], s, t      => t = s
  | r :: rs, s, t =>
    (∀ b, s.bound? r = some b → b.nextBoundary ≤ ns →
        boundariesGiven ns rs
          (countMode r (countEcho r (startFlip r
            (s.setRobot r (some { b with nextBoundary := b.nextBoundary + b.period * 1000 }))))) t)
      ∧ ((∀ b, s.bound? r = some b → ns < b.nextBoundary) → boundariesGiven ns rs s t)

/-- One REFCLK period, from `s` to `t`: the counts and the mark, then the boundaries it reaches, robots in number order. -/
def State.periodGiven (s t : State) : Prop :=
  ∃ u, s.markGiven u ∧ boundariesGiven ((s.clk.units + s.clk.increment) / 4294967296) [0, 1, 2, 3, 4, 5] u t

/-- The length of the piece of the catch-up copy that begins at an offset of a half: to the next multiple of 128, not past
the half's end (R104). -/
def pieceLen (half size offset : Nat) : Nat := min (size - offset) (128 - (half + offset) % 128)

/-- The bank word of R97 (Table 10-5): sequence, nudge count, flags, low 32 bits of the flip's machine time. -/
def bankWord (seq : BitVec 16) (nudges : Nat) (review : Bool) (flip : Nat) : List Byte :=
  leBytes 2 seq.toNat ++ [BitVec.ofNat 8 nudges, if review then 1 else 0] ++ leBytes 4 flip

/-- The window and the half of the in-flight entry are these. -/
def Entry.uses (e : Entry) (i : WinIdx) (h : Half) : Prop := e.checked = .window i ∧ e.half = some h

/-- A reader read of the bank's published half is in flight (R96, R102). -/
def State.readerReads (s : State) (b : Bound) : Prop :=
  ∃ e ∈ s.path.inflight, e.readerRead = true ∧ e.uses b.bank b.published

/-- A flip of the bank waits: a reader read of the published half, or a forwarded write of the working half, is in flight
(R102). -/
def State.flipWaits (s : State) (b : Bound) : Prop :=
  s.readerReads b ∨ ∃ e ∈ s.path.inflight, e.dir = .write ∧ e.disposition = .forwarded ∧ e.uses b.bank b.published.other

/-! ## The terms of the statements about tracking (R115 to R135) -/

/-- The state with a status word write scheduled if a status field changed (R161). -/
def State.statusIf (s : State) (changed : Bool) : State :=
  { s with rep := { s.rep with statusMark := s.rep.statusMark || changed } }

/-- The one tag that writes the LOADED feed window (R53, R121). -/
def State.feedTagIs (s : State) (i : WinIdx) (t : Tag) : Prop :=
  ∃ w, s.entry i = .loaded w ∧ ∀ u : Tag, w.writeSet.getLsbD u.val = true ↔ u = t

/-- The tracking parameters are those of a TRACK SETUP whose values all lie in the ranges of Table 7-2 (R116). -/
def setupDescribes (p : TrackParams) (cfg : TrackConfig) : Prop :=
  let station := fun (c : Nat) => ([p.station0, p.station1, p.station2].getD c 0).toNat
  let feed := fun (c : Nat) => ([p.feed0, p.feed1, p.feed2].getD c 0).toNat
  4 ≤ p.rejectPocket.toNat ∧ p.rejectPocket.toNat ≤ 64 ∧ p.cameras.toNat ≤ 3 ∧ 1 ≤ p.deadline.toNat
    ∧ p.deadline.toNat ≤ p.rejectPocket.toNat ∧ p.required.toNat < 2 ^ p.cameras.toNat ∧ p.delay.toNat ≤ 50000
    ∧ 1 ≤ p.width.toNat ∧ p.width.toNat ≤ 50000 ∧ 100 ≤ p.lineStop.toNat ∧ p.lineStop.toNat ≤ 10000
    ∧ (∀ c, c < p.cameras.toNat → 1 ≤ station c ∧ station c < p.rejectPocket.toNat ∧ station c < p.deadline.toNat)
    ∧ cfg.rejectPocket = p.rejectPocket.toNat ∧ cfg.deadline = p.deadline.toNat ∧ cfg.required = p.required
    ∧ ((p.unsure.toNat = 1 ∧ cfg.unsure = .reject) ∨ (p.unsure.toNat = 2 ∧ cfg.unsure = .pass))
    ∧ cfg.target = p.target.toNat ∧ cfg.tolerance = p.tolerance.toNat ∧ cfg.delay = p.delay.toNat
    ∧ cfg.width = p.width.toNat ∧ cfg.cameras.length = p.cameras.toNat
    ∧ ∀ c (k : Camera), cfg.cameras[c]? = some k → k.station = station c ∧ k.feed.val = feed c

/-! ## The terms of the statements about feeds (R43 to R56) -/

/-- `data` and `enables` are the write's data and enables after stamping with machine time `time` (R55, R56): with a stamp
offset, machine time, least significant byte first, stands in every stamp word that lies wholly within the span, those
bytes enabled, and every other byte and enable is the request's. -/
def stampedAs (w : Window) (r : LinkRequest) (time : Nat) (data : List Byte) (enables : List Bool) : Prop :=
  (w.role.stamp? = none → data = r.data ∧ enables = r.enables)
    ∧ ∀ place, w.role.stamp? = some place →
        data.length = 8 * r.beats.val ∧ enables.length = 8 * r.beats.val
        ∧ ∀ k, k < 8 * r.beats.val →
            let o := r.addr.toNat - w.base.toNat + k
            let word := o / 32 * 32 + place.offset
            let stampedByte := word ≤ o ∧ o < word + 8 ∧ r.addr.toNat - w.base.toNat ≤ word
              ∧ word + 8 ≤ r.addr.toNat - w.base.toNat + 8 * r.beats.val
            (stampedByte → data[k]? = some (BitVec.ofNat 8 (time / 2 ^ (8 * (o - word)))) ∧ enables[k]? = some true)
            ∧ (¬ stampedByte → data[k]? = some (r.data.getD k 0) ∧ enables[k]? = some (r.enables.getD k false))

/-- The type codes a feed kind allows (R50, Table 3-2). -/
def kindTakes (kind : FeedKind) (code : Byte) : Prop :=
  (kind = .time ∧ code.toNat = 1) ∨ (kind = .robot ∧ (code.toNat = 2 ∨ code.toNat = 3)) ∨ (kind = .verdict ∧ code.toNat = 4)
    ∨ (kind = .service ∧ 5 ≤ code.toNat ∧ code.toNat ≤ 8)

/-- The 32 bytes spell the record: its type code, its subject and its payload, no coded field out of its accepted values
(R51, Tables 3-4, 10-6 and 10-7). -/
def spells (data : List Byte) : Record → Prop
  | .timeSync r =>
    fieldAt data 0 1 = 1 ∧ fieldAt data 8 8 = r.receive.toNat ∧ fieldAt data 16 8 = r.origin.toNat
      ∧ fieldAt data 24 1 = r.grade.toNat
  | .robotStatus r =>
    fieldAt data 0 1 = 2 ∧ fieldAt data 2 1 = r.robot.val ∧ fieldAt data 8 1 = codeOfMode r.mode ∧ r.mode ≠ .unknown
      ∧ fieldAt data 10 2 = r.applied.toNat ∧ fieldAt data 12 2 = r.faultCode.toNat
  | .fillReport r =>
    fieldAt data 0 1 = 3 ∧ fieldAt data 2 1 = r.robot.val ∧ fieldAt data 8 4 = r.serial.toNat
      ∧ fieldAt data 12 1 = r.valve.toNat ∧ r.valve.toNat ≤ 127 ∧ fieldAt data 13 1 = codeOfFill r.result
      ∧ fieldAt data 14 2 = r.mass.toNat
  | .verdict r =>
    fieldAt data 0 1 = 4 ∧ fieldAt data 2 1 = r.camera.val ∧ fieldAt data 8 4 = r.serial.toNat
      ∧ fieldAt data 12 1 = codeOfVerdict r.verdict ∧ fieldAt data 14 2 = r.defect.toNat
      ∧ fieldAt data 16 8 = r.capture.toNat
  | .serviceClaim c =>
    fieldAt data 0 1 = 5 ∧ fieldAt data 8 1 = c.windows.length ∧ 1 ≤ c.windows.length ∧ c.windows.length ≤ 8
      ∧ fieldAt data 10 2 = c.keepMs ∧ 100 ≤ c.keepMs ∧ c.keepMs ≤ 5000 ∧ fieldAt data 12 4 = c.seq.toNat
      ∧ ∀ n i, c.windows[n]? = some i → fieldAt data (16 + n) 1 = i.val
  | .serviceKeep phase => fieldAt data 0 1 = 6 ∧ fieldAt data 8 1 = if phase then 1 else 0
  | .serviceRelease    => fieldAt data 0 1 = 7
  | .servicePublish r  =>
    fieldAt data 0 1 = 8 ∧ fieldAt data 8 1 = r.robot.val ∧ fieldAt data 10 2 = r.seq.toNat
      ∧ (fieldAt data 1 1 % 2 = 1 ↔ r.confirm = true)

/-- The record's subject, if it has one, is bound to the window `i` (R52): the robot's binding names it as its feed; the
camera is in use with it as its feed, or tracking is UNCONFIGURED. -/
def State.takesSubject (s : State) (i : WinIdx) : Record → Prop
  | .robotStatus r => ∃ b, s.bound? r.robot = some b ∧ b.feed = i
  | .fillReport r  => ∃ b, s.bound? r.robot = some b ∧ b.feed = i
  | .verdict r     => s.trk.cfg = none
      ∨ ∃ cfg k, s.trk.cfg = some cfg ∧ cfg.cameras[r.camera.val]? = some k ∧ k.feed = i
  | _              => True

/-- What the words of an assembly step bring about: a torn record slot, with the record sequence of its header if it has
one, or a completed record of 32 bytes. -/
inductive RecordEnd
  | torn (offset : Nat) (seq : Option (BitVec 32))
  | completed (offset : Nat) (bytes : List Byte)
  deriving DecidableEq, Repr

/-- The handling of word `n` of the window's record grid, written in full with `value` or in part, from one assembly slot to
the next (R46 to R49). -/
def wordTaken (slot : Slot) (n : Nat) (value : Option Word) (next : Slot) (ends : List RecordEnd) : Prop :=
  let offset := n / 4 * 32
  let seqOf := fun (w0 : Word) => BitVec.ofNat 32 (w0.toNat / 4294967296)
  let tears := (slot = .empty → ends = [])
    ∧ ∀ o w0 w1 w2, slot = .collecting o w0 w1 w2 → ends = [.torn o (some (seqOf w0))]
  (value = none → next = .empty ∧ tears)
    ∧ ∀ v, value = some v →
      (n % 4 = 0 → next = .collecting offset v none none ∧ tears)
      ∧ (n % 4 ≠ 0 → (∀ w0 w1 w2, slot ≠ .collecting offset w0 w1 w2) →
          next = slot ∧ ends = if n % 4 = 3 then [.torn offset none] else [])
      ∧ ∀ w0 w1 w2, slot = .collecting offset w0 w1 w2 →
          (n % 4 = 1 → next = .collecting offset w0 (some v) w2 ∧ ends = [])
          ∧ (n % 4 = 2 → next = .collecting offset w0 w1 (some v) ∧ ends = [])
          ∧ (n % 4 = 3 → w1 = none ∨ w2 = none → next = .empty ∧ ends = [.torn offset (some (seqOf w0))])
          ∧ (n % 4 = 3 → ∀ x1 x2, w1 = some x1 → w2 = some x2 → next = .empty ∧ ends = [.completed offset
              (leBytes 8 w0.toNat ++ leBytes 8 x1.toNat ++ leBytes 8 x2.toNat ++ leBytes 8 v.toNat)])

/-- The words of an assembly step, each handled in the state that the one before it leaves (R45). -/
def wordsTaken : List (Nat × Option Word) → Slot → Slot → List RecordEnd → Prop
  | [], slot, last, ends                  => last = slot ∧ ends = []
  | (n, value) :: words, slot, last, ends =>
    ∃ next first others, wordTaken slot n value next first ∧ wordsTaken words next last others ∧ ends = first ++ others

/-- The words that a write of `len` bytes at offset `o` of its window touches, in ascending order, each with its value if
the span covers all of it and every byte of it is enabled (R45). -/
def wordsTouched (o len : Nat) (data : List Byte) (enables : List Bool) (words : List (Nat × Option Word)) : Prop :=
  words.map Prod.fst = List.range' (o / 8) ((o + len - 1) / 8 + 1 - o / 8)
    ∧ ∀ n value, (n, value) ∈ words →
        let whole := o ≤ 8 * n ∧ 8 * n + 8 ≤ o + len ∧ ∀ k, k < 8 → enables.getD (8 * n - o + k) false = true
        (whole → value = some (BitVec.ofNat 64 (leNat ((List.range 8).map fun k => data.getD (8 * n - o + k) 0))))
        ∧ (¬ whole → value = none)

/-- The TIME SYNC steps machine time: dispatched where the stepped mark is clear, it leaves the mark set (R63). -/
def State.stepsTime (s : State) (src : Source) (r : TimeSync) : Prop :=
  ∃ t, exec (.timeSync src r none) { s with clk := { s.clk with stepped := false } } = .next t ∧ t.clk.stepped = true

/-- The fault of a record at an offset of the feed window `w` of entry `i`, whose one write tag is `tag` (R53). -/
def feedFaultTaken (i : WinIdx) (w : Window) (tag : Tag) (k : FaultKind) (offset : Nat) (seq : Option (BitVec 32))
    (s : State) : State :=
  takeFault { kind := k, tag := some tag, addr := some (BitVec.ofNat 32 (w.base.toNat + offset)), dir := some .write,
              window := some i, serial := seq } s

/-- The judgement of a completed record, from `s` to `t`, by Table 3-3 in its order; a record that passes runs as the row of
its type. `after` and `stepped` are the machine time of the write's acceptance once a record of the same write has stepped machine
time, before it and with it (R49 to R54, R62, R88). -/
def State.recordJudged (s : State) (i : WinIdx) (w : Window) (kind : FeedKind) (tag : Tag) (offset : Nat) (bytes : List Byte)
    (after : Option Word) (t : State) (stepped : Option Word) : Prop :=
  let seq := BitVec.ofNat 32 (fieldAt bytes 4 4)
  let closed := fieldAt bytes 30 2 = fieldAt bytes 4 2
  let typed := kindTakes kind (bytes.getD 0 0)
  let coded := ∃ (x : Byte) (rec : Record), spells (bytes.set 2 x) rec
  let refused := fun (k : FaultKind) => t = feedFaultTaken i w tag k offset (some seq) s ∧ stepped = after
  (¬ closed → refused .feedTorn)
    ∧ (closed → ¬ typed → refused .feedType)
    ∧ (closed → typed → ¬ coded → refused .feedType)
    ∧ (closed → typed → coded → (∀ rec, ¬ spells bytes rec) → refused .feedSubject)
    ∧ (closed → typed → ∀ rec, spells bytes rec →
        (¬ s.takesSubject i rec → refused .feedSubject)
        ∧ (s.takesSubject i rec →
            let src : Source := { window := i, slot := BitVec.ofNat 32 (w.base.toNat + offset), seq := seq }
            exec (rec.row src after) s = .next t
              ∧ (after ≠ none → stepped = after)
              ∧ (after = none → (∃ r, rec = .timeSync r ∧ s.stepsTime src r) → stepped = some s.clk.ns)
              ∧ (after = none → (¬ ∃ r, rec = .timeSync r ∧ s.stepsTime src r) → stepped = none)))

/-- What the words brought about is acted on in order, from `s` to `t` (R45, R53, R54). -/
def endsTaken (i : WinIdx) (w : Window) (kind : FeedKind) (tag : Tag) : List RecordEnd → Option Word → State → State → Prop
  | [], _, s, t                                  => t = s
  | .torn offset seq :: ends, after, s, t        =>
    endsTaken i w kind tag ends after (feedFaultTaken i w tag .feedTorn offset seq s) t
  | .completed offset bytes :: ends, after, s, t =>
    ∃ u stepped, s.recordJudged i w kind tag offset bytes after u stepped ∧ endsTaken i w kind tag ends stepped u t

/-! ## The terms of the statements about the service session (R139 to R145) -/

/-- The window `i` is LOADED, GUARDED or BANKED, and service-eligible (R139, WINDOW). -/
def State.mayName (s : State) (i : WinIdx) : Prop :=
  ∃ w, s.entry i = .loaded w
    ∧ ((∃ x, w.role = .guarded true x) ∨ ∃ x n ha hb, w.role = .banked true x n ha hb)

/-- The window `i` is LOADED and BANKED. -/
def State.bankedAt (s : State) (i : WinIdx) : Prop :=
  ∃ w e x n ha hb, s.entry i = .loaded w ∧ w.role = .banked e x n ha hb

/-- The robot `r` is bound with the window `i` as its bank window, is not unbinding, and is in HOLD (R139, ROBOT-MODE). -/
def State.holdsAt (s : State) (i : WinIdx) (r : RobotIdx) : Prop :=
  ∃ b, s.bankRobot? i = some (r, b) ∧ b.unbinding = false ∧ b.mode = .hold

/-- The checks of R139 that fail for a claim of the windows `ws`, in their order: WINDOW, ROBOT-MODE, LINE. -/
def State.failsWindow (s : State) (ws : List WinIdx) : Prop := (∃ i ∈ ws, ¬ s.mayName i) ∨ ¬ ws.Nodup
def State.failsMode (s : State) (ws : List WinIdx) : Prop := ∃ i ∈ ws, s.bankedAt i ∧ ∀ r, ¬ s.holdsAt i r
def State.failsLine (s : State) (ws : List WinIdx) : Prop := (∃ i ∈ ws, s.bankedAt i) ∧ s.trk.line = .running

/-- The first check of R139 that fails gives the reason `why`. -/
def State.refusesClaim (s : State) (ws : List WinIdx) (why : Reason) : Prop :=
  (s.failsWindow ws ∧ why = .window)
    ∨ (¬ s.failsWindow ws ∧ s.failsMode ws ∧ why = .robotMode)
    ∨ (¬ s.failsWindow ws ∧ ¬ s.failsMode ws ∧ s.failsLine ws ∧ why = .line)

/-- Every check of R139 passes, and `named` are the robots bound to the named BANKED windows, in the order in which the claim
names those windows. -/
def State.takesClaim (s : State) (ws : List WinIdx) (named : List RobotIdx) : Prop :=
  ¬ s.failsWindow ws ∧ ¬ s.failsMode ws ∧ ¬ s.failsLine ws ∧ named.Nodup
    ∧ (∀ r, r ∈ named ↔ ∃ i ∈ ws, s.bankedAt i ∧ s.holdsAt i r)
    ∧ ∃ banked : List WinIdx, banked.Sublist ws ∧ (∀ i ∈ ws, i ∈ banked ↔ s.bankedAt i) ∧ List.Forall₂ s.holdsAt banked named

/-- A robot record is set for each robot of the list that is bound. -/
def State.withRobots (s : State) (f : Bound → Bound) (rs : List RobotIdx) : State :=
  rs.foldl (fun u r => match u.bound? r with
    | some b => u.setRobot r (some (f b))
    | none   => u) s

/-- The authority of each window of the list is set, in its order (R29). -/
def State.withAuthority (s : State) (a : Authority) (ws : List WinIdx) : State :=
  ws.foldl (fun u i => match u.entry i with
    | .loaded w => u.setEntry i (.loaded { w with role := match w.role with
        | .guarded e _      => .guarded e a
        | .banked e _ n h k => .banked e a n h k
        | role              => role })
    | _         => u) s

/-! ## The invariants of the window table and of the command unit -/

/-- The window's contents apply at the entry: it is LOADED with them, or DRAINING from them (R39). -/
def State.applies (s : State) (i : WinIdx) (w : Window) : Prop :=
  s.entry i = .loaded w ∨ ∃ new, s.entry i = .draining w new

/-- The window's contents apply at the entry once it does not drain: it is LOADED with them, or DRAINING to them (R39). -/
def State.willApply (s : State) (i : WinIdx) (w : Window) : Prop :=
  s.entry i = .loaded w ∨ ∃ old, s.entry i = .draining old (some w)

/-- The entry has the window as old or as new contents. -/
def State.contains (s : State) (i : WinIdx) (w : Window) : Prop := s.applies i w ∨ s.willApply i w

/-- The window passes R34: size, alignment and addresses in range, and a FEED window has one write tag. -/
def Window.Formed (w : Window) : Prop :=
  64 ≤ w.size.toNat ∧ w.size.toNat ≤ 1073741824 ∧ w.base.toNat + w.size.toNat ≤ 4294967296 ∧ ¬ w.misaligned
    ∧ (∀ h, w.hasHalf h → w.size.toNat ≤ 65536 ∧ h.toNat + w.size.toNat ≤ 4294967296)
    ∧ ∀ k p, w.role = .feed k p → ∃ t : Tag, ∀ u : Tag, w.writeSet.getLsbD u.val = true ↔ u = t

/-- The two halves of a BANKED window share no byte with each other or with the window's range (R36). -/
def Window.HalvesApart (w : Window) : Prop :=
  (∀ a, w.halfHas a → ¬ w.rangeHas a)
    ∧ ∀ e x n ha hb, w.role = .banked e x n ha hb → ∀ a,
        ¬ ((ha.toNat ≤ a ∧ a < ha.toNat + w.size.toNat) ∧ hb.toNat ≤ a ∧ a < hb.toNat + w.size.toNat)

/-- No byte of a window's range or halves, old or new, lies in the control area (R36, OVERLAP-CONTROL), and while CABINET
RESET holds the part the table is empty (R17, R42). -/
def State.AreaClear (s : State) : Prop :=
  (∀ i w, s.contains i w → ∀ a, w.rangeHas a ∨ w.halfHas a → ¬ s.areaHas a)
    ∧ (s.pins.powerGood = true → s.pins.cabinetReset = true → ∀ i : WinIdx, s.entry i = .empty)

/-- The most FEED windows of a kind (Table 2-5). -/
def kindLimit (k : FeedKind) (limit : Nat) : Prop :=
  (k = .time ∧ limit = 2) ∨ (k = .robot ∧ limit = 6) ∨ (k = .verdict ∧ limit = 3) ∨ (k = .service ∧ limit = 1)

/-- The window table (R34, R36, R37, R43, R75): every entry's contents pass R34, keep clear of the control area, and have
their halves to themselves; no more feeds of a kind than Table 2-5 allows; an assembly slot exactly for a FEED window; and
one source place for each TIME feed window. -/
def State.TableRight (s : State) : Prop :=
  s.AreaClear
    ∧ (∀ i w, s.contains i w → w.Formed ∧ w.HalvesApart)
    ∧ (∀ i j w v, i ≠ j → s.contains i w → s.contains j v → ∀ a, w.halfHas a → ¬ v.rangeHas a ∧ ¬ v.halfHas a)
    ∧ (∀ k limit, kindLimit k limit → ∀ l : List WinIdx, l.Nodup →
        (∀ i ∈ l, ∃ w, s.willApply i w ∧ w.feedKind? = some k) → l.length ≤ limit)
    ∧ (∀ i, (∃ a, s.slot? i = some a) ↔ ∃ w k, s.applies i w ∧ w.feedKind? = some k)
    ∧ (∀ i, (s.clk.place0.window = some i ∨ s.clk.place1.window = some i)
        ↔ ∃ w, s.applies i w ∧ w.feedKind? = some .time)
    ∧ ∀ i, ¬ (s.clk.place0.window = some i ∧ s.clk.place1.window = some i)

/-- The robot is bound and its unbinding mark is set (R96). -/
def State.unbinds (s : State) (r : RobotIdx) : Prop := ∃ b, s.bound? r = some b ∧ b.unbinding = true

/-- The own transactions that are not yet answered, in the own queue or waiting for a place. -/
def Path.unanswered (p : Path) : List OwnTxn :=
  p.own ++ p.waiting.filterMap fun w => match w with
    | .txn t  => some t
    | .mirror => none
    | .status => none

/-- The command unit (R164, and R39, R95, R96, R143, R144, R167 for what a command waits for): the outstanding own
transactions have names of their own; one fetch is outstanding while the ring's next command is fetched and none
otherwise; an entry drains, a robot unbinds, and a consent waits exactly while the command that began it executes; a bind
or a snapshot that executes has its write in the line for a place; a claim is held exactly in CLAIMED, GRANTED and
RETURNING; and while CABINET RESET holds the part no command executes. -/
def State.CommandsHold (s : State) : Prop :=
  (s.path.unanswered.map OwnTxn.id).Nodup ∧ (∀ t ∈ s.path.unanswered, t.id < s.path.nextId)
    ∧ (s.path.unanswered.filter fun t => decide (t.kind = .fetch)).length = (if s.cmd.phase = .fetching then 1 else 0)
    ∧ (∀ i, (∃ old new, s.entry i = .draining old new) ↔ s.cmd.phase = .executing (.drain i))
    ∧ (∀ r, s.unbinds r ↔ s.cmd.phase = .executing (.unbind r))
    ∧ (s.svc.consentWaiting = true ↔ s.cmd.phase = .executing .consent)
    ∧ (s.svc.consentWaiting = true → s.svc.state = .claimed)
    ∧ ((∃ c, s.svc.claim = some c) ↔ s.svc.state = .claimed ∨ s.svc.state = .granted ∨ s.svc.state = .returning)
    ∧ (∀ r, s.cmd.phase = .executing (.bindJoin r) → ∃ t, Waiter.txn t ∈ s.path.waiting ∧ t.kind = .bankBind r)
    ∧ (s.cmd.phase = .executing .snapshotJoin → ∃ t, Waiter.txn t ∈ s.path.waiting ∧ t.kind = .snapshot true)
    ∧ (s.pins.powerGood = true → s.pins.cabinetReset = true → s.cmd.phase = .idle)

/-- The command unit is right, and no command is still at its beginning: between two steps it has completed or waits. -/
def State.CommandsRight (s : State) : Prop := s.CommandsHold ∧ s.cmd.phase ≠ .executing .begun

/-- What every state of a run satisfies. -/
def State.Safe (s : State) : Prop :=
  s.QueuesBounded ∧ s.ServiceOnlyGranted ∧ s.RateWithinLimit ∧ s.AttentionRight ∧ s.RingsHeld
    ∧ s.TrackingRight ∧ s.RobotsRight ∧ s.TableRight ∧ s.CommandsRight

end Sys2Proof.Machine
end

