-- ==== Sys2Proof/Certificates/Slice0/Obligations.lean ====
section
/-! DEFINITION. The statements about the model, for the provers: each `Obligations.<Name>` is one proposition about `exec`,
`step` or `State.reset`, with the rules of the spec it rests on in its docstring. The terms they share
stand in Safety.lean. -/

open Sys2Proof Sys2Proof.Machine

/-- R4, R5, R39: a request stays on the link and nothing changes when its tag already has four transactions in flight, or
when it is well formed and touches the old range, the new range or a new half of a DRAINING entry. The state is unchanged,
and the link presents the request again (the model's choice: log 5). -/
def Obligations.StalledRequestChangesNothing : Prop :=
  ∀ (s : State) (r : LinkRequest), s.running = true →
    (4 ≤ s.tagCount r.tag →
      exec (.linkRequest r) s = .next s)
    ∧ (∀ (i : WinIdx) (old : Window) (new : Option Window) (a : Nat),
        ¬ badForm r → s.entry i = .draining old new → r.covers a →
        ((old.base.toNat ≤ a ∧ a < old.base.toNat + old.size.toNat)
          ∨ (∃ w, new = some w ∧ w.base.toNat ≤ a ∧ a < w.base.toNat + w.size.toNat)
          ∨ (∃ w e x n ha hb, new = some w ∧ w.role = .banked e x n ha hb
              ∧ ((ha.toNat ≤ a ∧ a < ha.toNat + w.size.toNat) ∨ (hb.toNat ≤ a ∧ a < hb.toNat + w.size.toNat)))) →
        exec (.linkRequest r) s = .next s)

/-- R6, R7, R24: a malformed request is refused LINK-FORM before every other check, whatever its address, and a well-formed
request with any byte in a hidden range HIDDEN, whatever its tag, direction and policy and whatever window contains its
first byte. The fault carries no window index and there is no other effect but the response, a read's all zero bytes, given
at once where no transaction of its tag is in flight (as in the other statements of refusals; the others wait as
RefusedResponseWaits says). -/
def Obligations.MalformedOrHiddenRefused : Prop :=
  ∀ (s : State) (r : LinkRequest), s.tagFree r →
    (s.running = true → badForm r → exec (.linkRequest r) s = .next (s.refusing r .linkForm none))
    ∧ (s.takes r → s.outsideArea r → (∃ a, r.covers a ∧ s.hides a) →
        exec (.linkRequest r) s = .next (s.refusing r .hidden none))

/-- R7 to R9, Table 1-4: while the oldest transaction of its tag is unanswered, a request that any check of Table 2-2 refuses
joins the in-flight set answered, as REFUSED, forwarded nowhere and with no half, checked against the window that the check
named, the control area or nothing, and marked a reader read if it is a read by the reader tag of that bank's robot (of a
STRADDLE too: the model's reading, log 42); its fault is handed over at once, and its response waits: none is given. -/
def Obligations.RefusedResponseWaits : Prop :=
  ∀ (s : State) (r : LinkRequest) (pre post : List Entry) (e : Entry), s.path.inflight = pre ++ e :: post →
    (∀ x ∈ pre, x.tag ≠ r.tag) → e.tag = r.tag → e.answered = false →
    let waits := fun (k : FaultKind) (checked : Checked) (window : Option WinIdx) (reader : Bool) =>
      let entry : Entry :=
        { id := s.path.nextId, tag := r.tag, dir := r.dir, first := r.addr.toNat,
          last := r.addr.toNat + 8 * r.beats.val - 1, disposition := .refused, checked := checked, half := none,
          readerRead := reader, forwarded := none, answered := true,
          data := if r.dir = .read ∧ r.beats.val ≤ 16 then List.replicate (8 * r.beats.val) 0 else [] }
      let path : Path := { s.path with inflight := s.path.inflight ++ [entry], nextId := s.path.nextId + 1 }
      exec (.linkRequest r) s = .next (takeFault
        { kind := k, tag := some r.tag, addr := some r.addr, dir := some r.dir, window := window, serial := none }
        { s with path := path })
    (s.running = true → s.tagCount r.tag < 4 → badForm r → waits .linkForm .nothing none false)
    ∧ (s.takes r → (∃ a, r.covers a ∧ s.areaHas a) →
        (r.tag ≠ 0 ∨ (∃ a, r.covers a ∧ r.dir = .read ∧ ¬ hostReadable (a - s.areaBase))
          ∨ (∃ a, r.covers a ∧ r.dir = .write ∧ ¬ hostWritable (a - s.areaBase))) →
        waits .control .control none false)
    ∧ (s.takes r → s.outsideArea r → (∃ a, r.covers a ∧ s.hides a) → waits .hidden .nothing none false)
    ∧ (s.takes r → s.outsideArea r → (∀ a, r.covers a → ¬ s.hides a) →
        ((∀ a, r.covers a → s.ungoverned a) → ¬ s.exempt r → waits .unmapped .nothing none false)
        ∧ ∀ (i : WinIdx) (reader : Bool), (reader = true ↔ s.readsAsReader i r) → s.straddles r i →
            waits .straddle (.window i) (some i) reader)
    ∧ ∀ (i : WinIdx) (w : Window) (reader : Bool), (reader = true ↔ s.readsAsReader i r) → s.reaches r i w →
        let refused := fun (k : FaultKind) => waits k (.window i) (some i) reader
        (w.bankWordWritten r → refused .bankWord)
        ∧ (¬ w.bankWordWritten r → s.roleRefuses i w r → refused .rights)
        ∧ (¬ w.bankWordWritten r → ¬ s.roleRefuses i w r → ¬ s.hasRights w r → refused .rights)
        ∧ (¬ w.bankWordWritten r → ¬ s.roleRefuses i w r → s.hasRights w r → r.dir = .write → ¬ w.authorizes r.tag →
            refused .authority)

/-- R10, R23: in the control area a request of another tag than 0, or one with a byte outside the regions admitted to tag 0,
is refused CONTROL, under either policy and whatever the window table holds, its response given at once where no
transaction of its tag is in flight. A tag 0 read of readable words, and a tag 0 write of host-writable words that covers
no watched word with all its bytes enabled, are forwarded unchanged. -/
def Obligations.ControlAreaDecides : Prop :=
  (∀ (s : State) (r : LinkRequest), s.takes r → s.tagFree r → (∃ a, r.covers a ∧ s.areaHas a) →
     (r.tag ≠ 0 ∨ (∃ a, r.covers a ∧ r.dir = .read ∧ ¬ hostReadable (a - s.areaBase))
       ∨ (∃ a, r.covers a ∧ r.dir = .write ∧ ¬ hostWritable (a - s.areaBase))) →
     exec (.linkRequest r) s = .next (s.refusing r .control none))
  ∧ (∀ (s : State) (r : LinkRequest), s.takes r → r.tag = 0 → (∀ a, r.covers a → s.areaHas a) →
       ((r.dir = .read ∧ ∀ a, r.covers a → hostReadable (a - s.areaBase))
         ∨ (r.dir = .write ∧ (∀ a, r.covers a → hostWritable (a - s.areaBase))
             ∧ ∀ o ∈ ([0x8, 0x20, 0x30, 0x100, 0x108, 0x110, 0x118, 0x120, 0x128] : List Nat),
                 ∃ k, k < 8 ∧ (¬ r.covers (s.areaBase + o + k)
                   ∨ r.enables.getD (s.areaBase + o + k - r.addr.toNat) false = false))) →
       exec (.linkRequest r) s = .next (s.forwarding r .control none false r.addr r.data r.enables))

/-- R10: a tag 0 write of host-writable words is forwarded, and then each watched word that it covers with all 8 bytes enabled
is the event of the unit that owns the word, with the value its data gives: one observation per word, in ascending address
order, each on the state that the one before it leaves. A word that it covers in part, or with a byte disabled, is none. -/
def Obligations.WatchedWordWriteObserved : Prop :=
  ∀ (s : State) (r : LinkRequest), s.takes r → r.tag = 0 → r.dir = .write →
    (∀ a, r.covers a → s.areaHas a ∧ hostWritable (a - s.areaBase)) →
    ∃ t, exec (.linkRequest r) s = .next t
      ∧ wordsObserved r s.areaBase watchedRows (s.forwarding r .control none false r.addr r.data r.enables) t

/-- R25, R26: with no byte of the span governed, tag 0 under OPEN is forwarded to its own address unchanged, checked against
no window, and every other request is refused UNMAPPED with no window index. A span whose bytes are governed by
different windows, or only in part, is refused STRADDLE with the window of its lowest-addressed governed byte. A refusal's
response is given at once where no transaction of its tag is in flight. -/
def Obligations.OneGoverningWindow : Prop :=
  (∀ (s : State) (r : LinkRequest), s.takes r → s.outsideArea r → (∀ a, r.covers a → ¬ s.hides a) →
      (∀ a, r.covers a → s.ungoverned a) →
      (s.exempt r → exec (.linkRequest r) s = .next (s.forwarding r .nothing none false r.addr r.data r.enables))
      ∧ (¬ s.exempt r → s.tagFree r → exec (.linkRequest r) s = .next (s.refusing r .unmapped none)))
  ∧ (∀ (s : State) (r : LinkRequest) (i : WinIdx), s.takes r → s.tagFree r → s.outsideArea r →
      (∀ a, r.covers a → ¬ s.hides a) → s.straddles r i →
      exec (.linkRequest r) s = .next (s.refusing r .straddle (some i)))

/-- R22, R27, R28, R31, R33: the checks of Table 2-2 from step 5 on, in their order: a write covering the bank word; a write
by the reader tag of the bank's robot, or into the reply slot of a SERVICE feed; a missing right; an authority that does
not admit the write's tag. The response is given at once where no transaction of the tag is in flight. -/
def Obligations.WindowChecksRefuse : Prop :=
  ∀ (s : State) (r : LinkRequest) (i : WinIdx) (w : Window), s.reaches r i w → s.tagFree r →
    let onBankWord := w.bankWordWritten r
    let roleRefuses := s.roleRefuses i w r
    (onBankWord → exec (.linkRequest r) s = .next (s.refusing r .bankWord (some i)))
    ∧ (¬ onBankWord → roleRefuses → exec (.linkRequest r) s = .next (s.refusing r .rights (some i)))
    ∧ (¬ onBankWord → ¬ roleRefuses → ¬ s.hasRights w r → exec (.linkRequest r) s = .next (s.refusing r .rights (some i)))
    ∧ (¬ onBankWord → ¬ roleRefuses → s.hasRights w r → r.dir = .write → ¬ w.authorizes r.tag →
        exec (.linkRequest r) s = .next (s.refusing r .authority (some i)))

/-- R20, R27, R28, R33, R55, R56: what a PLAIN, GUARDED or FEED window admits. A request that is neither stamped nor an
assembly step (a read, a window without stamp and feed, or a tag 0 write under OPEN outside the write set) is forwarded to
its own address unchanged, checked against the window. A write by a tag of the write set of a stamped PLAIN window is
forwarded with machine time, least significant byte first, in every stamp word that lies wholly within the span, those
bytes enabled, and every other byte and enable as the request gave it. -/
def Obligations.WindowForwards : Prop :=
  ∀ (s : State) (r : LinkRequest) (i : WinIdx) (w : Window), s.reaches r i w → s.bankRobot? i = none →
    (((w.role = .plain none ∨ ∃ e x, w.role = .guarded e x)
        ∨ ((r.dir = .read ∨ w.writeSet.getLsbD r.tag.val = false)
            ∧ ((∃ p, w.role = .plain p) ∨ ∃ k p, w.role = .feed k p))) →
      (r.dir = .write → w.feedKind? = some .service → ∀ a, r.covers a → a < w.base.toNat + w.size.toNat - 32) →
      s.hasRights w r → (r.dir = .write → w.authorizes r.tag) →
      exec (.linkRequest r) s = .next (s.forwarding r (.window i) none false r.addr r.data r.enables))
    ∧ ∀ place : StampAt, w.role = .plain (some place) → r.dir = .write → w.writeSet.getLsbD r.tag.val = true →
        ∃ (data : List Byte) (enables : List Bool),
          exec (.linkRequest r) s = .next (s.forwarding r (.window i) none false r.addr data enables)
            ∧ stampedAs w r s.clk.ns.toNat data enables

/-- R30: a request admitted to a BANKED window is sent to half A if no robot is bound to it, a reader read of a bound bank
to the published half, any other request to the working half; its address moves by the half's distance from the window's
base, the half is recorded, and its data is unchanged. At a bank in FLIPPING (R32) an admitted reader read or write is
stalled; at a bank in COPYING an admitted write is stalled while the hold queue is full, and HELD, redirected to the
working half, while it has a place (R105). -/
def Obligations.BankRedirects : Prop :=
  (∀ (s : State) (r : LinkRequest) (i : WinIdx) (w : Window) (e : Bool) (x : Authority) (n : RobotIdx) (ha hb : Addr),
     s.reaches r i w → w.role = .banked e x n ha hb → (r.dir = .write → w.base.toNat + 8 ≤ r.addr.toNat) →
     s.hasRights w r → (r.dir = .write → w.authorizes r.tag) →
     let goesTo := fun (h : Half) (reader : Bool) =>
       exec (.linkRequest r) s = .next (s.forwarding r (.window i) (some h) reader
         (BitVec.ofNat 32 ((if h = .a then ha.toNat else hb.toNat) + (r.addr.toNat - w.base.toNat))) r.data r.enables)
     (s.bankRobot? i = none → goesTo .a false)
     ∧ (∀ m b, s.bankRobot? i = some (m, b) → r.dir = .read → r.tag = b.reader → b.publish ≠ .flipping →
         goesTo b.published true)
     ∧ (∀ m b, s.bankRobot? i = some (m, b) → r.dir = .read → r.tag ≠ b.reader → goesTo b.published.other false)
     ∧ (∀ m b, s.bankRobot? i = some (m, b) → r.dir = .write → r.tag ≠ b.reader →
         (b.publish = .idle ∨ b.publish = .pending) → goesTo b.published.other false))
  ∧ (∀ (s : State) (r : LinkRequest) (i : WinIdx) (w : Window) (e : Bool) (x : Authority) (n m : RobotIdx) (ha hb : Addr)
       (b : Bound),
       s.reaches r i w → w.role = .banked e x n ha hb → (r.dir = .write → w.base.toNat + 8 ≤ r.addr.toNat) →
       s.hasRights w r → (r.dir = .write → w.authorizes r.tag) → s.bankRobot? i = some (m, b) →
       let addr := BitVec.ofNat 32 ((if b.published.other = .a then ha.toNat else hb.toNat) + (r.addr.toNat - w.base.toNat))
       (b.publish = .flipping → ((r.dir = .read ∧ r.tag = b.reader) ∨ (r.dir = .write ∧ r.tag ≠ b.reader)) →
         exec (.linkRequest r) s = .next s)
       ∧ (b.publish = .copying → r.dir = .write → r.tag ≠ b.reader → 4 ≤ s.hold.length → exec (.linkRequest r) s = .next s)
       ∧ (b.publish = .copying → r.dir = .write → r.tag ≠ b.reader → s.hold.length < 4 →
           let held : HeldWrite :=
             { robot := m, id := s.path.nextId, tag := r.tag, addr := addr, data := r.data, enables := r.enables }
           let entry := s.newEntry r .held (.window i) (some b.published.other) false addr
           let path : Path := { s.path with inflight := s.path.inflight ++ [entry], nextId := s.path.nextId + 1 }
           exec (.linkRequest r) s = .next { s with path := path, hold := s.hold ++ [held] }))

/-- R22, the first law of the access rules, where no hidden range lies in the control area (R36; every step keeps that so:
CommandsAndTableStayRight): a write from the link joins the passing stream or the hold queue only if it is well formed,
touched no hidden range in any case, and lay either wholly in host-writable words of the control area and came from tag 0,
or wholly in one window whose write set (tag 0 under OPEN is exempt) and authority admitted its tag, or wholly outside every
window under OPEN from tag 0. -/
def Obligations.LinkWritesAdmittedOnly : Prop :=
  ∀ (s t : State) (r : LinkRequest), s.AreaClear → r.dir = .write → exec (.linkRequest r) s = .next t →
    (t.path.passing ≠ s.path.passing ∨ t.hold ≠ s.hold) →
    ¬ badForm r ∧ (∀ a, r.covers a → ¬ s.hides a)
    ∧ ((r.tag = 0 ∧ ∀ a, r.covers a → s.areaHas a ∧ hostWritable (a - s.areaBase))
      ∨ (s.outsideArea r
          ∧ ((∃ i w, (∀ a, r.covers a → s.governs i w a) ∧ s.hasRights w r ∧ w.authorizes r.tag)
            ∨ (s.exempt r ∧ ∀ a, r.covers a → s.ungoverned a))))

/-- A step of the block: the command at the front of the queue runs on the state with the queue's rest. -/
def Obligations.StepRunsFrontCommand : Prop :=
  ∀ (c : Instr) (cs : List Instr) (s : State), step { s with pending := c :: cs } = exec c { s with pending := cs }

/-- No command touches the queue of the commands that wait. -/
def Obligations.CommandsLeaveQueue : Prop :=
  ∀ (i : Instr) (s t : State), exec i s = .next t → t.pending = s.pending

/-- R59, R60 with the model's choice of log 3: when no command waits and no event of the part's own is due, a step is one
REFCLK period. Elapsed time gains 8 ns, machine time the increment as one count of units of 2^-32 ns; neither the rate,
the increment nor the clock state changes, and nothing of the feeds, the hold queue, the tracking unit, the fault table,
the pins but MARK, the in-flight set and the passing stream does. -/
def Obligations.IdleStepIsRefclkPeriod : Prop :=
  ∀ s : State, s.pending = [] → ownEvent? s = none →
    (s.pins.powerGood = false → step s = .next s)
    ∧ (s.pins.powerGood = true → s.clk.units + s.clk.increment < 2 ^ 96 →
        ∃ t, step s = .next t ∧ t.clk.elapsed = s.clk.elapsed + 8 ∧ t.clk.units = s.clk.units + s.clk.increment
          ∧ t.clk.rate = s.clk.rate ∧ t.clk.increment = s.clk.increment ∧ t.clk.state = s.clk.state
          ∧ t.clk.selected = s.clk.selected ∧ t.clk.place0 = s.clk.place0 ∧ t.clk.place1 = s.clk.place1
          ∧ t.feeds = s.feeds ∧ t.hold = s.hold ∧ t.trk = s.trk ∧ t.flt = s.flt ∧ t.openCount = s.openCount
          ∧ t.pins = { s.pins with mark := t.pins.mark } ∧ t.path.inflight = s.path.inflight
          ∧ t.path.passing = s.path.passing)

/-- R135, R163: an observation of the tail word and of the decision consumed word. A tail below 64 becomes the last observed
tail of a RUNNING ring; a STOPPED ring runs again for the value of the head and ignores any other value below 64; a value
of 64 or more stops the ring and raises a COMMAND-RING fault. A decision consumed value above the consumed index and not
above the producer index becomes the consumed index and clears DECISION-OVERFLOW; any other value changes nothing. A change
of a status field schedules a status word write. -/
def Obligations.TailAndDecisionConsumedObserved : Prop :=
  ∀ (s : State) (v : Word), s.running = true →
    (∀ h : v.toNat < 64,
      (s.cmd.ring = .running →
        exec (.commandTailWrite v) s = .next { s with cmd := { s.cmd with tail := ⟨v.toNat, h⟩ } })
      ∧ (s.cmd.ring = .stopped → v.toNat = s.cmd.head.val →
        exec (.commandTailWrite v) s = .next { s with
          cmd := { s.cmd with ring := .running, tail := ⟨v.toNat, h⟩ }, rep := { s.rep with statusMark := true } })
      ∧ (s.cmd.ring = .stopped → v.toNat ≠ s.cmd.head.val → exec (.commandTailWrite v) s = .next s))
    ∧ (64 ≤ v.toNat →
        let fault : FaultInfo :=
          { kind := .commandRing, tag := some 0, addr := some (BitVec.ofNat 32 (s.areaBase + 8)), dir := some .write,
            window := none, serial := some (BitVec.ofNat 32 v.toNat) }
        exec (.commandTailWrite v) s = .next (takeFault fault { s with
          cmd := { s.cmd with ring := .stopped },
          rep := { s.rep with statusMark := s.rep.statusMark || decide (s.cmd.ring = .running) } }))
    ∧ (s.rep.decConsumed < v.toNat → v.toNat ≤ s.rep.decProducer →
        exec (.decisionConsumedWrite v) s = .next { s with
          rep := { s.rep with decConsumed := v.toNat, decOverflow := false,
                              statusMark := s.rep.statusMark || s.rep.decOverflow } })
    ∧ (v.toNat ≤ s.rep.decConsumed ∨ s.rep.decProducer < v.toNat → exec (.decisionConsumedWrite v) s = .next s)

/-- R159, R160: an observation of the notice consumed word. A value above the consumed count and not above the producer
count becomes the consumed count, ATTENTION follows, and with reporting enabled and the dropped flag set a DROPPED
notice with the dropped count and the time of the first drop is posted and both clear; any other value changes
nothing. -/
def Obligations.NoticeConsumedObserved : Prop :=
  ∀ (s : State) (v : Word), s.running = true →
    let taken : State := { s with rep := { s.rep with consumed := v.toNat } }
    let level := s.rep.enabled && !s.rep.mask && decide (s.rep.published ≠ v.toNat)
    (s.rep.consumed < v.toNat → v.toNat ≤ s.rep.producer →
      (¬ (s.rep.enabled = true ∧ s.rep.dropped = true) →
        exec (.noticeConsumedWrite v) s = .next { taken with pins := { s.pins with attention := level } })
      ∧ (s.rep.enabled = true → s.rep.dropped = true →
        let u := postNotice (.dropped s.rep.droppedCount s.rep.firstDrop) taken
        exec (.noticeConsumedWrite v) s = .next { u with
          rep := { u.rep with dropped := false, droppedCount := 0, statusMark := true },
          pins := { s.pins with attention := level } }))
    ∧ (v.toNat ≤ s.rep.consumed ∨ s.rep.producer < v.toNat → exec (.noticeConsumedWrite v) s = .next s)

/-- R98 to R100: an observation of a robot's publish word. The low 16 bits are the sequence, bit 16 the confirm flag. The
request is refused for the first reason of R99 that holds, with a PUBLISH-REFUSED notice and the record unchanged, or
placed by the publish state. -/
def Obligations.PublishWordObserved : Prop :=
  ∀ (s : State) (r : RobotIdx) (v : Word), s.running = true →
    let seq : BitVec 16 := BitVec.ofNat 16 v.toNat
    let confirm := v.getLsbD 16
    let request : PublishRequest := { seq := seq, confirm := confirm, origin := .production }
    let refused := fun why =>
      exec (.publishWordWrite r v) s = .next (postNotice (.publishRefused r seq confirm why) s)
    let placed := fun b => exec (.publishWordWrite r v) s = .next (s.setRobot r (some b))
    (s.bound? r = none → refused .notBound)
    ∧ ∀ b, s.bound? r = some b →
        let holds := s.authority? b.bank = some .production ∧ b.grantHold = false
        let unconfirmed := b.review = true ∧ confirm = false
        let same := seq = b.publishedSeq ∨ (b.publish = .flipping ∧ ∃ p, b.pendingReq = some p ∧ p.seq = seq)
        (b.unbinding = true → refused .notBound)
        ∧ (b.unbinding = false → ¬ holds → refused .authority)
        ∧ (b.unbinding = false → holds → unconfirmed → refused .review)
        ∧ (b.unbinding = false → holds → ¬ unconfirmed → same → refused .sameSequence)
        ∧ (b.unbinding = false → holds → ¬ unconfirmed → ¬ same →
            (b.publish = .idle → placed { b with pendingReq := some request, publish := .pending })
            ∧ (b.publish = .pending → placed { b with pendingReq := some request })
            ∧ (b.publish = .flipping ∨ b.publish = .copying → placed { b with nextReq := some request }))

/-- R158, R160, R169, Table 10-9: a notice is discarded while reporting is disabled; with the ring full it is counted as
dropped, the first drop's time kept; otherwise it takes the slot of the producer count, and the notice's 32 bytes, laid as
Table 10-9 gives its kind (the window bytes beyond a claim's count FFh: the model's reading, log 19), and then the producer
word with the new count join the own queue, or its line where they find no place (the line holds transactions: log 8). Memory's
answer of a notice producer word write makes its count the published producer, and ATTENTION is high exactly if reporting is
enabled, the mask is clear and that count differs from the consumed count. -/
def Obligations.NoticeTaken : Prop :=
  (∀ (s : State) (n : Notice) (time : Nat),
     (s.rep.enabled = false → postNoticeAt time n s = s)
     ∧ (s.rep.enabled = true → s.rep.consumed + 128 ≤ s.rep.producer →
         (s.rep.dropped = false → postNoticeAt time n s = { s with
           rep := { s.rep with dropped := true, droppedCount := 1, firstDrop := time, statusMark := true } })
         ∧ (s.rep.dropped = true → postNoticeAt time n s = { s with
           rep := { s.rep with droppedCount := min 65535 (s.rep.droppedCount + 1) } }))
     ∧ (s.rep.enabled = true → s.rep.producer < s.rep.consumed + 128 →
         let p := s.rep.producer
         ∃ bytes, noticeLaid n time bytes
           ∧ let t := s.makes [(.notice, s.areaBase + 0x2000 + 32 * (p % 128), bytes),
                               (.noticeProducer (p + 1), s.areaBase + 0x18, leBytes 8 (p + 1))]
             postNoticeAt time n s = { t with rep := { s.rep with producer := p + 1 } }))
  ∧ (∀ (s : State) (pre post : List OwnTxn) (w : OwnTxn) (k : Nat), s.canBeAnswered pre w post →
       w.kind = .noticeProducer k → w.body ≠ none →
       (∀ x ∈ pre, ∀ j, x.kind ≠ .noticeProducer j) →
       exec .noticeProducerAnswer s = .next { s.withOwn (pre ++ post) with
         rep := { s.rep with published := k },
         pins := { s.pins with attention := s.rep.enabled && !s.rep.mask && decide (k ≠ s.rep.consumed) } })

/-- R155: the fault unit takes a fault: it coalesces into the held record of its kind, tag and window index, else takes the
lowest-numbered free record while the overflow flag is clear, else sets the flag and posts FAULT-OVERFLOW, else, with
the flag set, is lost. -/
def Obligations.FaultTaken : Prop :=
  ∀ (s : State) (f : FaultInfo),
    let same := fun (rec : FaultRecord) => rec.info.kind = f.kind ∧ rec.info.tag = f.tag ∧ rec.info.window = f.window
    let marked := fun (n : Fin 8) => if n ∈ s.flt.marks then s.flt.marks else s.flt.marks ++ [n]
    let unmatched := ∀ (n : Fin 8) rec, s.flt.records[n] = some rec → ¬ same rec
    (∀ (n : Fin 8) rec, s.flt.records[n] = some rec → same rec →
      (∀ (m : Fin 8) rec', m < n → s.flt.records[m] = some rec' → ¬ same rec') →
      takeFault f s = { s with flt := { s.flt with
        records := s.flt.records.set n.val (some { rec with repeats := min 65535 (rec.repeats + 1), last := s.clk.ns.toNat })
          n.isLt,
        marks := marked n } })
    ∧ (unmatched → s.flt.overflow = false →
        (∀ n : Fin 8, s.flt.records[n] = none → (∀ m : Fin 8, m < n → s.flt.records[m] ≠ none) →
          takeFault f s = { s with flt := { s.flt with
            records := s.flt.records.set n.val
              (some { info := f, first := s.clk.ns.toNat, last := s.clk.ns.toNat, repeats := 1 }) n.isLt,
            marks := marked n,
            created := s.flt.created ++ [{ record := n, kind := f.kind, tag := f.tag, window := f.window }] } })
        ∧ ((∀ n : Fin 8, s.flt.records[n] ≠ none) →
          takeFault f s = postNotice (.faultOverflow f.kind f.tag f.window) { s with
            flt := { s.flt with overflow := true }, rep := { s.rep with statusMark := true } }))
    ∧ (unmatched → s.flt.overflow = true → takeFault f s = s)

/-- R13, R157, R161, R169: the writes that take their values as they join the own queue, at once or, for a unit that heads
the line, at a place that is free. The mirror write of the record marked first carries the record, laid as in Table 10-10,
its mark clears, and the FAULT-NEW notices of the record's creations follow in their order; the status word write carries
the fields of Tables 9-4 and 10-8. Without a place the unit gets into the line, once: when this row finds none, not at the
mark (the model's choice: log 35); as a step of its own it follows the own writes of the step that scheduled it (the model's
choice: log 49). The time of a FAULT-NEW notice is that of its record's mirror write (the model's reading:
log 20), and bytes of absent values are open (log 12). The row of a unit with nothing marked, or in the line already,
changes nothing (the model's choice: log 2). -/
def Obligations.ScheduledWritesJoin : Prop :=
  (∀ (s : State) (n : Fin 8) (marks : List (Fin 8)), s.running = true → s.flt.marks = n :: marks →
      (∀ rest, s.placeFor .mirror rest → ∃ body, laid body 32 (mirrorFields s.flt.records[n])
        ∧ exec .mirrorWrite s = .next (s.mirrorJoined rest n marks body))
      ∧ ((∀ rest, ¬ s.placeFor .mirror rest) →
          (.mirror ∉ s.path.waiting → exec .mirrorWrite s = .next (s.withWaiting (s.path.waiting ++ [.mirror])))
          ∧ (.mirror ∈ s.path.waiting → exec .mirrorWrite s = .next s)))
  ∧ (∀ s : State, s.running = true → s.flt.marks = [] → exec .mirrorWrite s = .next s)
  ∧ (∀ s : State, s.running = true → s.rep.statusMark = true →
      (∀ rest, s.placeFor .status rest → ∃ body, laid body 8 (statusWordFields s)
        ∧ exec .statusWordWrite s = .next (s.statusJoined rest body))
      ∧ ((∀ rest, ¬ s.placeFor .status rest) →
          (.status ∉ s.path.waiting → exec .statusWordWrite s = .next (s.withWaiting (s.path.waiting ++ [.status])))
          ∧ (.status ∈ s.path.waiting → exec .statusWordWrite s = .next s)))
  ∧ (∀ s : State, s.running = true → s.rep.statusMark = false → exec .statusWordWrite s = .next s)

/-- R12 to R15: the memory port takes a transaction. With one class waiting that class is presented; with both waiting the
class not presented last time, except that an own read is not presented while a passing write it must follow still waits.
The first choice with both waiting after a reset goes to the passing stream, whatever went alone before it; until then no
class counts as presented last, and a choice that an own read's wait decides is such a choice (the model's reading of R14:
log 34). The row with nothing waiting changes nothing (the model's choice: log 2). -/
def Obligations.ArbiterPresents : Prop :=
  ∀ (s : State), s.running = true →
    let passes := fun (t : PassingTxn) (ts : List PassingTxn) (last : Option PortClass) =>
      exec .memoryPortPresent s = .next { s with
        path := { s.path with passing := ts, downstream := s.path.downstream ++ [t], last := last } }
    let alone := fun (c : PortClass) => s.path.last.map fun _ => c
    ((∀ x ∈ s.path.own, x.presented = true) →
      (s.path.passing = [] → exec .memoryPortPresent s = .next s)
      ∧ (∀ t ts, s.path.passing = t :: ts → passes t ts (alone .passing)))
    ∧ (∀ pre w post, s.path.own = pre ++ w :: post → (∀ x ∈ pre, x.presented = true) → w.presented = false →
        let own := fun (last : Option PortClass) => exec .memoryPortPresent s = .next { s with
          path := { s.path with own := pre ++ { w with presented := true } :: post, last := last } }
        (s.path.passing = [] → own (alone .own))
        ∧ (∀ t ts, s.path.passing = t :: ts →
            ((∃ x ∈ s.path.passing, x.id ∈ w.after) → passes t ts (some .passing))
            ∧ ((∀ x ∈ s.path.passing, x.id ∉ w.after) → s.path.last = none ∨ s.path.last = some .own →
                passes t ts (some .passing))
            ∧ ((∀ x ∈ s.path.passing, x.id ∉ w.after) → s.path.last = some .passing → own (some .own))))

/-- R9, Table 1-6: memory answers a forwarded transaction, a read with the data of its span, a write with an acknowledgement.
Its entry is answered, with the data of a read; if every entry of
its tag accepted before it is gone, its response is given and it leaves the set, and with it, in acceptance order, every
entry of its tag behind it that is answered or REFUSED, up to the first that is not; if one before it still stands
unanswered, nothing is given. Entries of other tags stay. -/
def Obligations.PassingTransactionAnswered : Prop :=
  ∀ (s : State) (t : PassingTxn) (before after : List PassingTxn) (pre post : List Entry) (e : Entry) (data : List Byte),
    s.running = true → s.path.downstream = before ++ t :: after → (∀ x ∈ before ++ after, x.id ≠ t.id) →
    s.path.inflight = pre ++ e :: post → e.id = t.id → (∀ x ∈ pre ++ post, x.id ≠ e.id) →
    e.disposition ≠ .refused → (t.dir = .read → data.length = t.len) → e.answered = false →
    let got := if t.dir = .read then data else []
    let answered : Entry := { e with answered := true, data := got }
    let given := fun (x : Entry) => (
      { tag := x.tag, id := x.id, kind := if x.disposition = .refused then .refused else .done, data := x.data } : Response)
    (∀ ready stay : List Entry, (∀ x ∈ pre, x.tag ≠ e.tag) → post = ready ++ stay →
      (∀ x ∈ ready, x.tag = e.tag → x.answered = true) →
      (stay = [] ∨ ∃ y ys, stay = y :: ys ∧ y.tag = e.tag ∧ y.answered = false) →
      exec (.passingAnswer t.id data) s = .next { s with
        path := { s.path with
          downstream := before ++ after,
          inflight := pre ++ (ready.filter fun x => decide (x.tag ≠ e.tag)) ++ stay,
          responses := s.path.responses ++ (answered :: ready.filter fun x => decide (x.tag = e.tag)).map given } })
    ∧ (∀ (p₁ p₂ : List Entry) (x : Entry), pre = p₁ ++ x :: p₂ → (∀ y ∈ p₁, y.tag ≠ e.tag) → x.tag = e.tag →
        x.answered = false →
        exec (.passingAnswer t.id data) s = .next { s with
          path := { s.path with downstream := before ++ after, inflight := pre ++ answered :: post } })

/-- R13, R95, R104, R157, R161, R167: a place of the own queue that is free goes to the unit that has waited longest. Its
transaction joins the queue's end; behind the write of a copy's piece the read of the next piece follows, if there is one,
at once or at the line's end; a mirror write and a status word write take their values as they join. Memory answers an own
transaction that no unit waits on: it leaves the own queue, and nothing else changes. Its answer of one that a unit waits on
is that unit's row: SWAP for a flip's bank word, COPY_READ_ANSWER for a piece read, COPY_END for the write of the last piece,
NOTICE_PRODUCER_ANSWER for a producer word (log 1). The line holds transactions, in the order in which they came to wait (the
model's reading: log 8). -/
def Obligations.OwnQueueServed : Prop :=
  (∀ (s : State) (rest : List Waiter), s.running = true → s.path.own.length < 16 →
     (∀ t : OwnTxn, s.path.waiting = .txn t :: rest →
       let joined := (s.withWaiting rest).withOwn (s.path.own ++ [t])
       ((t.kind = .completion ∨ t.kind = .headWord ∨ t.kind = .notice ∨ t.kind = .fetch ∨ t.kind = .reply
           ∨ t.kind = .decision ∨ t.kind = .decisionProducer ∨ (∃ k, t.kind = .noticeProducer k)
           ∨ (∃ r, t.kind = .bankFlip r) ∨ (∃ r, t.kind = .nudge r) ∨ t.kind = .snapshot false
           ∨ ∃ r o l, t.kind = .copyRead r o l) →
         exec .ownQueueJoin s = .next joined)
       ∧ ∀ (r : RobotIdx) (b : Bound) (offset len halfA halfB size : Nat), t.kind = .copyWrite r offset len →
           s.bound? r = some b → s.bankAt b.bank halfA halfB size →
           let half := if b.published = .a then halfA else halfB
           let next := offset + len
           let piece := pieceLen half size next
           (size ≤ next → exec .ownQueueJoin s = .next joined)
           ∧ (next < size →
               exec .ownQueueJoin s = .next (joined.makesRead (.copyRead r next piece) (half + next) piece)))
     ∧ (s.path.waiting = .status :: rest → s.rep.statusMark = true →
         ∃ body, laid body 8 (statusWordFields s) ∧ exec .ownQueueJoin s = .next (s.statusJoined rest body))
     ∧ (∀ n marks, s.path.waiting = .mirror :: rest → s.flt.marks = n :: marks →
         ∃ body, laid body 32 (mirrorFields s.flt.records[n])
           ∧ exec .ownQueueJoin s = .next (s.mirrorJoined rest n marks body)))
  ∧ (∀ (s : State) (pre post : List OwnTxn) (w : OwnTxn) (data : List Byte), s.canBeAnswered pre w post →
       (w.kind = .completion ∨ w.kind = .headWord ∨ w.kind = .notice ∨ w.kind = .decision ∨ w.kind = .decisionProducer
         ∨ w.kind = .statusWord ∨ w.kind = .reply ∨ (∃ n, w.kind = .mirror n) ∨ (∃ r, w.kind = .bankBind r)
         ∨ (∃ r, w.kind = .nudge r) ∨ (∃ l, w.kind = .snapshot l)
         ∨ ∃ r b offset len halfA halfB size, w.kind = .copyWrite r offset len ∧ s.bound? r = some b
             ∧ s.bankAt b.bank halfA halfB size ∧ offset + len < size) →
       exec (.ownAnswer w.id data) s = .next (s.withOwn (pre ++ post)))
  ∧ (∀ (s : State) (pre post : List OwnTxn) (w : OwnTxn) (data : List Byte), s.canBeAnswered pre w post →
       let isRow := fun (row : Instr) => exec (.ownAnswer w.id data) s = exec row s
       (∀ r, w.kind = .bankFlip r → (∀ x ∈ pre, x.kind ≠ .bankFlip r) → isRow (.swap r))
       ∧ (∀ r offset len, w.kind = .copyRead r offset len → (∀ x ∈ pre, ∀ o n, x.kind ≠ .copyRead r o n) →
           isRow (.copyReadAnswer r data))
       ∧ (∀ r b offset len halfA halfB size, w.kind = .copyWrite r offset len → s.bound? r = some b →
           s.bankAt b.bank halfA halfB size → size ≤ offset + len → (∀ x ∈ pre, ∀ o n, x.kind ≠ .copyWrite r o n) →
           isRow (.copyEnd r))
       ∧ (∀ count, w.kind = .noticeProducer count → (∀ x ∈ pre, ∀ k, x.kind ≠ .noticeProducer k) →
           isRow .noticeProducerAnswer))

/-- R13, R15, R164, R165: while the ring is RUNNING, no command executes, the head differs from the last observed tail and
nothing of the command unit is in the line of waiting units, a fetch is generated: one own read of the 64 bytes of the slot
at the head, behind every passing write still in the passing stream. Otherwise none is. The 64 bytes of a slot spell a
command by its code and the parameters of Table 10-2, and memory's answer of the outstanding fetch is the row of that
command. The row where no fetch is due changes nothing (the model's choice: log 2). What finds no place waits in line, each
transaction in its order (the model's reading of R13: log 8), and the command unit waits with it. -/
def Obligations.CommandFetched : Prop :=
  (∀ s : State, s.running = true →
     let waits := ∃ t, Waiter.txn t ∈ s.path.waiting ∧ (t.kind = .fetch ∨ t.kind = .completion ∨ t.kind = .headWord)
     (s.cmd.ring = .running → s.cmd.phase = .idle → s.cmd.head ≠ s.cmd.tail → ¬ waits →
       exec .commandFetch s = .next { s.makesRead .fetch (s.areaBase + 0x1000 + 64 * s.cmd.head.val) 64 with
         cmd := { s.cmd with phase := .fetching } })
     ∧ (s.cmd.ring = .stopped ∨ s.cmd.phase ≠ .idle ∨ s.cmd.head = s.cmd.tail ∨ waits → exec .commandFetch s = .next s))
  ∧ (∀ (s : State) (pre post : List OwnTxn) (w : OwnTxn) (data : List Byte), s.canBeAnswered pre w post →
       w.kind = .fetch → w.body = none → (∀ x ∈ pre, x.kind ≠ .fetch) → data.length = 64 →
       (∃ c, spellsCommand data c) ∧ ∀ c, spellsCommand data c → exec (.ownAnswer w.id data) s = exec c.row s)

/-- R164, R165, Tables 10-4 and 10-5: a completion. The head advances by one modulo 64, no command executes any more, and
two own writes follow in order: 16 bytes at byte 48 of the slot (status, reason, six zero bytes, machine time), then the
head word. What finds no place waits in line, each transaction in its order (the model's reading of R13: log 8). -/
def Obligations.CompletionWritten : Prop :=
  ∀ (s : State) (status : Status) (why : Reason),
    let next : Fin 64 := s.cmd.head + 1
    let body : List Byte :=
      [BitVec.ofNat 8 (codeOfStatus status), BitVec.ofNat 8 (codeOfReason why), 0, 0, 0, 0, 0, 0] ++ leBytes 8 s.clk.ns.toNat
    complete status why s = { s.makes [(.completion, s.areaBase + 0x1000 + 64 * s.cmd.head.val + 48, body),
                                       (.headWord, s.areaBase + 0x10, leBytes 8 next.val)] with
      cmd := { s.cmd with head := next, phase := .idle } }

/-- R16, R18, R19, R26, R42, R59, R60, R92, R93, R115, R137, R154, R162, R163: while POWER-GOOD is low the part is held, its
outputs low, and the fall changes nothing else (what the held state keeps until the rise is the model's choice: log 26). The
rise leaves what the blocks hold at its power-reset values, with the straps sampled and the session by KEY, and memory's
answers to what was presented before are discarded. The eight mirror marks are set in number order (the model's choice: log
41). -/
def Obligations.PowerGoodMoves : Prop :=
  (∀ s : State,
     exec .powerGoodFall s = .next { s with
       pins := { s.pins with powerGood := false, reject := false, mark := false, attention := false } }
     ∧ ∀ (t : State) (r : LinkRequest), exec .powerGoodFall s = .next t →
         t.codeLevel = false ∧ exec (.linkRequest r) t = .next t ∧ exec .memoryPortPresent t = .next t)
  ∧ (∀ (s : State) (straps : Fin 16), s.pins.powerGood = false →
       ∃ t, exec (.powerGoodRise straps) s = .next t
         ∧ t.pins = { powerGood := true, cabinetReset := s.pins.cabinetReset, key := s.pins.key, strap := straps,
                      reject := false, mark := false, attention := false }
         ∧ t.pathReset ∧ t.discardsAnswers
         ∧ t.path.own = [newWrite s.path.nextId .headWord (straps.val * 0x10000000 + 0x0FFF0000 + 0x10) (List.replicate 8 0)]
         ∧ t.win.policy = .openAll ∧ (∀ i, t.entry i = .empty) ∧ (∀ i, t.slot? i = none)
         ∧ t.clk = {
             elapsed := 0, ns := 0, frac := 0, increment := 34359738368, stepped := false, markEnd := none,
             codeWaiting := none, codeSending := none, place0 := vacantPlace 0, place1 := vacantPlace 0, state := .free,
             selected := none, lockCount := 0, outlierCount := 0, integral := 0, rate := 0, lastAny := none, silence := none,
             params := { step := 1000000, lock := 1000, pShift := 0, iShift := 3, rateLimit := 100000, holdover := 2000 } }
         ∧ (∀ r, t.bound? r = none) ∧ t.hold = [] ∧ t.trackingReset
         ∧ t.sessionReset (if s.pins.key then .keyed else .closed)
         ∧ (∀ n : Fin 8, t.flt.records[n] = none) ∧ t.flt.overflow = false ∧ t.flt.marks = [0, 1, 2, 3, 4, 5, 6, 7]
         ∧ t.flt.created = [] ∧ t.cmd = { head := 0, tail := 0, ring := .running, phase := .idle }
         ∧ t.reportingReset ∧ t.rep.statusMark = true)

/-- R17, R18, R42, R92, R93, R114, R115, R135, R137, R153, R154, R158, R160 to R163, R166. The assertion of CABINET RESET
abandons every transaction without a response, empties the window table, unbinds the robots and ends the session and the
command; the tracking unit, the session and reporting take the state of R115, R137 and Table 9-5; elapsed time, machine time,
the rate, the clock state, the path delays, the fault records and the overflow flag stand. What happens at the assertion and
what at the release is the model's reading (log 16). The release samples the straps, takes the session by KEY, makes the head
word write and schedules the eight mirror writes and the status word write. Memory's answers to what was presented before are
discarded while the reset lasts and at its release. The marks are set in number order (the model's choice: log 41). -/
def Obligations.CabinetResetLevels : Prop :=
  (∀ s : State, s.pins.powerGood = true → s.pins.cabinetReset = false →
      ∃ t, exec .cabinetResetAssert s = .next t
        ∧ t.pins = { s.pins with cabinetReset := true, reject := false, attention := false }
        ∧ t.pathReset ∧ t.path.own = [] ∧ t.path.responses = s.path.responses ∧ t.discardsAnswers
        ∧ t.win.policy = .openAll ∧ (∀ i, t.entry i = .empty) ∧ (∀ i, t.slot? i = none)
        ∧ (∀ r, t.bound? r = none) ∧ t.hold = [] ∧ t.trackingReset ∧ t.sessionReset .closed
        ∧ t.cmd = { head := 0, tail := 0, ring := .running, phase := .idle } ∧ t.reportingReset
        ∧ t.clk = { s.clk with
            place0 := vacantPlace s.clk.place0.pathDelay, place1 := vacantPlace s.clk.place1.pathDelay, selected := none }
        ∧ t.flt.records = s.flt.records ∧ t.flt.overflow = s.flt.overflow
        ∧ ∀ (r : LinkRequest), exec (.linkRequest r) t = .next t ∧ exec .memoryPortPresent t = .next t)
  ∧ (∀ (s : State) (straps : Fin 16), s.pins.powerGood = true → s.pins.cabinetReset = true →
      ∃ t, exec (.cabinetResetRelease straps) s = .next t
        ∧ t.pins = { s.pins with cabinetReset := false, strap := straps, reject := false, attention := false }
        ∧ t.pathReset ∧ t.discardsAnswers
        ∧ t.path.own = [newWrite s.path.nextId .headWord (straps.val * 0x10000000 + 0x0FFF0000 + 0x10) (List.replicate 8 0)]
        ∧ t.path.responses = s.path.responses ∧ t.clk = s.clk ∧ t.flt.records = s.flt.records
        ∧ t.flt.overflow = s.flt.overflow ∧ t.flt.marks = [0, 1, 2, 3, 4, 5, 6, 7]
        ∧ t.sessionReset (if s.pins.key then .keyed else .closed)
        ∧ t.cmd = { head := 0, tail := 0, ring := .running, phase := .idle } ∧ t.reportingReset
        ∧ t.rep.statusMark = true ∧ t.win = s.win ∧ t.feeds = s.feeds ∧ t.robots = s.robots ∧ t.hold = s.hold
        ∧ t.trk = s.trk)

/-- R26, R156, R160, R165: the commands that complete as they begin. An unknown code is refused UNKNOWN; POLICY ENFORCE
leaves the policy ENFORCING; FAULT CLEAR frees the named held records, schedules their mirror writes and clears the overflow
flag if asked; REPORTING takes the enable and the mask, and disabling clears the dropped flag and count. A status word write
is scheduled if a status field changed. The marks that one FAULT CLEAR sets are set in number order (the model's choice: log
41), and what a command schedules joins after its completion (the model's choice: log 49). -/
def Obligations.PlainCommandsComplete : Prop :=
  ∀ (s b : State), s.fetchAnswered b →
    let done := fun (t : State) => (Host.Outcome.next (complete .done .none t) : Host.Outcome State Fault Refusal)
    let refused := fun (why : Reason) => (Host.Outcome.next (complete .refused why b) : Host.Outcome State Fault Refusal)
    (∀ code : Byte, code.toNat = 0 ∨ 16 < code.toNat → exec (.unknownCommand code) s = refused .unknown)
    ∧ exec .policyEnforce s = done { b with
        win := { b.win with policy := .enforcing },
        rep := { b.rep with statusMark := b.rep.statusMark || decide (b.win.policy = .openAll) } }
    ∧ (∀ set overflow : Byte,
        (1 < overflow.toNat → exec (.faultClear set overflow) s = refused .range)
        ∧ (overflow.toNat ≤ 1 →
            ∃ u, exec (.faultClear set overflow) s = done { b with
                flt := u,
                rep := { b.rep with statusMark := b.rep.statusMark || (b.flt.overflow && decide (overflow.toNat = 1)) } }
              ∧ (∀ n : Fin 8, u.records[n] = if set.getLsbD n.val then none else b.flt.records[n])
              ∧ u.marks = b.flt.marks ++ ([0, 1, 2, 3, 4, 5, 6, 7] : List (Fin 8)).filter (fun n =>
                  set.getLsbD n.val && b.flt.records[n].isSome && decide (n ∉ b.flt.marks))
              ∧ u.overflow = (b.flt.overflow && decide (overflow.toNat = 0)) ∧ u.created = b.flt.created))
    ∧ (∀ enable mask : Byte,
        (1 < enable.toNat ∨ 1 < mask.toNat → exec (.reporting enable mask) s = refused .range)
        ∧ (enable.toNat ≤ 1 → mask.toNat ≤ 1 →
            let on := decide (enable.toNat = 1)
            let masked := decide (mask.toNat = 1)
            exec (.reporting enable mask) s = done { b with
              rep := { b.rep with
                enabled := on, mask := masked, dropped := b.rep.dropped && on,
                droppedCount := if on then b.rep.droppedCount else 0,
                statusMark := b.rep.statusMark || decide (b.rep.enabled ≠ on) || decide (b.rep.mask ≠ masked)
                  || (b.rep.dropped && !on) },
              pins := { b.pins with attention := on && !masked && decide (b.rep.published ≠ b.rep.consumed) } }))

/-- R34 to R37, R41: the refusals of WINDOW LOAD in their order (RANGE, ALIGN, BOUND, BUSY, OVERLAP-CONTROL,
HIDDEN-OVERLAP, LIMIT), and those of WINDOW DROP at a LOADED index; a refused command changes nothing. -/
def Obligations.WindowCommandsRefused : Prop :=
  ∀ (s b : State), s.fetchAnswered b →
    let refused := fun (why : Reason) => (Host.Outcome.next (complete .refused why b) : Host.Outcome State Fault Refusal)
    (∀ p : LoadParams,
      ((∀ i w, ¬ describes p i w) → exec (.windowLoad p) s = refused .range)
      ∧ ∀ i w, describes p i w →
          (w.misaligned → exec (.windowLoad p) s = refused .align)
          ∧ (¬ w.misaligned → b.boundAt i → exec (.windowLoad p) s = refused .bound)
          ∧ (¬ w.misaligned → ¬ b.boundAt i → b.busyAt i → exec (.windowLoad p) s = refused .busy)
          ∧ (¬ w.misaligned → ¬ b.boundAt i → ¬ b.busyAt i → b.overlapsArea w →
              exec (.windowLoad p) s = refused .overlapControl)
          ∧ (¬ w.misaligned → ¬ b.boundAt i → ¬ b.busyAt i → ¬ b.overlapsArea w → b.overlapsHidden i w →
              exec (.windowLoad p) s = refused .hiddenOverlap)
          ∧ (¬ w.misaligned → ¬ b.boundAt i → ¬ b.busyAt i → ¬ b.overlapsArea w → ¬ b.overlapsHidden i w →
              b.feedsFull i w → exec (.windowLoad p) s = refused .limit))
    ∧ ∀ index : Byte,
        (31 < index.toNat → exec (.windowDrop index) s = refused .range)
        ∧ ∀ (i : WinIdx) (w : Window), index.toNat = i.val → b.entry i = .loaded w →
            (b.boundAt i → exec (.windowDrop index) s = refused .bound)
            ∧ (¬ b.boundAt i → b.busyAt i → exec (.windowDrop index) s = refused .busy)

/-- R38, R41, R75: WINDOW LOAD at an EMPTY index applies at once and completes DONE; WINDOW DROP there completes DONE with
nothing changed. New contents that apply make the entry LOADED, give a FEED window an EMPTY assembly slot, and a TIME
feed's source the lowest-numbered vacant place, with nothing accepted and path delay 0. -/
def Obligations.WindowLoadApplies : Prop :=
  (∀ (s b : State) (p : LoadParams) (i : WinIdx) (w : Window), s.fetchAnswered b → describes p i w → b.admitsLoad i w →
      b.entry i = .empty → exec (.windowLoad p) s = .next (complete .done .none (applyWindow i w b)))
  ∧ (∀ (s b : State) (index : Byte) (i : WinIdx), s.fetchAnswered b → index.toNat = i.val → b.entry i = .empty →
      exec (.windowDrop index) s = .next (complete .done .none b))
  ∧ ∀ (s : State) (i : WinIdx) (w : Window),
      let slot : Option Slot := if w.feedKind?.isSome then some .empty else none
      let t := (s.setEntry i (.loaded w)).setSlot i slot
      let fresh : Place := { window := some i, lastOrigin := none, lastGrade := none, lastAccept := none, heard := false,
                             heardTimer := none, pathDelay := 0 }
      (w.feedKind? ≠ some .time → applyWindow i w s = t)
      ∧ (w.feedKind? = some .time → s.clk.place0.window = none →
          applyWindow i w s = { t with clk := { s.clk with place0 := fresh } })
      ∧ (w.feedKind? = some .time → s.clk.place0.window ≠ none → s.clk.place1.window = none →
          applyWindow i w s = { t with clk := { s.clk with place1 := fresh } })

/-- R39 to R41: WINDOW LOAD and WINDOW DROP at a LOADED index. The entry drains; with no in-flight entry checked against the
index the drain ends at once, else the entry is DRAINING, its assembly slot emptied, and the command waits for DRAIN_END. At
the drain's end the old contents cease (a TIME source vanishes), a load's contents apply, a drop leaves the entry EMPTY, and
the command completes DONE, behind the notices of a vanishing source (the model's choice: log 46). A row before its moment
changes nothing (the model's choice: log 2). -/
def Obligations.WindowDrains : Prop :=
  let ceased := fun (i : WinIdx) (old : Window) (b : State) =>
    let cleared := (b.setEntry i .empty).setSlot i none
    if old.feedKind? = some .time then vanishSource i cleared else cleared
  let ended := fun (i : WinIdx) (old : Window) (new : Option Window) (b : State) =>
    complete .done .none (match new with
      | some w => applyWindow i w (ceased i old b)
      | none   => ceased i old b)
  let waits := fun (i : WinIdx) (old : Window) (new : Option Window) (b : State) =>
    let slot : Option Slot := if (b.slot? i).isSome then some .empty else none
    let t := (b.setEntry i (.draining old new)).setSlot i slot
    { t with cmd := { b.cmd with phase := .executing (.drain i) } }
  (∀ (s b : State) (p : LoadParams) (i : WinIdx) (old w : Window), s.fetchAnswered b → describes p i w →
      b.admitsLoad i w → b.entry i = .loaded old →
      (b.drained i → exec (.windowLoad p) s = .next (ended i old (some w) b))
      ∧ (¬ b.drained i → exec (.windowLoad p) s = .next (waits i old (some w) b)))
  ∧ (∀ (s b : State) (index : Byte) (i : WinIdx) (old : Window), s.fetchAnswered b → index.toNat = i.val →
      b.entry i = .loaded old → ¬ b.boundAt i → ¬ b.busyAt i →
      (b.drained i → exec (.windowDrop index) s = .next (ended i old none b))
      ∧ (¬ b.drained i → exec (.windowDrop index) s = .next (waits i old none b)))
  ∧ ∀ (s : State) (i : WinIdx) (old : Window) (new : Option Window), s.running = true →
      s.cmd.phase = .executing (.drain i) → s.entry i = .draining old new →
      (s.drained i → exec .drainEnd s = .next (ended i old new s)) ∧ (¬ s.drained i → exec .drainEnd s = .next s)

/-- R94, R95, R97, R104: ROBOT BIND. Out of range it is refused RANGE, for a bound robot BOUND, for windows of other roles
ROLE, in this order. Otherwise the robot is bound at once with the record of R95, half A's bank word is written, and the
catch-up copy's first piece is read from half A; the command completes DONE when the bank-word write joins the own queue, at
once or from the line of waiting units. Where one place is free the bank word takes it and the read waits; where none is, or
another unit waits, both wait, the read behind the bank word, each a transaction of the line (the model's reading of R13:
log 8). The read comes before the completion, and a next boundary past the end of machine time is held as it is (the model's
choices: logs 44, 47). -/
def Obligations.RobotBindCompletes : Prop :=
  (∀ (s b : State) (p : BindParams), s.fetchAnswered b →
    let refused := fun (why : Reason) => exec (.robotBind p) s = .next (complete .refused why b)
    let inRange := p.robot.toNat ≤ 5 ∧ p.bank.toNat ≤ 31 ∧ p.feed.toNat ≤ 31 ∧ p.reader.toNat ≤ 7 ∧ 250 ≤ p.period.toNat
      ∧ p.period.toNat ≤ 100000 ∧ 1 ≤ p.echoLimit.toNat ∧ p.echoLimit.toNat ≤ 64 ∧ p.nudges.toNat ≤ 7
    (¬ inRange → refused .range)
    ∧ ∀ (r : RobotIdx) (i f : WinIdx) (t : Tag), inRange → p.robot.toNat = r.val → p.bank.toNat = i.val →
        p.feed.toNat = f.val → p.reader.toNat = t.val →
        let roles := (∃ w e x ha hb, b.entry i = .loaded w ∧ w.role = .banked e x r ha hb)
          ∧ ∃ v, b.entry f = .loaded v ∧ v.feedKind? = some .robot
        (b.bound? r ≠ none → refused .bound)
        ∧ (b.bound? r = none → ¬ roles → refused .role)
        ∧ (b.bound? r = none → roles → ∀ halfA halfB size : Nat, b.bankAt i halfA halfB size →
            let time := b.clk.ns.toNat
            let record : Bound :=
              { bank := i, feed := f, reader := t, period := p.period.toNat, echoLimit := p.echoLimit.toNat,
                nudgeCount := p.nudges.toNat, unbinding := false, published := .a, publishedSeq := 0,
                publish := .copying, pendingReq := none, nextReq := none, confirmPending := false,
                echo := .confirmed, toDeadline := 0, nudgesUsed := 0, mode := .unknown, sinceStatus := 0, faultCode := 0,
                review := false, grantHold := false,
                nextBoundary := (time / (p.period.toNat * 1000) + 1) * (p.period.toNat * 1000),
                flipTime := BitVec.ofNat 32 time, newFlipTime := none }
            let word := bankWord 0 0 false (time % 4294967296)
            let len := pieceLen halfA size 8
            let bound := ((b.setRobot r (some record)).makes [(.bankBind r, halfA, word)]).makesRead (.copyRead r 8 len)
              (halfA + 8) len
            (b.ownRoom 1 → exec (.robotBind p) s = .next (complete .done .none bound))
            ∧ (¬ b.ownRoom 1 → exec (.robotBind p) s = .next (bound.setPhase (.executing (.bindJoin r))))))
  ∧ ∀ (s : State) (r : RobotIdx) (t : OwnTxn) (rest : List Waiter), s.running = true → s.path.own.length < 16 →
      s.path.waiting = .txn t :: rest → t.kind = .bankBind r → s.cmd.phase = .executing (.bindJoin r) →
      exec .ownQueueJoin s = .next (complete .done .none
        { s with path := { s.path with own := s.path.own ++ [t], waiting := rest } })

/-- R96: ROBOT UNBIND. It is refused RANGE, NOT-BOUND or BUSY; otherwise the unbinding mark is set, and the robot is unbound
and the command completes DONE at once or at UNBIND_COMPLETE: when the robot is IDLE and no reader read of its published
half is in flight. A row before its moment changes nothing (the model's choice: log 2). -/
def Obligations.RobotUnbindCompletes : Prop :=
  (∀ (s b : State) (robot : Byte), s.fetchAnswered b →
    let refused := fun (why : Reason) => exec (.robotUnbind robot) s = .next (complete .refused why b)
    (5 < robot.toNat → refused .range)
    ∧ ∀ r : RobotIdx, robot.toNat = r.val →
        (b.bound? r = none → refused .notBound)
        ∧ ∀ x, b.bound? r = some x →
            let held := b.authority? x.bank = some .service ∨ b.authority? x.bank = some .frozen
            let marked := b.setRobot r (some { x with unbinding := true })
            (x.unbinding = true → refused .notBound)
            ∧ (x.unbinding = false → held → refused .busy)
            ∧ (x.unbinding = false → ¬ held → x.publish = .idle → ¬ b.readerReads x →
                exec (.robotUnbind robot) s = .next (complete .done .none (b.setRobot r none)))
            ∧ (x.unbinding = false → ¬ held → (x.publish ≠ .idle ∨ b.readerReads x) →
                exec (.robotUnbind robot) s = .next { marked with cmd := { b.cmd with phase := .executing (.unbind r) } }))
  ∧ ∀ (s : State) (r : RobotIdx) (x : Bound), s.running = true → s.cmd.phase = .executing (.unbind r) →
      s.bound? r = some x → x.unbinding = true →
      (x.publish = .idle → ¬ s.readerReads x → exec .unbindComplete s = .next (complete .done .none (s.setRobot r none)))
      ∧ ((x.publish ≠ .idle ∨ s.readerReads x) → exec .unbindComplete s = .next s)

/-- R102, R103: the flip of a FLIPPING bank. FLIP_WAIT_END waits for the reader reads of the published half and the
forwarded writes of the working half, then writes the bank word into the working half: pending sequence, nudge count 0, the
review flag, machine time. SWAP, memory's answer of that write, makes the half the published half and its sequence the
published sequence, sets confirm-pending and the echo, and begins the catch-up copy. A row before its moment changes nothing
(the model's choice: log 2). What finds no place waits in line, each transaction in its order (the model's reading of R13:
log 8). -/
def Obligations.BankFlips : Prop :=
  ∀ (s : State) (r : RobotIdx) (b : Bound) (q : PublishRequest) (halfA halfB size : Nat),
    s.bound? r = some b → b.publish = .flipping → b.pendingReq = some q → s.bankAt b.bank halfA halfB size →
    let working := if b.published = .a then halfB else halfA
    (s.running = true → b.newFlipTime = none →
      (s.flipWaits b → exec (.flipWaitEnd r) s = .next s)
      ∧ (¬ s.flipWaits b →
          exec (.flipWaitEnd r) s = .next ((s.setRobot r (some { b with
              newFlipTime := some (BitVec.ofNat 32 s.clk.ns.toNat) })).makes
            [(.bankFlip r, working, bankWord q.seq 0 b.review (s.clk.ns.toNat % 4294967296))])))
    ∧ ∀ (pre post : List OwnTxn) (w : OwnTxn) (time : BitVec 32), s.canBeAnswered pre w post → w.kind = .bankFlip r →
        w.body ≠ none → (∀ x ∈ pre, x.kind ≠ .bankFlip r) → b.newFlipTime = some time →
        let len := pieceLen working size 8
        let swapped : Bound := { b with
          published := b.published.other, publishedSeq := q.seq,
          confirmPending := q.confirm && decide (q.origin = .production), pendingReq := none, nudgesUsed := 0,
          flipTime := time, newFlipTime := none, publish := .copying,
          echo := if b.echo = .stale then .stale else .awaiting,
          toDeadline := if b.echo = .stale then b.toDeadline else b.echoLimit }
        exec (.swap r) s = .next (((s.withOwn (pre ++ post)).setRobot r (some swapped)).makesRead (.copyRead r 8 len)
          (working + 8) len)

/-- R104 to R106: the catch-up copy. COPY_READ_ANSWER writes the piece read to the same offset of the working half and reads
the next piece, if there is one; with one place free the write takes it and the read waits, and with none the write waits,
the next read following it as it joins. COPY_END, memory's answer of the last piece's write, releases the robot's held
writes as FORWARDED behind the passing stream, and leaves the bank PENDING with the next sequence, or IDLE. The line holds
transactions (the model's reading of R13: log 8). -/
def Obligations.CatchUpCopyRuns : Prop :=
  ∀ (s : State) (pre post : List OwnTxn) (w : OwnTxn) (r : RobotIdx) (b : Bound) (offset len halfA halfB size : Nat),
    s.canBeAnswered pre w post → s.bound? r = some b → s.bankAt b.bank halfA halfB size →
    let from_ := if b.published = .a then halfA else halfB
    let to_ := if b.published = .a then halfB else halfA
    let s' := s.withOwn (pre ++ post)
    (∀ data : List Byte, w.kind = .copyRead r offset len → w.body = none →
      (∀ x ∈ pre, ∀ o n, x.kind ≠ .copyRead r o n) → data.length = len →
      let written := s'.makes [(.copyWrite r offset len, to_ + offset, data)]
      let next := offset + len
      let piece := pieceLen from_ size next
      (s'.ownRoom 1 → next < size → exec (.copyReadAnswer r data) s
        = .next (written.makesRead (.copyRead r next piece) (from_ + next) piece))
      ∧ (¬ s'.ownRoom 1 ∨ size ≤ next → exec (.copyReadAnswer r data) s = .next written))
    ∧ (b.publish = .copying → w.kind = .copyWrite r offset len → w.body ≠ none → (∀ x ∈ pre, ∀ o n, x.kind ≠ .copyWrite r o n) →
        size ≤ offset + len →
        let mine := s.hold.filter fun h => decide (h.robot = r)
        let released : State := { s' with
          path := { s'.path with
            inflight := s.path.inflight.map fun e =>
              if e.id ∈ mine.map HeldWrite.id then { e with disposition := .forwarded } else e,
            passing := s.path.passing ++ mine.map fun h =>
              { id := h.id, dir := .write, addr := h.addr, len := h.data.length, data := h.data, enables := h.enables } },
          hold := s.hold.filter fun h => decide (h.robot ≠ r) }
        (b.nextReq = none → exec (.copyEnd r) s = .next (released.setRobot r (some { b with publish := .idle })))
        ∧ (∀ q, b.nextReq = some q → exec (.copyEnd r) s = .next (released.setRobot r (some { b with
            publish := .pending, pendingReq := some q, nextReq := none }))))

/-- R64, R66 to R73, R101, R109, R110 with the order of log 14. CYCLE_BOUNDARY is the REFCLK period whose advance reaches
the robot's next boundary (log 1): the counts and, at a whole millisecond, the mark with its frame (its SOURCE bit: log 18);
then the boundaries the period reaches, robots in number order, before the timer expiries it reaches (the model's choice:
log 37). The detector adds its period (log 47); a PENDING bank becomes FLIPPING; an AWAITING echo counts down, and at 0 nudges and
renews or becomes STALE with a ROBOT-STALE notice; the boundaries since the last status rise to at most 16, and the one that
brings them to 16 makes the mode UNKNOWN. ECHO_DEADLINE and MODE_LAPSE are taken as such periods (log 1). A period that does
not reach the robot's boundary is none of its rows (log 2). What finds no place waits in line, each transaction in its order
(the model's reading of R13: log 8). -/
def Obligations.CycleBoundaryTaken : Prop :=
  (∀ (s : State) (r : RobotIdx) (b : Bound), s.pins.powerGood = true → s.bound? r = some b →
    s.clk.units + s.clk.increment < 2 ^ 96 →
    let ns := (s.clk.units + s.clk.increment) / 4294967296
    (ns < b.nextBoundary → exec (.cycleBoundary r) s = .next s)
    ∧ (b.nextBoundary ≤ ns → ∃ t, s.periodGiven t
        ∧ exec (.cycleBoundary r) s = .next t
        ∧ (b.echo = .awaiting → b.toDeadline ≤ 1 → exec (.echoDeadline r) s = .next t)
        ∧ (15 ≤ b.sinceStatus → b.mode ≠ .unknown → exec (.modeLapse r) s = .next t)))
  ∧ ∀ (s : State) (r : RobotIdx) (b : Bound), s.bound? r = some b →
      let set := fun (x : Bound) => s.setRobot r (some x)
      (b.publish ≠ .pending → startFlip r s = s)
      ∧ (b.publish = .pending →
          let x : Bound := { b with publish := .flipping, newFlipTime := none }
          (s.flipWaits b → startFlip r s = set x)
          ∧ (¬ s.flipWaits b → ∀ q halfA halfB size, b.pendingReq = some q → s.bankAt b.bank halfA halfB size →
              startFlip r s = State.makes (set { x with newFlipTime := some (BitVec.ofNat 32 s.clk.ns.toNat) })
                [(.bankFlip r, if b.published = .a then halfB else halfA,
                  bankWord q.seq 0 b.review (s.clk.ns.toNat % 4294967296))]))
      ∧ (b.echo ≠ .awaiting → countEcho r s = s)
      ∧ (b.echo = .awaiting →
          (1 < b.toDeadline → countEcho r s = set { b with toDeadline := b.toDeadline - 1 })
          ∧ (b.toDeadline ≤ 1 → b.nudgesUsed < b.nudgeCount → ∀ halfA halfB size, s.bankAt b.bank halfA halfB size →
              countEcho r s = State.makes (set { b with nudgesUsed := b.nudgesUsed + 1, toDeadline := b.echoLimit })
                [(.nudge r, if b.published = .a then halfA else halfB,
                  bankWord b.publishedSeq (b.nudgesUsed + 1) b.review b.flipTime.toNat)])
          ∧ (b.toDeadline ≤ 1 → b.nudgeCount ≤ b.nudgesUsed →
              countEcho r s = postNotice (.robotStale r b.publishedSeq b.nudgesUsed)
                (set { b with echo := .stale, toDeadline := 0 })))
      ∧ (b.sinceStatus < 15 ∨ b.mode = .unknown →
          countMode r s = set { b with sinceStatus := min 16 (b.sinceStatus + 1) })
      ∧ (15 ≤ b.sinceStatus → b.mode ≠ .unknown →
          countMode r s = serviceModeChange r .unknown (set { b with sinceStatus := 16, mode := .unknown }))

/-- R108, R110: ROBOT STATUS. The mode and the fault code are the record's and the boundaries since last status 0; an
applied sequence equal to the published one confirms the echo, ends the deadline, clears confirm-pending and, with it
set, the review flag, and posts ROBOT-RECOVERED for a STALE echo; any other leaves the echo. A change of mode is handed
to the service unit, after that notice (the model's choice: log 38). The row of a robot that is not bound, which R52 never
dispatches, changes nothing (the model's choice: log 2). -/
def Obligations.RobotStatusTaken : Prop :=
  ∀ (s : State) (src : Source) (rec : RobotStatus), s.running = true →
    (s.bound? rec.robot = none → exec (.robotStatus src rec) s = .next s)
    ∧ ∀ b, s.bound? rec.robot = some b →
        let echoed := rec.applied = b.publishedSeq
        let taken : Bound := { b with mode := rec.mode, faultCode := rec.faultCode, sinceStatus := 0 }
        let confirmed : Bound := { taken with
          echo := .confirmed, toDeadline := 0, confirmPending := false, review := b.review && !b.confirmPending }
        let hand := fun (t : State) => if rec.mode = b.mode then t else serviceModeChange rec.robot rec.mode t
        let set := fun (x : Bound) => s.setRobot rec.robot (some x)
        (¬ echoed → exec (.robotStatus src rec) s = .next (hand (set taken)))
        ∧ (echoed → b.echo ≠ .stale → exec (.robotStatus src rec) s = .next (hand (set confirmed)))
        ∧ (echoed → b.echo = .stale → exec (.robotStatus src rec) s
            = .next (hand (postNotice (.robotRecovered rec.robot b.publishedSeq) (set confirmed))))

/-- R116 to R118: TRACK SETUP and TRACK CLEAR. A setup is refused RANGE, BUSY or ROLE in this order. Applied, it decides the
entries at and above the new reject pocket, highest first; takes the new parameters; leaves a chain of PURGED entries,
an empty filled list, no next exit serial and no pocket interval; and moves a running line-stop timer, which expires at
once if its time is reached. The completion's writes come after those of the decisions and of a LINE-STOPPED (the model's
choice: log 48). A clear is refused BUSY while the line is RUNNING; of a CONFIGURED unit it turns every BOTTLE into PURGED and
empties the filled list and the next exit serial. -/
def Obligations.TrackCommandsComplete : Prop :=
  ∀ (s b : State), s.fetchAnswered b →
    let refused := fun (why : Reason) => (Host.Outcome.next (complete .refused why b) : Host.Outcome State Fault Refusal)
    (∀ p : TrackParams,
      ((∀ cfg, ¬ setupDescribes p cfg) → exec (.trackSetup p) s = refused .range)
      ∧ ∀ cfg, setupDescribes p cfg →
          let busy := b.trk.cfg ≠ none ∧ b.trk.line = .running
          let roles := ∀ k ∈ cfg.cameras, ∃ w, b.entry k.feed = .loaded w ∧ w.feedKind? = some .verdict
          (busy → exec (.trackSetup p) s = refused .busy)
          ∧ (¬ busy → ¬ roles → exec (.trackSetup p) s = refused .role)
          ∧ (¬ busy → roles →
              let leaving := (b.trk.chain.drop cfg.rejectPocket).reverse
              let u := match b.trk.cfg with
                | none     => b
                | some old => leaving.foldl (fun v e => decideEntry old true e v) b
              let timer := match b.trk.lineStop, b.trk.lastPulse with
                | some _, some last => some (last + p.lineStop.toNat * 1000000)
                | t, _              => t
              let trk : Tracking := { u.trk with
                cfg := some cfg, lineStopMs := p.lineStop.toNat, chain := List.replicate cfg.rejectPocket .purged,
                filled := [], nextExit := none, interval := none, pulseSinceSetup := false, lineStop := timer }
              let set := State.statusIf { u with trk := trk } (decide (b.trk.cfg = none))
              ((∀ t, timer = some t → b.clk.elapsed < t) →
                exec (.trackSetup p) s = .next (complete .done .none set))
              ∧ (∀ t, timer = some t → t ≤ b.clk.elapsed →
                exec (.trackSetup p) s = .next (complete .done .none (postNotice .lineStopped
                  (State.statusIf { set with trk := { trk with line := .stopped, lineStop := none } }
                    (decide (b.trk.line = .running))))))))
    ∧ (b.trk.line = .running → exec .trackClear s = refused .busy)
    ∧ (b.trk.line = .stopped → b.trk.cfg = none → exec .trackClear s = .next (complete .done .none b))
    ∧ (b.trk.line = .stopped → b.trk.cfg ≠ none → exec .trackClear s = .next (complete .done .none { b with
        trk := { b.trk with
          chain := b.trk.chain.map fun e => match e with
            | .bottle _ => .purged
            | .gap      => .gap
            | .purged   => .purged,
          filled := [], nextExit := none } }))

/-- R129 to R134, R169, Tables 7-5 and 7-6: an entry that leaves the chain. A GAP gives no decision. A BOTTLE or PURGED
entry gives one, with every reason of Table 7-5 that holds; with a reason it is REJECTED and schedules one pulse, whose
width is clamped by a known pocket interval; then reporting discards the decision, drops it at a full ring with one
DECISION-OVERFLOW, or writes its record, laid as in Table 10-10, and the producer word (the valve byte of a decision without
one is open: log 12). What finds no place waits in line, each transaction in its order (the model's reading of R13: log
8). -/
def Obligations.EntryDecided : Prop :=
  ∀ (s : State) (cfg : TrackConfig) (shortened : Bool),
    decideEntry cfg shortened .gap s = s
    ∧ (∀ e : ChainEntry, e ≠ .gap →
        ∃ d : Decision, d.time = s.clk.ns.toNat ∧ d.reasons.Nodup
          ∧ (e = .purged → d.serial = none ∧ d.reasons = [.purged] ∧ d.robot = none ∧ d.valve = none)
          ∧ (∀ b : Bottle, e = .bottle b →
              let verdicts : List (Option (Verdict × BitVec 16)) := [b.verdict0, b.verdict1, b.verdict2]
              d.serial = b.serial ∧ d.robot = b.fill.map FillRecord.robot ∧ d.valve = b.fill.map FillRecord.valve
              ∧ (.purged ∈ d.reasons ↔ shortened = true)
              ∧ (.fillBad ∈ d.reasons ↔ ∃ f, b.fill = some f ∧ f.good = false)
              ∧ (.fillUnreported ∈ d.reasons ↔ b.fill = none)
              ∧ (.verdictMissing ∈ d.reasons ↔
                  ∃ c : Fin 3, cfg.required.getLsbD c.val = true ∧ verdicts.getD c.val none = none)
              ∧ (.verdictFail ∈ d.reasons ↔ ∃ x, some (.fail, x) ∈ verdicts)
              ∧ (.verdictUnsure ∈ d.reasons ↔ cfg.unsure = .reject ∧ ∃ x, some (.unsure, x) ∈ verdicts)
              ∧ (.suspectStale ∈ d.reasons ↔ ∃ f, b.fill = some f ∧ f.stale = true)
              ∧ (.suspectReview ∈ d.reasons ↔ ∃ f, b.fill = some f ∧ f.review = true))
          ∧ (d.reasons = [] → decideEntry cfg shortened e s = recordDecision d s)
          ∧ (d.reasons ≠ [] →
              let rise := s.clk.elapsed + cfg.delay * 1000
              let width := match s.trk.interval with
                | some i => if i < cfg.delay + cfg.width then max 1 (i - cfg.delay) else cfg.width
                | none   => cfg.width
              let schedule := s.trk.schedule ++ [{ rise := rise, fall := rise + width * 1000 }]
              decideEntry cfg shortened e s = recordDecision d { s with
                trk := { s.trk with schedule := schedule },
                pins := { s.pins with
                  reject := schedule.any fun p => decide (p.rise ≤ s.clk.elapsed ∧ s.clk.elapsed < p.fall) } }))
    ∧ ∀ d : Decision, d.reasons.Nodup →
        (s.rep.enabled = false → recordDecision d s = s)
        ∧ (s.rep.enabled = true → s.rep.decConsumed + 512 ≤ s.rep.decProducer →
            (s.rep.decOverflow = true → recordDecision d s = s)
            ∧ (s.rep.decOverflow = false → recordDecision d s = postNotice (.decisionOverflow d.serial)
                { s with rep := { s.rep with decOverflow := true, statusMark := true } }))
        ∧ (s.rep.enabled = true → s.rep.decProducer < s.rep.decConsumed + 512 →
            let p := s.rep.decProducer
            ∃ bytes, laid bytes 16 (decisionFields d)
              ∧ let t := s.makes [(.decision, s.areaBase + 0x4000 + 16 * (p % 512), bytes),
                                  (.decisionProducer, s.areaBase + 0x28, leBytes 8 (p + 1))]
                recordDecision d s = { t with
                  rep := { s.rep with decProducer := p + 1 }, openCount := s.openCount + 1 })

/-- R122 to R127: a rise of POCKET. Within 1 ms of elapsed time of the last accepted pulse it changes nothing. Accepted, it
measures the pocket interval; of a CONFIGURED unit the last entry leaves and is decided, the others advance, the one that
reaches the verdict deadline pocket has its window closed, and PRESENT makes the new entry; a STOPPED line becomes RUNNING
with LINE-RUNNING; the line-stop timer restarts; and the service unit takes the pulse. The service unit acts last (the
model's choice: log 40). -/
def Obligations.PocketPulseTaken : Prop :=
  ∀ (s : State) (present : Bool), s.running = true →
    (∀ last, s.trk.lastPulse = some last → s.clk.elapsed < last + 1000000 → exec (.pocketPulse present) s = .next s)
    ∧ ((∀ last, s.trk.lastPulse = some last → last + 1000000 ≤ s.clk.elapsed) →
        let interval := match s.trk.lastPulse with
          | some last => if s.trk.line = .running ∧ s.trk.pulseSinceSetup = true then some ((s.clk.elapsed - last) / 1000)
                         else s.trk.interval
          | none      => s.trk.interval
        let measured : State := { s with trk := { s.trk with interval := interval } }
        let started := fun (u : State) => if s.trk.line = .stopped then
            postNotice .lineRunning (State.statusIf { u with trk := { u.trk with line := .running } } true) else u
        let noted := fun (u : State) => { u with trk := { u.trk with
          lastPulse := some s.clk.elapsed, pulseSinceSetup := true,
          lineStop := some (s.clk.elapsed + s.trk.lineStopMs * 1000000) } }
        (s.trk.cfg = none → exec (.pocketPulse present) s = .next (servicePulse (noted (started measured))))
        ∧ ∀ (cfg : TrackConfig) (front : List ChainEntry) (last : ChainEntry), s.trk.cfg = some cfg →
            s.trk.chain = front ++ [last] → s.trk.chain.length = cfg.rejectPocket →
            let u := decideEntry cfg false last measured
            let bottle := fun (serial : Option (BitVec 32)) (fill : Option FillRecord) =>
              ChainEntry.bottle { serial := serial, fill := fill, verdict0 := none, verdict1 := none, verdict2 := none,
                                  windowOpen := true, exitStamp := s.clk.ns.toNat }
            let chain := fun (new : ChainEntry) => (new :: front).mapIdx fun p e =>
              match e with
              | .bottle b => if p = cfg.deadline then .bottle { b with windowOpen := false } else .bottle b
              | e         => e
            let leaves := fun (t : State) => exec (.pocketPulse present) s = .next (servicePulse (noted (started t)))
            (present = false → leaves { u with trk := { u.trk with chain := chain .gap } })
            ∧ (present = true → s.trk.nextExit = none → leaves { u with trk := { u.trk with chain := chain (bottle none none) } })
            ∧ (present = true → ∀ n, s.trk.nextExit = some n →
                leaves { u with trk := { u.trk with
                  chain := chain (bottle (some n) (s.trk.filled.find? fun f => decide (f.serial = n))),
                  filled := s.trk.filled.filter fun f => decide (f.serial ≠ n), nextExit := some (n + 1) } }))

/-- R126, R133: the timed events of the tracking unit. LINE_STOP_TIMER_EXPIRY, its time reached, makes the line STOPPED and
posts LINE-STOPPED. REJECT_RISE raises REJECT exactly if a scheduled pulse is high now. REJECT_FALL takes the first pulse
that has reached its fall from the schedule, and REJECT stays high only under another pulse. A row before its moment changes
nothing (the model's choice: log 2). -/
def Obligations.LineAndRejectTimed : Prop :=
  ∀ s : State, s.running = true →
    let high := fun (p : RejectPulse) => decide (p.rise ≤ s.clk.elapsed ∧ s.clk.elapsed < p.fall)
    (∀ t, s.trk.lineStop = some t →
      (t ≤ s.clk.elapsed → exec .lineStopTimerExpiry s = .next (postNotice .lineStopped
        (State.statusIf { s with trk := { s.trk with line := .stopped, lineStop := none } }
          (decide (s.trk.line = .running)))))
      ∧ (s.clk.elapsed < t → exec .lineStopTimerExpiry s = .next s))
    ∧ (s.pins.reject = false →
        (s.trk.schedule.any high = true → exec .rejectRise s = .next { s with pins := { s.pins with reject := true } })
        ∧ (s.trk.schedule.any high = false → exec .rejectRise s = .next s))
    ∧ (∀ pre p post, s.trk.schedule = pre ++ p :: post → (∀ q ∈ pre, s.clk.elapsed < q.fall) → p.fall ≤ s.clk.elapsed →
        exec .rejectFall s = .next { s with
          trk := { s.trk with schedule := pre ++ post },
          pins := { s.pins with reject := (pre ++ post).any high } })
    ∧ ((∀ q ∈ s.trk.schedule, s.clk.elapsed < q.fall) → exec .rejectFall s = .next s)

/-- R113, R119 to R121, R127, R128: FILL REPORT and VERDICT at their dispatch. A report is discarded while UNCONFIGURED; it
synchronises an unsynchronised next exit serial, and is FILL-LATE below it, FILL-RANGE 16 or more above it, TRACK-DUP
for a serial already held, and placed in serial order otherwise, judged, with the robot's suspect marks. A verdict is
recorded in the BOTTLE entry of its serial whose window is open and holds none of its camera, and is VERDICT-DUP,
VERDICT-LATE or VERDICT-EARLY otherwise. -/
def Obligations.FillAndVerdictTaken : Prop :=
  ∀ (s : State) (src : Source) (tag : Tag), s.running = true → s.feedTagIs src.window tag →
    let fault := fun (k : FaultKind) (serial : BitVec 32) (t : State) => takeFault
      { kind := k, tag := some tag, addr := some src.slot, dir := some .write, window := some src.window,
        serial := some serial } t
    (∀ f : FillReport,
      (s.trk.cfg = none → exec (.fillReport src f) s = .next s)
      ∧ ∀ cfg, s.trk.cfg = some cfg →
          let next := s.trk.nextExit.getD f.serial
          let synced : State := { s with trk := { s.trk with nextExit := some next } }
          let above := fun (x : BitVec 32) => (x - next).toInt
          let held := (∃ g ∈ s.trk.filled, g.serial = f.serial)
            ∨ ∃ b, ChainEntry.bottle b ∈ s.trk.chain ∧ b.serial = some f.serial
          let mass : Int := (f.mass.toNat : Int) - cfg.target
          let marks := fun (m : Bound → Bool) => match s.bound? f.robot with
            | some b => m b
            | none   => false
          let record : FillRecord :=
            { serial := f.serial, robot := f.robot, valve := f.valve, result := f.result, mass := f.mass,
              good := decide (f.result = .ok ∧ -(cfg.tolerance : Int) ≤ mass ∧ mass ≤ cfg.tolerance),
              stale := marks fun b => decide (b.echo = .stale), review := marks Bound.review }
          (above f.serial < 0 → exec (.fillReport src f) s = .next (fault .fillLate f.serial synced))
          ∧ (16 ≤ above f.serial → exec (.fillReport src f) s = .next (fault .fillRange f.serial synced))
          ∧ (0 ≤ above f.serial → above f.serial < 16 → held →
              exec (.fillReport src f) s = .next (fault .trackDup f.serial synced))
          ∧ (0 ≤ above f.serial → above f.serial < 16 → ¬ held → ∀ pre post, s.trk.filled = pre ++ post →
              (∀ g ∈ pre, above g.serial ≤ above f.serial) →
              (∀ g rest, post = g :: rest → above f.serial < above g.serial) →
              exec (.fillReport src f) s = .next { synced with
                trk := { synced.trk with filled := pre ++ record :: post } }))
    ∧ ∀ v : VerdictRecord,
        let given := fun (b : Bottle) => [b.verdict0, b.verdict1, b.verdict2].getD v.camera.val none
        (s.trk.cfg = none ∨ s.trk.nextExit = none → exec (.verdict src v) s = .next (fault .verdictEarly v.serial s))
        ∧ ∀ cfg next, s.trk.cfg = some cfg → s.trk.nextExit = some next →
            (∀ pre b post, s.trk.chain = pre ++ .bottle b :: post →
              (∀ x, ChainEntry.bottle x ∈ pre → x.serial ≠ some v.serial) → b.serial = some v.serial →
              (b.windowOpen = false → exec (.verdict src v) s = .next (fault .verdictLate v.serial s))
              ∧ (b.windowOpen = true → given b ≠ none → exec (.verdict src v) s = .next (fault .verdictDup v.serial s))
              ∧ (b.windowOpen = true → given b = none →
                  let x := some (v.verdict, v.defect)
                  let b' : Bottle := { b with
                    verdict0 := if v.camera = 0 then x else b.verdict0,
                    verdict1 := if v.camera = 1 then x else b.verdict1,
                    verdict2 := if v.camera = 2 then x else b.verdict2 }
                  exec (.verdict src v) s = .next { s with
                    trk := { s.trk with chain := pre ++ .bottle b' :: post } }))
            ∧ ((∀ x, ChainEntry.bottle x ∈ s.trk.chain → x.serial ≠ some v.serial) →
                ((v.serial - next).toInt < 0 → exec (.verdict src v) s = .next (fault .verdictLate v.serial s))
                ∧ (0 ≤ (v.serial - next).toInt → exec (.verdict src v) s = .next (fault .verdictEarly v.serial s)))

/-- R61, R63, R71, R72, R81, R87, R88. A step of machine time: the new value, fraction 0, the stepped mark set, rate 0 and
the nominal increment; the servo's integral and both counts 0; CLOCK-STEP with the time before the step. Each detector takes
the first multiple of its period after the new value (past the end of machine time too: log 47), and gives one boundary exactly if the step is forward and at or past
the boundary that was next (robots in number order, and all boundaries before the notice: log 14). A servo update: the
integral, then the rate, each quotient rounded down and each sum limited; the increment is the nominal one less the rate's
rounded share. A change of the clock state clears both counts and posts CLOCK-STATE; a state left for itself is none. What
the boundaries cause reads the time after the step (the model's choice: log 36), and CLOCK-STATE carries the time read at
the event. -/
def Obligations.MachineTimeSteps : Prop :=
  (∀ (s : State) (source : Option WinIdx) (offset : List Byte) (new : Word),
    let old := s.clk.ns.toNat
    let clk : Clock := { s.clk with ns := new, frac := 0, stepped := true, rate := 0, increment := 34359738368 }
    let t := ([0, 1, 2, 3, 4, 5] : List RobotIdx).foldl (fun u r => stepBoundary old r u) { s with clk := clk }
    stepAndPost source offset new s = postNoticeAt old (.clockStep source offset new.toNat)
      { t with clk := { clk with integral := 0, lockCount := 0, outlierCount := 0 } })
  ∧ (∀ (s : State) (old : Nat) (r : RobotIdx),
    (s.bound? r = none → stepBoundary old r s = s)
    ∧ ∀ b, s.bound? r = some b →
        let now := s.clk.ns.toNat
        let next := s.setRobot r (some { b with nextBoundary := (now / (b.period * 1000) + 1) * (b.period * 1000) })
        (old < now → b.nextBoundary ≤ now → stepBoundary old r s = countMode r (countEcho r (startFlip r next)))
        ∧ (now ≤ old ∨ now < b.nextBoundary → stepBoundary old r s = next))
  ∧ (∀ (c : Clock) (o : Int),
    let limit := fun (v : Int) => max (-(c.params.rateLimit : Int)) (min (c.params.rateLimit : Int) v)
    let integral := limit (c.integral + o.fdiv (2 ^ c.params.iShift))
    let rate := limit (o.fdiv (2 ^ c.params.pShift) + integral)
    c.servo o = { c with integral := integral, rate := rate, increment := incrementOf rate })
  ∧ (∀ rate : Int, rate.natAbs ≤ 500000 →
    34342558499 ≤ incrementOf rate ∧ incrementOf rate ≤ 34376918237
    ∧ (2 * ((34359738368 - (incrementOf rate : Int)) * 1000000000 - 34359738368 * rate)).natAbs ≤ 1000000000)
  ∧ ∀ (s : State) (time : Nat) (new : ClockState) (cause : ClockCause),
    (s.clk.state = new → setClockStateAt time new cause s = s)
    ∧ (s.clk.state ≠ new → setClockStateAt time new cause s = postNoticeAt time (.clockState s.clk.state new cause) { s with
        clk := { s.clk with state := new, lockCount := 0, outlierCount := 0 },
        rep := { s.rep with statusMark := true } })

/-- R75, R77 to R79, R85. Selection takes the heard source of the lowest last grade, of equal grades the lower window; the
same source again changes nothing, another posts SOURCE-CHANGE, and a change to a source puts a LOCKED or HOLDOVER clock
into ACQUIRING or clears an ACQUIRING clock's lock count. A heard timer's expiry ends the hearing and re-evaluates; the
silence timer's expiry puts an ACQUIRING or LOCKED clock into HOLDOVER; a vanishing source leaves its path delay. A row
before its moment changes nothing (the model's choice: log 2). A notice carries the time read at the event (R158). -/
def Obligations.SourcesSelected : Prop :=
  (∀ (s : State) (time : Nat),
    let heardAs := fun (i : WinIdx) (g : Byte) => ∃ p, (p = s.clk.place0 ∨ p = s.clk.place1) ∧ p.heard = true
      ∧ p.window = some i ∧ p.lastGrade = some g
    ((∀ i g, ¬ heardAs i g) →
      (s.clk.selected = none → reselectAt time s = s)
      ∧ (s.clk.selected ≠ none → reselectAt time s = postNoticeAt time (.sourceChange s.clk.selected none none)
          { s with clk := { s.clk with selected := none } }))
    ∧ ∀ i g, heardAs i g → (∀ j h, heardAs j h → g.toNat < h.toNat ∨ (g = h ∧ i ≤ j)) →
        let u := postNoticeAt time (.sourceChange s.clk.selected (some i) (some g))
          { s with clk := { s.clk with selected := some i } }
        (s.clk.selected = some i → reselectAt time s = s)
        ∧ (s.clk.selected ≠ some i →
            (s.clk.state = .free → reselectAt time s = u)
            ∧ (s.clk.state = .acquiring → reselectAt time s = { u with clk := { u.clk with lockCount := 0 } })
            ∧ (s.clk.state = .locked ∨ s.clk.state = .holdover →
                reselectAt time s = setClockStateAt time .acquiring .source u)))
  ∧ (∀ (s : State) (t : Nat), s.pins.powerGood = true →
    let unheard := fun (p : Place) => { p with heard := false, heardTimer := none }
    (s.clk.place0.heardTimer = some t →
      (s.clk.elapsed < t → exec (.heardTimerExpiry 0) s = .next s)
      ∧ (t ≤ s.clk.elapsed → exec (.heardTimerExpiry 0) s
          = .next (reselectAt s.clk.ns.toNat { s with clk := { s.clk with place0 := unheard s.clk.place0 } })))
    ∧ (s.clk.place1.heardTimer = some t →
      (s.clk.elapsed < t → exec (.heardTimerExpiry 1) s = .next s)
      ∧ (t ≤ s.clk.elapsed → exec (.heardTimerExpiry 1) s
          = .next (reselectAt s.clk.ns.toNat { s with clk := { s.clk with place1 := unheard s.clk.place1 } })))
    ∧ (s.clk.silence = some t →
      let u : State := { s with clk := { s.clk with silence := none } }
      (s.clk.elapsed < t → exec .silenceTimerExpiry s = .next s)
      ∧ (t ≤ s.clk.elapsed → s.clk.state = .acquiring ∨ s.clk.state = .locked →
          exec .silenceTimerExpiry s = .next (setClockStateAt s.clk.ns.toNat .holdover .silence u))
      ∧ (t ≤ s.clk.elapsed → s.clk.state = .free ∨ s.clk.state = .holdover → exec .silenceTimerExpiry s = .next u)))
  ∧ ∀ (s : State) (i : WinIdx),
    let vacant := fun (p : Place) =>
      { p with window := none, lastOrigin := none, lastGrade := none, lastAccept := none, heard := false, heardTimer := none }
    (s.clk.place0.window = some i →
      vanishSource i s = reselectAt s.clk.ns.toNat { s with clk := { s.clk with place0 := vacant s.clk.place0 } })
    ∧ (s.clk.place0.window ≠ some i → s.clk.place1.window = some i →
      vanishSource i s = reselectAt s.clk.ns.toNat { s with clk := { s.clk with place1 := vacant s.clk.place1 } })
    ∧ (s.clk.place0.window ≠ some i → s.clk.place1.window ≠ some i → vanishSource i s = s)

/-- R54, R62, R76, R80, R82 to R86, R88, Table 5-3: TIME SYNC. A record whose origin is not above the last one is a
duplicate and changes nothing. An accepted one refreshes its source, restarts the heard and the silence timer, and
re-evaluates selection. If its source is then selected, and no record of the same write has stepped machine time (the row's
operand `after` holds the machine time of the write's acceptance if one has: log 28), its offset is receive stamp less
origin less path delay, held to 64 bits, and is handed to the clock state. The row of a window that no place serves, which
R52 never dispatches, changes nothing (the model's choice: log 2). Every notice it posts carries the one machine time of
that acceptance (R54, R62, R158). -/
def Obligations.TimeSyncTaken : Prop :=
  ∀ (s : State) (src : Source) (rec : TimeSync) (after : Option Word), s.running = true →
    let w := src.window
    let run := exec (.timeSync src rec after) s
    (s.clk.place0.window ≠ some w → s.clk.place1.window ≠ some w → run = .next s)
    ∧ ∀ (first : Bool) (p : Place),
        ((first = true ∧ p = s.clk.place0) ∨ (first = false ∧ p = s.clk.place1 ∧ s.clk.place0.window ≠ some w)) →
        p.window = some w →
        (∀ x, p.lastOrigin = some x → rec.origin.toNat ≤ x.toNat → run = .next s)
        ∧ ((∀ x, p.lastOrigin = some x → x.toNat < rec.origin.toNat) →
            let expiry := s.clk.elapsed + s.clk.params.holdover * 1000000
            let fresh : Place := { window := some w, lastOrigin := some rec.origin, lastGrade := some rec.grade,
                                   lastAccept := some s.clk.elapsed, heard := true, heardTimer := some expiry,
                                   pathDelay := p.pathDelay }
            let reading : Nat := match after with
              | some accepted => accepted.toNat
              | none          => s.clk.ns.toNat
            let u := reselectAt reading { s with clk := { s.clk with
              place0 := if first then fresh else s.clk.place0, place1 := if first then s.clk.place1 else fresh,
              lastAny := some s.clk.elapsed, silence := some expiry } }
            (u.clk.selected ≠ some w ∨ after ≠ none → run = .next u)
            ∧ (u.clk.selected = some w → after = none →
                let o : Int := max (-9223372036854775808) (min 9223372036854775807
                  ((rec.receive.toNat : Int) - rec.origin.toNat - p.pathDelay))
                let large := s.clk.params.step < o.natAbs
                let time := BitVec.ofNat 64 (max 0 (min 18446744073709551615 ((u.clk.ns.toNat : Int) - o))).toNat
                let stepped := stepAndPost (some w) (leBytes 8 (BitVec.ofInt 64 o).toNat) time u
                let acquire := setClockStateAt reading .acquiring .record
                let served : State := { u with clk := u.clk.servo o }
                let counts := fun (v : State) =>
                  let n := v.clk.lockCount + 1
                  (s.clk.params.lock < o.natAbs → run = .next { v with clk := { v.clk with lockCount := 0 } })
                  ∧ (o.natAbs ≤ s.clk.params.lock → n < 4 → run = .next { v with clk := { v.clk with lockCount := n } })
                  ∧ (o.natAbs ≤ s.clk.params.lock → 4 ≤ n →
                      run = .next (setClockStateAt reading .locked .record { v with clk := { v.clk with lockCount := n } }))
                (u.clk.state = .free →
                  (large → run = .next (acquire stepped)) ∧ (¬ large → run = .next (acquire served)))
                ∧ (u.clk.state = .acquiring → (large → run = .next stepped) ∧ (¬ large → counts served))
                ∧ (u.clk.state = .locked →
                    (large → u.clk.outlierCount < 2 →
                      run = .next { u with clk := { u.clk with outlierCount := u.clk.outlierCount + 1 } })
                    ∧ (large → 2 ≤ u.clk.outlierCount → run = .next (acquire stepped))
                    ∧ (¬ large → run = .next { u with clk := { u.clk.servo o with outlierCount := 0 } }))
                ∧ (u.clk.state = .holdover → (large → run = .next (acquire stepped)) ∧ (¬ large → counts (acquire served)))))

/-- R89 to R91: CLOCK SET and CLOCK TUNE. CLOCK SET steps machine time to its value, posts CLOCK-STEP with no source and the
difference of the two times (open where no signed 64-bit value holds it: log 13), and the clock becomes ACQUIRING if a
source is heard, else FREE, with cause SET. CLOCK TUNE is refused RANGE, then ROLE; otherwise every given parameter applies
at once, the integral and the rate are limited to the rate limit, and a given holdover interval moves the running timers:
heard timers already reached end their hearing, one re-evaluation follows, then the silence timer. CLOCK-STATE carries the
machine time before the step, as CLOCK-STEP does (R62); the completion is stamped after it (the model's choice: log 36), and
its writes come after those of the notices and of what they cause (the model's choice: log 48). -/
def Obligations.ClockCommandsComplete : Prop :=
  ∀ (s b : State), s.fetchAnswered b →
    let done := fun (t : State) => (Host.Outcome.next (complete .done .none t) : Host.Outcome State Fault Refusal)
    let refused := fun (why : Reason) => (Host.Outcome.next (complete .refused why b) : Host.Outcome State Fault Refusal)
    (∀ t : Word, ∃ offset : List Byte, offset.length = 8
      ∧ (let d := (b.clk.ns.toNat : Int) - t.toNat
         d ≤ 9223372036854775807 → -9223372036854775808 ≤ d → offset = leBytes 8 (BitVec.ofInt 64 d).toNat)
      ∧ exec (.clockSet t) s = done (setClockStateAt b.clk.ns.toNat
          (if b.clk.place0.heard = true ∨ b.clk.place1.heard = true then .acquiring else .free) .set
          (stepAndPost none offset t { b with openCount := b.openCount + 1 })))
    ∧ ∀ p : TuneParams,
        let has := fun (n : Nat) => p.given.getLsbD n
        let within := fun (n v lo hi : Nat) => has n = true → lo ≤ v ∧ v ≤ hi
        let old := b.clk.params
        let new : Discipline :=
          { step := if has 0 then p.step.toNat else old.step, lock := if has 1 then p.lock.toNat else old.lock,
            pShift := if has 2 then p.pShift.toNat else old.pShift, iShift := if has 3 then p.iShift.toNat else old.iShift,
            rateLimit := if has 4 then p.rateLimit.toNat else old.rateLimit,
            holdover := if has 5 then p.holdover.toNat else old.holdover }
        let inRange := within 0 p.step.toNat 1000 100000000 ∧ within 1 p.lock.toNat 10 1000000
          ∧ within 2 p.pShift.toNat 0 15 ∧ within 3 p.iShift.toNat 0 20 ∧ within 4 p.rateLimit.toNat 1000 500000
          ∧ within 5 p.holdover.toNat 100 10000 ∧ within 6 p.delay1.toNat 0 1000000 ∧ within 7 p.delay2.toNat 0 1000000
          ∧ ¬ (has 6 = true ∧ has 7 = true ∧ p.window1 = p.window2) ∧ new.lock ≤ new.step
        let served := fun (x : Byte) => ∃ i : WinIdx, x.toNat = i.val
          ∧ (b.clk.place0.window = some i ∨ b.clk.place1.window = some i)
        let roles := (has 6 = true → served p.window1) ∧ (has 7 = true → served p.window2)
        (¬ inRange → exec (.clockTune p) s = refused .range)
        ∧ (inRange → ¬ roles → exec (.clockTune p) s = refused .role)
        ∧ (inRange → roles → (b.clk.place0.window = none ∨ b.clk.place0.window ≠ b.clk.place1.window) →
            let limit := fun (v : Int) => max (-(new.rateLimit : Int)) (min (new.rateLimit : Int) v)
            let delay := fun (q : Place) =>
              if has 7 = true ∧ q.window.map Fin.val = some p.window2.toNat then p.delay2.toNat
              else if has 6 = true ∧ q.window.map Fin.val = some p.window1.toNat then p.delay1.toNat
              else q.pathDelay
            let place0 := { b.clk.place0 with pathDelay := delay b.clk.place0 }
            let place1 := { b.clk.place1 with pathDelay := delay b.clk.place1 }
            let clk : Clock := { b.clk with
              params := new, integral := limit b.clk.integral, rate := limit b.clk.rate,
              increment := incrementOf (limit b.clk.rate), place0 := place0, place1 := place1 }
            (has 5 = false → exec (.clockTune p) s = done { b with clk := clk })
            ∧ (has 5 = true →
                let moved := fun (timer last : Option Nat) => match timer, last with
                  | some _, some a => some (a + p.holdover.toNat * 1000000)
                  | t, _           => t
                let reached := fun (timer : Option Nat) => ∃ t, timer = some t ∧ t ≤ b.clk.elapsed
                ∀ q0 q1 : Place,
                  (∀ (q q' : Place), (q = clk.place0 ∧ q' = q0) ∨ (q = clk.place1 ∧ q' = q1) →
                    let timer := moved q.heardTimer q.lastAccept
                    (reached timer → q' = { q with heard := false, heardTimer := none })
                    ∧ (¬ reached timer → q' = { q with heardTimer := timer })) →
                  let silence := moved b.clk.silence b.clk.lastAny
                  let u := reselectAt b.clk.ns.toNat { b with clk := { clk with place0 := q0, place1 := q1, silence := silence } }
                  (¬ reached silence → exec (.clockTune p) s = done u)
                  ∧ (reached silence → exec (.clockTune p) s = done (silenceExpiry u))))

/-- R64, R66 to R70, R170. MARK, taken as the REFCLK period whose advance reaches a whole millisecond (log 1): the pin goes
high until 10 µs later, and at a whole second or with the stepped mark set a frame is due with its contents fixed (its
SOURCE bit counts the TIME feed windows that are LOADED, not DRAINING: the model's reading, log 18; its HEARD bit is that
before any heard timer the same period reaches: the model's choice, log 37), in place of one that waits (whose STEPPED it
keeps); the cycle boundaries that the period reaches follow, robots in number order (the model's choices: logs 14, 37).
MARK_PULSE_END ends the pulse. CODE_FRAME_START begins the waiting frame, 10 µs after its mark and with no frame being sent,
as 56 bits of even parity; CODE_FRAME_END ends it 56 µs later; CODE carries one bit each microsecond. A row before its moment changes nothing (the model's choice: log 2). -/
def Obligations.MarkAndCodeGiven : Prop :=
  (∀ (s : State), s.pins.powerGood = true → s.clk.units + s.clk.increment < 2 ^ 96 →
    let ns := (s.clk.units + s.clk.increment) / 4294967296
    (s.clk.ns.toNat / 1000000 = ns / 1000000 → exec .mark s = .next s)
    ∧ (s.clk.ns.toNat / 1000000 < ns / 1000000 → ∃ t, s.periodGiven t ∧ exec .mark s = .next t))
  ∧ (∀ (s : State), s.pins.powerGood = true →
    (∀ t, s.clk.markEnd = some t →
      (s.clk.elapsed < t → exec .markPulseEnd s = .next s)
      ∧ (t ≤ s.clk.elapsed → exec .markPulseEnd s
          = .next { s with pins := { s.pins with mark := false }, clk := { s.clk with markEnd := none } }))
    ∧ (∀ frame t, s.clk.codeWaiting = some (frame, t) →
        (s.clk.elapsed < t ∨ s.clk.codeSending ≠ none → exec .codeFrameStart s = .next s)
        ∧ (t ≤ s.clk.elapsed → s.clk.codeSending = none →
            ∃ bits : BitVec 56,
              exec .codeFrameStart s = .next { s with
                clk := { s.clk with codeSending := some (bits, s.clk.elapsed), codeWaiting := none } }
              ∧ bits.toNat % 2 ^ 48 = frame.seconds % 2 ^ 48 ∧ bits.toNat / 2 ^ 48 % 4 = frame.state.code
              ∧ bits.getLsbD 50 = frame.stepped ∧ bits.getLsbD 51 = frame.heard ∧ bits.getLsbD 52 = frame.source
              ∧ bits.getLsbD 53 = false ∧ bits.getLsbD 54 = false
              ∧ ((List.range 56).filter fun k => bits.getLsbD k).length % 2 = 0))
    ∧ (∀ bits start, s.clk.codeSending = some (bits, start) →
        (s.clk.elapsed < start + 56000 → exec .codeFrameEnd s = .next s)
        ∧ (start + 56000 ≤ s.clk.elapsed →
            exec .codeFrameEnd s = .next { s with clk := { s.clk with codeSending := none } })
        ∧ ∀ k, start + 1000 * k ≤ s.clk.elapsed → s.clk.elapsed < start + 1000 * (k + 1) →
            s.codeLevel = bits.getLsbD k)
    ∧ (s.clk.codeSending = none → s.codeLevel = false))

/-- R167 to R169: SNAPSHOT and FENCE. A snapshot of a kind of Table 10-12 copies the state as the command begins, laid as
the table gives the kind (bytes of absent values open: log 12; the window bytes beyond a claim's count FFh and the zero
bytes of a source place: log 19; no stamp and a role that is not eligible 0, the named robots a bit mask, the feeds of
absent cameras FFh, the published sequence and the flags of an unbound robot and the flags of a GAP 0: log 33; a next
boundary that 8 bytes do not hold open: log 47), and makes its own writes in pieces of 128 bytes
from offset 6000h; pieces that find no place wait for one, and the command completes when the last has joined the own queue.
A fence completes when memory has answered every own write made before it, at once if there are none, posting FENCE-DONE
first if notify is set (a write that waits for a place counts as made: log 8). A row before its moment changes nothing (the
model's choice: log 2). -/
def Obligations.SnapshotAndFence : Prop :=
  (∀ (s b : State), s.fetchAnswered b →
    (∀ kind : Byte,
      (kind.toNat = 0 ∨ 6 < kind.toNat → exec (.snapshot kind) s = .next (complete .refused .range b))
      ∧ ∀ k : SnapshotKind,
          ((kind.toNat = 1 ∧ k = .identity) ∨ (kind.toNat = 2 ∧ k = .windows) ∨ (kind.toNat = 3 ∧ k = .robots)
            ∨ (kind.toNat = 4 ∧ k = .tracking) ∨ (kind.toNat = 5 ∧ k = .clock) ∨ (kind.toNat = 6 ∧ k = .service)) →
          ∃ (size : Nat) (copy : List Byte), snapshotLaid k b size copy
            ∧ let count := (size + 127) / 128
              let pieces := (List.range count).map fun n =>
                newWrite (b.path.nextId + n) (.snapshot (decide (n + 1 = count))) (b.areaBase + 0x6000 + 128 * n)
                  ((copy.drop (128 * n)).take 128)
              let free := if b.path.waiting = [] then 16 - b.path.own.length else 0
              let t : State := { b with
                openCount := b.openCount + 1,
                path := { b.path with own := b.path.own ++ pieces.take free, nextId := b.path.nextId + count,
                                      waiting := b.path.waiting ++ (pieces.drop free).map Waiter.txn } }
              (count ≤ free → exec (.snapshot kind) s = .next (complete .done .none t))
              ∧ (free < count → exec (.snapshot kind) s
                  = .next { t with cmd := { b.cmd with phase := .executing .snapshotJoin } }))
    ∧ ∀ (notify : Bool) (ids : List Nat),
        ids = (b.path.own.filter fun x => x.body.isSome).map OwnTxn.id
          ++ b.path.waiting.filterMap (fun x => match x with
               | .txn t   => if t.body.isSome then some t.id else none
               | .mirror  => none
               | .status  => none) →
        (ids = [] → exec (.fence notify) s
          = .next (complete .done .none (if notify then postNotice (.fenceDone b.cmd.head.val) b else b)))
        ∧ (ids ≠ [] → exec (.fence notify) s
          = .next { b with cmd := { b.cmd with phase := .executing (.fence ids notify) } }))
  ∧ (∀ (s : State) (t : OwnTxn) (rest : List Waiter), s.running = true → s.path.own.length < 16 →
      s.path.waiting = .txn t :: rest → t.kind = .snapshot true → s.cmd.phase = .executing .snapshotJoin →
      exec .ownQueueJoin s = .next (complete .done .none
        { s with path := { s.path with own := s.path.own ++ [t], waiting := rest } }))
  ∧ ∀ (s : State) (ids : List Nat) (notify : Bool), s.running = true → s.cmd.phase = .executing (.fence ids notify) →
      let open_ := ∃ n ∈ ids, (∃ x ∈ s.path.own, x.body ≠ none ∧ x.id = n)
        ∨ ∃ x, Waiter.txn x ∈ s.path.waiting ∧ x.body ≠ none ∧ x.id = n
      (open_ → exec .fenceComplete s = .next s)
      ∧ (¬ open_ → exec .fenceComplete s
          = .next (complete .done .none (if notify then postNotice (.fenceDone s.cmd.head.val) s else s)))

/-- R43 to R56, R88: the assembly of records from the admitted writes of a feed's one tag. Such a write, of any length and
at any place, is forwarded (stamped where the window says so) and is one assembly step. The words it touches are handled in
ascending order, each in the state of the window's assembly slot that the word before it leaves: a header begins a
collection; words 1 and 2 join the collection of their record slot; a closing word completes a record, or tears it for want
of a word, or closes a record slot that has no header; a header or a word in part tears the collection that it cuts short.
What they bring about is then acted on in order: a torn record is FEED-TORN, and a completed record is judged by its closing
mark (FEED-TORN), its type (FEED-TYPE), its coded fields (FEED-TYPE) and its subject (FEED-SUBJECT), and a good one is
dispatched, as the row of its type. A TIME SYNC learns whether a record of the same write has stepped machine time, and
carries the write's one reading from before it (R54, R62, R88); a fault after such a step reads the time after it (the
model's choice: log 43). -/
def Obligations.FeedRecordsAssembled : Prop :=
  ∀ (s : State) (r : LinkRequest) (i : WinIdx) (w : Window) (kind : FeedKind) (stamp : Option StampAt) (slot : Slot)
    (data : List Byte) (enables : List Bool),
    s.reaches r i w → r.wf = true → w.role = .feed kind stamp → s.bankRobot? i = none → r.dir = .write →
    (∀ u : Tag, w.writeSet.getLsbD u.val = true ↔ u = r.tag) →
    (kind = .service → ∀ a, r.covers a → a < w.base.toNat + w.size.toNat - 32) → s.slot? i = some slot →
    stampedAs w r s.clk.ns.toNat data enables →
    ∃ (words : List (Nat × Option Word)) (last : Slot) (ends : List RecordEnd) (t : State),
      wordsTouched (r.addr.toNat - w.base.toNat) (8 * r.beats.val) data enables words
        ∧ wordsTaken words slot last ends
        ∧ exec (.linkRequest r) s = .next t
        ∧ endsTaken i w kind r.tag ends none
            ((s.forwarding r (.window i) none false r.addr data enables).setSlot i (some last)) t

/-- R57, R112, R144, R148. A reply: the reply sequence gains 1 modulo 2^32, and the 32 bytes of the reply slot are written
into the LOADED SERVICE feed window, if there is one. The end of a claim without a grant: the reply, the claim and the named
robots dropped (of the robots the model's reading: log 31), and of a waiting consent the grant holds and the command's
completion. The begin of a return: cause, RETURNING, the keep-alive timer stopped, the named windows FROZEN. The mode
changes and pocket pulses that begin one or end a wait. The cancel of a robot's publishes. What finds no place waits in
line, each transaction in its order (the model's reading of R13: log 8). The reply comes before the completion (the model's
choice: log 45). -/
def Obligations.SessionTransitions : Prop :=
  (∀ (s : State) (kind : ReplyKind) (why : Reason) (request : BitVec 32),
    let seq := s.svc.replySeq + 1
    let counted : State := { s with svc := { s.svc with replySeq := seq } }
    let feedAt := fun (i : WinIdx) (w : Window) => s.entry i = .loaded w ∧ w.feedKind? = some .service
    ((∀ i w, ¬ feedAt i w) → makeReply kind why request s = counted)
    ∧ ∀ i w, feedAt i w → (∀ j v, feedAt j v → i ≤ j) →
        makeReply kind why request s = counted.makes [(.reply, w.base.toNat + w.size.toNat - 32,
          [BitVec.ofNat 8 (codeOfReply kind), BitVec.ofNat 8 (codeOfReason why), 0, 0] ++ leBytes 4 request.toNat ++ leBytes 4 seq.toNat
            ++ [0, 0, 0, 0] ++ leBytes 8 s.clk.ns.toNat ++ List.replicate 8 0)])
  ∧ (∀ (s : State) (kind : ReplyKind) (why : Reason) (next : SessionState) (ending : Reason) (c : Claim),
    s.svc.claim = some c →
      let replied := makeReply kind why c.seq s
      let dropped := State.statusIf { replied with svc := { replied.svc with
        state := next, claim := none, named := [], consentWaiting := false, consentTimer := none } }
        (decide (s.svc.state ≠ next))
      let freed := dropped.withRobots (fun b => { b with grantHold := false }) s.svc.named
      (s.svc.consentWaiting = false → withdrawClaim kind why next ending s = dropped)
      ∧ (s.svc.consentWaiting = true → s.cmd.phase ≠ .executing .consent → withdrawClaim kind why next ending s = freed)
      ∧ (s.svc.consentWaiting = true → s.cmd.phase = .executing .consent →
          withdrawClaim kind why next ending s = complete .refused ending freed))
  ∧ (∀ (s : State) (cause : Cause) (c : Claim), s.svc.claim = some c → s.svc.state ≠ .returning →
      beginReturn cause s = State.withAuthority { s with
        svc := { s.svc with state := .returning, cause := some cause, keepTimer := none },
        rep := { s.rep with statusMark := true } } .frozen c.windows)
  ∧ (∀ (s : State) (r : RobotIdx) (m : Mode),
      (r ∉ s.svc.named ∨ m = .hold → serviceModeChange r m s = s)
      ∧ (r ∈ s.svc.named → m ≠ .hold →
          (s.svc.state = .granted → serviceModeChange r m s = beginReturn .robot s)
          ∧ (s.svc.state = .claimed → s.svc.consentWaiting = true →
              serviceModeChange r m s = withdrawClaim .refused .robotMode .keyed .robotMode s)
          ∧ (s.svc.state ≠ .granted → (s.svc.state ≠ .claimed ∨ s.svc.consentWaiting = false) →
              serviceModeChange r m s = s)))
  ∧ (∀ s : State,
      let banked := ∃ c, s.svc.claim = some c ∧ ∃ i ∈ c.windows, s.bankedAt i
      (¬ banked → servicePulse s = s)
      ∧ (banked →
          (s.svc.state = .granted → servicePulse s = beginReturn .line s)
          ∧ (s.svc.state = .claimed → s.svc.consentWaiting = true →
              servicePulse s = withdrawClaim .refused .line .keyed .line s)
          ∧ (s.svc.state ≠ .granted → (s.svc.state ≠ .claimed ∨ s.svc.consentWaiting = false) → servicePulse s = s)))
  ∧ ∀ (s : State) (r : RobotIdx) (b : Bound), s.bound? r = some b →
      let flipping := b.publish = .flipping
      let pending := if flipping then none else b.pendingReq.map PublishRequest.seq
      let next := b.nextReq.map PublishRequest.seq
      let t := s.setRobot r (some { b with
        pendingReq := if flipping then b.pendingReq else none, nextReq := none,
        publish := if b.publish = .pending then .idle else b.publish, grantHold := true })
      (pending = none → next = none → cancelPublishes r s = t)
      ∧ (¬ (pending = none ∧ next = none) → cancelPublishes r s = postNotice (.publishCancelled r pending next) t)

/-- R139 to R142, R146. The records of the SERVICE feed at their dispatch. A claim is refused by the state, or in KEYED by
the first check that fails, or taken: CLAIMED, the consent timer started, SERVICE-CLAIM posted, no reply. A keep of a
fresh phase restarts the keep-alive timer of a GRANTED session. A release ends a claim, or begins a return. A publish is
placed, or refused with a reply that carries the record's sequence. The named robots are held in the order in which the
claim names their windows (the model's choice: log 39). -/
def Obligations.ServiceRecordsTaken : Prop :=
  ∀ (s : State) (src : Source), s.running = true →
    (∀ c : Claim,
      let replied := fun (why : Reason) => exec (.serviceClaim src c) s = .next (makeReply .refused why c.seq s)
      (s.svc.state = .closed → replied .state)
      ∧ (s.svc.state = .lockout → replied .lockout)
      ∧ (s.svc.state = .claimed ∨ s.svc.state = .granted ∨ s.svc.state = .returning → replied .busy)
      ∧ (s.svc.state = .keyed →
          (∀ why, s.refusesClaim c.windows why → replied why)
          ∧ (¬ s.failsWindow c.windows → ¬ s.failsMode c.windows → ¬ s.failsLine c.windows →
              ∃ named, s.takesClaim c.windows named
                ∧ exec (.serviceClaim src c) s = .next (postNotice (.serviceClaim c) { s with
                    svc := { s.svc with
                      state := .claimed, claim := some c, named := named, consentWaiting := false, keepPhase := none,
                      consentTimer := some (s.clk.elapsed + s.svc.consentS * 1000000000) },
                    rep := { s.rep with statusMark := true } }))))
    ∧ (∀ phase : Bool,
        (s.svc.state ≠ .granted ∨ s.svc.keepPhase = some phase → exec (.serviceKeep src phase) s = .next s)
        ∧ (s.svc.state = .granted → s.svc.keepPhase ≠ some phase → ∀ c, s.svc.claim = some c →
            exec (.serviceKeep src phase) s = .next { s with svc := { s.svc with
              keepPhase := some phase, keepTimer := some (s.clk.elapsed + c.keepMs * 1000000) } }))
    ∧ (s.svc.state = .claimed →
        exec (.serviceRelease src) s = .next (withdrawClaim .withdrawn .none .keyed .state s))
    ∧ (s.svc.state = .granted → exec (.serviceRelease src) s = .next (beginReturn .released s))
    ∧ (s.svc.state ≠ .claimed → s.svc.state ≠ .granted → exec (.serviceRelease src) s = .next s)
    ∧ ∀ p : ServicePublish,
        let request : PublishRequest := { seq := p.seq, confirm := p.confirm, origin := .service }
        let refused := fun why => exec (.servicePublish src p) s = .next (makeReply .refused why src.seq s)
        let placed := fun b => exec (.servicePublish src p) s = .next (s.setRobot p.robot (some b))
        (s.bound? p.robot = none → refused .notBound)
        ∧ ∀ b, s.bound? p.robot = some b →
            let holds := s.authority? b.bank = some .service
            let unconfirmed := b.review = true ∧ p.confirm = false
            let same := p.seq = b.publishedSeq ∨ (b.publish = .flipping ∧ ∃ q, b.pendingReq = some q ∧ q.seq = p.seq)
            (b.unbinding = true → refused .notBound)
            ∧ (b.unbinding = false → ¬ holds → refused .authority)
            ∧ (b.unbinding = false → holds → unconfirmed → refused .review)
            ∧ (b.unbinding = false → holds → ¬ unconfirmed → same → refused .sameSequence)
            ∧ (b.unbinding = false → holds → ¬ unconfirmed → ¬ same →
                (b.publish = .idle → placed { b with pendingReq := some request, publish := .pending })
                ∧ (b.publish = .pending → placed { b with pendingReq := some request })
                ∧ (b.publish = .flipping ∨ b.publish = .copying → placed { b with nextReq := some request }))

/-- R143, R145, R147, R152. SERVICE SETUP is refused RANGE or takes the given intervals, running timers unchanged. SERVICE
CONSENT is refused RANGE, then STATE; a DENY drops the claim with reply DENIED; an ACCEPT whose checks fail drops it with
their reason, and one whose checks pass cancels the named robots' publishes and waits, or grants at once if every named
robot is then IDLE. SERVICE REVOKE begins a return of a GRANTED session and completes DONE. The publishes are cancelled in
the order of the claim's BANKED windows (the model's choice: log 39; takesClaim gives the order). -/
def Obligations.ServiceCommandsComplete : Prop :=
  ∀ (s b : State), s.fetchAnswered b →
    let done := fun (t : State) => (Host.Outcome.next (complete .done .none t) : Host.Outcome State Fault Refusal)
    let refused := fun (why : Reason) (t : State) =>
      (Host.Outcome.next (complete .refused why t) : Host.Outcome State Fault Refusal)
    (∀ p : ServiceParams,
      let inRange := (p.given.getLsbD 0 = true → 1 ≤ p.consent.toNat ∧ p.consent.toNat ≤ 120)
        ∧ (p.given.getLsbD 1 = true → 1 ≤ p.lockout.toNat ∧ p.lockout.toNat ≤ 600)
      (¬ inRange → exec (.serviceSetup p) s = refused .range b)
      ∧ (inRange → exec (.serviceSetup p) s = done { b with svc := { b.svc with
          consentS := if p.given.getLsbD 0 then p.consent.toNat else b.svc.consentS,
          lockoutS := if p.given.getLsbD 1 then p.lockout.toNat else b.svc.lockoutS } }))
    ∧ (∀ (decision : Byte) (q : BitVec 32),
        let run := exec (.serviceConsent decision q) s
        (decision.toNat ≠ 1 → decision.toNat ≠ 2 → run = refused .range b)
        ∧ (decision.toNat = 1 ∨ decision.toNat = 2 →
            ((b.svc.state ≠ .claimed ∨ ∀ c, b.svc.claim = some c → c.seq ≠ q) → run = refused .state b)
            ∧ ∀ c, b.svc.state = .claimed → b.svc.claim = some c → c.seq = q →
                (decision.toNat = 2 → run = done (withdrawClaim .denied .none .keyed .none b))
                ∧ (decision.toNat = 1 →
                    (∀ why, b.refusesClaim c.windows why →
                      run = refused why (withdrawClaim .refused why .keyed .none b))
                    ∧ (¬ b.failsWindow c.windows → ¬ b.failsMode c.windows → ¬ b.failsLine c.windows →
                        ∃ named, b.takesClaim c.windows named ∧
                          let asked : State := { b with svc := { b.svc with named := named, consentWaiting := true } }
                          let u := named.foldl (fun v r => cancelPublishes r v) asked
                          let w : State := { u with cmd := { u.cmd with phase := .executing .consent } }
                          let idle := ∀ r ∈ named, ∀ x, w.bound? r = some x → x.publish = .idle
                          (idle → run = .next (grantSession w)) ∧ (¬ idle → run = .next w)))))
    ∧ (b.svc.state = .granted → exec .serviceRevoke s = done (beginReturn .revoked b))
    ∧ (b.svc.state ≠ .granted → exec .serviceRevoke s = refused .state b)

/-- R138, R144, R145, R147, R149, R151: KEY, the timers, the grant and the return's end. KEY acts on its changes while the
part runs. The consent timer's expiry ends a claim with reply TIMEOUT, the keep-alive timer's begins a return. The grant
sets SERVICE authority and the review flags, starts the keep-alive timer, replies, notifies and completes the waiting
consent, in the order of R145. A return that has settled gives the windows back, replies, notifies, drops the claim and
leaves LOCKOUT or the state of KEY; it drops the named robots too and keeps the cause (the model's reading: log 31). The
grant and the return's end are rows of their own where what they wait for comes to hold after the wait began (log 15). A row
before its moment changes nothing (the model's choice: log 2). -/
def Obligations.SessionEventsTaken : Prop :=
  (∀ s : State, s.running = true →
    (s.pins.key = false →
      let t : State := { s with pins := { s.pins with key := true } }
      (s.svc.state = .closed → exec .keyOn s = .next { t with
        svc := { s.svc with state := .keyed }, rep := { s.rep with statusMark := true } })
      ∧ (s.svc.state ≠ .closed → exec .keyOn s = .next t))
    ∧ (s.pins.key = true →
      let t : State := { s with pins := { s.pins with key := false } }
      (s.svc.state = .keyed → exec .keyOff s = .next { t with
        svc := { s.svc with state := .closed }, rep := { s.rep with statusMark := true } })
      ∧ (s.svc.state = .claimed → exec .keyOff s = .next (withdrawClaim .withdrawn .none .closed .state t))
      ∧ (s.svc.state = .granted → exec .keyOff s = .next (beginReturn .key t))
      ∧ (s.svc.state ≠ .keyed → s.svc.state ≠ .claimed → s.svc.state ≠ .granted → exec .keyOff s = .next t)))
  ∧ (∀ (s : State) (t : Nat), s.running = true →
      (s.svc.state = .claimed → s.svc.consentTimer = some t →
        (t ≤ s.clk.elapsed → exec .consentTimerExpiry s = .next (withdrawClaim .timeout .none .keyed .state s))
        ∧ (s.clk.elapsed < t → exec .consentTimerExpiry s = .next s))
      ∧ (s.svc.state = .granted → s.svc.keepTimer = some t →
        (t ≤ s.clk.elapsed → exec .keepAliveTimerExpiry s = .next (beginReturn .timeout s))
        ∧ (s.clk.elapsed < t → exec .keepAliveTimerExpiry s = .next s))
      ∧ (s.svc.state = .lockout → s.svc.lockoutTimer = some t →
        (t ≤ s.clk.elapsed → exec .lockoutTimerExpiry s = .next { s with
          svc := { s.svc with state := if s.pins.key then .keyed else .closed, lockoutTimer := none },
          rep := { s.rep with statusMark := true } })
        ∧ (s.clk.elapsed < t → exec .lockoutTimerExpiry s = .next s)))
  ∧ (∀ (s : State) (c : Claim), s.running = true → s.svc.state = .claimed → s.svc.claim = some c →
      s.svc.consentWaiting = true → s.cmd.phase = .executing .consent →
      (∀ r ∈ s.svc.named, ∀ b, s.bound? r = some b → b.publish = .idle) →
      let u := (s.withAuthority .service c.windows).withRobots
        (fun b => { b with review := true, confirmPending := false, grantHold := false }) s.svc.named
      let granted : State := { u with
        svc := { s.svc with state := .granted, consentWaiting := false, consentTimer := none, keepPhase := none,
                            keepTimer := some (s.clk.elapsed + c.keepMs * 1000000) },
        rep := { s.rep with statusMark := true } }
      exec .serviceGrant s = .next (complete .done .none
        (postNotice (.serviceGranted c) (makeReply .granted .none c.seq granted))))
  ∧ ∀ (s : State) (c : Claim) (cause : Cause), s.running = true → s.svc.state = .returning → s.svc.claim = some c →
      s.svc.cause = some cause →
      let settled := (∀ e ∈ s.path.inflight, e.tag = 4 → e.dir = .write → ∀ i ∈ c.windows, e.checked ≠ .window i)
        ∧ ∀ r ∈ s.svc.named, ∀ b, s.bound? r = some b → b.publish = .idle
      let v := postNotice (.serviceReturned c.seq cause)
        (makeReply .returned cause.reason c.seq (s.withAuthority .production c.windows))
      let ended := fun (next : SessionState) (lockout : Option Nat) => exec .returnEnd s = .next { v with
        svc := { v.svc with state := next, claim := none, named := [], keepPhase := none, lockoutTimer := lockout },
        rep := { v.rep with statusMark := true } }
      (¬ settled → exec .returnEnd s = .next s)
      ∧ (settled →
          (cause = .released ∨ cause = .key → ended (if s.pins.key then .keyed else .closed) s.svc.lockoutTimer)
          ∧ (cause ≠ .released → cause ≠ .key →
              ended .lockout (some (s.clk.elapsed + s.svc.lockoutS * 1000000000))))

/-- R13, R4, R105, for every step from every state that satisfies it: the own queue holds at most 16 transactions, the hold
queue at most 4 writes, and no tag has more than 4 transactions in the in-flight set. -/
def Obligations.QueuesStayBounded : Prop :=
  ∀ s t : State, s.QueuesBounded → step s = .next t → t.QueuesBounded

/-- R29, R145, R148, R149, for every step from every state that satisfies it: a window's authority is SERVICE only while the
session is GRANTED and the held claim names the window. -/
def Obligations.ServiceAuthorityStaysGranted : Prop :=
  ∀ s t : State, s.ServiceOnlyGranted → step s = .next t → t.ServiceOnlyGranted

/-- R61, R87, R90, R91, for every step from every state that satisfies it: the increment is the one the rate gives, the rate
and the integral lie within the rate limit, and the rate limit is at most 500,000 ppb. -/
def Obligations.RateStaysWithinLimit : Prop :=
  ∀ s t : State, s.RateWithinLimit → step s = .next t → t.RateWithinLimit

/-- R16, R134, R135, R158 to R160, for every step from every state that satisfies it: ATTENTION stands at its level, and
neither ring holds more entries than it has slots nor has a consumed count above its producer count. -/
def Obligations.AttentionAndRingsStayRight : Prop :=
  ∀ s t : State, s.AttentionRight → s.RingsHeld → step s = .next t → t.AttentionRight ∧ t.RingsHeld

/-- R115, R119, R120, R124, R125, R127, for every step from every state that satisfies it: while CONFIGURED the chain is as
long as the reject pocket, and an entry's verdict window is open exactly below the verdict deadline pocket; without a next
exit serial no record and no serial is held; and with one at most 16 filled records lie in serial order 0 to 15 above it,
and the serials of the chain count down from it. -/
def Obligations.TrackingStaysRight : Prop :=
  ∀ s t : State, s.TrackingRight → step s = .next t → t.TrackingRight

/-- R94, R95, R100 to R110, for every step from every state that satisfies it: a bound robot's parameters are in range, its
pending sequence is present exactly in PENDING and FLIPPING and its next one only in FLIPPING and COPYING, its counts keep
their limits, its bank window is LOADED and BANKED with its number (so that no bank has two robots), and its feed window is a
LOADED ROBOT feed. -/
def Obligations.RobotsStayRight : Prop :=
  ∀ s t : State, s.RobotsRight → step s = .next t → t.RobotsRight

/-- R34 to R37, R39, R43, R75, R96, R143, R144, R164, R167, for every step from every state that satisfies them: the contents
of every entry pass R34, no range and no half lies in the control area or in another entry's half, the feeds of a kind keep
their limit, an assembly slot stands exactly for a FEED window and a source place for each TIME feed; one fetch is
outstanding exactly while the next command is fetched, a drain, an unbind and a consent wait only for the command that
began them, and between two steps no command stands at its beginning. The two are stated together, since a command that
waits holds an entry of the table. -/
def Obligations.CommandsAndTableStayRight : Prop :=
  ∀ s t : State, s.TableRight → s.CommandsRight → step s = .next t → t.TableRight ∧ t.CommandsRight

/-- R13, R16, R17, R29, R37, R42, R61, R93, R115, R137, R158, R163: the invariants hold right after power reset, and no command
waits. -/
def Obligations.ResetIsSafe : Prop := State.reset.Safe ∧ State.reset.pending = []
end

