-- ==== Sys2Proof/Laws/State.lean ====
section
/-! SUPPORT. One lemma per field per update of State: what each update leaves and what it sets. -/

namespace Sys2Proof.Machine
open Sys2Proof

variable (s : State)

@[simp] theorem State.setEntry_pins (i : WinIdx) (e : WinState) : (s.setEntry i e).pins = s.pins := rfl
@[simp] theorem State.setEntry_path (i : WinIdx) (e : WinState) : (s.setEntry i e).path = s.path := rfl
@[simp] theorem State.setEntry_feeds (i : WinIdx) (e : WinState) : (s.setEntry i e).feeds = s.feeds := rfl
@[simp] theorem State.setEntry_clk (i : WinIdx) (e : WinState) : (s.setEntry i e).clk = s.clk := rfl
@[simp] theorem State.setEntry_robots (i : WinIdx) (e : WinState) : (s.setEntry i e).robots = s.robots := rfl
@[simp] theorem State.setEntry_hold (i : WinIdx) (e : WinState) : (s.setEntry i e).hold = s.hold := rfl
@[simp] theorem State.setEntry_trk (i : WinIdx) (e : WinState) : (s.setEntry i e).trk = s.trk := rfl
@[simp] theorem State.setEntry_svc (i : WinIdx) (e : WinState) : (s.setEntry i e).svc = s.svc := rfl
@[simp] theorem State.setEntry_flt (i : WinIdx) (e : WinState) : (s.setEntry i e).flt = s.flt := rfl
@[simp] theorem State.setEntry_cmd (i : WinIdx) (e : WinState) : (s.setEntry i e).cmd = s.cmd := rfl
@[simp] theorem State.setEntry_rep (i : WinIdx) (e : WinState) : (s.setEntry i e).rep = s.rep := rfl
@[simp] theorem State.setEntry_openCount (i : WinIdx) (e : WinState) : (s.setEntry i e).openCount = s.openCount := rfl
@[simp] theorem State.setEntry_pending (i : WinIdx) (e : WinState) : (s.setEntry i e).pending = s.pending := rfl

@[simp] theorem State.setSlot_pins (i : WinIdx) (a : Option Slot) : (s.setSlot i a).pins = s.pins := rfl
@[simp] theorem State.setSlot_path (i : WinIdx) (a : Option Slot) : (s.setSlot i a).path = s.path := rfl
@[simp] theorem State.setSlot_win (i : WinIdx) (a : Option Slot) : (s.setSlot i a).win = s.win := rfl
@[simp] theorem State.setSlot_clk (i : WinIdx) (a : Option Slot) : (s.setSlot i a).clk = s.clk := rfl
@[simp] theorem State.setSlot_robots (i : WinIdx) (a : Option Slot) : (s.setSlot i a).robots = s.robots := rfl
@[simp] theorem State.setSlot_hold (i : WinIdx) (a : Option Slot) : (s.setSlot i a).hold = s.hold := rfl
@[simp] theorem State.setSlot_trk (i : WinIdx) (a : Option Slot) : (s.setSlot i a).trk = s.trk := rfl
@[simp] theorem State.setSlot_svc (i : WinIdx) (a : Option Slot) : (s.setSlot i a).svc = s.svc := rfl
@[simp] theorem State.setSlot_flt (i : WinIdx) (a : Option Slot) : (s.setSlot i a).flt = s.flt := rfl
@[simp] theorem State.setSlot_cmd (i : WinIdx) (a : Option Slot) : (s.setSlot i a).cmd = s.cmd := rfl
@[simp] theorem State.setSlot_rep (i : WinIdx) (a : Option Slot) : (s.setSlot i a).rep = s.rep := rfl
@[simp] theorem State.setSlot_openCount (i : WinIdx) (a : Option Slot) : (s.setSlot i a).openCount = s.openCount := rfl
@[simp] theorem State.setSlot_pending (i : WinIdx) (a : Option Slot) : (s.setSlot i a).pending = s.pending := rfl

@[simp] theorem State.setRobot_pins (r : RobotIdx) (b : Option Bound) : (s.setRobot r b).pins = s.pins := rfl
@[simp] theorem State.setRobot_path (r : RobotIdx) (b : Option Bound) : (s.setRobot r b).path = s.path := rfl
@[simp] theorem State.setRobot_win (r : RobotIdx) (b : Option Bound) : (s.setRobot r b).win = s.win := rfl
@[simp] theorem State.setRobot_feeds (r : RobotIdx) (b : Option Bound) : (s.setRobot r b).feeds = s.feeds := rfl
@[simp] theorem State.setRobot_clk (r : RobotIdx) (b : Option Bound) : (s.setRobot r b).clk = s.clk := rfl
@[simp] theorem State.setRobot_hold (r : RobotIdx) (b : Option Bound) : (s.setRobot r b).hold = s.hold := rfl
@[simp] theorem State.setRobot_trk (r : RobotIdx) (b : Option Bound) : (s.setRobot r b).trk = s.trk := rfl
@[simp] theorem State.setRobot_svc (r : RobotIdx) (b : Option Bound) : (s.setRobot r b).svc = s.svc := rfl
@[simp] theorem State.setRobot_flt (r : RobotIdx) (b : Option Bound) : (s.setRobot r b).flt = s.flt := rfl
@[simp] theorem State.setRobot_cmd (r : RobotIdx) (b : Option Bound) : (s.setRobot r b).cmd = s.cmd := rfl
@[simp] theorem State.setRobot_rep (r : RobotIdx) (b : Option Bound) : (s.setRobot r b).rep = s.rep := rfl
@[simp] theorem State.setRobot_openCount (r : RobotIdx) (b : Option Bound) : (s.setRobot r b).openCount = s.openCount := rfl
@[simp] theorem State.setRobot_pending (r : RobotIdx) (b : Option Bound) : (s.setRobot r b).pending = s.pending := rfl

@[simp] theorem State.setClk_pins (c : Clock) : (s.setClk c).pins = s.pins := rfl
@[simp] theorem State.setClk_path (c : Clock) : (s.setClk c).path = s.path := rfl
@[simp] theorem State.setClk_win (c : Clock) : (s.setClk c).win = s.win := rfl
@[simp] theorem State.setClk_feeds (c : Clock) : (s.setClk c).feeds = s.feeds := rfl
@[simp] theorem State.setClk_robots (c : Clock) : (s.setClk c).robots = s.robots := rfl
@[simp] theorem State.setClk_hold (c : Clock) : (s.setClk c).hold = s.hold := rfl
@[simp] theorem State.setClk_trk (c : Clock) : (s.setClk c).trk = s.trk := rfl
@[simp] theorem State.setClk_svc (c : Clock) : (s.setClk c).svc = s.svc := rfl
@[simp] theorem State.setClk_flt (c : Clock) : (s.setClk c).flt = s.flt := rfl
@[simp] theorem State.setClk_cmd (c : Clock) : (s.setClk c).cmd = s.cmd := rfl
@[simp] theorem State.setClk_rep (c : Clock) : (s.setClk c).rep = s.rep := rfl
@[simp] theorem State.setClk_openCount (c : Clock) : (s.setClk c).openCount = s.openCount := rfl
@[simp] theorem State.setClk_pending (c : Clock) : (s.setClk c).pending = s.pending := rfl

@[simp] theorem State.setPhase_pins (p : CmdPhase) : (s.setPhase p).pins = s.pins := rfl
@[simp] theorem State.setPhase_path (p : CmdPhase) : (s.setPhase p).path = s.path := rfl
@[simp] theorem State.setPhase_win (p : CmdPhase) : (s.setPhase p).win = s.win := rfl
@[simp] theorem State.setPhase_feeds (p : CmdPhase) : (s.setPhase p).feeds = s.feeds := rfl
@[simp] theorem State.setPhase_clk (p : CmdPhase) : (s.setPhase p).clk = s.clk := rfl
@[simp] theorem State.setPhase_robots (p : CmdPhase) : (s.setPhase p).robots = s.robots := rfl
@[simp] theorem State.setPhase_hold (p : CmdPhase) : (s.setPhase p).hold = s.hold := rfl
@[simp] theorem State.setPhase_trk (p : CmdPhase) : (s.setPhase p).trk = s.trk := rfl
@[simp] theorem State.setPhase_svc (p : CmdPhase) : (s.setPhase p).svc = s.svc := rfl
@[simp] theorem State.setPhase_flt (p : CmdPhase) : (s.setPhase p).flt = s.flt := rfl
@[simp] theorem State.setPhase_rep (p : CmdPhase) : (s.setPhase p).rep = s.rep := rfl
@[simp] theorem State.setPhase_openCount (p : CmdPhase) : (s.setPhase p).openCount = s.openCount := rfl
@[simp] theorem State.setPhase_pending (p : CmdPhase) : (s.setPhase p).pending = s.pending := rfl

@[simp] theorem State.bumpOpen_pins : (s.bumpOpen).pins = s.pins := rfl
@[simp] theorem State.bumpOpen_path : (s.bumpOpen).path = s.path := rfl
@[simp] theorem State.bumpOpen_win : (s.bumpOpen).win = s.win := rfl
@[simp] theorem State.bumpOpen_feeds : (s.bumpOpen).feeds = s.feeds := rfl
@[simp] theorem State.bumpOpen_clk : (s.bumpOpen).clk = s.clk := rfl
@[simp] theorem State.bumpOpen_robots : (s.bumpOpen).robots = s.robots := rfl
@[simp] theorem State.bumpOpen_hold : (s.bumpOpen).hold = s.hold := rfl
@[simp] theorem State.bumpOpen_trk : (s.bumpOpen).trk = s.trk := rfl
@[simp] theorem State.bumpOpen_svc : (s.bumpOpen).svc = s.svc := rfl
@[simp] theorem State.bumpOpen_flt : (s.bumpOpen).flt = s.flt := rfl
@[simp] theorem State.bumpOpen_cmd : (s.bumpOpen).cmd = s.cmd := rfl
@[simp] theorem State.bumpOpen_rep : (s.bumpOpen).rep = s.rep := rfl
@[simp] theorem State.bumpOpen_pending : (s.bumpOpen).pending = s.pending := rfl

@[simp] theorem State.addEntry_pins (e : Entry) : (s.addEntry e).pins = s.pins := rfl
@[simp] theorem State.addEntry_win (e : Entry) : (s.addEntry e).win = s.win := rfl
@[simp] theorem State.addEntry_feeds (e : Entry) : (s.addEntry e).feeds = s.feeds := rfl
@[simp] theorem State.addEntry_clk (e : Entry) : (s.addEntry e).clk = s.clk := rfl
@[simp] theorem State.addEntry_robots (e : Entry) : (s.addEntry e).robots = s.robots := rfl
@[simp] theorem State.addEntry_hold (e : Entry) : (s.addEntry e).hold = s.hold := rfl
@[simp] theorem State.addEntry_trk (e : Entry) : (s.addEntry e).trk = s.trk := rfl
@[simp] theorem State.addEntry_svc (e : Entry) : (s.addEntry e).svc = s.svc := rfl
@[simp] theorem State.addEntry_flt (e : Entry) : (s.addEntry e).flt = s.flt := rfl
@[simp] theorem State.addEntry_cmd (e : Entry) : (s.addEntry e).cmd = s.cmd := rfl
@[simp] theorem State.addEntry_rep (e : Entry) : (s.addEntry e).rep = s.rep := rfl
@[simp] theorem State.addEntry_openCount (e : Entry) : (s.addEntry e).openCount = s.openCount := rfl
@[simp] theorem State.addEntry_pending (e : Entry) : (s.addEntry e).pending = s.pending := rfl

@[simp] theorem State.dropOwn_pins (t : OwnTxn) : (s.dropOwn t).pins = s.pins := rfl
@[simp] theorem State.dropOwn_win (t : OwnTxn) : (s.dropOwn t).win = s.win := rfl
@[simp] theorem State.dropOwn_feeds (t : OwnTxn) : (s.dropOwn t).feeds = s.feeds := rfl
@[simp] theorem State.dropOwn_clk (t : OwnTxn) : (s.dropOwn t).clk = s.clk := rfl
@[simp] theorem State.dropOwn_robots (t : OwnTxn) : (s.dropOwn t).robots = s.robots := rfl
@[simp] theorem State.dropOwn_hold (t : OwnTxn) : (s.dropOwn t).hold = s.hold := rfl
@[simp] theorem State.dropOwn_trk (t : OwnTxn) : (s.dropOwn t).trk = s.trk := rfl
@[simp] theorem State.dropOwn_svc (t : OwnTxn) : (s.dropOwn t).svc = s.svc := rfl
@[simp] theorem State.dropOwn_flt (t : OwnTxn) : (s.dropOwn t).flt = s.flt := rfl
@[simp] theorem State.dropOwn_cmd (t : OwnTxn) : (s.dropOwn t).cmd = s.cmd := rfl
@[simp] theorem State.dropOwn_rep (t : OwnTxn) : (s.dropOwn t).rep = s.rep := rfl
@[simp] theorem State.dropOwn_openCount (t : OwnTxn) : (s.dropOwn t).openCount = s.openCount := rfl
@[simp] theorem State.dropOwn_pending (t : OwnTxn) : (s.dropOwn t).pending = s.pending := rfl

@[simp] theorem State.popWaiter_pins : (s.popWaiter).pins = s.pins := rfl
@[simp] theorem State.popWaiter_win : (s.popWaiter).win = s.win := rfl
@[simp] theorem State.popWaiter_feeds : (s.popWaiter).feeds = s.feeds := rfl
@[simp] theorem State.popWaiter_clk : (s.popWaiter).clk = s.clk := rfl
@[simp] theorem State.popWaiter_robots : (s.popWaiter).robots = s.robots := rfl
@[simp] theorem State.popWaiter_hold : (s.popWaiter).hold = s.hold := rfl
@[simp] theorem State.popWaiter_trk : (s.popWaiter).trk = s.trk := rfl
@[simp] theorem State.popWaiter_svc : (s.popWaiter).svc = s.svc := rfl
@[simp] theorem State.popWaiter_flt : (s.popWaiter).flt = s.flt := rfl
@[simp] theorem State.popWaiter_cmd : (s.popWaiter).cmd = s.cmd := rfl
@[simp] theorem State.popWaiter_rep : (s.popWaiter).rep = s.rep := rfl
@[simp] theorem State.popWaiter_openCount : (s.popWaiter).openCount = s.openCount := rfl
@[simp] theorem State.popWaiter_pending : (s.popWaiter).pending = s.pending := rfl

@[simp] theorem State.refreshAttention_path : (s.refreshAttention).path = s.path := rfl
@[simp] theorem State.refreshAttention_win : (s.refreshAttention).win = s.win := rfl
@[simp] theorem State.refreshAttention_feeds : (s.refreshAttention).feeds = s.feeds := rfl
@[simp] theorem State.refreshAttention_clk : (s.refreshAttention).clk = s.clk := rfl
@[simp] theorem State.refreshAttention_robots : (s.refreshAttention).robots = s.robots := rfl
@[simp] theorem State.refreshAttention_hold : (s.refreshAttention).hold = s.hold := rfl
@[simp] theorem State.refreshAttention_trk : (s.refreshAttention).trk = s.trk := rfl
@[simp] theorem State.refreshAttention_svc : (s.refreshAttention).svc = s.svc := rfl
@[simp] theorem State.refreshAttention_flt : (s.refreshAttention).flt = s.flt := rfl
@[simp] theorem State.refreshAttention_cmd : (s.refreshAttention).cmd = s.cmd := rfl
@[simp] theorem State.refreshAttention_rep : (s.refreshAttention).rep = s.rep := rfl
@[simp] theorem State.refreshAttention_openCount : (s.refreshAttention).openCount = s.openCount := rfl
@[simp] theorem State.refreshAttention_pending : (s.refreshAttention).pending = s.pending := rfl

@[simp] theorem State.refreshReject_path : (s.refreshReject).path = s.path := rfl
@[simp] theorem State.refreshReject_win : (s.refreshReject).win = s.win := rfl
@[simp] theorem State.refreshReject_feeds : (s.refreshReject).feeds = s.feeds := rfl
@[simp] theorem State.refreshReject_clk : (s.refreshReject).clk = s.clk := rfl
@[simp] theorem State.refreshReject_robots : (s.refreshReject).robots = s.robots := rfl
@[simp] theorem State.refreshReject_hold : (s.refreshReject).hold = s.hold := rfl
@[simp] theorem State.refreshReject_trk : (s.refreshReject).trk = s.trk := rfl
@[simp] theorem State.refreshReject_svc : (s.refreshReject).svc = s.svc := rfl
@[simp] theorem State.refreshReject_flt : (s.refreshReject).flt = s.flt := rfl
@[simp] theorem State.refreshReject_cmd : (s.refreshReject).cmd = s.cmd := rfl
@[simp] theorem State.refreshReject_rep : (s.refreshReject).rep = s.rep := rfl
@[simp] theorem State.refreshReject_openCount : (s.refreshReject).openCount = s.openCount := rfl
@[simp] theorem State.refreshReject_pending : (s.refreshReject).pending = s.pending := rfl

@[simp] theorem State.setClk_clk (c : Clock) : (s.setClk c).clk = c := rfl
@[simp] theorem State.setPhase_phase (p : CmdPhase) : (s.setPhase p).cmd.phase = p := rfl
@[simp] theorem State.setPhase_head (p : CmdPhase) : (s.setPhase p).cmd.head = s.cmd.head := rfl
@[simp] theorem State.bumpOpen_openCount : s.bumpOpen.openCount = s.openCount + 1 := rfl
@[simp] theorem State.refreshAttention_attention : s.refreshAttention.pins.attention = s.rep.attention := rfl
@[simp] theorem State.refreshAttention_powerGood : s.refreshAttention.pins.powerGood = s.pins.powerGood := rfl
@[simp] theorem State.addEntry_own (e : Entry) : (s.addEntry e).path.own = s.path.own := rfl
@[simp] theorem State.addEntry_inflight (e : Entry) : (s.addEntry e).path.inflight = s.path.inflight ++ [e] := rfl
@[simp] theorem State.popWaiter_own : s.popWaiter.path.own = s.path.own := rfl

/-! ## The tables: an update reads back at its index and leaves the others -/

@[simp] theorem State.entry_setEntry_self (i : WinIdx) (e : WinState) : (s.setEntry i e).entry i = e := by
  simp [State.entry, State.setEntry]

theorem State.entry_setEntry_of_ne {i j : WinIdx} (h : i ≠ j) (e : WinState) : (s.setEntry i e).entry j = s.entry j := by
  have : i.val ≠ j.val := fun x => h (Fin.ext x)
  simp [State.entry, State.setEntry, this]

@[simp] theorem State.slot_setSlot_self (i : WinIdx) (a : Option Slot) : (s.setSlot i a).slot? i = a := by
  simp [State.slot?, State.setSlot]

theorem State.slot_setSlot_of_ne {i j : WinIdx} (h : i ≠ j) (a : Option Slot) : (s.setSlot i a).slot? j = s.slot? j := by
  have : i.val ≠ j.val := fun x => h (Fin.ext x)
  simp [State.slot?, State.setSlot, this]

@[simp] theorem State.bound_setRobot_self (r : RobotIdx) (b : Option Bound) : (s.setRobot r b).bound? r = b := by
  simp [State.bound?, State.setRobot]

theorem State.bound_setRobot_of_ne {r q : RobotIdx} (h : r ≠ q) (b : Option Bound) :
    (s.setRobot r b).bound? q = s.bound? q := by
  have : r.val ≠ q.val := fun x => h (Fin.ext x)
  simp [State.bound?, State.setRobot, this]

end Sys2Proof.Machine
end

