-- ==== Sys2Proof/Laws/Touches.lean ====
section
/-! SUPPORT. What each shared operation can change: the state after it is the state before with new contents for the parts
named, and nothing else. A proof opens one of these in place of the operation. -/

namespace Sys2Proof.Machine
open Sys2Proof

/-! ## The own queue, notices, faults, completions, replies -/

theorem noteStatus_touches (before after : State) :
    ∃ m, before.noteStatus after = { after with rep := { after.rep with statusMark := m } } := by
  unfold State.noteStatus
  split
  · exact ⟨after.rep.statusMark, rfl⟩
  · exact ⟨true, rfl⟩

theorem ownWrite_touches (k : OwnKind) (a : Nat) (b : List Byte) (s : State) :
    ∃ p, ownWrite k a b s = { s with path := p } := ⟨_, rfl⟩

theorem ownRead_touches (k : OwnKind) (a n : Nat) (s : State) :
    ∃ p, ownRead k a n s = { s with path := p } := ⟨_, rfl⟩

/-- A notice changes the own queue and reporting's producer count, dropped flag, count and time, and the status mark. -/
theorem postNoticeAt_touches (t : Nat) (n : Notice) (s : State) :
    ∃ p r, postNoticeAt t n s = { s with path := p, rep := r } := by
  unfold postNoticeAt
  split
  · split
    · obtain ⟨m, h⟩ := noteStatus_touches s { s with rep :=
        if s.rep.dropped then { s.rep with droppedCount := min 65535 (s.rep.droppedCount + 1) }
        else { s.rep with dropped := true, droppedCount := 1, firstDrop := t } }
      exact ⟨s.path, _, by rw [dropNotice, h]⟩
    · exact ⟨_, _, rfl⟩
  · exact ⟨s.path, s.rep, rfl⟩

theorem postNotice_touches (n : Notice) (s : State) :
    ∃ p r, postNotice n s = { s with path := p, rep := r } := postNoticeAt_touches s.time n s

theorem takeFault_touches (f : FaultInfo) (s : State) :
    ∃ p r u, takeFault f s = { s with path := p, rep := r, flt := u } := by
  unfold takeFault
  split
  · exact ⟨_, _, _, rfl⟩
  · split
    · exact ⟨_, _, _, rfl⟩
    · split
      · exact ⟨_, _, _, rfl⟩
      · obtain ⟨m, h⟩ := noteStatus_touches s { s with flt := { s.flt with overflow := true } }
        rw [h]
        obtain ⟨p, r, h'⟩ := postNotice_touches (.faultOverflow f.kind f.tag f.window)
          { s with flt := { s.flt with overflow := true }, rep := { s.rep with statusMark := m } }
        exact ⟨p, r, _, h'⟩

theorem complete_touches (st : Status) (why : Reason) (s : State) :
    ∃ p, complete st why s = { s with path := p, cmd := { s.cmd with head := s.cmd.head + 1, phase := .idle } } :=
  ⟨_, rfl⟩

theorem makeReply_touches (k : ReplyKind) (why : Reason) (q : BitVec 32) (s : State) :
    ∃ p, makeReply k why q s = { s with path := p, svc := { s.svc with replySeq := s.svc.replySeq + 1 } } := by
  unfold makeReply
  dsimp only
  split
  · exact ⟨_, rfl⟩
  · exact ⟨_, rfl⟩

theorem setSvc_touches (v : Session) (s : State) :
    ∃ m, s.setSvc v = { s with svc := v, rep := { s.rep with statusMark := m } } :=
  noteStatus_touches s { s with svc := v }

theorem setTrk_touches (t : Tracking) (s : State) :
    ∃ m, s.setTrk t = { s with trk := t, rep := { s.rep with statusMark := m } } :=
  noteStatus_touches s { s with trk := t }

/-! ## Robot records and banks -/

theorem modifyRobot_touches (r : RobotIdx) (f : Bound → Bound) (s : State) :
    ∃ v, s.modifyRobot r f = { s with robots := v } := by
  unfold State.modifyRobot
  split <;> exact ⟨_, rfl⟩

theorem modifyRobots_touches (f : Bound → Bound) (rs : List RobotIdx) (s : State) :
    ∃ v, State.modifyRobots f rs s = { s with robots := v } := by
  induction rs generalizing s with
  | nil => exact ⟨s.robots, rfl⟩
  | cons r rs ih =>
    obtain ⟨v, h⟩ := modifyRobot_touches r f s
    obtain ⟨w, h'⟩ := ih (s.modifyRobot r f)
    exact ⟨w, by rw [State.modifyRobots, h', h]⟩

theorem writeBankWord_touches (k : OwnKind) (i : WinIdx) (h : Half) (b : List Byte) (s : State) :
    ∃ p, writeBankWord k i h b s = { s with path := p } := by
  unfold writeBankWord
  split <;> exact ⟨_, rfl⟩

theorem productionPublish_touches (r : RobotIdx) (q : BitVec 16) (c : Bool) (s : State) :
    ∃ p m v, productionPublish r q c s = { s with path := p, rep := m, robots := v } := by
  unfold productionPublish
  dsimp only
  split
  · obtain ⟨p, m, h⟩ := postNotice_touches (.publishRefused r q c ‹_›) s
    exact ⟨p, m, s.robots, h⟩
  · obtain ⟨v, h⟩ := modifyRobot_touches r (·.place { seq := q, confirm := c, origin := .production }) s
    exact ⟨s.path, s.rep, v, h⟩

theorem writeFlip_touches (r : RobotIdx) (s : State) :
    ∃ p v, writeFlip r s = { s with path := p, robots := v } := by
  unfold writeFlip
  split
  · obtain ⟨p, h⟩ := writeBankWord_touches (.bankFlip r) _ _ _ _
    exact ⟨p, _, h⟩
  · exact ⟨_, _, rfl⟩

theorem startFlip_touches (r : RobotIdx) (s : State) :
    ∃ p v, startFlip r s = { s with path := p, robots := v } := by
  unfold startFlip
  split
  · split
    · dsimp only
      split
      · obtain ⟨p, v, h⟩ := writeFlip_touches r (s.setRobot r _)
        exact ⟨p, v, h⟩
      · exact ⟨_, _, rfl⟩
    · exact ⟨_, _, rfl⟩
  · exact ⟨_, _, rfl⟩

theorem copyReadAt_touches (r : RobotIdx) (o : Nat) (s : State) :
    ∃ p, copyReadAt r o s = { s with path := p } := by
  unfold copyReadAt
  split
  · split
    · dsimp only
      split <;> exact ⟨_, rfl⟩
    · exact ⟨_, rfl⟩
  · exact ⟨_, rfl⟩

theorem startCopy_touches (r : RobotIdx) (s : State) :
    ∃ p v, startCopy r s = { s with path := p, robots := v } := by
  obtain ⟨v, h⟩ := modifyRobot_touches r (fun b => { b with publish := .copying }) s
  obtain ⟨p, h'⟩ := copyReadAt_touches r 8 (s.modifyRobot r fun b => { b with publish := .copying })
  exact ⟨p, v, by rw [startCopy, h', h]⟩

theorem writeCopy_touches (r : RobotIdx) (o n : Nat) (d : List Byte) (s : State) :
    ∃ p, writeCopy r o n d s = { s with path := p } := by
  unfold writeCopy
  split
  · split
    · dsimp only
      split
      · obtain ⟨p, h⟩ := copyReadAt_touches r (o + n) (ownWrite (.copyWrite r o n) _ _ s)
        exact ⟨p, h⟩
      · exact ⟨_, rfl⟩
    · exact ⟨_, rfl⟩
  · exact ⟨_, rfl⟩

theorem endCopy_touches (r : RobotIdx) (s : State) :
    ∃ p q v, endCopy r s = { s with path := p, hold := q, robots := v } := by
  obtain ⟨v, h⟩ := modifyRobot_touches r Bound.afterCopy (releaseHeld r s)
  exact ⟨_, _, v, by rw [endCopy, h]; rfl⟩

theorem swapBank_touches (r : RobotIdx) (s : State) :
    ∃ p v, swapBank r s = { s with path := p, robots := v } := by
  obtain ⟨v, h⟩ := modifyRobot_touches r Bound.swap s
  obtain ⟨p, w, h'⟩ := startCopy_touches r (s.modifyRobot r Bound.swap)
  exact ⟨p, w, by rw [swapBank, h', h]⟩

theorem cancelPublishes_touches (r : RobotIdx) (s : State) :
    ∃ p m v, cancelPublishes r s = { s with path := p, rep := m, robots := v } := by
  unfold cancelPublishes
  split
  · dsimp only
    split
    · obtain ⟨p, m, h⟩ := postNotice_touches _ (s.setRobot r _)
      exact ⟨p, m, _, h⟩
    · exact ⟨_, _, _, rfl⟩
  · exact ⟨_, _, _, rfl⟩

theorem cancelAll_touches (rs : List RobotIdx) (s : State) :
    ∃ p m v, cancelAll rs s = { s with path := p, rep := m, robots := v } := by
  induction rs generalizing s with
  | nil => exact ⟨s.path, s.rep, s.robots, rfl⟩
  | cons r rs ih =>
    obtain ⟨p, m, v, h⟩ := cancelPublishes_touches r s
    obtain ⟨p', m', v', h'⟩ := ih (cancelPublishes r s)
    exact ⟨p', m', v', by rw [cancelAll, h', h]⟩

/-! ## Windows and the session -/

theorem setAuthority_touches (i : WinIdx) (a : Authority) (s : State) :
    ∃ w, s.setAuthority i a = { s with win := w } := by
  unfold State.setAuthority
  split <;> exact ⟨_, rfl⟩

theorem setAuthorities_touches (a : Authority) (is : List WinIdx) (s : State) :
    ∃ w, State.setAuthorities a is s = { s with win := w } := by
  induction is generalizing s with
  | nil => exact ⟨s.win, rfl⟩
  | cons i is ih =>
    obtain ⟨w, h⟩ := setAuthority_touches i a s
    obtain ⟨w', h'⟩ := ih (s.setAuthority i a)
    exact ⟨w', by rw [State.setAuthorities, h', h]⟩

theorem completeConsent_touches (st : Status) (why : Reason) (s : State) :
    ∃ p c, completeConsent st why s = { s with path := p, cmd := c } := by
  unfold completeConsent
  split
  · obtain ⟨p, h⟩ := complete_touches st why s
    exact ⟨p, _, h⟩
  · exact ⟨_, _, rfl⟩

/-- A claim's end without a grant changes the own queue, the session, the named robots' grant holds, the waiting command
and the status mark. -/
theorem withdrawClaim_touches (k : ReplyKind) (a : Reason) (n : SessionState) (b : Reason) (s : State) :
    ∃ p v r m c, withdrawClaim k a n b s = { s with path := p, svc := v, robots := r, rep := m, cmd := c } := by
  obtain ⟨p, h⟩ := makeReply_touches k a s.svc.claimSeq s
  unfold withdrawClaim
  dsimp only
  rw [h]
  split
  · obtain ⟨m, h1⟩ := setSvc_touches (Session.dropClaim { s.svc with replySeq := s.svc.replySeq + 1 } n)
      { s with path := p, svc := { s.svc with replySeq := s.svc.replySeq + 1 } }
    rw [h1]
    obtain ⟨v, h2⟩ := modifyRobots_touches Bound.abandon s.svc.named _
    rw [h2]
    obtain ⟨q, c, h3⟩ := completeConsent_touches .refused b _
    exact ⟨q, _, _, _, c, h3⟩
  · obtain ⟨m, h1⟩ := setSvc_touches (Session.dropClaim { s.svc with replySeq := s.svc.replySeq + 1 } n)
      { s with path := p, svc := { s.svc with replySeq := s.svc.replySeq + 1 } }
    exact ⟨p, _, s.robots, _, s.cmd, h1⟩

theorem beginReturn_touches (x : Cause) (s : State) :
    ∃ v m w, beginReturn x s = { s with svc := v, rep := m, win := w } := by
  unfold beginReturn
  dsimp only
  obtain ⟨m, h⟩ := setSvc_touches { s.svc with state := .returning, cause := some x, keepTimer := none } s
  rw [h]
  obtain ⟨w, h'⟩ := setAuthorities_touches .frozen s.svc.windows _
  exact ⟨_, _, w, h'⟩

theorem serviceModeChange_touches (r : RobotIdx) (m : Mode) (s : State) :
    ∃ p v q n c w, serviceModeChange r m s
      = { s with path := p, svc := v, robots := q, rep := n, cmd := c, win := w } := by
  unfold serviceModeChange
  split
  · split
    · obtain ⟨v, n, w, h⟩ := beginReturn_touches .robot s
      exact ⟨_, v, _, n, _, w, h⟩
    · split
      · obtain ⟨p, v, q, n, c, h⟩ := withdrawClaim_touches .refused .robotMode .keyed .robotMode s
        exact ⟨p, v, q, n, c, _, h⟩
      · exact ⟨_, _, _, _, _, _, rfl⟩
  · exact ⟨_, _, _, _, _, _, rfl⟩

theorem servicePulse_touches (s : State) :
    ∃ p v q n c w, servicePulse s = { s with path := p, svc := v, robots := q, rep := n, cmd := c, win := w } := by
  unfold servicePulse
  split
  · split
    · obtain ⟨v, n, w, h⟩ := beginReturn_touches .line s
      exact ⟨_, v, _, n, _, w, h⟩
    · split
      · obtain ⟨p, v, q, n, c, h⟩ := withdrawClaim_touches .refused .line .keyed .line s
        exact ⟨p, v, q, n, c, _, h⟩
      · exact ⟨_, _, _, _, _, _, rfl⟩
  · exact ⟨_, _, _, _, _, _, rfl⟩

/-! ## Cycle boundaries and time -/

theorem countEcho_touches (r : RobotIdx) (s : State) :
    ∃ p m v, countEcho r s = { s with path := p, rep := m, robots := v } := by
  unfold countEcho
  split
  · split
    · split
      · split
        · unfold nudge
          dsimp only
          obtain ⟨p, h⟩ := writeBankWord_touches (.nudge r) _ _ _ (s.setRobot r _)
          exact ⟨p, s.rep, _, h⟩
        · unfold makeStale
          obtain ⟨p, m, h⟩ := postNotice_touches _ (s.setRobot r _)
          exact ⟨p, m, _, h⟩
      · exact ⟨_, _, _, rfl⟩
    · exact ⟨_, _, _, rfl⟩
  · exact ⟨_, _, _, rfl⟩

theorem countMode_touches (r : RobotIdx) (s : State) :
    ∃ p v q n c w, countMode r s = { s with path := p, svc := v, robots := q, rep := n, cmd := c, win := w } := by
  unfold countMode
  split
  · dsimp only
    split
    · obtain ⟨p, v, q, n, c, w, h⟩ := serviceModeChange_touches r .unknown (s.setRobot r _)
      exact ⟨p, v, q, n, c, w, h⟩
    · exact ⟨_, _, _, _, _, _, rfl⟩
  · exact ⟨_, _, _, _, _, _, rfl⟩

/-- A cycle boundary at a robot touches neither the clock unit, the pins, the tracking unit nor the fault unit. -/
theorem robotBoundary_touches (r : RobotIdx) (s : State) :
    ∃ p v q n c w, robotBoundary r s = { s with path := p, svc := v, robots := q, rep := n, cmd := c, win := w } := by
  obtain ⟨p, q, h⟩ := startFlip_touches r s
  obtain ⟨p1, n1, q1, h1⟩ := countEcho_touches r (startFlip r s)
  obtain ⟨p2, v2, q2, n2, c2, w2, h2⟩ := countMode_touches r (countEcho r (startFlip r s))
  exact ⟨p2, v2, q2, n2, c2, w2, by rw [robotBoundary, h2, h1, h]⟩

theorem advanceBoundary_touches (r : RobotIdx) (s : State) :
    ∃ p v q n c w, advanceBoundary r s = { s with path := p, svc := v, robots := q, rep := n, cmd := c, win := w } := by
  unfold advanceBoundary
  split
  · split
    · obtain ⟨p, v, q, n, c, w, h⟩ := robotBoundary_touches r (s.setRobot r _)
      exact ⟨p, v, q, n, c, w, h⟩
    · exact ⟨_, _, _, _, _, _, rfl⟩
  · exact ⟨_, _, _, _, _, _, rfl⟩

theorem advanceBoundaries_touches (rs : List RobotIdx) (s : State) :
    ∃ p v q n c w, advanceBoundaries rs s
      = { s with path := p, svc := v, robots := q, rep := n, cmd := c, win := w } := by
  induction rs generalizing s with
  | nil => exact ⟨_, _, _, _, _, _, rfl⟩
  | cons r rs ih =>
    obtain ⟨p, v, q, n, c, w, h⟩ := advanceBoundary_touches r s
    obtain ⟨p', v', q', n', c', w', h'⟩ := ih (advanceBoundary r s)
    exact ⟨p', v', q', n', c', w', by rw [advanceBoundaries, h', h]⟩

theorem stepBoundary_touches (old : Nat) (r : RobotIdx) (s : State) :
    ∃ p v q n c w, stepBoundary old r s = { s with path := p, svc := v, robots := q, rep := n, cmd := c, win := w } := by
  unfold stepBoundary
  split
  · dsimp only
    split
    · obtain ⟨p, v, q, n, c, w, h⟩ := robotBoundary_touches r (s.setRobot r _)
      exact ⟨p, v, q, n, c, w, h⟩
    · exact ⟨_, _, _, _, _, _, rfl⟩
  · exact ⟨_, _, _, _, _, _, rfl⟩

theorem stepBoundaries_touches (old : Nat) (rs : List RobotIdx) (s : State) :
    ∃ p v q n c w, stepBoundaries old rs s
      = { s with path := p, svc := v, robots := q, rep := n, cmd := c, win := w } := by
  induction rs generalizing s with
  | nil => exact ⟨_, _, _, _, _, _, rfl⟩
  | cons r rs ih =>
    obtain ⟨p, v, q, n, c, w, h⟩ := stepBoundary_touches old r s
    obtain ⟨p', v', q', n', c', w', h'⟩ := ih (stepBoundary old r s)
    exact ⟨p', v', q', n', c', w', by rw [stepBoundaries, h', h]⟩

/-- A step of machine time sets the clock unit's time, fraction, stepped mark, rate and increment, and hands the
boundaries to the robots (R63). -/
theorem stepTime_touches (new : Word) (s : State) :
    ∃ p v q n c w, stepTime new s
      = { s with clk := Clock.setRate { s.clk with ns := new, frac := 0, stepped := true } 0,
                 path := p, svc := v, robots := q, rep := n, cmd := c, win := w } := by
  unfold stepTime
  obtain ⟨p, v, q, n, c, w, h⟩ := stepBoundaries_touches s.time allRobots
    (s.setClk (Clock.setRate { s.clk with ns := new, frac := 0, stepped := true } 0))
  exact ⟨p, v, q, n, c, w, h⟩

/-- A mark changes MARK, the end of its pulse, the waiting frame and the stepped mark. -/
theorem advanceMark_touches (old : Nat) (s : State) :
    ∃ m e f t, advanceMark old s = { s with
      pins := { s.pins with mark := m }, clk := { s.clk with markEnd := e, codeWaiting := f, stepped := t } } := by
  unfold advanceMark
  dsimp only
  split
  · unfold giveMark codeDue
    split <;> exact ⟨_, _, _, _, rfl⟩
  · exact ⟨_, _, _, _, rfl⟩

/-- One REFCLK period: the counts advance, and the mark and the boundaries follow (R59, R60, R64, R70). -/
theorem refclk_touches (s : State) (h : s.pins.powerGood = true) :
    ∃ m e f t p v q n c w, refclk s = { advanceCounts s with
      pins := { s.pins with mark := m },
      clk := { (advanceCounts s).clk with markEnd := e, codeWaiting := f, stepped := t },
      path := p, svc := v, robots := q, rep := n, cmd := c, win := w } := by
  obtain ⟨m, e, f, t, h1⟩ := advanceMark_touches s.time (advanceCounts s)
  obtain ⟨p, v, q, n, c, w, h2⟩ := advanceBoundaries_touches allRobots (advanceMark s.time (advanceCounts s))
  exact ⟨m, e, f, t, p, v, q, n, c, w, by rw [refclk, if_pos h, h2, h1]; rfl⟩

end Sys2Proof.Machine
end

