-- ==== Sys2Proof/Laws/Link.lean ====
section
/-! SUPPORT. The checks of a link request read in the terms of the statements: spans, the control area, hidden ranges,
governing windows; and what a refusal and a forwarding leave. -/

namespace Sys2Proof.Machine
open Sys2Proof

theorem mem_allWindows (i : WinIdx) : i ∈ allWindows := by revert i; decide

theorem mem_allRobots (r : RobotIdx) : r ∈ allRobots := by revert r; decide

/-! ## Spans (R1, R6) -/

theorem mem_spanBytes (r : LinkRequest) (a : Nat) : a ∈ spanBytes r ↔ r.covers a := by
  simp only [spanBytes, List.mem_map, List.mem_range, LinkRequest.covers, spanFirst, spanLen]
  constructor
  · rintro ⟨k, hk, rfl⟩; omega
  · rintro ⟨h1, h2⟩; exact ⟨a - r.addr.toNat, by omega, by omega⟩

/-- A well-formed request has a beat and lies in one 4 KiB block. -/
theorem wellFormed_span {r : LinkRequest} (h : malformed r = false) :
    r.beats.val ≠ 0 ∧ r.addr.toNat / 4096 = (r.addr.toNat + 8 * r.beats.val - 1) / 4096 := by
  simp only [malformed, Bool.or_eq_false_iff, decide_eq_false_iff_not] at h
  exact ⟨h.1.1.1, Decidable.not_not.1 h.1.2⟩

/-- A span shares a byte with a range exactly when it covers one of the range's addresses. -/
theorem touches_iff {r : LinkRequest} (h : r.beats.val ≠ 0) (lo hi : Nat) :
    touches r lo hi = true ↔ ∃ a, r.covers a ∧ lo ≤ a ∧ a < hi := by
  simp only [touches, Bool.and_eq_true, decide_eq_true_eq]
  simp only [spanFirst, spanLast, spanLen, LinkRequest.covers]
  constructor
  · rintro ⟨⟨h1, h2⟩, h3⟩
    rcases Nat.le_total r.addr.toNat lo with h | h
    · exact ⟨lo, by omega⟩
    · exact ⟨r.addr.toNat, by omega⟩
  · rintro ⟨a, ⟨h1, h2⟩, h3, h4⟩; omega

theorem areaBase_eq (s : State) : s.areaBase = 268369920 + 268435456 * s.pins.strap.val := rfl

/-- A well-formed span lies wholly inside or wholly outside the control area (R18, R23). -/
theorem areaHas_all {s : State} {r : LinkRequest} (h : malformed r = false) {a b : Nat} (ha : r.covers a)
    (hb : r.covers b) (hs : s.areaHas a) : s.areaHas b := by
  obtain ⟨h0, h1⟩ := wellFormed_span h
  simp only [State.areaHas, LinkRequest.covers, areaBase_eq] at *
  omega

theorem inArea_iff {s : State} {r : LinkRequest} (h : malformed r = false) :
    inArea s r = true ↔ ∃ a, r.covers a ∧ s.areaHas a := by
  rw [inArea, touches_iff (wellFormed_span h).1]
  simp only [State.areaHas, areaSize, Nat.add_comm 65536]

theorem inArea_eq_false {s : State} {r : LinkRequest} (h : malformed r = false) (ho : s.outsideArea r) :
    inArea s r = false := by
  rw [Bool.eq_false_iff]
  intro hi
  obtain ⟨a, h1, h2⟩ := (inArea_iff h).1 hi
  exact ho a h1 h2

/-! ## Hidden ranges (R21, R24) -/

theorem hidden_iff (e : WinState) (a : Nat) :
    (∃ x ∈ e.hidden, x.1 ≤ a ∧ a < x.2) ↔
      ∃ (w : Window) (el : Bool) (au : Authority) (n : RobotIdx) (ha hb : Addr),
        (e = .loaded w ∨ ∃ new, e = .draining w new) ∧ w.role = .banked el au n ha hb
          ∧ ((ha.toNat ≤ a ∧ a < ha.toNat + w.size.toNat) ∨ (hb.toNat ≤ a ∧ a < hb.toNat + w.size.toNat)) := by
  have key : ∀ w : Window, (∃ x ∈ w.halves, x.1 ≤ a ∧ a < x.2) ↔
      ∃ (el : Bool) (au : Authority) (n : RobotIdx) (ha hb : Addr), w.role = .banked el au n ha hb
        ∧ ((ha.toNat ≤ a ∧ a < ha.toNat + w.size.toNat) ∨ (hb.toNat ≤ a ∧ a < hb.toNat + w.size.toNat)) := by
    intro w
    unfold Window.halves
    split
    · rename_i el au n ha hb hr
      simp [hr]
    · rename_i hr
      simp only [List.not_mem_nil, false_and, exists_false, false_iff]
      rintro ⟨el, au, n, ha, hb, h, -⟩
      exact hr _ _ _ _ _ h
  cases e with
  | empty => simp [WinState.hidden, WinState.contents?]
  | loaded w => simp [WinState.hidden, WinState.contents?, key w]
  | draining old new => simp [WinState.hidden, WinState.contents?, key old]

theorem touchesHidden_iff {s : State} {r : LinkRequest} (h : malformed r = false) :
    touchesHidden s r = true ↔ ∃ a, r.covers a ∧ s.hides a := by
  simp only [touchesHidden, List.any_eq_true, touches_iff (wellFormed_span h).1, State.hiddenRanges, List.mem_flatMap]
  constructor
  · rintro ⟨x, ⟨i, -, hx⟩, a, hc, hlo, hhi⟩
    obtain ⟨w, el, au, n, ha, hb, h1⟩ := (hidden_iff (s.entry i) a).1 ⟨x, hx, hlo, hhi⟩
    exact ⟨a, hc, i, w, el, au, n, ha, hb, h1⟩
  · rintro ⟨a, hc, i, w, el, au, n, ha, hb, h1⟩
    obtain ⟨x, hx, hlo, hhi⟩ := (hidden_iff (s.entry i) a).2 ⟨w, el, au, n, ha, hb, h1⟩
    exact ⟨x, ⟨i, mem_allWindows i, hx⟩, a, hc, hlo, hhi⟩

theorem touchesHidden_eq_false {s : State} {r : LinkRequest} (h : malformed r = false)
    (hh : ∀ a, r.covers a → ¬ s.hides a) : touchesHidden s r = false := by
  rw [Bool.eq_false_iff]
  intro hi
  obtain ⟨a, h1, h2⟩ := (touchesHidden_iff h).1 hi
  exact hh a h1 h2

/-! ## Governing windows (R25) -/

theorem loaded?_eq_some {s : State} {i : WinIdx} {w : Window} : s.loaded? i = some w ↔ s.entry i = .loaded w := by
  unfold State.loaded?
  split <;> simp_all

theorem rangeHas_iff {s : State} {i : WinIdx} {a : Nat} :
    s.rangeHas a i = true ↔ ∃ w, s.entry i = .loaded w ∧ w.base.toNat ≤ a ∧ a < w.base.toNat + w.size.toNat := by
  unfold State.rangeHas
  cases hl : s.loaded? i with
  | none =>
    simp only [Bool.false_eq_true, false_iff]
    rintro ⟨w, hw, -⟩
    simp [loaded?_eq_some.2 hw] at hl
  | some w =>
    simp only [loaded?_eq_some.1 hl, Window.contains, Bool.and_eq_true, decide_eq_true_eq, WinState.loaded.injEq]
    simp [Window.range]

theorem governor?_eq_none {s : State} {a : Nat} : s.governor? a = none ↔ s.ungoverned a := by
  unfold State.governor? State.ungoverned
  rw [List.find?_eq_none]
  constructor
  · intro h j v hj hv
    exact h j (mem_allWindows j) (rangeHas_iff.2 ⟨v, hj, hv⟩)
  · intro h j _ hj
    obtain ⟨v, h1, h2⟩ := rangeHas_iff.1 hj
    exact h j v h1 h2

theorem allWindows_get (k : Nat) (h : k < 32) : allWindows[k]? = some ⟨k, h⟩ := by
  interval_cases k <;> rfl

theorem governor?_eq_some {s : State} {a : Nat} {i : WinIdx} : s.governor? a = some i ↔ ∃ w, s.governs i w a := by
  unfold State.governor? State.governs
  rw [List.find?_eq_some_iff_getElem]
  constructor
  · rintro ⟨h1, k, hk, rfl, h2⟩
    obtain ⟨w, h3, h4⟩ := rangeHas_iff.1 h1
    refine ⟨w, h3, h4, ?_⟩
    intro j v hj he hv
    have hj' : j.val < k := by
      have : allWindows[k] = ⟨k, hk⟩ := by
        have := allWindows_get k hk
        rw [List.getElem?_eq_getElem hk] at this
        exact Option.some.inj this
      rw [this] at hj
      exact hj
    have h5 := h2 j.val hj'
    have h6 : allWindows[j.val]'(by omega) = j := by
      have := allWindows_get j.val j.isLt
      rw [List.getElem?_eq_getElem (by exact j.isLt)] at this
      exact Option.some.inj this
    rw [h6, rangeHas_iff.2 ⟨v, he, hv⟩] at h5
    simp at h5
  · rintro ⟨w, h1, h2, h3⟩
    refine ⟨rangeHas_iff.2 ⟨w, h1, h2⟩, i.val, i.isLt, ?_, ?_⟩
    · have := allWindows_get i.val i.isLt
      rw [List.getElem?_eq_getElem (by exact i.isLt)] at this
      exact Option.some.inj this
    · intro k hk
      have hk32 : k < 32 := by omega
      have h6 : allWindows[k]'(by exact hk32) = ⟨k, hk32⟩ := by
        have := allWindows_get k hk32
        rw [List.getElem?_eq_getElem (by exact hk32)] at this
        exact Option.some.inj this
      change (!s.rangeHas a (allWindows[k]'(by exact hk32))) = true
      rw [h6, Bool.not_eq_true', Bool.eq_false_iff]
      intro hc
      obtain ⟨v, h4, h5⟩ := rangeHas_iff.1 hc
      exact h3 _ v hk h4 h5

/-! ## Refusal and forwarding (R7, R8, R12) -/

theorem tagCount_of_free {s : State} {r : LinkRequest} (h : s.tagFree r) : s.tagCount r.tag = 0 := by
  unfold State.tagCount
  rw [List.length_eq_zero_iff, List.filter_eq_nil_iff]
  intro e he
  simpa using h e he

/-- A ready entry at the end of the set, with no other of its tag, leaves at once with its response (R9). -/
theorem giveReady_append_last (t : Tag) (l : List Entry) (e : Entry) (hl : ∀ x ∈ l, x.tag ≠ t) (he : e.tag = t)
    (ha : e.answered = true) : giveReady t (l ++ [e]) = (l, [e.response]) := by
  induction l with
  | nil => simp [giveReady, he, ha]
  | cons x xs ih =>
    have hx : x.tag ≠ t := hl x (by simp)
    have := ih (fun y hy => hl y (by simp [hy]))
    simp [giveReady, hx, this]

/-- Other in-flight entries and responses than the state's. -/
def Path.flight (l : List Entry) (o : List Response) (p : Path) : Path := { p with inflight := l, responses := o }

/-- Other in-flight entries and responses than the state's. -/
def State.flight (l : List Entry) (o : List Response) (s : State) : State := { s with path := s.path.flight l o }

theorem enqueue_flight (l : List Entry) (o : List Response) (p : Path) (t : OwnTxn) :
    (p.flight l o).enqueue t = (p.enqueue t).flight l o := by
  unfold Path.enqueue
  change (if p.hasPlace then _ else _) = _
  split <;> rfl

theorem ownWrite_flight (k : OwnKind) (a : Nat) (b : List Byte) (l : List Entry) (o : List Response) (s : State) :
    ownWrite k a b (s.flight l o) = (ownWrite k a b s).flight l o := by
  have h := enqueue_flight l o s.path (s.path.newTxn k a b.length (some b))
  exact congrArg (fun p => ({ s with path := p } : State)) h

theorem noteStatus_flight (l : List Entry) (o : List Response) (before after : State) :
    (before.flight l o).noteStatus (after.flight l o) = (before.noteStatus after).flight l o := by
  unfold State.noteStatus
  change (if after.statusFields = before.statusFields then _ else _) = _
  split <;> rfl

theorem postNoticeAt_flight (time : Nat) (n : Notice) (l : List Entry) (o : List Response) (s : State) :
    postNoticeAt time n (s.flight l o) = (postNoticeAt time n s).flight l o := by
  unfold postNoticeAt
  change (if s.rep.enabled then (if s.rep.full then _ else _) else _) = _
  split
  · split
    · exact noteStatus_flight l o s { s with rep :=
        if s.rep.dropped then { s.rep with droppedCount := min 65535 (s.rep.droppedCount + 1) }
        else { s.rep with dropped := true, droppedCount := 1, firstDrop := time } }
    · unfold writeNotice
      dsimp only
      rw [show (s.flight l o).areaBase = s.areaBase from rfl, show (s.flight l o).rep = s.rep from rfl, ownWrite_flight]
      exact ownWrite_flight (.noticeProducer (s.rep.producer + 1)) (s.areaBase + 0x18) (leBytes 8 (s.rep.producer + 1)) l o
        { ownWrite .notice (s.areaBase + 0x2000 + 32 * (s.rep.producer % Config.noticeSlots)) (n.bytes time) s with
            rep := { s.rep with producer := s.rep.producer + 1 } }
  · rfl

theorem takeFault_flight (f : FaultInfo) (l : List Entry) (o : List Response) (s : State) :
    takeFault f (s.flight l o) = (takeFault f s).flight l o := by
  unfold takeFault
  rw [show (s.flight l o).flt = s.flt from rfl]
  cases s.flt.match? f with
  | some nr => rfl
  | none =>
    dsimp only
    by_cases ho : s.flt.overflow = true
    · rw [if_pos ho, if_pos ho]
    · rw [if_neg ho, if_neg ho]
      cases s.flt.free? with
      | some n => rfl
      | none =>
        dsimp only
        rw [show ({ s.flight l o with flt := { s.flt with overflow := true } } : State)
          = State.flight l o { s with flt := { s.flt with overflow := true } } from rfl, noteStatus_flight]
        exact postNoticeAt_flight _ _ l o _

/-- A fault leaves the in-flight set and the responses. -/
theorem takeFault_path (f : FaultInfo) (s : State) :
    (takeFault f s).path.inflight = s.path.inflight ∧ (takeFault f s).path.responses = s.path.responses := by
  have h : takeFault f s = (takeFault f s).flight s.path.inflight s.path.responses :=
    takeFault_flight f s.path.inflight s.path.responses s
  constructor <;> rw [h] <;> rfl

theorem ownWrite_passing (k : OwnKind) (a : Nat) (b : List Byte) (s : State) :
    (ownWrite k a b s).path.passing = s.path.passing := by
  unfold ownWrite Path.enqueue
  dsimp only
  split <;> rfl

theorem postNoticeAt_passing (time : Nat) (n : Notice) (s : State) :
    (postNoticeAt time n s).path.passing = s.path.passing := by
  unfold postNoticeAt
  split
  · split
    · unfold dropNotice
      obtain ⟨m, h⟩ := noteStatus_touches s { s with rep :=
        if s.rep.dropped then { s.rep with droppedCount := min 65535 (s.rep.droppedCount + 1) }
        else { s.rep with dropped := true, droppedCount := 1, firstDrop := time } }
      rw [h]
    · exact (ownWrite_passing _ _ _ _).trans (ownWrite_passing _ _ _ s)
  · rfl

/-- A fault leaves the passing stream and the hold queue. -/
theorem takeFault_stream (f : FaultInfo) (s : State) :
    (takeFault f s).path.passing = s.path.passing ∧ (takeFault f s).hold = s.hold := by
  refine ⟨?_, by obtain ⟨p, r, u, h⟩ := takeFault_touches f s; rw [h]⟩
  unfold takeFault
  split
  · rfl
  · split
    · rfl
    · split
      · rfl
      · obtain ⟨m, h⟩ := noteStatus_touches s { s with flt := { s.flt with overflow := true } }
        rw [h]
        exact postNoticeAt_passing _ _ _

/-- A refusal while no transaction of the tag is in flight (R7, R9). -/
theorem refuseRequest_eq {s : State} {r : LinkRequest} (k : FaultKind) (c : Checked) (h : s.tagFree r) :
    refuseRequest k c r s = s.refusing r k c.window? := by
  unfold refuseRequest State.refusing
  dsimp only
  have hr := giveReady_append_last r.tag s.path.inflight (entryOf s r .refused c none (refusedReaderRead s c r) none) h rfl rfl
  have hfl := takeFault_path (requestFault k c r) (s.addEntry (entryOf s r .refused c none (refusedReaderRead s c r) none))
  have e1 : (takeFault (requestFault k c r) (s.addEntry (entryOf s r .refused c none (refusedReaderRead s c r) none))).path.inflight
      = s.path.inflight ++ [entryOf s r .refused c none (refusedReaderRead s c r) none] := hfl.1
  have e2 : (takeFault (requestFault k c r) (s.addEntry (entryOf s r .refused c none (refusedReaderRead s c r) none))).path.responses
      = s.path.responses := hfl.2
  have e3 : ∀ t : State, t.path.inflight = s.path.inflight ++ [entryOf s r .refused c none (refusedReaderRead s c r) none] →
      t.path.responses = s.path.responses →
      ({ t with path := giveResponses r.tag t.path } : State)
        = t.flight s.path.inflight (s.path.responses ++ [(entryOf s r .refused c none (refusedReaderRead s c r) none).response]) := by
    intro t h1 h2
    unfold giveResponses
    dsimp only
    rw [h1, hr, h2]
    rfl
  rw [e3 _ e1 e2, ← takeFault_flight]
  rfl

theorem forwardRequest_eq (c : Checked) (half : Option Half) (reader : Bool) (a : Addr) (r : LinkRequest)
    (d : List Byte) (en : List Bool) (s : State) :
    forwardRequest c half reader a r d en s = s.forwarding r c half reader a d en := rfl

end Sys2Proof.Machine
end

