-- ==== Sys2Proof/Laws/Stream.lean ====
section
/-! SUPPORT. What the units' own transactions leave of the transaction path: the in-flight set, the passing stream, the
transactions at memory and the responses stand, and the own queue stays within its places. -/

namespace Sys2Proof.Machine
open Sys2Proof

/-! ## The tests of the queues and rings -/

theorem Path.hasPlace_iff (p : Path) : p.hasPlace = true ↔ p.own.length < 16 ∧ p.waiting = [] := by
  rw [Path.hasPlace, Bool.and_eq_true, decide_eq_true_eq, List.isEmpty_iff]
  rfl

theorem Reporting.full_iff (r : Reporting) : r.full = true ↔ 128 ≤ r.producer - r.consumed := by
  rw [Reporting.full, decide_eq_true_eq]
  rfl

theorem Reporting.decFull_iff (r : Reporting) : r.decFull = true ↔ 512 ≤ r.decProducer - r.decConsumed := by
  rw [Reporting.decFull, decide_eq_true_eq]
  rfl

theorem allRecords_split (n : Fin 8) :
    ∃ l₁ l₂, allRecords = l₁ ++ n :: l₂ ∧ ∀ m ∈ l₁, m < n := by
  refine ⟨allRecords.take n.val, allRecords.drop (n.val + 1), ?_, ?_⟩ <;> revert n <;> decide

theorem allRobots_split (r : RobotIdx) :
    ∃ l₁ l₂, allRobots = l₁ ++ r :: l₂ ∧ ∀ m ∈ l₁, m < r := by
  refine ⟨allRobots.take r.val, allRobots.drop (r.val + 1), ?_, ?_⟩ <;> revert r <;> decide

theorem FaultRecord.same_iff (r : FaultRecord) (f : FaultInfo) :
    r.same f = true ↔ r.info.kind = f.kind ∧ r.info.tag = f.tag ∧ r.info.window = f.window := by
  simp [FaultRecord.same, and_assoc]

theorem FaultUnit.matchAt_eq_none {u : FaultUnit} {f : FaultInfo} {n : Fin 8}
    (h : ∀ r, u.records[n] = some r → r.same f = false) : u.matchAt f n = none := by
  unfold FaultUnit.matchAt
  split
  · rename_i r hr
    rw [h r hr]
    rfl
  · rfl

theorem FaultUnit.match?_eq_none {u : FaultUnit} {f : FaultInfo}
    (h : ∀ (n : Fin 8) r, u.records[n] = some r → r.same f = false) : u.match? f = none := by
  unfold FaultUnit.match?
  rw [List.findSome?_eq_none_iff]
  exact fun n _ => FaultUnit.matchAt_eq_none (h n)

theorem FaultUnit.match?_eq_some {u : FaultUnit} {f : FaultInfo} {n : Fin 8} {r : FaultRecord}
    (hn : u.records[n] = some r) (hs : r.same f = true)
    (h : ∀ (m : Fin 8) r', m < n → u.records[m] = some r' → r'.same f = false) : u.match? f = some (n, r) := by
  unfold FaultUnit.match?
  obtain ⟨l₁, l₂, hl, hlt⟩ := allRecords_split n
  rw [hl, List.findSome?_append, List.findSome?_eq_none_iff.2]
  · have : u.matchAt f n = some (n, r) := by
      unfold FaultUnit.matchAt
      rw [hn]
      dsimp only
      rw [if_pos hs]
    rw [List.findSome?_cons, this]
    rfl
  · exact fun m hm => FaultUnit.matchAt_eq_none fun r' hr => h m r' (hlt m hm) hr

/-! ## Own transactions and the rest of the path -/

/-- From `p` to `q` only own transactions were made: the rest of the path stands, and an own queue within its places stays
so. -/
structure Path.OwnOnly (p q : Path) : Prop where
  inflight   : q.inflight = p.inflight
  passing    : q.passing = p.passing
  downstream : q.downstream = p.downstream
  responses  : q.responses = p.responses
  last       : q.last = p.last
  bounded    : p.own.length ≤ Config.ownPlaces → q.own.length ≤ Config.ownPlaces

theorem Path.OwnOnly.refl (p : Path) : p.OwnOnly p := ⟨rfl, rfl, rfl, rfl, rfl, id⟩

theorem Path.OwnOnly.trans {p q r : Path} (h : p.OwnOnly q) (h' : q.OwnOnly r) : p.OwnOnly r :=
  ⟨h'.1.trans h.1, h'.2.trans h.2, h'.3.trans h.3, h'.4.trans h.4, h'.5.trans h.5, fun x => h'.6 (h.6 x)⟩

theorem enqueue_ownOnly (p : Path) (t : OwnTxn) : p.OwnOnly (p.enqueue t) := by
  unfold Path.enqueue
  split
  · rename_i h
    refine ⟨rfl, rfl, rfl, rfl, rfl, fun _ => ?_⟩
    simp only [Path.hasPlace, Bool.and_eq_true, decide_eq_true_eq] at h
    simpa using h.1
  · exact ⟨rfl, rfl, rfl, rfl, rfl, id⟩

theorem ownWrite_ownOnly (k : OwnKind) (a : Nat) (b : List Byte) (s : State) :
    s.path.OwnOnly (ownWrite k a b s).path := enqueue_ownOnly _ _

theorem ownRead_ownOnly (k : OwnKind) (a n : Nat) (s : State) : s.path.OwnOnly (ownRead k a n s).path :=
  enqueue_ownOnly _ _

theorem noteStatus_path (before after : State) : (before.noteStatus after).path = after.path := by
  unfold State.noteStatus
  split <;> rfl

theorem postNoticeAt_ownOnly (t : Nat) (n : Notice) (s : State) : s.path.OwnOnly (postNoticeAt t n s).path := by
  unfold postNoticeAt
  split
  · split
    · rw [dropNotice, noteStatus_path]
      exact .refl _
    · exact (ownWrite_ownOnly _ _ _ s).trans (ownWrite_ownOnly _ _ _ _)
  · exact .refl _

theorem postNotice_ownOnly (n : Notice) (s : State) : s.path.OwnOnly (postNotice n s).path :=
  postNoticeAt_ownOnly s.time n s

theorem takeFault_ownOnly (f : FaultInfo) (s : State) : s.path.OwnOnly (takeFault f s).path := by
  unfold takeFault
  split
  · exact .refl _
  · split
    · exact .refl _
    · split
      · exact .refl _
      · have h := postNotice_ownOnly (.faultOverflow f.kind f.tag f.window)
          (s.noteStatus { s with flt := { s.flt with overflow := true } })
        rwa [noteStatus_path] at h

theorem complete_ownOnly (st : Status) (why : Reason) (s : State) : s.path.OwnOnly (complete st why s).path :=
  (ownWrite_ownOnly _ _ _ s).trans (ownWrite_ownOnly _ _ _ _)

theorem makeReply_ownOnly (k : ReplyKind) (why : Reason) (q : BitVec 32) (s : State) :
    s.path.OwnOnly (makeReply k why q s).path := by
  unfold makeReply
  dsimp only
  split
  · exact ownWrite_ownOnly _ _ _ _
  · exact .refl _

theorem writeBankWord_ownOnly (k : OwnKind) (i : WinIdx) (h : Half) (b : List Byte) (s : State) :
    s.path.OwnOnly (writeBankWord k i h b s).path := by
  unfold writeBankWord
  split
  · exact ownWrite_ownOnly _ _ _ _
  · exact .refl _

theorem modifyRobot_path (r : RobotIdx) (f : Bound → Bound) (s : State) : (s.modifyRobot r f).path = s.path := by
  obtain ⟨v, h⟩ := modifyRobot_touches r f s
  rw [h]

theorem modifyRobots_path (f : Bound → Bound) (rs : List RobotIdx) (s : State) :
    (State.modifyRobots f rs s).path = s.path := by
  obtain ⟨v, h⟩ := modifyRobots_touches f rs s
  rw [h]

theorem setAuthorities_path (a : Authority) (is : List WinIdx) (s : State) :
    (State.setAuthorities a is s).path = s.path := by
  obtain ⟨w, h⟩ := setAuthorities_touches a is s
  rw [h]

theorem setSvc_path (v : Session) (s : State) : (s.setSvc v).path = s.path := noteStatus_path _ _

theorem setTrk_path (t : Tracking) (s : State) : (s.setTrk t).path = s.path := noteStatus_path _ _

theorem completeConsent_ownOnly (st : Status) (why : Reason) (s : State) :
    s.path.OwnOnly (completeConsent st why s).path := by
  unfold completeConsent
  split
  · exact complete_ownOnly _ _ _
  · exact .refl _

theorem withdrawClaim_ownOnly (k : ReplyKind) (a : Reason) (n : SessionState) (b : Reason) (s : State) :
    s.path.OwnOnly (withdrawClaim k a n b s).path := by
  unfold withdrawClaim
  dsimp only
  have h := makeReply_ownOnly k a s.svc.claimSeq s
  split
  · refine h.trans ?_
    have h' := completeConsent_ownOnly .refused b (State.modifyRobots Bound.abandon s.svc.named
      ((makeReply k a s.svc.claimSeq s).setSvc ((makeReply k a s.svc.claimSeq s).svc.dropClaim n)))
    rwa [modifyRobots_path, setSvc_path] at h'
  · rwa [setSvc_path]

theorem beginReturn_path (c : Cause) (s : State) : (beginReturn c s).path = s.path := by
  obtain ⟨v, m, w, h⟩ := beginReturn_touches c s
  rw [h]

theorem serviceModeChange_ownOnly (r : RobotIdx) (m : Mode) (s : State) :
    s.path.OwnOnly (serviceModeChange r m s).path := by
  unfold serviceModeChange
  split
  · split
    · rw [beginReturn_path]; exact .refl _
    · split
      · exact withdrawClaim_ownOnly _ _ _ _ _
      · exact .refl _
  · exact .refl _

theorem servicePulse_ownOnly (s : State) : s.path.OwnOnly (servicePulse s).path := by
  unfold servicePulse
  split
  · split
    · rw [beginReturn_path]; exact .refl _
    · split
      · exact withdrawClaim_ownOnly _ _ _ _ _
      · exact .refl _
  · exact .refl _

theorem productionPublish_ownOnly (r : RobotIdx) (q : BitVec 16) (c : Bool) (s : State) :
    s.path.OwnOnly (productionPublish r q c s).path := by
  unfold productionPublish
  dsimp only
  split
  · exact postNotice_ownOnly _ _
  · rw [modifyRobot_path]; exact .refl _

theorem writeFlip_ownOnly (r : RobotIdx) (s : State) : s.path.OwnOnly (writeFlip r s).path := by
  unfold writeFlip
  split
  · exact writeBankWord_ownOnly _ _ _ _ (s.setRobot r _)
  · exact .refl _

theorem startFlip_ownOnly (r : RobotIdx) (s : State) : s.path.OwnOnly (startFlip r s).path := by
  unfold startFlip
  split
  · split
    · dsimp only
      split
      · exact writeFlip_ownOnly r (s.setRobot r _)
      · exact .refl _
    · exact .refl _
  · exact .refl _

theorem copyReadAt_ownOnly (r : RobotIdx) (o : Nat) (s : State) : s.path.OwnOnly (copyReadAt r o s).path := by
  unfold copyReadAt
  split
  · split
    · dsimp only
      split
      · exact ownRead_ownOnly _ _ _ _
      · exact .refl _
    · exact .refl _
  · exact .refl _

theorem startCopy_ownOnly (r : RobotIdx) (s : State) : s.path.OwnOnly (startCopy r s).path := by
  have h := copyReadAt_ownOnly r 8 (s.modifyRobot r fun b => { b with publish := .copying })
  rwa [modifyRobot_path] at h

theorem swapBank_ownOnly (r : RobotIdx) (s : State) : s.path.OwnOnly (swapBank r s).path := by
  have h := startCopy_ownOnly r (s.modifyRobot r Bound.swap)
  rwa [modifyRobot_path] at h

theorem writeCopy_ownOnly (r : RobotIdx) (o n : Nat) (d : List Byte) (s : State) :
    s.path.OwnOnly (writeCopy r o n d s).path := by
  unfold writeCopy
  split
  · split
    · dsimp only
      split
      · exact (ownWrite_ownOnly _ _ _ s).trans (copyReadAt_ownOnly _ _ _)
      · exact ownWrite_ownOnly _ _ _ _
    · exact .refl _
  · exact .refl _

theorem cancelPublishes_ownOnly (r : RobotIdx) (s : State) : s.path.OwnOnly (cancelPublishes r s).path := by
  unfold cancelPublishes
  split
  · dsimp only
    split
    · exact postNotice_ownOnly _ (s.setRobot r _)
    · exact .refl _
  · exact .refl _

theorem cancelAll_ownOnly (rs : List RobotIdx) (s : State) : s.path.OwnOnly (cancelAll rs s).path := by
  induction rs generalizing s with
  | nil => exact .refl _
  | cons r rs ih => exact (cancelPublishes_ownOnly r s).trans (ih _)

theorem countEcho_ownOnly (r : RobotIdx) (s : State) : s.path.OwnOnly (countEcho r s).path := by
  unfold countEcho
  split
  · split
    · split
      · split
        · exact writeBankWord_ownOnly _ _ _ _ (s.setRobot r _)
        · exact postNotice_ownOnly _ (s.setRobot r _)
      · exact .refl _
    · exact .refl _
  · exact .refl _

theorem countMode_ownOnly (r : RobotIdx) (s : State) : s.path.OwnOnly (countMode r s).path := by
  unfold countMode
  split
  · dsimp only
    split
    · exact serviceModeChange_ownOnly _ _ (s.setRobot r _)
    · exact .refl _
  · exact .refl _

theorem robotBoundary_ownOnly (r : RobotIdx) (s : State) : s.path.OwnOnly (robotBoundary r s).path :=
  ((startFlip_ownOnly r s).trans (countEcho_ownOnly r _)).trans (countMode_ownOnly r _)

theorem advanceBoundaries_ownOnly (rs : List RobotIdx) (s : State) :
    s.path.OwnOnly (advanceBoundaries rs s).path := by
  induction rs generalizing s with
  | nil => exact .refl _
  | cons r rs ih =>
    refine Path.OwnOnly.trans ?_ (ih _)
    unfold advanceBoundary
    split
    · split
      · exact robotBoundary_ownOnly r (s.setRobot r _)
      · exact .refl _
    · exact .refl _

theorem stepBoundaries_ownOnly (old : Nat) (rs : List RobotIdx) (s : State) :
    s.path.OwnOnly (stepBoundaries old rs s).path := by
  induction rs generalizing s with
  | nil => exact .refl _
  | cons r rs ih =>
    refine Path.OwnOnly.trans ?_ (ih _)
    unfold stepBoundary
    split
    · dsimp only
      split
      · exact robotBoundary_ownOnly r (s.setRobot r _)
      · exact .refl _
    · exact .refl _

theorem refclk_ownOnly (s : State) : s.path.OwnOnly (refclk s).path := by
  unfold refclk
  split
  · have h := advanceBoundaries_ownOnly allRobots (advanceMark s.time (advanceCounts s))
    obtain ⟨m, e, f, t, h1⟩ := advanceMark_touches s.time (advanceCounts s)
    rw [show (advanceMark s.time (advanceCounts s)).path = s.path by rw [h1]; rfl] at h
    exact h
  · exact .refl _

end Sys2Proof.Machine
end

