-- ==== Sys2Proof/Laws/Port.lean ====
section
/-! SUPPORT. What joins the own queue and what leaves it: transactions as they are generated, memory's answer of an own transaction,
and the beginning of a fetched command. -/

namespace Sys2Proof.Machine
open Sys2Proof

/-- One transaction generated: it joins, or it goes to the line's end (R13). -/
theorem enqueue_generates (s : State) (t : OwnTxn) : { s with path := s.path.enqueue t } = s.generates [t] := by
  unfold Path.enqueue State.generates
  by_cases hw : s.path.waiting = []
  · by_cases ho : s.path.own.length < 16
    · obtain ⟨k, hk⟩ : ∃ k, 16 - s.path.own.length = k + 1 := ⟨15 - s.path.own.length, by omega⟩
      rw [if_pos ((Path.hasPlace_iff _).2 ⟨ho, hw⟩)]
      simp [hw, hk]
    · have hf : s.path.hasPlace = false := Bool.eq_false_iff.2 fun h => ho ((Path.hasPlace_iff _).1 h).1
      have h0 : 16 - s.path.own.length = 0 := by omega
      simp [hf, hw, h0]
  · have hf : s.path.hasPlace = false := Bool.eq_false_iff.2 fun h => hw ((Path.hasPlace_iff _).1 h).2
    simp [hf, hw]

/-- Transactions generated one list after the other are generated in one. -/
theorem generates_append (s : State) (ts us : List OwnTxn) : (s.generates ts).generates us = s.generates (ts ++ us) := by
  unfold State.generates
  dsimp only
  by_cases hw : s.path.waiting = []
  · by_cases hl : ts.length ≤ 16 - s.path.own.length
    · simp [hw, List.take_append, List.drop_append, List.take_of_length_le hl, List.drop_eq_nil_of_le hl, Nat.sub_add_eq, Nat.add_assoc]
    · have h0 : 16 - s.path.own.length - ts.length = 0 := by omega
      have hd : ¬ ts.length ≤ 16 - s.path.own.length := hl
      simp [hw, List.take_append, List.drop_append, h0, hd, Nat.add_assoc]
  · simp [hw, Nat.add_assoc]

/-- A write generated. -/
theorem makes_one (s : State) (k : OwnKind) (a : Nat) (b : List Byte) : ownWrite k a b s = s.makes [(k, a, b)] :=
  enqueue_generates s _

/-- Two writes generated in a row. -/
theorem makes_two (s : State) (k k' : OwnKind) (a a' : Nat) (b b' : List Byte) :
    ownWrite k' a' b' (ownWrite k a b s) = s.makes [(k, a, b), (k', a', b')] := by
  rw [makes_one _ k, makes_one]
  exact generates_append s _ _

/-- A read generated. -/
theorem makesRead_one (s : State) (k : OwnKind) (a n : Nat) : ownRead k a n s = s.makesRead k a n :=
  enqueue_generates s _

/-- What generating leaves: all but the transaction path. -/
theorem generates_touches (s : State) (ts : List OwnTxn) : ∃ p, s.generates ts = { s with path := p } := ⟨_, rfl⟩

/-- With room for all, all join the own queue. -/
theorem makes_of_room {s : State} {ws : List (OwnKind × Nat × List Byte)} (h : s.ownRoom ws.length) : s.makes ws = s.joined ws := by
  have hl : (ws.mapIdx fun n w => newWrite (s.path.nextId + n) w.1 w.2.1 w.2.2).length ≤ 16 - s.path.own.length := by
    rw [List.length_mapIdx]; have := h.1; omega
  unfold State.makes State.generates State.joined
  simp [h.2, List.take_of_length_le hl, List.drop_eq_nil_of_le hl]

/-- A transaction that goes alone leaves the first choice with both classes waiting to come (R14). -/
theorem lastAfter_alone (p : Path) (c : PortClass) (h : p.bothWait = false) : p.lastAfter c = p.last.map fun _ => c := by
  unfold Path.lastAfter; rw [h, Bool.or_false]; cases p.last <;> rfl

/-- A choice with both classes waiting is remembered (R14). -/
theorem lastAfter_both (p : Path) (c : PortClass) (h : p.bothWait = true) : p.lastAfter c = some c := by
  unfold Path.lastAfter; rw [h, Bool.or_true]; rfl

theorem placeFree_iff (p : Path) : p.placeFree = true ↔ p.own.length < 16 := by
  rw [Path.placeFree, decide_eq_true_eq]; rfl

/-- The transaction that memory can answer is the one found. -/
theorem answerable_eq {s : State} {pre post : List OwnTxn} {w : OwnTxn} (h : s.canBeAnswered pre w post) (want : OwnTxn → Bool)
   (hw : want w = true) (hp : ∀ x ∈ pre, want x = true → x.body ≠ none → False) (hq : ∀ x ∈ pre, x.body = none → want x = true → False) : s.answerable? want = some w := by
  obtain ⟨hr, ho, hpr, hid, hb⟩ := h
  unfold State.answerable?
  rw [if_pos hr, ho, List.find?_append, List.find?_eq_none.2, List.find?_cons_of_pos]
  · rfl
  · rw [hw, Bool.and_true, Path.canAnswer, hpr, Bool.true_and]
    cases hwb : w.body with
    | none => rfl
    | some b =>
      rw [Option.isNone_some, Bool.false_or, decide_eq_true_eq]
      unfold Path.firstWrite?
      rw [ho, List.find?_append, List.find?_eq_none.2, List.find?_cons_of_pos (by simp [hwb])]
      · rfl
      · intro x hx; rw [hb (by simp [hwb]) x hx]; simp
  · intro x hx hc
    rw [Bool.and_eq_true] at hc
    cases hxb : x.body with
    | none => exact hq x hx hxb hc.2
    | some b => exact hp x hx hc.2 (by simp [hxb])

theorem dropOwn_eq {s : State} {pre post : List OwnTxn} {w : OwnTxn} (h : s.canBeAnswered pre w post) : s.dropOwn w = s.withOwn (pre ++ post) := by
  obtain ⟨hr, ho, hpr, hid, hb⟩ := h
  unfold State.dropOwn State.withOwn Path.dropOwn
  rw [ho]
  have : (pre ++ w :: post).filter (fun t => decide (t.id ≠ w.id)) = pre ++ post := by
    rw [List.filter_append, List.filter_cons]
    simp only [ne_eq, not_true_eq_false, decide_false, Bool.false_eq_true, if_false]
    rw [← List.filter_append, List.filter_eq_self]
    intro x hx; simpa using hid x hx
  rw [this]

/-- The outstanding fetch is answered. -/
theorem beginCommand_eq {s : State} {pre post : List OwnTxn} {w : OwnTxn} (h : s.canBeAnswered pre w post) (hk : w.kind = .fetch) (hno : ∀ x ∈ pre, x.kind ≠ .fetch) :
   s.beginCommand? = some ((s.withOwn (pre ++ post)).setPhase (.executing .begun)) := by
  have hf : s.fetchTxn? = some w := by
    unfold State.fetchTxn?
    rw [h.2.1, List.find?_append, List.find?_eq_none.2, List.find?_cons_of_pos (by simp [hk, h.2.2.1])]
    · rfl
    · intro x hx; simp [hno x hx]
  unfold State.beginCommand?
  rw [if_pos h.1, hf]
  have := dropOwn_eq h
  unfold State.dropOwn at this
  simp only [Option.map_some, State.begun]
  have e : s.path.dropOwn w.id = (s.withOwn (pre ++ post)).path := congrArg State.path this
  rw [e]; rfl

theorem beginCommand_of_fetchAnswered {s b : State} (h : s.fetchAnswered b) : s.beginCommand? = some b := by
  obtain ⟨pre, w, post, h1, h2, h3, h4, rfl⟩ := h
  exact beginCommand_eq h1 h2 h4

/-- Memory answers the outstanding fetch with a command. -/
theorem onCommand_of_fetchAnswered {s b : State} (h : s.fetchAnswered b) (act : State → State) : onCommand act s = act b := by
  unfold onCommand
  rw [beginCommand_of_fetchAnswered h]

/-- No other window, robot, clock, tracking, session, fault or reporting state stands in the state in which a fetched
command begins. -/
theorem fetchAnswered_touches {s b : State} (h : s.fetchAnswered b) :
    ∃ p c, b = { s with path := p, cmd := c } ∧ p.inflight = s.path.inflight ∧ p.waiting = s.path.waiting := by
  obtain ⟨pre, w, post, h1, h2, h3, h4, rfl⟩ := h
  exact ⟨_, _, rfl, rfl, rfl⟩

end Sys2Proof.Machine
end

