-- ==== Sys2Proof/Laws/Table.lean ====
section
/-! SUPPORT. The checks of WINDOW LOAD and WINDOW DROP in the terms of the statements (R34 to R37). -/

namespace Sys2Proof.Machine
open Sys2Proof

/-! ## RANGE (R34) -/

theorem winIdx?_eq_some {b : Byte} {i : WinIdx} : winIdx? b = some i ↔ b.toNat = i.val := by
  unfold winIdx?
  split
  · rw [Option.some.injEq]
    constructor
    · rintro rfl; rfl
    · intro h; exact Fin.ext h
  · rename_i h
    simp only [reduceCtorEq, false_iff]
    have := i.isLt
    omega

theorem robotIdx?_eq_some {b : Byte} {r : RobotIdx} : robotIdx? b = some r ↔ b.toNat = r.val := by
  unfold robotIdx?
  split
  · rw [Option.some.injEq]
    constructor
    · rintro rfl; rfl
    · intro h; exact Fin.ext h
  · rename_i h
    simp only [reduceCtorEq, false_iff]
    have := r.isLt
    omega

theorem stamp?_eq_some {b : Byte} {st : Option StampAt} : stamp? b = some st ↔ stampCoded b st := by
  unfold stamp? stampCoded
  split <;> rename_i h
  · simp [h, eq_comm]
  · simp [h, eq_comm]
  · simp [h, eq_comm]
  · simp_all

theorem feedKind?_eq_some {b : Byte} {k : FeedKind} : feedKind? b = some k ↔ kindCoded b k := by
  unfold feedKind? kindCoded
  split <;> rename_i h
  · simp [h, eq_comm]
  · simp [h, eq_comm]
  · simp [h, eq_comm]
  · simp [h, eq_comm]
  · simp_all

theorem mem_allTags (t : Tag) : t ∈ allTags := by revert t; decide

theorem nodup_allTags : allTags.Nodup := by decide

/-- The set of tags has exactly one member. -/
theorem tagsOf_length_one (set : Byte) :
    (tagsOf set).length = 1 ↔ ∃ t : Tag, set.getLsbD t.val = true ∧ ∀ u : Tag, set.getLsbD u.val = true → u = t := by
  have hm : ∀ t : Tag, t ∈ tagsOf set ↔ set.getLsbD t.val = true := by
    intro t
    simp [tagsOf, mem_allTags, inSet]
  constructor
  · intro h
    obtain ⟨t, ht⟩ := List.length_eq_one_iff.1 h
    refine ⟨t, (hm t).1 (by simp [ht]), fun u hu => ?_⟩
    have := (hm u).2 hu
    simpa [ht] using this
  · rintro ⟨t, h1, h2⟩
    have hn : (tagsOf set).Nodup := nodup_allTags.filter _
    have hs : tagsOf set = [t] := by
      have hall : ∀ x ∈ tagsOf set, x = t := fun x hx => h2 x ((hm x).1 hx)
      have ht := (hm t).2 h1
      cases hl : tagsOf set with
      | nil => simp [hl] at ht
      | cons a l =>
        rw [hl] at hall hn
        have ha : a = t := hall a (by simp)
        have : l = [] := by
          cases l with
          | nil => rfl
          | cons c l =>
            have hc : c = t := hall c (by simp)
            simp [ha, hc] at hn
        rw [ha, this]
    rw [hs]; rfl

theorem loadRole?_eq_some {p : LoadParams} {role : Role} :
    loadRole? p = some role ↔
      (p.role.toNat = 1 ∧ p.eligible = false ∧ ∃ st, stampCoded p.stamp st ∧ role = .plain st)
      ∨ (p.role.toNat = 2 ∧ p.stamp.toNat = 0 ∧ role = .guarded p.eligible .production)
      ∨ (p.role.toNat = 3 ∧ p.stamp.toNat = 0
          ∧ ∃ r : RobotIdx, p.robot.toNat = r.val ∧ role = .banked p.eligible .production r p.halfA p.halfB)
      ∨ (p.role.toNat = 4 ∧ p.eligible = false
          ∧ (∃ t : Tag, p.writeSet.getLsbD t.val = true ∧ ∀ u : Tag, p.writeSet.getLsbD u.val = true → u = t)
          ∧ ∃ k st, kindCoded p.feedKind k ∧ stampCoded p.stamp st ∧ role = .feed k st) := by
  have h0 : ∀ st, stamp? p.stamp = some st → (p.stamp.toNat = 0 ↔ st = none) := by
    intro st h
    rcases stamp?_eq_some.1 h with ⟨h1, h2⟩ | ⟨h1, h2⟩ | ⟨h1, h2⟩ <;> simp [h1, h2]
  have hz : p.stamp.toNat = 0 → stamp? p.stamp = some none := fun h => stamp?_eq_some.2 (.inl ⟨h, rfl⟩)
  simp only [← stamp?_eq_some, ← feedKind?_eq_some, ← robotIdx?_eq_some, ← tagsOf_length_one]
  unfold loadRole?
  cases hst : stamp? p.stamp with
  | none =>
    have : p.stamp.toNat ≠ 0 := fun h => by simp [hz h] at hst
    simp [this]
  | some st =>
    have h0 := h0 st hst
    dsimp only
    split
    · rename_i hr
      cases p.eligible <;> simp [hr, eq_comm (b := role)]
    · rename_i hr
      cases st with
      | none => simp [hr, h0.2 rfl, eq_comm (b := role)]
      | some x => simp [hr, mt h0.1]
    · rename_i hr
      cases st with
      | none => cases hb : robotIdx? p.robot <;> simp [hr, h0.2 rfl, eq_comm (b := role)]
      | some x => simp [hr, mt h0.1]
    · rename_i hr
      cases p.eligible <;> cases hk : feedKind? p.feedKind <;> by_cases hl : (tagsOf p.writeSet).length = 1 <;>
        simp [hr, hl, eq_comm (b := role)]
    · rename_i h1 h2 h3 h4
      have h1 : p.role.toNat ≠ 1 := h1
      have h2 : p.role.toNat ≠ 2 := h2
      have h3 : p.role.toNat ≠ 3 := h3
      have h4 : p.role.toNat ≠ 4 := h4
      simp [h1, h2, h3, h4]

theorem extentsFit_iff (w : Window) :
    extentsFit w = true ↔ w.base.toNat + w.size.toNat ≤ 4294967296
      ∧ ∀ e x n ha hb, w.role = .banked e x n ha hb →
          ha.toNat + w.size.toNat ≤ 4294967296 ∧ hb.toNat + w.size.toNat ≤ 4294967296 := by
  unfold extentsFit Window.range Window.halves
  cases hr : w.role with
  | banked e x n ha hb =>
    simp only [List.all_cons, List.all_nil, Bool.and_true, Bool.and_eq_true, decide_eq_true_eq, Role.banked.injEq]
    constructor
    · rintro ⟨h1, h2, h3⟩
      refine ⟨h1, ?_⟩
      rintro _ _ _ _ _ ⟨rfl, rfl, rfl, rfl, rfl⟩
      exact ⟨h2, h3⟩
    · rintro ⟨h1, h2⟩
      exact ⟨h1, h2 _ _ _ _ _ ⟨rfl, rfl, rfl, rfl, rfl⟩⟩
  | _ => simp

theorem sizeInRange_iff (w : Window) :
    sizeInRange w = true ↔ 1 ≤ w.size.toNat ∧ w.size.toNat ≤ 1073741824
      ∧ ∀ e x n ha hb, w.role = .banked e x n ha hb → w.size.toNat ≤ 65536 := by
  unfold sizeInRange
  have h0 : decide (w.size.toNat ≠ 0) = true ↔ 1 ≤ w.size.toNat := by rw [decide_eq_true_eq]; omega
  rw [Bool.and_eq_true, Bool.and_eq_true, h0, decide_eq_true_eq, and_assoc]
  cases hr : w.role with
  | banked e x n ha hb =>
    simp only [decide_eq_true_eq, Role.banked.injEq]
    constructor
    · rintro ⟨h1, h2, h3⟩
      exact ⟨h1, h2, fun _ _ _ _ _ _ => h3⟩
    · rintro ⟨h1, h2, h3⟩
      exact ⟨h1, h2, h3 _ _ _ _ _ ⟨rfl, rfl, rfl, rfl, rfl⟩⟩
  | _ => simp

/-- RANGE of R34. -/
theorem loadWindow?_eq_some {p : LoadParams} {i : WinIdx} {w : Window} :
    loadWindow? p = some (i, w) ↔ describes p i w := by
  unfold loadWindow? describes
  cases hi : winIdx? p.index with
  | none =>
    have : p.index.toNat ≠ i.val := fun h => by simp [winIdx?_eq_some.2 h] at hi
    simp [this]
  | some j =>
    have hj := winIdx?_eq_some.1 hi
    cases hr : loadRole? p with
    | none =>
      simp only [reduceCtorEq, false_iff]
      rintro ⟨-, -, -, -, -, -, -, -, h⟩
      have : loadRole? p = some w.role := by
        rw [loadRole?_eq_some]
        rcases h with h | h | ⟨a, b, -, -, -, c⟩ | h
        · exact .inl h
        · exact .inr (.inl h)
        · exact .inr (.inr (.inl ⟨a, b, c⟩))
        · exact .inr (.inr (.inr h))
      simp [this] at hr
    | some role =>
      dsimp only
      have hrole := loadRole?_eq_some.1 hr
      by_cases hs : (sizeInRange { base := p.base, size := p.size, readSet := p.readSet, writeSet := p.writeSet, role := role }
          && extentsFit { base := p.base, size := p.size, readSet := p.readSet, writeSet := p.writeSet, role := role }) = true
      · rw [if_pos hs, Option.some.injEq, Prod.mk.injEq]
        rw [Bool.and_eq_true, sizeInRange_iff, extentsFit_iff] at hs
        obtain ⟨⟨s1, s2, s3⟩, e1, e2⟩ := hs
        constructor
        · rintro ⟨rfl, rfl⟩
          refine ⟨hj, rfl, rfl, rfl, rfl, s1, s2, e1, ?_⟩
          rcases hrole with h | h | ⟨a, b, r, c, d⟩ | h
          · exact .inl h
          · exact .inr (.inl h)
          · exact .inr (.inr (.inl ⟨a, b, s3 _ _ _ _ _ d, (e2 _ _ _ _ _ d).1, (e2 _ _ _ _ _ d).2, r, c, d⟩))
          · exact .inr (.inr (.inr h))
        · rintro ⟨h1, h2, h3, h4, h5, -, -, -, h⟩
          refine ⟨Fin.ext (by omega), ?_⟩
          have : loadRole? p = some w.role := by
            rw [loadRole?_eq_some]
            rcases h with h | h | ⟨a, b, -, -, -, c⟩ | h
            · exact .inl h
            · exact .inr (.inl h)
            · exact .inr (.inr (.inl ⟨a, b, c⟩))
            · exact .inr (.inr (.inr h))
          rw [hr, Option.some.injEq] at this
          cases w
          simp_all
      · rw [if_neg hs]
        simp only [reduceCtorEq, false_iff]
        rintro ⟨-, -, -, -, -, h1, h2, h3, h⟩
        apply hs
        have : loadRole? p = some w.role := by
          rw [loadRole?_eq_some]
          rcases h with h | h | ⟨a, b, -, -, -, c⟩ | h
          · exact .inl h
          · exact .inr (.inl h)
          · exact .inr (.inr (.inl ⟨a, b, c⟩))
          · exact .inr (.inr (.inr h))
        rw [hr, Option.some.injEq] at this
        subst this
        rw [Bool.and_eq_true, sizeInRange_iff, extentsFit_iff]
        have hb : ∀ e x n ha hb, w.role = .banked e x n ha hb → p.size.toNat ≤ 65536
            ∧ ha.toNat + p.size.toNat ≤ 4294967296 ∧ hb.toNat + p.size.toNat ≤ 4294967296 := by
          intro e x n ha hb hw
          rcases h with ⟨-, -, st, -, h⟩ | ⟨-, -, h⟩ | ⟨-, -, a, b, c, r, -, h⟩ | ⟨-, -, -, k, st, -, -, h⟩
          · simp [h] at hw
          · simp [h] at hw
          · rw [h] at hw
            injection hw with _ _ _ w4 w5
            exact ⟨a, w4 ▸ b, w5 ▸ c⟩
          · simp [h] at hw
        exact ⟨⟨h1, h2, fun e x n ha h' hw => (hb e x n ha h' hw).1⟩, h3, fun e x n ha h' hw => (hb e x n ha h' hw).2⟩

theorem loadWindow?_eq_none {p : LoadParams} (h : ∀ i w, ¬ describes p i w) : loadWindow? p = none := by
  cases hl : loadWindow? p with
  | none => rfl
  | some x => exact absurd (loadWindow?_eq_some.1 (show loadWindow? p = some (x.1, x.2) from hl)) (h _ _)

/-! ## ALIGN (R34) -/

theorem mem_halves {w : Window} {x : Extent} :
    x ∈ w.halves ↔ ∃ h, w.hasHalf h ∧ x = (h.toNat, h.toNat + w.size.toNat) := by
  unfold Window.halves Window.hasHalf
  split
  · rename_i e a n ha hb hr
    simp only [List.mem_cons, List.not_mem_nil, or_false, hr, Role.banked.injEq]
    constructor
    · rintro (h | h)
      · exact ⟨ha, ⟨e, a, n, ha, hb, ⟨rfl, rfl, rfl, rfl, rfl⟩, .inl rfl⟩, h⟩
      · exact ⟨hb, ⟨e, a, n, ha, hb, ⟨rfl, rfl, rfl, rfl, rfl⟩, .inr rfl⟩, h⟩
    · rintro ⟨h, ⟨_, _, _, _, _, ⟨rfl, rfl, rfl, rfl, rfl⟩, rfl | rfl⟩, hx⟩
      · exact .inl hx
      · exact .inr hx
  · rename_i hr
    simp only [List.not_mem_nil, false_iff]
    rintro ⟨h, ⟨e, x, n, ha, hb, hw, -⟩, -⟩
    exact hr _ _ _ _ _ hw

theorem aligned_iff (w : Window) : aligned w = true ↔ ¬ w.misaligned := by
  unfold aligned Window.misaligned
  rw [Bool.and_eq_true, Bool.and_eq_true, decide_eq_true_eq, decide_eq_true_eq, List.all_eq_true]
  simp only [mem_halves, not_or, not_exists, not_and, Decidable.not_not]
  constructor
  · rintro ⟨⟨h1, h2⟩, h3⟩
    refine ⟨h1, h2, fun h hh => ?_⟩
    simpa using h3 _ ⟨h, hh, rfl⟩
  · rintro ⟨h1, h2, h3⟩
    refine ⟨⟨h1, h2⟩, ?_⟩
    rintro _ ⟨h, hh, rfl⟩
    simpa using h3 h hh

/-! ## BOUND and BUSY (R35) -/

theorem bankRobot?_isSome (s : State) (i : WinIdx) :
    (s.bankRobot? i).isSome = true ↔ ∃ r b, s.bound? r = some b ∧ b.bank = i := by
  unfold State.bankRobot?
  rw [List.findSome?_isSome_iff]
  simp only [mem_allRobots, true_and, State.bankRobotAt]
  constructor
  · rintro ⟨r, h⟩
    cases hb : s.bound? r with
    | none => simp [hb] at h
    | some b =>
      refine ⟨r, b, hb, ?_⟩
      by_contra hne
      simp [hb, hne] at h
  · rintro ⟨r, b, h1, h2⟩
    exact ⟨r, by simp [h1, h2]⟩

theorem entryBound_iff (s : State) (i : WinIdx) : s.entryBound i = true ↔ s.boundAt i := by
  unfold State.entryBound State.boundAt
  rw [Bool.or_eq_true, bankRobot?_isSome, List.any_eq_true]
  constructor
  · rintro (⟨r, b, h1, h2⟩ | ⟨r, -, h⟩)
    · exact ⟨r, b, h1, .inl h2⟩
    · cases hb : s.bound? r with
      | none => simp [hb] at h
      | some b => exact ⟨r, b, hb, .inr (by simpa [hb] using h)⟩
  · rintro ⟨r, b, h1, h2 | h2⟩
    · exact .inl ⟨r, b, h1, h2⟩
    · exact .inr ⟨r, mem_allRobots r, by simp [h1, h2]⟩

theorem authority?_eq (s : State) (i : WinIdx) : s.authority? i = (s.loaded? i).bind fun w => w.role.authority? := by
  unfold State.authority?
  cases s.loaded? i with
  | none => rfl
  | some w => cases hr : w.role <;> simp [Role.authority?, hr]

theorem isFeed_iff (s : State) (i : WinIdx) (k : FeedKind) :
    s.isFeed i k = true ↔ ∃ w, s.entry i = .loaded w ∧ w.feedKind? = some k := by
  unfold State.isFeed
  cases hl : s.loaded? i with
  | none =>
    simp only [Bool.false_eq_true, false_iff]
    rintro ⟨w, hw, -⟩
    simp [loaded?_eq_some.2 hw] at hl
  | some w =>
    have := loaded?_eq_some.1 hl
    rw [this]
    simp only [WinState.loaded.injEq, exists_eq_left', Window.feedKind?]
    cases w.role <;> simp

theorem entryBusy_iff (s : State) (i : WinIdx) : s.entryBusy i = true ↔ s.busyAt i := by
  have hsess : s.inSession = true ↔ (s.svc.state = .claimed ∨ s.svc.state = .granted ∨ s.svc.state = .returning) := by
    unfold State.inSession
    cases s.svc.state <;> simp
  unfold State.entryBusy State.busyAt
  rw [Bool.or_eq_true, Bool.or_eq_true, decide_eq_true_eq, decide_eq_true_eq, Bool.and_eq_true, isFeed_iff, hsess,
    authority?_eq]
  cases hl : s.loaded? i with
  | none =>
    have : ∀ v, s.entry i ≠ .loaded v := fun v hv => by simp [loaded?_eq_some.2 hv] at hl
    simp [this]
  | some w =>
    have := loaded?_eq_some.1 hl
    rw [this]
    simp [or_assoc]

/-! ## Overlaps (R36) -/

theorem overlaps_iff (a b : Extent) : overlaps a b = true ↔ ∃ x, (a.1 ≤ x ∧ x < a.2) ∧ b.1 ≤ x ∧ x < b.2 := by
  unfold overlaps
  simp only [Bool.and_eq_true, decide_eq_true_eq]
  constructor
  · rintro ⟨⟨⟨h1, h2⟩, h3⟩, h4⟩
    rcases Nat.le_total a.1 b.1 with h | h
    · exact ⟨b.1, ⟨h, h2⟩, Nat.le_refl _, h4⟩
    · exact ⟨a.1, ⟨Nat.le_refl _, h3⟩, h, h1⟩
  · rintro ⟨x, ⟨h1, h2⟩, h3, h4⟩
    refine ⟨⟨⟨?_, ?_⟩, ?_⟩, ?_⟩ <;> omega

theorem halfHas_iff (w : Window) (a : Nat) : w.halfHas a ↔ ∃ x ∈ w.halves, x.1 ≤ a ∧ a < x.2 := by
  unfold Window.halfHas
  constructor
  · rintro ⟨h, hh, h1, h2⟩
    exact ⟨_, mem_halves.2 ⟨h, hh, rfl⟩, h1, h2⟩
  · rintro ⟨x, hx, h1, h2⟩
    obtain ⟨h, hh, rfl⟩ := mem_halves.1 hx
    exact ⟨h, hh, h1, h2⟩

theorem extents_iff (w : Window) (a : Nat) :
    (∃ x ∈ w.range :: w.halves, x.1 ≤ a ∧ a < x.2) ↔ w.rangeHas a ∨ w.halfHas a := by
  rw [halfHas_iff]
  simp [Window.rangeHas, Window.range]

theorem overlapControl_iff (s : State) (w : Window) : overlapControl s w = true ↔ s.overlapsArea w := by
  unfold overlapControl State.overlapsArea
  simp only [List.any_eq_true, overlaps_iff, ← extents_iff]
  have harea : ∀ x, (s.areaRange.1 ≤ x ∧ x < s.areaRange.2) ↔ s.areaHas x := by
    intro x
    unfold State.areaRange State.areaHas areaSize
    dsimp only
    rw [Nat.add_comm]
  simp only [harea]
  constructor
  · rintro ⟨x, hx, a, h1, h2⟩
    exact ⟨a, ⟨x, hx, h2⟩, h1⟩
  · rintro ⟨a, ⟨x, hx, h2⟩, h1⟩
    exact ⟨x, hx, a, h1, h2⟩

theorem hidesBeside_iff (s : State) (i : WinIdx) (a : Nat) :
    s.hidesBeside i a ↔ ∃ x ∈ s.hiddenOthers i, x.1 ≤ a ∧ a < x.2 := by
  unfold State.hidesBeside State.hiddenOthers
  simp only [List.mem_flatMap, List.mem_filter, mem_allWindows, true_and, decide_eq_true_eq, ne_eq]
  constructor
  · rintro ⟨j, v, hj, hv, ha⟩
    obtain ⟨x, hx, h⟩ := (halfHas_iff v a).1 ha
    refine ⟨x, ⟨j, hj, ?_⟩, h⟩
    rcases hv with hv | ⟨n, hv⟩ <;> rw [hv] <;> exact hx
  · rintro ⟨x, ⟨j, hj, hx⟩, h⟩
    cases he : s.entry j with
    | empty => rw [he] at hx; simp [WinState.hidden, WinState.contents?] at hx
    | loaded v => rw [he] at hx; exact ⟨j, v, hj, .inl he, (halfHas_iff v a).2 ⟨x, hx, h⟩⟩
    | draining v n => rw [he] at hx; exact ⟨j, v, hj, .inr ⟨n, he⟩, (halfHas_iff v a).2 ⟨x, hx, h⟩⟩

theorem mem_rangesOthers (s : State) (i : WinIdx) (x : Extent) :
    x ∈ s.rangesOthers i ↔ ∃ j v, j ≠ i ∧ s.entry j = .loaded v ∧ x = v.range := by
  unfold State.rangesOthers
  simp only [List.mem_filterMap, List.mem_filter, mem_allWindows, true_and, decide_eq_true_eq, ne_eq, Option.map_eq_some_iff,
    loaded?_eq_some]
  constructor
  · rintro ⟨j, hj, v, hv, rfl⟩
    exact ⟨j, v, hj, hv, rfl⟩
  · rintro ⟨j, v, hj, hv, rfl⟩
    exact ⟨j, hj, v, hv, rfl⟩

theorem hiddenOverlap_iff (s : State) (i : WinIdx) (w : Window) : hiddenOverlap s i w = true ↔ s.overlapsHidden i w := by
  unfold hiddenOverlap State.overlapsHidden
  have h1 : ((w.range :: w.halves).any fun x => (s.hiddenOthers i).any (overlaps x)) = true
      ↔ ∃ a, (w.rangeHas a ∨ w.halfHas a) ∧ s.hidesBeside i a := by
    simp only [List.any_eq_true, overlaps_iff, ← extents_iff, hidesBeside_iff]
    constructor
    · rintro ⟨x, hx, y, hy, a, ha, hb⟩
      exact ⟨a, ⟨x, hx, ha⟩, y, hy, hb⟩
    · rintro ⟨a, ⟨x, hx, ha⟩, y, hy, hb⟩
      exact ⟨x, hx, y, hy, a, ha, hb⟩
  have h2 : (w.halves.any fun h => (s.rangesOthers i).any (overlaps h)) = true
      ↔ ∃ a, w.halfHas a ∧ ∃ j v, j ≠ i ∧ s.entry j = .loaded v ∧ v.rangeHas a := by
    simp only [List.any_eq_true, overlaps_iff, halfHas_iff, mem_rangesOthers]
    constructor
    · rintro ⟨x, hx, y, ⟨j, v, hj, hv, rfl⟩, a, ha, hb⟩
      exact ⟨a, ⟨x, hx, ha⟩, j, v, hj, hv, hb⟩
    · rintro ⟨a, ⟨x, hx, ha⟩, j, v, hj, hv, hb⟩
      exact ⟨x, hx, v.range, ⟨j, v, hj, hv, rfl⟩, a, ha, hb⟩
  have h3 : w.halves.any (overlaps w.range) = true ↔ ∃ a, w.halfHas a ∧ w.rangeHas a := by
    simp only [List.any_eq_true, overlaps_iff, halfHas_iff]
    constructor
    · rintro ⟨x, hx, a, ha, hb⟩
      exact ⟨a, ⟨x, hx, hb⟩, ha⟩
    · rintro ⟨a, ⟨x, hx, hb⟩, ha⟩
      exact ⟨x, hx, a, ha, hb⟩
  have h4 : w.halvesMeet = true ↔ ∃ (a : Nat) (e : Bool) (x : Authority) (n : RobotIdx) (ha hb : Addr),
         w.role = .banked e x n ha hb ∧ (ha.toNat ≤ a ∧ a < ha.toNat + w.size.toNat)
           ∧ (hb.toNat ≤ a ∧ a < hb.toNat + w.size.toNat) := by
    unfold Window.halvesMeet
    cases hr : w.role with
    | banked e x n ha hb =>
      simp only [overlaps_iff, Role.banked.injEq]
      constructor
      · rintro ⟨a, h, h'⟩
        exact ⟨a, e, x, n, ha, hb, ⟨rfl, rfl, rfl, rfl, rfl⟩, h, h'⟩
      · rintro ⟨a, _, _, _, _, _, ⟨rfl, rfl, rfl, rfl, rfl⟩, h, h'⟩
        exact ⟨a, h, h'⟩
    | _ => simp
  rw [Bool.or_eq_true, Bool.or_eq_true, Bool.or_eq_true, h1, h2, h3, h4, or_assoc, or_assoc]
  simp only [exists_or]

/-! ## LIMIT (R37) -/

theorem feedLimitReached_iff (s : State) (i : WinIdx) (w : Window) :
    feedLimitReached s i w = true ↔ s.feedsFull i w := by
  have hall : allWindows.Nodup := by decide
  have key : ∀ (k : FeedKind) (n : Nat),
      n ≤ (allWindows.filter fun j => decide (j ≠ i) && s.isFeed j k).length
        ↔ ∃ l : List WinIdx, l.Nodup ∧ l.length = n
            ∧ ∀ j ∈ l, j ≠ i ∧ ∃ v, s.entry j = .loaded v ∧ v.feedKind? = some k := by
    intro k n
    have hm : ∀ j, j ∈ (allWindows.filter fun j => decide (j ≠ i) && s.isFeed j k)
        ↔ j ≠ i ∧ ∃ v, s.entry j = .loaded v ∧ v.feedKind? = some k := by
      intro j
      rw [List.mem_filter, Bool.and_eq_true, isFeed_iff, decide_eq_true_eq]
      simp [mem_allWindows]
    constructor
    · intro h
      refine ⟨(allWindows.filter fun j => decide (j ≠ i) && s.isFeed j k).take n,
        (hall.filter _).sublist (List.take_sublist _ _), by rw [List.length_take]; omega, fun j hj => ?_⟩
      exact (hm j).1 (List.mem_of_mem_take hj)
    · rintro ⟨l, h1, rfl, h3⟩
      exact (h1.subperm fun j hj => (hm j).2 (h3 j hj)).length_le
  unfold feedLimitReached State.feedsFull Window.feedKind?
  cases hr : w.role with
  | feed k st =>
    simp only [decide_eq_true_eq, Option.some.injEq]
    rw [key]
    constructor
    · intro h
      refine ⟨k, feedLimit k, rfl, ?_, h⟩
      cases k <;> simp [feedLimit]
    · rintro ⟨_, n, rfl, hn, h⟩
      have : feedLimit k = n := by
        cases k <;> simp at hn <;> simp [feedLimit, hn]
      rw [this]
      exact h
  | _ => simp

end Sys2Proof.Machine
end

