-- ==== Sys2Proof/Laws/Admission.lean ====
section
/-! SUPPORT. A link request step by step: when it is taken, which checks it reaches, and what admits it (R22 to R33). -/

namespace Sys2Proof.Machine
open Sys2Proof

/-- A link request always completes. -/
theorem exec_linkRequest (r : LinkRequest) (s : State) : exec (.linkRequest r) s = .next (linkRequestAct r s) := rfl

theorem malformed_iff (r : LinkRequest) : malformed r = true ↔ badForm r := by
  simp only [malformed, Bool.or_eq_true, Bool.and_eq_true, decide_eq_true_eq, Bool.not_eq_true', List.any_eq_false,
    List.mem_range, or_assoc, Bool.not_eq_true]
  simp only [badForm, spanFirst, spanLast, spanLen, enabledAt, ne_eq]

theorem readableOffset_iff (o : Nat) : readableOffset o = true ↔ hostReadable o := by
  simp [readableOffset, hostReadable, or_assoc]

theorem writableOffset_iff (o : Nat) : writableOffset o = true ↔ hostWritable o := by
  simp [writableOffset, hostWritable, or_assoc]

/-- A request that is taken is decided by the checks (R22). -/
theorem linkRequest_taken {s : State} {r : LinkRequest} (h : s.takes r) : linkRequestAct r s = decideRequest r s := by
  obtain ⟨h1, h2, h3, h4⟩ := h
  simp [linkRequestAct, h1, h3, h4, Config.tagLimit, Nat.not_le.2 h2]

/-- A request that the control area admits (R23). -/
theorem linkRequest_area {s : State} {r : LinkRequest} (ht : s.takes r) (h0 : r.tag = 0) (hall : ∀ a, r.covers a → s.areaHas a)
   (hreg : (r.dir = .read ∧ ∀ a, r.covers a → readableOffset (a - s.areaBase) = true)
      ∨ (r.dir = .write ∧ (∀ a, r.covers a → writableOffset (a - s.areaBase) = true))) :
   linkRequestAct r s = areaRequest r s := by
  have hm := ht.2.2.1
  have hb := (wellFormed_span hm).1
  have hc : r.covers r.addr.toNat := ⟨le_refl _, by omega⟩
  have hia := (inArea_iff (s := s) hm).2 ⟨_, hc, hall _ hc⟩
  rw [linkRequest_taken ht]; unfold decideRequest checkRequest checkArea; rw [if_pos hia, if_pos]
  refine ⟨h0, ?_⟩
  simp only [areaAdmits, List.all_eq_true]
  intro x hx
  have hx := (mem_spanBytes r x).1 hx
  rcases hreg with ⟨h, h'⟩ | ⟨h, h'⟩ <;> simp [h, h' x hx]

/-- A taken request outside the control area: the hidden ranges, then the governing window. -/
theorem linkRequest_outside {s : State} {r : LinkRequest} (ht : s.takes r) (ho : s.outsideArea r) :
    linkRequestAct r s = match (if touchesHidden s r then .refuse .hidden .nothing else checkGoverning s r : CheckResult) with
  | .refuse k checked => refuseRequest k checked r s
  | .area             => areaRequest r s
  | .unwindowed       => forwardRequest .nothing none false r.addr r r.data r.enables s
  | .window i w       =>
    match s.bank? i with
    | some k => bankRequest i w k r s
    | none   => windowRequest i w r s := by
  rw [linkRequest_taken ht]; unfold decideRequest checkRequest; rw [inArea_eq_false ht.2.2.1 ho]; rfl

/-- A taken request outside the control area and the hidden ranges is judged by its governing window. -/
theorem linkRequest_unhidden {s : State} {r : LinkRequest} (ht : s.takes r) (ho : s.outsideArea r) (hh : ∀ a, r.covers a → ¬ s.hides a) :
    linkRequestAct r s = match checkGoverning s r with
  | .refuse k checked => refuseRequest k checked r s
  | .area             => areaRequest r s
  | .unwindowed       => forwardRequest .nothing none false r.addr r r.data r.enables s
  | .window i w       =>
    match s.bank? i with
    | some k => bankRequest i w k r s
    | none   => windowRequest i w r s := by
  rw [linkRequest_outside ht ho, touchesHidden_eq_false ht.2.2.1 hh]; rfl

/-- Tag 0 under OPEN (R26). -/
theorem openTagZero_iff (s : State) (r : LinkRequest) : openTagZero s r = true ↔ s.exempt r := by
  simp [openTagZero, State.exempt]

/-- The governing window of a byte is the one the search finds. -/
theorem governor_of_governs {s : State} {i : WinIdx} {w : Window} {a : Nat} (h : s.governs i w a) : s.governor? a = some i :=
  governor?_eq_some.2 ⟨w, h⟩

/-- The span's bytes before one of them have lower addresses. -/
theorem spanBytes_split (r : LinkRequest) (a : Nat) (ha : r.covers a) : ∃ l₁ l₂, spanBytes r = l₁ ++ a :: l₂ ∧ ∀ x ∈ l₁, x < a ∧ r.covers x := by
  refine ⟨(List.range (a - r.addr.toNat)).map (r.addr.toNat + ·), (List.range (r.addr.toNat + 8 * r.beats.val - a - 1)).map (a + 1 + ·), ?_, ?_⟩
  · apply List.ext_getElem
    · simp [spanBytes, spanLen]; simp only [LinkRequest.covers] at ha; omega
    · intro k h1 h2
      simp only [LinkRequest.covers] at ha
      simp only [spanBytes, List.getElem_map, List.getElem_range, spanFirst, List.getElem_append, List.length_map, List.length_range, List.getElem_cons]
      split
      · rfl
      · split <;> omega
  · simp only [List.mem_map, List.mem_range, LinkRequest.covers] at *
    rintro x ⟨k, hk, rfl⟩; omega

/-- A request that reaches step 5 is judged by steps 5 to 8. -/
theorem linkRequest_reaches {s : State} {r : LinkRequest} {i : WinIdx} {w : Window} (h : s.reaches r i w) :
    linkRequestAct r s = match checkWindow s i w r with
  | .refuse k checked => refuseRequest k checked r s
  | .area             => areaRequest r s
  | .unwindowed       => forwardRequest .nothing none false r.addr r r.data r.enables s
  | .window i w       =>
    match s.bank? i with
    | some k => bankRequest i w k r s
    | none   => windowRequest i w r s := by
  obtain ⟨ht, ho, hh, hg⟩ := h
  have hm := wellFormed_span ht.2.2.1
  have hc : r.covers r.addr.toNat := ⟨le_refl _, by omega⟩
  obtain ⟨l₁, l₂, hl, hx⟩ := spanBytes_split r _ hc
  have h1 : (governors s r).findSome? id = some i := by
    have : l₁ = [] := by
      cases l₁ with
      | nil => rfl
      | cons x xs => have := hx x (by simp); simp only [LinkRequest.covers] at this; omega
    subst this
    simp [governors, hl, governor_of_governs (hg _ hc)]
  have h2 : (governors s r).all (· == some i) = true := by
    simp only [List.all_eq_true, governors, List.mem_map]
    rintro y ⟨a, ha, rfl⟩
    rw [governor_of_governs (hg a ((mem_spanBytes r a).1 ha))]; simp
  rw [linkRequest_unhidden ht ho hh]
  unfold checkGoverning
  rw [h1]; dsimp only; rw [if_pos h2, loaded?_eq_some.2 (hg _ hc).1]

/-- The bank-word check (R31). -/
theorem coversBankWord_iff (w : Window) (r : LinkRequest) : coversBankWord w r = true ↔ (r.dir = .write ∧ (∃ e x n ha hb, w.role = .banked e x n ha hb) ∧ r.addr.toNat < w.base.toNat + 8) := by
  unfold coversBankWord
  cases w.role <;> simp

/-- The role's own refusals (R31, R33). -/
theorem roleWrites_iff {s : State} {r : LinkRequest} {i : WinIdx} {w : Window} (h : s.reaches r i w) :
   (readerTagWrite s i r || replySlotWrite w r) = true ↔ (r.dir = .write ∧ ((∃ n b, s.bankRobot? i = some (n, b) ∧ r.tag = b.reader)
      ∨ (w.feedKind? = some .service ∧ ∃ a, r.covers a ∧ w.base.toNat + w.size.toNat - 32 ≤ a))) := by
  have hm := wellFormed_span h.1.2.2.1
  have hc : r.covers r.addr.toNat := ⟨le_refl _, by omega⟩
  have hz := (h.2.2.2 _ hc).2.1
  rw [Bool.or_eq_true, and_or_left]
  apply or_congr
  · unfold readerTagWrite
    cases s.bankRobot? i with
    | none => simp
    | some p => obtain ⟨n, b⟩ := p; simp
  · unfold replySlotWrite
    rw [Bool.and_eq_true, Bool.and_eq_true, decide_eq_true_eq, decide_eq_true_eq, touches_iff hm.1, and_assoc]
    apply and_congr_right; intro _; apply and_congr_right; intro _
    constructor
    · rintro ⟨a, h1, h2, h3⟩; exact ⟨a, h1, h2⟩
    · rintro ⟨a, h1, h2⟩; exact ⟨a, h1, h2, (h.2.2.2 a h1).2.1.2⟩

/-- The rights check (R27). -/
theorem rightsPass_iff (s : State) (w : Window) (r : LinkRequest) : rightsPass s w r = true ↔ s.hasRights w r := by
  unfold rightsPass State.hasRights
  rw [Bool.or_eq_true, openTagZero_iff]
  cases hd : r.dir <;> simp [inSet]

/-- The authority check of a write (R28). -/
theorem authorityPass_iff (w : Window) (r : LinkRequest) (hd : r.dir = .write) : authorityPass w r = true ↔ w.authorizes r.tag := by
  unfold authorityPass Window.authorizes
  rw [hd]
  cases w.role.authority? with
  | none => simp
  | some a => cases a <;> simp [Authority.admits]

/-- The authority check passes for an admitted request. -/
theorem authorityPass_of (w : Window) (r : LinkRequest) (h : r.dir = .write → w.authorizes r.tag) : authorityPass w r = true := by
  cases hd : r.dir with
  | write => exact (authorityPass_iff w r hd).2 (h hd)
  | read => unfold authorityPass; rw [hd]

/-- A request that passes every check is an admitted request to its window. -/
theorem linkRequest_admitted {s : State} {r : LinkRequest} {i : WinIdx} {w : Window} (hre : s.reaches r i w) 
   (h1 : ¬ (r.dir = .write ∧ (∃ e x n ha hb, w.role = .banked e x n ha hb) ∧ r.addr.toNat < w.base.toNat + 8))
   (h2 : ¬ (r.dir = .write ∧ ((∃ n b, s.bankRobot? i = some (n, b) ∧ r.tag = b.reader)
      ∨ (w.feedKind? = some .service ∧ ∃ a, r.covers a ∧ w.base.toNat + w.size.toNat - 32 ≤ a))))
   (h3 : s.hasRights w r) (h4 : r.dir = .write → w.authorizes r.tag) :
   linkRequestAct r s = match s.bank? i with
    | some k => bankRequest i w k r s
    | none   => windowRequest i w r s := by
  rw [linkRequest_reaches hre]; unfold checkWindow
  rw [← coversBankWord_iff] at h1
  rw [← roleWrites_iff hre] at h2
  rw [← rightsPass_iff] at h3
  rw [if_neg h1, if_neg h2, if_neg (by simpa using h3), if_neg (by simpa using authorityPass_of w r h4)]

/-- The governing window is LOADED. -/
theorem loaded_of_reaches {s : State} {r : LinkRequest} {i : WinIdx} {w : Window} (h : s.reaches r i w) : s.loaded? i = some w := by
  have hm := wellFormed_span h.1.2.2.1
  exact loaded?_eq_some.2 (h.2.2.2 r.addr.toNat ⟨le_refl _, by omega⟩).1

end Sys2Proof.Machine
end

