-- ==== Sys2Proof/Laws/Bank.lean ====
section
/-! SUPPORT. A bank's halves, its bank word and its catch-up copy in the terms of the statements (R97, R102 to R104). -/

namespace Sys2Proof.Machine
open Sys2Proof

theorem bank?_of_bankAt {s : State} {i : WinIdx} {halfA halfB size : Nat} (h : s.bankAt i halfA halfB size) :
    ∃ k, s.bank? i = some k ∧ k.half .a = halfA ∧ k.half .b = halfB ∧ k.size = size ∧ 64 ≤ size := by
  obtain ⟨w, e, x, n, ha, hb, hw, hr, rfl, rfl, rfl, h64⟩ := h
  refine ⟨{ size := w.size.toNat, halfA := ha, halfB := hb }, ?_, rfl, rfl, rfl, h64⟩
  unfold State.bank?
  rw [loaded?_eq_some.2 hw]
  dsimp only
  rw [hr]

theorem half_of_bankAt {s : State} {i : WinIdx} {halfA halfB size : Nat} (h : s.bankAt i halfA halfB size) (x : Half) :
    ∃ k, s.bank? i = some k ∧ k.half x = (if x = .a then halfA else halfB) ∧ k.size = size ∧ 64 ≤ size := by
  obtain ⟨k, h1, h2, h3, h4, h5⟩ := bank?_of_bankAt h
  refine ⟨k, h1, ?_, h4, h5⟩
  cases x
  · exact h2
  · exact h3

theorem bankWordBytes_eq (q : BitVec 16) (n : Nat) (v : Bool) (t : BitVec 32) :
    bankWordBytes q n v t = bankWord q n v t.toNat := by
  unfold bankWordBytes bankWord
  cases v <;> simp [b1, bit]

theorem lowTime_toNat (s : State) : s.lowTime.toNat = s.clk.ns.toNat % 4294967296 := by
  simp [State.lowTime]

theorem lowTime_eq (s : State) : s.lowTime = BitVec.ofNat 32 s.clk.ns.toNat := by
  apply BitVec.eq_of_toNat_eq
  rw [lowTime_toNat]
  simp

/-- The bank word's write is generated. -/
theorem writeBankWord_makes {s : State} {i : WinIdx} {halfA halfB size : Nat} (h : s.bankAt i halfA halfB size)
    (kind : OwnKind) (x : Half) (body : List Byte) :
    writeBankWord kind i x body s = s.makes [(kind, if x = .a then halfA else halfB, body)] := by
  obtain ⟨k, h1, h2, -, -⟩ := half_of_bankAt h x
  unfold writeBankWord
  rw [h1]
  dsimp only
  rw [h2, makes_one]

/-- The read of a piece of the copy is generated. -/
theorem copyReadAt_makes {s : State} {r : RobotIdx} {b : Bound} {halfA halfB size : Nat} (hb : s.bound? r = some b)
    (h : s.bankAt b.bank halfA halfB size) (offset : Nat) (hlt : offset < size) :
    copyReadAt r offset s
      = let half := if b.published = .a then halfA else halfB
        s.makesRead (.copyRead r offset (pieceLen half size offset)) (half + offset) (pieceLen half size offset) := by
  obtain ⟨k, h1, h2, h3, -⟩ := half_of_bankAt h b.published
  unfold copyReadAt
  rw [hb]
  dsimp only
  rw [h1]
  dsimp only
  rw [h2, h3, if_pos hlt, makesRead_one]
  rfl

theorem copyReadAt_end {s : State} {r : RobotIdx} {b : Bound} {halfA halfB size : Nat} (hb : s.bound? r = some b)
    (h : s.bankAt b.bank halfA halfB size) (offset : Nat) (hle : size ≤ offset) : copyReadAt r offset s = s := by
  obtain ⟨k, h1, -, h3, -⟩ := half_of_bankAt h b.published
  unfold copyReadAt
  rw [hb]
  dsimp only
  rw [h1]
  dsimp only
  rw [h3, if_neg (by omega)]

theorem readerReadInFlight_iff (s : State) (b : Bound) : readerReadInFlight s b = true ↔ s.readerReads b := by
  unfold readerReadInFlight State.readerReads Entry.uses
  simp [and_assoc]

/-- What a flip waits for (R102). -/
theorem delaysFlip_iff (s : State) (b : Bound) :
    (s.path.inflight.all fun e => !e.delaysFlip b) = true ↔ ¬ s.flipWaits b := by
  unfold State.flipWaits State.readerReads Entry.uses Entry.delaysFlip
  simp only [List.all_eq_true, Bool.not_eq_true', Bool.or_eq_false_iff, not_or, not_exists, not_and]
  constructor
  · intro h
    refine ⟨fun e he h1 h2 h3 => ?_, fun e he h1 h2 h3 h4 => ?_⟩
    · have := (h e he).1; simp [h1, h2, h3] at this
    · have := (h e he).2; simp [h1, h2, h3, h4] at this
  · rintro ⟨g1, g2⟩ e he
    refine ⟨?_, ?_⟩
    · rw [Bool.eq_false_iff]; intro h
      simp only [Bool.and_eq_true, decide_eq_true_eq] at h
      exact g1 e he h.1.1 h.1.2 h.2
    · rw [Bool.eq_false_iff]; intro h
      simp only [Bool.and_eq_true, decide_eq_true_eq] at h
      exact g2 e he h.1.1.1 h.1.2 h.1.1.2 h.2

theorem flipReady_iff {s : State} {r : RobotIdx} {b : Bound} (hb : s.bound? r = some b) (hf : b.publish = .flipping)
    (hn : b.newFlipTime = none) : flipReady s r = true ↔ ¬ s.flipWaits b := by
  unfold flipReady
  rw [hb]
  dsimp only
  rw [← delaysFlip_iff]
  simp [hf, hn]

theorem setRobot_twice (s : State) (r : RobotIdx) (x y : Option Bound) : (s.setRobot r x).setRobot r y = s.setRobot r y := by
  unfold State.setRobot
  simp

theorem modifyRobot_eq {s : State} {r : RobotIdx} {b : Bound} (hb : s.bound? r = some b) (f : Bound → Bound) :
    s.modifyRobot r f = s.setRobot r (some (f b)) := by
  unfold State.modifyRobot
  rw [hb]

end Sys2Proof.Machine
end

