-- ==== Sys2Proof/Laws/Advance.lean ====
section
/-! SUPPORT. One advance of elapsed time and machine time, in numbers (R59, R60). -/

namespace Sys2Proof.Machine
open Sys2Proof

theorem ns_bits (x : Nat) (h : x < 2 ^ 96) : (BitVec.ofNat 96 x).extractLsb' 32 64 = BitVec.ofNat 64 (x / 4294967296) := by
  apply BitVec.eq_of_toNat_eq
  rw [BitVec.extractLsb'_toNat, BitVec.toNat_ofNat, BitVec.toNat_ofNat, Nat.shiftRight_eq_div_pow, Nat.mod_eq_of_lt h]

theorem frac_bits (x : Nat) (h : x < 2 ^ 96) : (BitVec.ofNat 96 x).setWidth 32 = BitVec.ofNat 32 x := by
  apply BitVec.eq_of_toNat_eq
  rw [BitVec.toNat_setWidth, BitVec.toNat_ofNat, BitVec.toNat_ofNat, Nat.mod_eq_of_lt h]

theorem ns_toNat (x : Nat) (h : x < 2 ^ 96) : (BitVec.ofNat 64 (x / 4294967296)).toNat = x / 4294967296 := by
  rw [BitVec.toNat_ofNat, Nat.mod_eq_of_lt]
  rw [Nat.div_lt_iff_lt_mul (by decide), show (4294967296 : Nat) = 2 ^ 32 from rfl, ← pow_add]
  exact h

/-- One advance before the end of machine time. -/
theorem advanceCounts_eq (s : State) (h : s.clk.units + s.clk.increment < 2 ^ 96) :
    advanceCounts s = { s with clk := { s.clk with
      elapsed := s.clk.elapsed + 8, ns := BitVec.ofNat 64 ((s.clk.units + s.clk.increment) / 4294967296),
      frac := BitVec.ofNat 32 (s.clk.units + s.clk.increment) } } := by
  unfold advanceCounts Clock.advanced
  rw [if_pos h, if_pos h]
  dsimp only
  rw [ns_bits _ h, frac_bits _ h]
  rfl

end Sys2Proof.Machine
end

