-- ==== Sys2Proof/Laws/Reporting.lean ====
section
/-! SUPPORT. The own writes as they join the own queue, the answers of memory, the arbiter and the responses, and the fault table under FAULT CLEAR. -/

namespace Sys2Proof.Machine
open Sys2Proof

theorem units_split (x : Nat) (h : x < 2 ^ 96) : (BitVec.extractLsb' 32 64 (BitVec.ofNat 96 x)).toNat * 2 ^ 32 + ((BitVec.ofNat 96 x).setWidth 32).toNat = x := by
  rw [BitVec.extractLsb'_toNat, BitVec.toNat_setWidth, BitVec.toNat_ofNat, Nat.shiftRight_eq_div_pow, Nat.mod_eq_of_lt h, Nat.mod_eq_of_lt, Nat.mul_comm, Nat.div_add_mod]
  rw [Nat.div_lt_iff_lt_mul (Nat.two_pow_pos 32), ← pow_add]; exact h

theorem postCreations_eq (n : Fin 8) (cs : List Creation) (s : State) : postCreations n cs s = (cs.filter fun c => decide (c.record = n)).foldl
        (fun u c => postNotice (.faultNew n c.kind c.tag c.window) u) s := by
  induction cs generalizing s with
  | nil => rfl
  | cons c cs ih =>
    unfold postCreations
    by_cases h : c.record = n
    · simp [h, ih]
    · simp [h, ih]

theorem nextOwn_none (p : Path) (h : ∀ x ∈ p.own, x.presented = true) : p.nextOwn? = none := by
  unfold Path.nextOwn?; rw [List.find?_eq_none]; intro x hx; simp [h x hx]

theorem nextOwn_some (p : Path) (pre w post) (h : p.own = pre ++ w :: post) (h1 : ∀ x ∈ pre, x.presented = true) (h2 : w.presented = false) : p.nextOwn? = some w := by
  unfold Path.nextOwn?; rw [h, List.find?_append, List.find?_eq_none.2, List.find?_cons_of_pos (by simp [h2])]
  · rfl
  · intro x hx; simp [h1 x hx]

theorem markPresented_append (pre : List OwnTxn) (w post) (h1 : ∀ x ∈ pre, x.presented = true) (h2 : w.presented = false) : markPresented (pre ++ w :: post) = pre ++ { w with presented := true } :: post := by
  induction pre with
  | nil => simp [markPresented, h2]
  | cons x xs ih =>
    rw [List.cons_append, markPresented, if_pos (h1 x (by simp)), ih (fun y hy => h1 y (by simp [hy]))]; rfl

theorem giveReady_skip (t : Tag) (l r : List Entry) (h : ∀ x ∈ l, x.tag ≠ t) : giveReady t (l ++ r) = (l ++ (giveReady t r).1, (giveReady t r).2) := by
  induction l with
  | nil => simp
  | cons x xs ih =>
    rw [List.cons_append, giveReady, if_neg (h x (by simp)), ih (fun y hy => h y (by simp [hy]))]; rfl

theorem giveReady_none (t : Tag) (l : List Entry) (h : ∀ x ∈ l, x.tag = t → x.answered = false) : giveReady t l = (l, []) := by
  induction l with
  | nil => rfl
  | cons x xs ih =>
    unfold giveReady
    split
    · rename_i hx; rw [h x (by simp) hx]; rfl
    · rw [ih (fun y hy => h y (by simp [hy]))]

theorem runCommand_of_fetchAnswered {s : State} {pre post : List OwnTxn} {w : OwnTxn} (h : s.canBeAnswered pre w post) (hk : w.kind = .fetch) (hno : ∀ x ∈ pre, x.kind ≠ .fetch) :
   s.beginCommand? = some ((s.withOwn (pre ++ post)).setPhase (.executing .begun)) := by
  have hf : s.fetchTxn? = some w := by
    unfold State.fetchTxn?
    rw [h.2.1, List.find?_append, List.find?_eq_none.2, List.find?_cons_of_pos (by simp [hk, h.2.2.1])]
    · rfl
    · intro x hx; simp [hno x hx]
  unfold State.beginCommand?
  rw [if_pos h.1, hf]
  have := dropOwn_eq h
  unfold State.dropOwn at this
  simp only [Option.map_some, State.begun]
  have e : s.path.dropOwn w.id = (s.withOwn (pre ++ post)).path := congrArg State.path this
  rw [e]; rfl

theorem byte_le_one (b : Byte) : b.toNat ≤ 1 ↔ b = 0 ∨ b = 1 := by
  constructor
  · intro h
    rcases (by omega : b.toNat = 0 ∨ b.toNat = 1) with h | h
    · left; exact BitVec.eq_of_toNat_eq h
    · right; exact BitVec.eq_of_toNat_eq h
  · rintro (rfl | rfl) <;> decide

theorem FaultUnit.freeRecord_touches (u : FaultUnit) (n : Fin 8) :
   (∀ m : Fin 8, (u.freeRecord n).records[m] = if m = n then none else u.records[m]) ∧ (u.freeRecord n).overflow = u.overflow
   ∧ (u.freeRecord n).created = u.created ∧ (u.freeRecord n).marks = u.marks ++ [n].filter (fun n => u.records[n].isSome && decide (n ∉ u.marks)) := by
  unfold FaultUnit.freeRecord
  have hv : ∀ m : Fin 8, (u.records.set n.val none n.isLt)[m] = if m = n then none else u.records[m] := by
    intro m
    by_cases hm : m = n
    · subst hm; simp
    · have : n.val ≠ m.val := fun x => hm (Fin.ext x.symm)
      simp [this, hm]
  split
  · rename_i hs
    unfold FaultUnit.mark
    split
    · rename_i hm; refine ⟨hv, rfl, rfl, ?_⟩; simp at hm; simp [hm]
    · rename_i hm; refine ⟨hv, rfl, rfl, ?_⟩; simp at hm hs; simp [hm, hs]
  · rename_i hs
    simp at hs
    refine ⟨fun m => ?_, rfl, rfl, by simp [hs]⟩
    split
    · rename_i hm; subst hm; simpa using hs
    · rfl

theorem FaultUnit.freeAll_touches (set : Byte) (l : List (Fin 8)) (hn : l.Nodup) (u : FaultUnit) :
   (∀ m : Fin 8, (FaultUnit.freeAll set l u).records[m] = if m ∈ l ∧ set.getLsbD m.val = true then none else u.records[m]) ∧ (FaultUnit.freeAll set l u).overflow = u.overflow
   ∧ (FaultUnit.freeAll set l u).created = u.created ∧ (FaultUnit.freeAll set l u).marks = u.marks ++ l.filter (fun n => set.getLsbD n.val && u.records[n].isSome && decide (n ∉ u.marks)) := by
  induction l generalizing u with
  | nil => exact ⟨by simp [-BitVec.getLsbD_eq_getElem, FaultUnit.freeAll], rfl, rfl, by simp [-BitVec.getLsbD_eq_getElem, FaultUnit.freeAll]⟩
  | cons n ns ih =>
    rw [List.nodup_cons] at hn
    by_cases hb : set.getLsbD n.val = true
    rotate_left
    · rw [Bool.not_eq_true] at hb
      obtain ⟨h1, h2, h3, h4⟩ := ih hn.2 u
      have e : FaultUnit.freeAll set (n :: ns) u = FaultUnit.freeAll set ns u := by
        rw [FaultUnit.freeAll, if_neg]; rw [hb]; simp
      simp only [e]
      refine ⟨fun m => ?_, h2, h3, ?_⟩
      · rw [h1]
        by_cases hm : m = n
        · subst hm; simp [-BitVec.getLsbD_eq_getElem, hb]
        · simp [-BitVec.getLsbD_eq_getElem, hm]
      · rw [h4]; simp [-BitVec.getLsbD_eq_getElem, hb]
    · obtain ⟨h1, h2, h3, h4⟩ := ih hn.2 (u.freeRecord n)
      obtain ⟨g1, g2, g3, g4⟩ := FaultUnit.freeRecord_touches u n
      have e : FaultUnit.freeAll set (n :: ns) u = FaultUnit.freeAll set ns (u.freeRecord n) := by
        rw [FaultUnit.freeAll, if_pos hb]
      simp only [e]
      refine ⟨fun m => ?_, h2.trans g2, h3.trans g3, ?_⟩
      · rw [h1, g1]
        by_cases hm : m = n
        · subst hm; simp [-BitVec.getLsbD_eq_getElem, hb]
        · simp [-BitVec.getLsbD_eq_getElem, hm]
      · rw [h4, g4, List.append_assoc]
        congr 1
        have : ∀ m ∈ ns, (set.getLsbD m.val && (u.freeRecord n).records[m].isSome && decide (m ∉ (u.marks ++ [n].filter (fun n => u.records[n].isSome && decide (n ∉ u.marks)))))
           = (set.getLsbD m.val && u.records[m].isSome && decide (m ∉ u.marks)) := by
          intro m hm
          have hne : m ≠ n := fun h => hn.1 (h ▸ hm)
          rw [g1, if_neg hne]
          congr 1
          simp [-BitVec.getLsbD_eq_getElem, hne]
        rw [List.filter_congr this]
        simp only [List.filter_cons, hb, Bool.true_and, List.filter_nil]
        split <;> simp

theorem giveReady_blocked (t : Tag) (pre post : List Entry) (e : Entry) (hp : ∀ x ∈ pre, x.tag ≠ t) (he : e.tag = t) (ha : e.answered = false) :
    giveReady t (pre ++ e :: post) = (pre ++ e :: post, []) := by
  induction pre with
  | nil => simp [giveReady, he, ha]
  | cons x xs ih =>
    have hx : x.tag ≠ t := hp x (by simp)
    have := ih (fun y hy => hp y (by simp [hy]))
    simp [giveReady, hx, this]

theorem refuseRequest_waits {s : State} {r : LinkRequest} {pre post : List Entry} {e : Entry} (hs : s.path.inflight = pre ++ e :: post)
    (hp : ∀ x ∈ pre, x.tag ≠ r.tag) (he : e.tag = r.tag) (ha : e.answered = false) (k : FaultKind) (c : Checked) :
   refuseRequest k c r s = takeFault (requestFault k c r) (s.addEntry (entryOf s r .refused c none (refusedReaderRead s c r) none)) := by
  unfold refuseRequest
  dsimp only
  have hfl := takeFault_path (requestFault k c r) (s.addEntry (entryOf s r .refused c none (refusedReaderRead s c r) none))
  generalize hT : takeFault (requestFault k c r) (s.addEntry (entryOf s r .refused c none (refusedReaderRead s c r) none)) = T at *
  have : giveResponses r.tag T.path = T.path := by
    unfold giveResponses
    have e1 : T.path.inflight = pre ++ e :: (post ++ [entryOf s r .refused c none (refusedReaderRead s c r) none]) := by
      rw [hfl.1]; show s.path.inflight ++ _ = _; rw [hs]; simp
    have := giveReady_blocked r.tag pre (post ++ [entryOf s r .refused c none (refusedReaderRead s c r) none]) e hp he ha
    rw [e1, this, ← e1]
    simp
  rw [this]

end Sys2Proof.Machine
end

