-- ==== Sys2Proof/Laws/Binding.lean ====
section
/-! SUPPORT. Robots: the binding, the halves, and what a cycle boundary leaves. -/

namespace Sys2Proof.Machine
open Sys2Proof

theorem tag?_eq_some {b : Byte} {t : Tag} : tag? b = some t ↔ b.toNat = t.val := by
  unfold tag?
  split
  · rw [Option.some.injEq]
    constructor
    · rintro rfl; rfl
    · intro h; exact Fin.ext h
  · rename_i h
    simp only [reduceCtorEq, false_iff]
    have := t.isLt
    omega

theorem bankCarries_iff (s : State) (i : WinIdx) (r : RobotIdx) : s.bankCarries i r = true ↔ ∃ w e x ha hb, s.entry i = .loaded w ∧ w.role = .banked e x r ha hb := by
  unfold State.bankCarries
  cases hl : s.loaded? i with
  | none =>
    simp only [Bool.false_eq_true, false_iff]
    rintro ⟨w, e, x, ha, hb, hw, -⟩
    simp [loaded?_eq_some.2 hw] at hl
  | some w =>
    have := loaded?_eq_some.1 hl
    rw [this]
    simp only [WinState.loaded.injEq]
    cases hr : w.role with
    | banked e x n a b =>
      simp only [decide_eq_true_eq]
      constructor
      · rintro rfl; exact ⟨w, e, x, a, b, rfl, hr⟩
      · rintro ⟨_, e', x', a', b', rfl, h⟩
        rw [hr] at h; injection h
    | _ =>
      simp only [Bool.false_eq_true, false_iff]
      rintro ⟨_, e', x', a', b', rfl, h⟩
      rw [hr] at h; exact absurd h (by simp)

theorem unbindReady_eq {s : State} {r : RobotIdx} {x : Bound} (hb : s.bound? r = some x) : unbindReady s r = true ↔ (x.unbinding = true ∧ x.publish = .idle ∧ ¬ s.readerReads x) := by
  unfold unbindReady; rw [hb]; dsimp only
  rw [Bool.and_eq_true, Bool.and_eq_true, decide_eq_true_eq, Bool.not_eq_true', ← readerReadInFlight_iff, Bool.not_eq_true, and_assoc]

theorem Half.other_pick (h : Half) (a b : Nat) : (if h.other = .a then a else b) = if h = .a then b else a := by cases h <;> simp [Half.other]

def NextKept (s t : State) : Prop := ∀ q, (t.bound? q).map (·.nextBoundary) = (s.bound? q).map (·.nextBoundary)

theorem NextKept.refl (s) : NextKept s s := fun _ => rfl

theorem NextKept.trans {a b c} (h : NextKept a b) (h' : NextKept b c) : NextKept a c := fun q => (h' q).trans (h q)

theorem NextKept.of_robots {s t : State} (h : t.robots = s.robots) : NextKept s t := fun q => by unfold State.bound?; rw [h]

theorem NextKept.set {s : State} {r b} (hb : s.bound? r = some b) (b' : Bound) (h : b'.nextBoundary = b.nextBoundary) : NextKept s (s.setRobot r (some b')) := by
  intro q
  by_cases hq : r = q
  · subst hq; simp [hb, h]
  · rw [State.bound_setRobot_of_ne s hq]

theorem postNotice_robots (n) (s : State) : (postNotice n s).robots = s.robots := by
  obtain ⟨p, m, h⟩ := postNotice_touches n s; rw [h]

theorem modifyRobots_next (f : Bound → Bound) (hf : ∀ b, (f b).nextBoundary = b.nextBoundary) (rs) (s : State) : NextKept s (State.modifyRobots f rs s) := by
  induction rs generalizing s with
  | nil => exact .refl s
  | cons r rs ih =>
    refine NextKept.trans ?_ (ih _)
    unfold State.modifyRobot
    split
    · exact .set ‹_› _ (hf _)
    · exact .refl s

theorem withdrawClaim_next (k a n b) (s : State) : NextKept s (withdrawClaim k a n b s) := by
  unfold withdrawClaim
  dsimp only
  have h1 : (State.setSvc (makeReply k a s.svc.claimSeq s) ((makeReply k a s.svc.claimSeq s).svc.dropClaim n)).robots = s.robots := by
    obtain ⟨m, h⟩ := setSvc_touches ((makeReply k a s.svc.claimSeq s).svc.dropClaim n) (makeReply k a s.svc.claimSeq s)
    have h' := makeReply_touches k a s.svc.claimSeq s
    rw [h]
    obtain ⟨p, h'⟩ := h'
    rw [h']
  split
  · refine NextKept.trans (NextKept.of_robots h1) ?_
    refine NextKept.trans (modifyRobots_next Bound.abandon (fun _ => rfl) s.svc.named _) ?_
    unfold completeConsent
    split
    · exact .of_robots rfl
    · exact .refl _
  · exact .of_robots h1

theorem serviceModeChange_next (r m) (s : State) : NextKept s (serviceModeChange r m s) := by
  unfold serviceModeChange
  split
  · split
    · obtain ⟨v, n, w, h⟩ := beginReturn_touches .robot s
      exact .of_robots (by rw [h])
    · split
      · exact withdrawClaim_next _ _ _ _ _
      · exact .refl _
  · exact .refl _

theorem writeBankWord_robots (k i h b) (s : State) : (writeBankWord k i h b s).robots = s.robots := by
  obtain ⟨p, h⟩ := writeBankWord_touches k i h b s; rw [h]

theorem robotBoundary_next (r) (s : State) : NextKept s (robotBoundary r s) := by
  unfold robotBoundary
  refine NextKept.trans (b := startFlip r s) ?_ (NextKept.trans (b := countEcho r (startFlip r s)) ?_ ?_)
  · unfold startFlip
    split
    · rename_i b hb
      split
      · dsimp only
        refine NextKept.trans (NextKept.set hb { b with publish := .flipping, newFlipTime := none } rfl) ?_
        split
        · unfold writeFlip
          split
          · rename_i b' hb'
            refine NextKept.trans (NextKept.set hb' { b' with newFlipTime := some _ } rfl) (.of_robots (writeBankWord_robots _ _ _ _ _))
          · exact .refl _
        · exact .refl _
      · exact .refl _
    · exact .refl _
  · unfold countEcho
    split
    · rename_i b hb
      split
      · split
        · split
          · unfold nudge
            dsimp only
            exact NextKept.trans (NextKept.set hb { b with nudgesUsed := b.nudgesUsed + 1, toDeadline := b.echoLimit } rfl) (.of_robots (writeBankWord_robots _ _ _ _ _))
          · unfold makeStale
            exact NextKept.trans (NextKept.set hb { b with echo := .stale, toDeadline := 0 } rfl) (.of_robots (postNotice_robots _ _))
        · exact NextKept.set hb _ rfl
      · exact .refl _
    · exact .refl _
  · unfold countMode
    split
    · rename_i b hb
      dsimp only
      split
      · exact NextKept.trans (NextKept.set hb { b with sinceStatus := min 16 (b.sinceStatus + 1), mode := .unknown } rfl) (serviceModeChange_next _ _ _)
      · exact NextKept.set hb _ rfl
    · exact .refl _

theorem robotBoundary_clk (r) (s : State) : (robotBoundary r s).clk = s.clk := by
  obtain ⟨p, v, q, n, c, w, h⟩ := robotBoundary_touches r s; rw [h]

theorem advanceBoundary_none (q : RobotIdx) (s : State) (h : ∀ n, (s.bound? q).map (·.nextBoundary) = some n → s.clk.ns.toNat < n) : advanceBoundary q s = s := by
  unfold advanceBoundary
  split
  · rename_i b hb
    have := h b.nextBoundary (by rw [hb]; rfl)
    rw [if_neg]; unfold State.time; omega
  · rfl

theorem advanceBoundaries_none (rs : List RobotIdx) (s : State) (h : ∀ q ∈ rs, ∀ n, (s.bound? q).map (·.nextBoundary) = some n → s.clk.ns.toNat < n) : advanceBoundaries rs s = s := by
  induction rs with
  | nil => rfl
  | cons q rs ih =>
    rw [advanceBoundaries, advanceBoundary_none q s (h q (by simp)), ih (fun x hx => h x (by simp [hx]))]

theorem advanceBoundaries_append (l l' : List RobotIdx) (s : State) : advanceBoundaries (l ++ l') s = advanceBoundaries l' (advanceBoundaries l s) := by
  induction l generalizing s with
  | nil => rfl
  | cons q l ih => exact ih _

theorem allRobots_split_ne (r : RobotIdx) : ∃ l₁ l₂, allRobots = l₁ ++ r :: l₂ ∧ (∀ x ∈ l₁, x ≠ r) ∧ (∀ x ∈ l₂, x ≠ r) := by
      fin_cases r
      · exact ⟨[], [1,2,3,4,5], rfl, by decide, by decide⟩
      · exact ⟨[0], [2,3,4,5], rfl, by decide, by decide⟩
      · exact ⟨[0,1], [3,4,5], rfl, by decide, by decide⟩
      · exact ⟨[0,1,2], [4,5], rfl, by decide, by decide⟩
      · exact ⟨[0,1,2,3], [5], rfl, by decide, by decide⟩
      · exact ⟨[0,1,2,3,4], [], rfl, by decide, by decide⟩

end Sys2Proof.Machine
end

