-- ==== Sys2Proof/Laws/Time.lean ====
section
/-! SUPPORT. The clock unit: rounding, steps, selection, sources, tuning and the CODE frame. -/

namespace Sys2Proof.Machine
open Sys2Proof

theorem setClockStateAt_ne (time) (new cause) (s : State) (h : s.clk.state ≠ new) : setClockStateAt time new cause s = postNoticeAt time (.clockState s.clk.state new cause) { s with
        clk := { s.clk with state := new, lockCount := 0, outlierCount := 0 },
        rep := { s.rep with statusMark := true } } := by
  unfold setClockStateAt
  rw [if_neg h]
  dsimp only
  congr 1
  unfold State.noteStatus
  rw [if_neg]
  · rfl
  · intro he
    have := congrArg StatusFields.clock he
    exact h this.symm

theorem setClockState_ne (new cause) (s : State) (h : s.clk.state ≠ new) : setClockState new cause s = postNotice (.clockState s.clk.state new cause) { s with
        clk := { s.clk with state := new, lockCount := 0, outlierCount := 0 },
        rep := { s.rep with statusMark := true } } := setClockStateAt_ne s.time new cause s h

theorem stepBoundaries_foldl (old : Nat) (l : List RobotIdx) (s : State) : stepBoundaries old l s = l.foldl (fun u r => stepBoundary old r u) s := by
  induction l generalizing s with
  | nil => rfl
  | cons r rs ih => rw [stepBoundaries, ih]; rfl

theorem stepBoundaries_clk (old : Nat) (l : List RobotIdx) (s : State) : (stepBoundaries old l s).clk = s.clk := by
  obtain ⟨p, v, q, n, c, w, h⟩ := stepBoundaries_touches old l s
  rw [h]

theorem incrementOf_zero : incrementOf 0 = 34359738368 := by decide

theorem natAbs_sign (x : Int) : x.sign * (x.natAbs : Int) = x := by
  rw [Int.sign_mul_natAbs]

theorem roundDiv_spec (x : Int) (d : Nat) (hd : 0 < d) : (2 * ((roundDiv x d) * d - x)).natAbs ≤ d := by
  unfold roundDiv
  have hx := natAbs_sign x
  set n := x.natAbs with hn
  set q := (2 * n + d) / (2 * d) with hq
  have h1 : q * (2 * d) ≤ 2 * n + d := Nat.div_mul_le_self _ _
  have h2 : 2 * n + d < (q + 1) * (2 * d) := by
    rw [Nat.mul_comm (q + 1)]; exact Nat.lt_mul_div_succ _ (by omega)
  have e : x.sign * Int.ofNat q * (d : Int) - x = x.sign * ((q : Int) * d - n) := by
    conv_lhs => rhs; rw [← hx]
    simp only [Int.ofNat_eq_natCast]; ring
  rw [e]
  have h3 : (2 * ((q : Int) * d - n)).natAbs ≤ d := by
    have h1' : ((q : Int) * (2 * d)) ≤ 2 * n + d := by exact_mod_cast h1
    have h2' : (2 * n + d : Int) < (q + 1) * (2 * d) := by exact_mod_cast h2
    have : ((q:Int) * (2 * d)) = 2 * (q * d) := by ring
    have : (((q:Int)+1) * (2 * d)) = 2 * (q * d) + 2 * d := by ring
    omega
  have : (2 * (x.sign * ((q : Int) * d - n))) = x.sign * (2 * ((q : Int) * d - n)) := by ring
  rw [this, Int.natAbs_mul]
  have : x.sign.natAbs ≤ 1 := by
    rcases Int.sign_trichotomy x with h | h | h <;> rw [h] <;> decide
  calc x.sign.natAbs * _ ≤ 1 * _ := Nat.mul_le_mul_right _ this
    _ ≤ d := by omega

theorem roundDiv_le (x : Int) (d b : Nat) (hb : x.natAbs ≤ b) : (roundDiv x d).natAbs ≤ (2 * b + d) / (2 * d) := by
  unfold roundDiv
  rw [Int.natAbs_mul]
  have : x.sign.natAbs ≤ 1 := by
    rcases Int.sign_trichotomy x with h | h | h <;> rw [h] <;> decide
  calc x.sign.natAbs * _ ≤ 1 * _ := Nat.mul_le_mul_right _ this
    _ = (2 * x.natAbs + d) / (2 * d) := by rw [Nat.one_mul]; rfl
    _ ≤ _ := Nat.div_le_div_right (by omega)

theorem incrementOf_spec (rate : Int) (h : rate.natAbs ≤ 500000) :
   34342558499 ≤ incrementOf rate ∧ incrementOf rate ≤ 34376918237
    ∧ (2 * ((34359738368 - (incrementOf rate : Int)) * 1000000000 - 34359738368 * rate)).natAbs ≤ 1000000000 := by
  have hb := roundDiv_le (Int.ofNat Config.nominalIncrement * rate) 1000000000 17179869184000000 (by
    rw [Int.natAbs_mul]
    have : (Int.ofNat Config.nominalIncrement).natAbs = 34359738368 := rfl
    rw [this]; omega)
  have hs := roundDiv_spec (Int.ofNat Config.nominalIncrement * rate) 1000000000 (by decide)
  have hc : (2 * 17179869184000000 + 1000000000) / (2 * 1000000000) = 17179869 := by decide
  rw [hc] at hb
  have he : (incrementOf rate : Int) = 34359738368 - roundDiv (Int.ofNat Config.nominalIncrement * rate) 1000000000 := by
    unfold incrementOf
    rw [Int.toNat_of_nonneg]
    · rfl
    · have : Int.ofNat Config.nominalIncrement = 34359738368 := rfl
      rw [this]
      rw [this] at hb
      omega
  have hn : Int.ofNat Config.nominalIncrement * rate = 34359738368 * rate := rfl
  rw [hn] at hb hs he
  set k := roundDiv (34359738368 * rate) 1000000000
  rw [he]
  refine ⟨by omega, by omega, ?_⟩
  push_cast at hs
  have : (34359738368 - (34359738368 - k)) * 1000000000 - 34359738368 * rate = k * 1000000000 - 34359738368 * rate := by ring
  rw [this]
  exact hs

theorem Place.candidate?_iff (p : Place) (i g) : p.candidate? = some (i, g) ↔ p.heard = true ∧ p.window = some i ∧ p.lastGrade = some g := by
  unfold Place.candidate?
  cases hh : p.heard <;> cases hw : p.window <;> cases hg : p.lastGrade <;> simp

theorem Clock.best_eq_none (c : Clock) : c.best = none ↔ c.place0.candidate? = none ∧ c.place1.candidate? = none := by
  unfold Clock.best
  cases h0 : c.place0.candidate? <;> cases h1 : c.place1.candidate? <;> simp
  split <;> simp

theorem Clock.best_eq_some (c : Clock) (i g) (h : (c.place0.candidate? = some (i, g) ∨ c.place1.candidate? = some (i, g)))
   (hm : ∀ j h', (c.place0.candidate? = some (j, h') ∨ c.place1.candidate? = some (j, h')) → g.toNat < h'.toNat ∨ (g = h' ∧ i ≤ j)) : c.best = some (i, g) := by
  unfold Clock.best
  cases h0 : c.place0.candidate? with
  | none =>
    rw [h0] at h
    rcases h with h | h
    · cases h
    · rw [h]
  | some a =>
    obtain ⟨a1, a2⟩ := a
    cases h1 : c.place1.candidate? with
    | none =>
      rw [h0, h1] at h
      rcases h with h | h
      · simpa using h
      · cases h
    | some b =>
      obtain ⟨b1, b2⟩ := b
      rw [h0, h1] at h hm
      have hA := hm a1 a2 (Or.inl rfl)
      have hB := hm b1 b2 (Or.inr rfl)
      dsimp only
      rcases h with h | h
      · injection h with h; injection h with e1 e2; subst e1; subst e2
        split
        · rfl
        · rename_i hn
          rw [not_or, not_and] at hn
          rcases hB with hB | ⟨hB, hB'⟩
          · exact absurd hB hn.1
          · have := hn.2 hB
            have : a1 = b1 := le_antisymm hB' (not_lt.1 this)
            rw [this, hB]
      · injection h with h; injection h with e1 e2; subst e1; subst e2
        split
        · rename_i hp
          rcases hp with hp | ⟨hp, hp'⟩
          · rcases hA with hA | ⟨hA, _⟩
            · omega
            · rw [hA] at hp; omega
          · rcases hA with hA | ⟨hA, hA'⟩
            · rw [hp] at hA; omega
            · exact absurd hp' (not_lt.2 hA')
        · rfl

theorem clockDue_some (s : State) (t : Nat) (h : s.pins.powerGood = true) : clockDue s (some t) = decide (t ≤ s.clk.elapsed) := by
  unfold clockDue; rw [h]; rfl

theorem postNotice_clk (n) (s : State) : (postNotice n s).clk = s.clk := by
  obtain ⟨p, r, h⟩ := postNotice_touches n s; rw [h]

theorem setClockStateAt_touches (time new cause) (s : State) : ∃ p r a b c, setClockStateAt time new cause s = { s with path := p, rep := r, clk := { s.clk with state := a, lockCount := b, outlierCount := c } } := by
  by_cases h : s.clk.state = new
  · unfold setClockStateAt; rw [if_pos h]; exact ⟨_, _, _, _, _, rfl⟩
  · rw [setClockStateAt_ne _ _ _ _ h]
    obtain ⟨p, r, h'⟩ := postNoticeAt_touches time (.clockState s.clk.state new cause) { s with clk := { s.clk with state := new, lockCount := 0, outlierCount := 0 }, rep := { s.rep with statusMark := true } }
    exact ⟨p, r, _, _, _, h'⟩

theorem setClockState_touches (new cause) (s : State) : ∃ p r a b c, setClockState new cause s = { s with path := p, rep := r, clk := { s.clk with state := a, lockCount := b, outlierCount := c } } :=
  setClockStateAt_touches _ _ _ _

theorem sourceEffect_touches (time) (s : State) : ∃ p r a b c, sourceEffect time s = { s with path := p, rep := r, clk := { s.clk with state := a, lockCount := b, outlierCount := c } } := by
  unfold sourceEffect
  split
  · exact setClockStateAt_touches _ _ _ _
  · exact setClockStateAt_touches _ _ _ _
  · exact ⟨_, _, _, _, _, rfl⟩
  · exact ⟨_, _, _, _, _, rfl⟩

theorem reselectAt_touches (time) (s : State) : ∃ p r d a b c, reselectAt time s = { s with path := p, rep := r, clk := { s.clk with selected := d, state := a, lockCount := b, outlierCount := c } } := by
  unfold reselectAt
  dsimp only
  split
  · exact ⟨_, _, _, _, _, _, rfl⟩
  · obtain ⟨p, r, h⟩ := postNoticeAt_touches time (.sourceChange s.clk.selected (s.clk.best.map (·.1)) (s.clk.best.map (·.2))) (s.setClk { s.clk with selected := s.clk.best.map (·.1) })
    rw [h]
    split
    · obtain ⟨p', r', a, b, c, h'⟩ := sourceEffect_touches time { (s.setClk { s.clk with selected := s.clk.best.map (·.1) }) with path := p, rep := r }
      exact ⟨p', r', _, a, b, c, h'⟩
    · exact ⟨p, r, _, _, _, _, rfl⟩

theorem lessOffset_eq (t : Word) (o : Int) : lessOffset t o = BitVec.ofNat 64 (max 0 (min 18446744073709551615 ((t.toNat : Int) - o))).toNat := by
  unfold lessOffset
  dsimp only [Int.ofNat_eq_natCast]
  split
  · rename_i h
    have : max 0 (min 18446744073709551615 ((t.toNat : Int) - o)) = 0 := by omega
    rw [this]; rfl
  · split
    · rename_i h h'
      have : max 0 (min 18446744073709551615 ((t.toNat : Int) - o)) = 18446744073709551615 := by omega
      rw [this]; rfl
    · rename_i h h'
      have : max 0 (min 18446744073709551615 ((t.toNat : Int) - o)) = (t.toNat : Int) - o := by omega
      rw [this]
      obtain ⟨n, hn⟩ := Int.eq_ofNat_of_zero_le (not_lt.1 h)
      rw [hn]; simp

theorem timeSync_place {s : State} {w : WinIdx} {first : Bool} {p : Place} (hp : (first = true ∧ p = s.clk.place0) ∨ (first = false ∧ p = s.clk.place1 ∧ s.clk.place0.window ≠ some w)) (hw : p.window = some w) : s.clk.placeOf? w = some (if first then 0 else 1, p) := by
  unfold Clock.placeOf?
  rcases hp with ⟨rfl, rfl⟩ | ⟨rfl, rfl, hn⟩
  · rw [if_pos hw]; rfl
  · rw [if_neg hn, if_pos hw]; rfl

theorem countLock_cases (o : Int) (s : State) : (s.clk.params.lock < o.natAbs → countLock o s = { s with clk := { s.clk with lockCount := 0 } })
   ∧ (o.natAbs ≤ s.clk.params.lock → s.clk.lockCount + 1 < 4 → countLock o s = { s with clk := { s.clk with lockCount := s.clk.lockCount + 1 } })
   ∧ (o.natAbs ≤ s.clk.params.lock → 4 ≤ s.clk.lockCount + 1 → countLock o s = setClockState .locked .record { s with clk := { s.clk with lockCount := s.clk.lockCount + 1 } }) := by
  unfold countLock
  refine ⟨fun h => if_neg (by omega), fun h h' => ?_, fun h h' => ?_⟩
  · rw [if_pos h]; exact if_neg (by omega)
  · rw [if_pos h]; exact if_pos h'

def delayTo (given : Bool) (b : Byte) (d : Nat) (q : Place) : Place :=
  { q with pathDelay := if given = true ∧ q.window.map Fin.val = some b.toNat then d else q.pathDelay }

theorem delayTo_false (given : Bool) (b d) (q : Place) (h : ¬ (given = true ∧ q.window.map Fin.val = some b.toNat)) : delayTo given b d q = q := by
  unfold delayTo; rw [if_neg h]

theorem delayTo_true (b d) (q : Place) (h : (q.window.map Fin.val = some b.toNat)) : delayTo true b d q = { q with pathDelay := d } := by
  unfold delayTo; rw [if_pos ⟨rfl, h⟩]

theorem setDelay_eq (c : Clock) (given : Bool) (b : Byte) (d : Nat) (h : c.place0.window = none ∨ c.place0.window ≠ c.place1.window) :
   c.setDelay given b d = { c with place0 := delayTo given b d c.place0, place1 := delayTo given b d c.place1 } := by
  cases given with
  | false =>
    rw [delayTo_false _ _ _ _ (by simp), delayTo_false _ _ _ _ (by simp)]; rfl
  | true =>
    unfold Clock.setDelay
    rw [if_pos rfl]
    have hw : ∀ q : Place, q.window.map Fin.val = some b.toNat ↔ ∃ i, winIdx? b = some i ∧ q.window = some i := by
      intro q
      cases hq : q.window with
      | none => simp
      | some j =>
        simp only [Option.map_some, Option.some.injEq]
        constructor
        · intro e; exact ⟨j, winIdx?_eq_some.2 e.symm, rfl⟩
        · rintro ⟨i, e, rfl⟩; exact (winIdx?_eq_some.1 e).symm
    cases hb : winIdx? b with
    | none =>
      have : ∀ q : Place, ¬ q.window.map Fin.val = some b.toNat := by
        intro q e; rw [hw] at e; obtain ⟨i, e, _⟩ := e; rw [hb] at e; cases e
      rw [delayTo_false _ _ _ _ (by simp [this]), delayTo_false _ _ _ _ (by simp [this])]
    | some i =>
      have hw' : ∀ q : Place, q.window.map Fin.val = some b.toNat ↔ q.window = some i := by
        intro q; rw [hw, hb]; simp
      dsimp only
      unfold Clock.placeOf?
      split <;> rename_i h0
      · split at h0
        · rename_i e
          injection h0 with h0; injection h0 with h0 h0'; subst h0; subst h0'
          rw [delayTo_true _ _ _ ((hw' _).2 e), delayTo_false]
          · rfl
          · rintro ⟨_, e'⟩
            rw [hw'] at e'
            rcases h with h | h
            · rw [h] at e; cases e
            · exact h (e.trans e'.symm)
        · split at h0
          · rename_i e e'
            injection h0 with h0; injection h0 with h0 h0'; subst h0; subst h0'
            rw [delayTo_true _ _ _ ((hw' _).2 e'), delayTo_false _ _ _ _ (by rw [hw']; exact fun h => e h.2)]
            rfl
          · cases h0
      · split at h0
        · cases h0
        · split at h0
          · cases h0
          · rename_i e e'
            rw [delayTo_false _ _ _ _ (by rw [hw']; exact fun h => e h.2), delayTo_false _ _ _ _ (by rw [hw']; exact fun h => e' h.2)]

theorem leBytes_length (k v : Nat) : (leBytes k v).length = k := by
  induction k generalizing v with
  | zero => rfl
  | succ k ih => rw [leBytes, List.length_cons, ih]

theorem openBytes_length (c o k : Nat) : (openBytes c o k).length = k := by
  induction k generalizing o with
  | zero => rfl
  | succ k ih => rw [openBytes, List.length_cons, ih]

theorem stepAndPost_touches (a b : _) (new : Word) (s : State) : ∃ p v q n c w, stepAndPost a b new s
      = { s with clk := { (Clock.setRate { s.clk with ns := new, frac := 0, stepped := true } 0) with integral := 0, lockCount := 0, outlierCount := 0 },
                 path := p, svc := v, robots := q, rep := n, cmd := c, win := w } := by
  unfold stepAndPost
  dsimp only
  obtain ⟨p, v, q, n, c, w, h⟩ := stepTime_touches new s
  rw [h]
  obtain ⟨p', r', h'⟩ := postNoticeAt_touches s.time (.clockStep a b new.toNat) (State.setClk { s with clk := Clock.setRate { s.clk with ns := new, frac := 0, stepped := true } 0, path := p, svc := v, robots := q, rep := n, cmd := c, win := w } (Clock.clear (Clock.setRate { s.clk with ns := new, frac := 0, stepped := true } 0)))
  exact ⟨p', v, q, r', c, w, h'⟩

theorem expired_iff (t : Option Nat) (now : Nat) : expired t now = true ↔ ∃ x, t = some x ∧ x ≤ now := by
  cases t with
  | none => simp [expired]
  | some t => simp [expired]

theorem givenIn_iff (g : Bool) (v lo hi : Nat) : givenIn g v lo hi = true ↔ (g = true → lo ≤ v ∧ v ≤ hi) := by
  unfold givenIn; cases g <;> simp

theorem serves_iff (c : Clock) (x : Byte) : c.serves x = true ↔ ∃ i : WinIdx, x.toNat = i.val ∧ (c.place0.window = some i ∨ c.place1.window = some i) := by
  unfold Clock.serves
  cases h : winIdx? x with
  | none =>
    simp only [Bool.false_eq_true, false_iff]
    rintro ⟨i, e, _⟩
    rw [winIdx?_eq_some.2 e] at h; cases h
  | some j =>
    have hj := winIdx?_eq_some.1 h
    dsimp only
    constructor
    · intro e
      refine ⟨j, hj, ?_⟩
      unfold Clock.placeOf? at e
      split at e
      · left; assumption
      · split at e
        · right; assumption
        · cases e
    · rintro ⟨i, e, h'⟩
      have : i = j := Fin.ext (e.symm.trans hj)
      subst this
      unfold Clock.placeOf?
      split
      · rfl
      · rcases h' with h' | h'
        · contradiction
        · rw [if_pos h']; rfl

theorem oddOnes_eq (k v : Nat) : oddOnes k v = decide (((List.range k).filter fun i => v.testBit i).length % 2 = 1) := by
  induction k generalizing v with
  | zero => rfl
  | succ k ih =>
    rw [oddOnes, ih, List.range_succ_eq_map, List.filter_cons, List.filter_map, Nat.testBit_zero]
    have : ((fun i => v.testBit i) ∘ Nat.succ) = fun i => (v / 2).testBit i := by
      funext i; simp only [Function.comp, Nat.succ_eq_add_one, Nat.testBit_succ]
    rw [this]
    generalize ((List.range k).filter fun i => (v / 2).testBit i) = l
    by_cases hv : v % 2 = 1
    · rw [if_pos (by simpa using hv)]
      simp only [hv, List.length_cons, List.length_map]
      by_cases hl : l.length % 2 = 1
      · simp [hl]; omega
      · simp [hl]; omega
    · rw [if_neg (by simpa using hv)]
      simp only [hv, List.length_map, decide_false, Bool.false_xor]

theorem codeBits_aux (S c T P : Nat) (b0 b1 b2 p : Bool) (hS : S < 2 ^ 48) (hc : c < 4)
  (hP : P = S + c * 2 ^ 48 + bit b0 50 + bit b1 51 + bit b2 52) (hp : p = oddOnes 55 P) (hT : T = P + bit p 55) :
  (BitVec.ofNat 56 T).toNat = T ∧ T % 2 ^ 48 = S ∧ T / 2 ^ 48 % 4 = c ∧ T.testBit 50 = b0 ∧ T.testBit 51 = b1 ∧ T.testBit 52 = b2 ∧ T.testBit 53 = false ∧ T.testBit 54 = false
   ∧ ((List.range 56).filter fun k => T.testBit k).length % 2 = 0 := by
  have hPlt : P < 2 ^ 53 := by
    rw [hP]; unfold bit; cases b0 <;> cases b1 <;> cases b2 <;> simp <;> omega
  have hTlt : T < 2 ^ 56 := by
    rw [hT]; unfold bit; cases p <;> simp <;> omega
  refine ⟨by rw [BitVec.toNat_ofNat, Nat.mod_eq_of_lt hTlt], ?_, ?_, ?_, ?_, ?_, ?_, ?_, ?_⟩
  · rw [hT, hP]; unfold bit; cases b0 <;> cases b1 <;> cases b2 <;> cases p <;> simp <;> omega
  · rw [hT, hP]; unfold bit; cases b0 <;> cases b1 <;> cases b2 <;> cases p <;> simp <;> omega
  · rw [hT, hP, Nat.testBit_eq_decide_div_mod_eq]; unfold bit; cases b0 <;> cases b1 <;> cases b2 <;> cases p <;> simp <;> omega
  · rw [hT, hP, Nat.testBit_eq_decide_div_mod_eq]; unfold bit; cases b0 <;> cases b1 <;> cases b2 <;> cases p <;> simp <;> omega
  · rw [hT, hP, Nat.testBit_eq_decide_div_mod_eq]; unfold bit; cases b0 <;> cases b1 <;> cases b2 <;> cases p <;> simp <;> omega
  · rw [hT, hP, Nat.testBit_eq_decide_div_mod_eq]; unfold bit; cases b0 <;> cases b1 <;> cases b2 <;> cases p <;> simp <;> omega
  · rw [hT, hP, Nat.testBit_eq_decide_div_mod_eq]; unfold bit; cases b0 <;> cases b1 <;> cases b2 <;> cases p <;> simp <;> omega
  · rw [List.range_succ, List.filter_append, List.length_append]
    have h1 : (List.filter (fun k => T.testBit k) (List.range 55)) = (List.filter (fun k => P.testBit k) (List.range 55)) := by
      apply List.filter_congr
      intro k hk
      rw [List.mem_range] at hk
      have : P = T % 2 ^ 55 := by
        rw [hT]; unfold bit; cases p <;> simp <;> omega
      rw [this, Nat.testBit_mod_two_pow]; simp [hk]
    rw [h1]
    have h2 : T.testBit 55 = p := by
      rw [hT, Nat.testBit_eq_decide_div_mod_eq]; unfold bit; cases p <;> simp <;> omega
    rw [oddOnes_eq] at hp
    cases p with
    | false =>
      have hp := hp.symm; rw [decide_eq_false_iff_not] at hp
      simp only [List.filter_cons, h2, List.filter_nil]; simp; omega
    | true =>
      have hp := hp.symm; rw [decide_eq_true_eq] at hp
      simp only [List.filter_cons, h2, List.filter_nil]; simp; omega

theorem CodeFrame.bits_fields (f : CodeFrame) : f.bits.toNat % 2 ^ 48 = f.seconds % 2 ^ 48 ∧ f.bits.toNat / 2 ^ 48 % 4 = f.state.code
              ∧ f.bits.getLsbD 50 = f.stepped ∧ f.bits.getLsbD 51 = f.heard ∧ f.bits.getLsbD 52 = f.source
              ∧ f.bits.getLsbD 53 = false ∧ f.bits.getLsbD 54 = false
              ∧ ((List.range 56).filter fun k => f.bits.getLsbD k).length % 2 = 0 := by
  have h := codeBits_aux (f.seconds % 2 ^ 48) f.state.code (f.body + bit (oddOnes 55 f.body) 55) f.body f.stepped f.heard f.source (oddOnes 55 f.body)
     (Nat.mod_lt _ (by decide)) (by cases f.state <;> decide) rfl rfl rfl
  have ht : f.bits.toNat = f.body + bit (oddOnes 55 f.body) 55 := h.1
  have hb : ∀ k, f.bits.getLsbD k = (f.body + bit (oddOnes 55 f.body) 55).testBit k := by
    intro k; rw [BitVec.getLsbD, ht]
  simp only [hb, ht]
  exact h.2

theorem markNext_lt (s : State) (hp : s.pins.powerGood = true) (h : s.clk.units + s.clk.increment < 2 ^ 96) :
   markNext s = decide (s.clk.ns.toNat / 1000000 < (s.clk.units + s.clk.increment) / 4294967296 / 1000000) := by
  unfold markNext State.time Config.msNs
  rw [hp, advanceCounts_eq s h, Bool.true_and]
  have := ns_toNat _ h
  generalize s.clk.units + s.clk.increment = U at *
  generalize U / 4294967296 = V at *
  dsimp only
  rw [this]

theorem sourceBit_iff (s : State) : s.sourceBit = true ↔ ∃ i j : WinIdx, s.clk.selected = some i ∧ j < i
              ∧ (∃ w, s.entry i = .loaded w ∧ w.feedKind? = some .time)
              ∧ ∃ w, s.entry j = .loaded w ∧ w.feedKind? = some .time := by
  unfold State.sourceBit
  cases h : s.clk.selected with
  | none => simp
  | some i =>
    dsimp only
    rw [Bool.and_eq_true, List.any_eq_true, isFeed_iff]
    constructor
    · rintro ⟨h1, j, _, h2⟩
      rw [Bool.and_eq_true, isFeed_iff, decide_eq_true_eq] at h2
      exact ⟨i, j, rfl, h2.1, h1, h2.2⟩
    · rintro ⟨i', j, e, h1, h2, h3⟩
      injection e with e; subst e
      exact ⟨h2, j, mem_allWindows j, by rw [Bool.and_eq_true, isFeed_iff, decide_eq_true_eq]; exact ⟨h1, h3⟩⟩

/-- What an advance does at its boundaries, robots in number order (R70, R73). -/
theorem advanceBoundaries_given (rs : List RobotIdx) (s : State) : boundariesGiven s.clk.ns.toNat rs s (advanceBoundaries rs s) := by
  induction rs generalizing s with
  | nil => rfl
  | cons r rs ih =>
    refine ⟨fun b hb h => ?_, fun h => ?_⟩
    · have e : advanceBoundary r s = robotBoundary r (s.setRobot r (some { b with nextBoundary := b.nextBoundary + b.period * 1000 })) := by
        unfold advanceBoundary; rw [hb]; dsimp only; rw [if_pos]; exact h
      have := ih (advanceBoundary r s)
      rw [advanceBoundaries]
      rw [e, robotBoundary_clk] at this
      rw [e]
      exact this
    · have e : advanceBoundary r s = s := by
        unfold advanceBoundary
        split
        · rename_i b hb; rw [if_neg]; have := h b hb; unfold State.time; omega
        · rfl
      rw [advanceBoundaries, e]; exact ih s

/-- What an advance does to the counts and at a whole millisecond (R59, R60, R64, R66). -/
theorem advanceMark_given (s : State) (hu : s.clk.units + s.clk.increment < 2 ^ 96) : s.markGiven (advanceMark s.time (advanceCounts s)) := by
  rw [advanceCounts_eq s hu]
  have hns := ns_toNat _ hu
  unfold State.markGiven
  dsimp only
  generalize hV : (s.clk.units + s.clk.increment) / 4294967296 = ns at hns ⊢
  unfold advanceMark State.time Config.msNs
  dsimp only
  rw [hns]
  refine ⟨fun h => ?_, fun h => ⟨fun h1 h2 => ?_, fun h1 source replaced hs hrep => ?_⟩⟩
  · rw [if_neg (by omega)]
  · rw [if_pos h]
    unfold giveMark codeDue Config.secNs Config.tenUs
    dsimp only
    rw [if_neg]
    rintro (h | h)
    · omega
    · rw [h1] at h; cases h
  · rw [if_pos h]
    have hsec : ns / 1000000 * 1000000 / Config.secNs = ns / 1000000000 := by
      unfold Config.secNs; omega
    unfold giveMark codeDue
    dsimp only
    rw [if_pos]
    · unfold State.frameAt
      rw [hsec]
      have e1 : source = s.sourceBit := by
        rw [Bool.eq_iff_iff, sourceBit_iff]; exact hs
      have e2 : replaced = s.clk.waitingStepped := by
        rw [Bool.eq_iff_iff, hrep]
        unfold Clock.waitingStepped
        cases hw : s.clk.codeWaiting with
        | none => simp
        | some x =>
          obtain ⟨f, t⟩ := x
          simp
      subst e1; subst e2; rfl
    · rcases h1 with h1 | h1
      · exact .inr h1
      · left; unfold Config.secNs; omega

/-- Everything one REFCLK period does. -/
theorem refclk_given (s : State) (hp : s.pins.powerGood = true) (hu : s.clk.units + s.clk.increment < 2 ^ 96) : s.periodGiven (refclk s) := by
  refine ⟨_, advanceMark_given s hu, ?_⟩
  unfold refclk
  rw [if_pos hp]
  have : (advanceMark s.time (advanceCounts s)).clk.ns.toNat = (s.clk.units + s.clk.increment) / 4294967296 := by
    obtain ⟨m, e, f, t, h⟩ := advanceMark_touches s.time (advanceCounts s)
    rw [h, advanceCounts_eq s hu]
    exact ns_toNat _ hu
  rw [← this]
  exact advanceBoundaries_given allRobots _

/-- The next period reaches a robot's next boundary (R70). -/
theorem boundaryNext_le (s : State) (r : RobotIdx) (b : Bound) (hp : s.pins.powerGood = true) (hb : s.bound? r = some b) (hu : s.clk.units + s.clk.increment < 2 ^ 96) :
   boundaryNext s r = decide (b.nextBoundary ≤ (s.clk.units + s.clk.increment) / 4294967296) := by
  unfold boundaryNext
  rw [hp, Bool.true_and, hb]
  dsimp only
  rw [advanceCounts_eq s hu]
  unfold State.time
  dsimp only
  rw [ns_toNat _ hu]

theorem onEvent_pos (act : State → State) (s : State) (d : Bool) (h : d = true) : onEvent d act s = act s := by rw [h]; rfl

theorem onEvent_neg (act : State → State) (s : State) (d : Bool) (h : d = false) : onEvent d act s = s := by rw [h]; rfl

end Sys2Proof.Machine
end

