-- ==== Sys2Proof/Laws/Layouts.lean ====
section
/-! SUPPORT. The bytes the part writes are laid as the tables of the spec say: notices, decisions, mirrors and snapshots. -/

namespace Sys2Proof.Machine
open Sys2Proof

/-! ## The codes of Table 10-4 -/

theorem clockState_code (x : ClockState) : x.code = codeOfClock x := by cases x <;> rfl
theorem clockCause_code (x : ClockCause) : x.code = codeOfClockCause x := by cases x <;> rfl
theorem authority_code (x : Authority) : x.code = codeOfAuthority x := by cases x <;> rfl
theorem feedKind_code (x : FeedKind) : feedKindCode x = codeOfKind x := by cases x <;> rfl
theorem mode_code (x : Mode) : modeCode x = codeOfMode x := by cases x <;> rfl
theorem echo_code (x : Echo) : x.code = codeOfEcho x := by cases x <;> rfl
theorem publish_code (x : PublishState) : x.code = codeOfPublish x := by cases x <;> rfl
theorem fill_code (x : FillResult) : fillResultCode x = codeOfFill x := by cases x <;> rfl
theorem verdict_code (x : Verdict) : verdictCode x = codeOfVerdict x := by cases x <;> rfl
theorem unsure_code (x : UnsurePolicy) : x.code = codeOfUnsure x := by cases x <;> rfl
theorem session_code (x : SessionState) : x.code = codeOfSession x := by cases x <;> rfl
theorem policy_code (x : Policy) : x.code = codeOfPolicy x := by cases x <;> rfl
theorem ring_code (x : Ring) : x.code = codeOfRing x := by cases x <;> rfl
theorem line_code (x : Line) : x.code = codeOfLine x := by cases x <;> rfl
theorem reply_code (x : ReplyKind) : x.code = codeOfReply x := by cases x <;> rfl
theorem reason_code (x : Reason) : x.code = codeOfReason x := by cases x <;> rfl
theorem fault_code (x : FaultKind) : x.code = codeOfFault x := by cases x <;> rfl
theorem cause_code (x : Cause) : x.reason.code = codeOfCause x := by cases x <;> rfl
theorem status_code (x : Status) : x.code = codeOfStatus x := by cases x <;> rfl

/-! ## Bytes as numbers -/

theorem leNat_leBytes (k v : Nat) : leNat (leBytes k v) = v % 256 ^ k := by
  induction k generalizing v with
  | zero      => simp [leBytes, leNat, Nat.mod_one]
  | succ k ih =>
    simp only [leBytes, leNat, ih, BitVec.toNat_ofNat]
    rw [show (2 : Nat) ^ 8 = 256 from rfl, Nat.pow_succ, Nat.mul_comm (256 ^ k) 256, Nat.mod_mul]

/-- Bytes laid out, no field reaching past their end. -/
def Lays (bytes : List Byte) (size : Nat) (fields : List LayoutField) : Prop :=
  laid bytes size fields ∧ ∀ f ∈ fields, f.off + f.len ≤ size

theorem fieldAt_append_left (xs ys : List Byte) (off len : Nat) (h : off + len ≤ xs.length) :
    fieldAt (xs ++ ys) off len = fieldAt xs off len := by
  unfold fieldAt
  rw [List.drop_append_of_le_length (by omega), List.take_append_of_le_length (by simp; omega)]

theorem fieldAt_append_right (xs ys : List Byte) (off len : Nat) (h : xs.length ≤ off) :
    fieldAt (xs ++ ys) off len = fieldAt ys (off - xs.length) len := by
  unfold fieldAt
  rw [List.drop_append, List.drop_eq_nil_of_le h, List.nil_append]

/-- Two structures one behind the other are one structure. -/
theorem Lays.append {xs ys : List Byte} {n m : Nat} {fs gs : List LayoutField} (hx : Lays xs n fs) (hy : Lays ys m gs) :
    Lays (xs ++ ys) (n + m) (fs ++ gs.map (LayoutField.shift n)) := by
  obtain ⟨⟨lx, fx, zx⟩, bx⟩ := hx
  obtain ⟨⟨ly, fy, zy⟩, by_⟩ := hy
  refine ⟨⟨by simp [lx, ly], fun f hf => ?_, fun k hk hn => ?_⟩, fun f hf => ?_⟩
  · rcases List.mem_append.1 hf with hf | hf
    · rw [fieldAt_append_left _ _ _ _ (lx ▸ bx f hf)]; exact fx f hf
    · obtain ⟨g, hg, rfl⟩ := List.mem_map.1 hf
      simp only [LayoutField.shift]
      rw [fieldAt_append_right _ _ _ _ (by omega), lx, Nat.add_sub_cancel_left]
      exact fy g hg
  · by_cases h : k < n
    · rw [List.getElem?_append_left (by omega)]
      exact zx k h fun f hf => hn f (List.mem_append_left _ hf)
    · rw [List.getElem?_append_right (by omega), lx]
      refine zy (k - n) (by omega) fun f hf hc => ?_
      refine hn _ (List.mem_append_right _ (List.mem_map_of_mem hf)) ?_
      simp only [LayoutField.shift]; omega
  · rcases List.mem_append.1 hf with hf | hf
    · have := bx f hf; omega
    · obtain ⟨g, hg, rfl⟩ := List.mem_map.1 hf
      have := by_ g hg
      simp only [LayoutField.shift]; omega

theorem lays_nil : Lays [] 0 [] := ⟨⟨rfl, by simp, by simp⟩, by simp⟩

theorem lays_zero (k : Nat) : Lays (zeroBytes k) k [] :=
  ⟨⟨by simp [zeroBytes], by simp, fun i hi _ => by simp [zeroBytes, hi]⟩, by simp⟩

/-- One field over all the bytes. -/
theorem lays_one {bs : List Byte} {len : Nat} {p : Nat → Prop} (hl : bs.length = len) (hp : p (leNat bs)) :
    Lays bs len [⟨0, len, p⟩] := by
  refine ⟨⟨hl, ?_, fun k hk hn => ?_⟩, by simp⟩
  · simpa [fieldAt, ← hl] using hp
  · exact absurd ⟨Nat.zero_le k, by simpa using hk⟩ (hn ⟨0, len, p⟩ (by simp))

theorem lays_le (k v : Nat) : Lays (leBytes k v) k [isAt 0 k v] :=
  lays_one (leBytes_length k v) (leNat_leBytes k v)

theorem lays_b1 (v : Nat) : Lays (b1 v) 1 [isAt 0 1 v] :=
  lays_one rfl (by simp [b1, leNat])

theorem lays_byte (b : Byte) : Lays [b] 1 [isAt 0 1 b.toNat] :=
  lays_one rfl (by simp [leNat]; have := b.isLt; omega)

theorem lays_win (w : Option WinIdx) : Lays [winByte w] 1 [indexAt 0 w] := by
  cases w with
  | none   => exact lays_byte _
  | some i => exact lays_one rfl (by simp [winByte, leNat])

theorem lays_tag (w : Option Tag) : Lays [tagByte w] 1 [indexAt 0 w] := by
  cases w with
  | none   => exact lays_byte _
  | some i => exact lays_one rfl (by simp [tagByte, leNat])

theorem lays_robot (w : Option RobotIdx) : Lays [robotByte w] 1 [indexAt 0 w] := by
  cases w with
  | none   => exact lays_byte _
  | some i => exact lays_one rfl (by simp [robotByte, leNat])

theorem lays_opt (c o len : Nat) (v : Option Nat) : Lays (optBytes c o len v) len [mayBeAt 0 len v] := by
  cases v with
  | none   => exact lays_one (openBytes_length c o len) (by simp)
  | some x =>
    refine lays_one (leBytes_length len x) ?_
    rintro y ⟨⟩
    exact leNat_leBytes len x

theorem lays_openBytes (c o len : Nat) : Lays (openBytes c o len) len [mayBeAt 0 len none] :=
  lays_one (openBytes_length c o len) (by simp)

theorem lays_openBits (c o mask : Nat) (h : mask < 256) : Lays (openBits c o mask) 1 [flagsAt 0 mask none] := by
  refine lays_one rfl ⟨by simp, fun _ => ?_⟩
  rw [show leNat (openBits c o mask) = (Config.openByte c o).toNat &&& mask by
    simp [openBits, leNat, Nat.mod_eq_of_lt h], Nat.and_assoc, Nat.and_self]

theorem bits_lt : ∀ l : List Bool, bits l < 2 ^ l.length
  | []     => by simp [bits]
  | b :: l => by
    have := bits_lt l
    have hb : (if b = true then 1 else 0) ≤ 1 := by split <;> omega
    simp only [bits, List.length_cons, Nat.pow_succ]
    omega

/-- A flags byte holds its flags. -/
theorem lays_flags {v mask : Nat} {l : List Bool} (hv : v = bits l) (hl : l.length ≤ 8) :
    Lays (b1 v) 1 [flagsAt 0 mask (some l)] := by
  refine lays_one rfl ⟨?_, by simp⟩
  rintro x ⟨⟩
  have h := bits_lt l
  have : 2 ^ l.length ≤ 2 ^ 8 := Nat.pow_le_pow_right (by omega) hl
  simp only [b1, leNat, BitVec.toNat_ofNat, hv]
  omega

/-- Structures of one size behind a structure. -/
theorem Lays.blocks {α : Type} (g : α → List Byte) (F : α → List LayoutField) (pos : α → Nat) (k : Nat)
    (hg : ∀ x, Lays (g x) k (F x)) : ∀ (l : List α) (pre : List Byte) (b : Nat) (fs : List LayoutField), Lays pre b fs →
      l.map pos = (List.range l.length).map (fun i => b + k * i) →
      Lays (pre ++ l.flatMap g) (b + k * l.length) (fs ++ l.flatMap fun x => (F x).map (LayoutField.shift (pos x)))
  | [], pre, b, fs, h, _ => by simpa using h
  | x :: l, pre, b, fs, h, hp => by
    simp only [List.map_cons, List.length_cons, List.range_succ_eq_map, List.map_map, List.cons.injEq] at hp
    have h1 := h.append (hg x)
    obtain ⟨hb, hp⟩ := hp
    obtain rfl : pos x = b := by simpa using hb
    have h2 := Lays.blocks g F pos k hg l (pre ++ g x) (pos x + k) _ h1 (by
      rw [hp]; refine List.map_congr_left fun i _ => ?_
      simp only [Function.comp]; rw [Nat.mul_succ]; omega)
    have e : pos x + k + k * l.length = pos x + k * (l.length + 1) := by rw [Nat.mul_succ]; omega
    simpa [e, List.append_assoc] using h2

theorem flagBits_one (a : Bool) : bit a 0 = bits [a] := by cases a <;> rfl
theorem flagBits_two (a b : Bool) : bit a 0 + bit b 1 = bits [a, b] := by cases a <;> cases b <;> rfl
theorem flagBits_three (a b c : Bool) : bit a 0 + bit b 1 + bit c 2 = bits [a, b, c] := by
  cases a <;> cases b <;> cases c <;> rfl
theorem flagBits_four (a b c d : Bool) : bit a 0 + bit b 1 + bit c 2 + bit d 3 = bits [a, b, c, d] := by
  cases a <;> cases b <;> cases c <;> cases d <;> rfl
theorem flagBits_five (a b c d e : Bool) : bit a 0 + bit b 1 + bit c 2 + bit d 3 + bit e 4 = bits [a, b, c, d, e] := by
  cases a <;> cases b <;> cases c <;> cases d <;> cases e <;> rfl

/-! ## Notices -/

theorem lays_claimWindows (ws : List WinIdx) : Lays (claimWindowBytes ws) 8 (claimIndices 0 ws) := by
  have h : claimWindowBytes ws = (List.range 8).flatMap fun k => [winByte ws[k]?] := by
    apply List.ext_getElem?
    intro n
    unfold claimWindowBytes fitBytes
    rcases ws with _ | ⟨a, _ | ⟨b, _ | ⟨c, _ | ⟨d, _ | ⟨e, _ | ⟨f, _ | ⟨g, _ | ⟨h, t⟩⟩⟩⟩⟩⟩⟩⟩ <;>
      simp [List.range_succ_eq_map, winByte, zeroBytes]
  rw [h]
  exact Lays.blocks (fun k => [winByte ws[k]?]) (fun k => [indexAt 0 ws[k]?]) (fun k => k) 1 (fun k => lays_win _)
    (List.range 8) [] 0 [] lays_nil (by simp)

theorem notice_laid (n : Notice) (time : Nat) : noticeLaid n time (n.bytes time) := by
  intro hoff
  have head : ∀ (k s : Nat) (b : Byte), b.toNat = s →
      Lays (b1 k ++ [b] ++ zeroBytes 6 ++ leBytes 8 time) 16 [isAt 0 1 k, isAt 1 1 s, isAt 8 8 time] := by
    rintro k _ b rfl
    exact (((lays_b1 k).append (lays_byte b)).append (lays_zero 6)).append (lays_le 8 time)
  have hid : ∀ {k : Nat} (i : Fin k), k ≤ 256 → (BitVec.ofNat 8 i.val).toNat = i.val := fun i hk => by
    have := i.isLt; simp; omega
  unfold Notice.bytes
  cases n with
  | faultNew r k t w =>
    simp only [Notice.details, fault_code]
    exact ((head 1 _ _ (hid r (by omega))).append
      ((((lays_b1 _).append (lays_tag t)).append (lays_win w)).append (lays_zero 13))).1
  | faultOverflow k t w =>
    simp only [Notice.details, fault_code]
    exact ((head 2 _ _ rfl).append ((((lays_b1 _).append (lays_tag t)).append (lays_win w)).append (lays_zero 13))).1
  | clockState a b c =>
    simp only [Notice.details, clockState_code, clockCause_code]
    exact ((head 3 _ _ rfl).append ((((lays_b1 _).append (lays_b1 _)).append (lays_b1 _)).append (lays_zero 13))).1
  | clockStep w off after =>
    refine ((head 4 _ (winByte w) ?_).append ((lays_one (p := fun n => n = leNat off % 256 ^ 8) (hoff w off after rfl) ?_).append
      (lays_le 8 after))).1
    · cases w with
      | none   => rfl
      | some i => exact hid i (by omega)
    · rw [Nat.mod_eq_of_lt]
      have : ∀ l : List Byte, leNat l < 256 ^ l.length := by
        intro l
        induction l with
        | nil => simp [leNat]
        | cons b l ih =>
          have := b.isLt
          simp only [leNat, List.length_cons, Nat.pow_succ]
          omega
      simpa [hoff w off after rfl] using this off
  | sourceChange a b g =>
    simp only [Notice.details, flagBits_one]
    exact ((head 5 _ _ rfl).append
      (((((lays_win a).append (lays_win b)).append (lays_byte _)).append (lays_b1 _)).append (lays_zero 12))).1
  | robotStale r q k =>
    exact ((head 6 _ _ (hid r (by omega))).append (((lays_le 2 _).append (lays_b1 k)).append (lays_zero 13))).1
  | robotRecovered r q => exact ((head 7 _ _ (hid r (by omega))).append ((lays_le 2 _).append (lays_zero 14))).1
  | publishRefused r q c why =>
    simp only [Notice.details, flagBits_one, reason_code]
    exact ((head 8 _ _ (hid r (by omega))).append
      ((((lays_le 2 _).append (lays_b1 _)).append (lays_b1 _)).append (lays_zero 12))).1
  | publishCancelled r p k =>
    simp only [Notice.details, flagBits_two]
    exact ((head 9 _ _ (hid r (by omega))).append
      (((((lays_le 2 _).append (lays_b1 _)).append (lays_zero 1)).append (lays_le 2 _)).append (lays_zero 10))).1
  | lineStopped => exact ((head 10 _ _ rfl).append (lays_zero 16)).1
  | lineRunning => exact ((head 11 _ _ rfl).append (lays_zero 16)).1
  | serviceClaim c =>
    exact ((head 12 _ _ rfl).append
      (((((lays_le 4 _).append (lays_b1 _)).append (lays_zero 1)).append (lays_le 2 _)).append
        (lays_claimWindows c.windows))).1
  | serviceGranted c =>
    exact ((head 13 _ _ rfl).append
      ((((lays_le 4 _).append (lays_b1 _)).append (lays_zero 3)).append (lays_claimWindows c.windows))).1
  | serviceReturned q cause =>
    simp only [Notice.details, cause_code]
    exact ((head 14 _ _ rfl).append (((lays_le 4 _).append (lays_b1 _)).append (lays_zero 11))).1
  | fenceDone k => exact ((head 15 _ _ rfl).append ((lays_b1 k).append (lays_zero 15))).1
  | decisionOverflow s =>
    simp only [Notice.details, flagBits_one]
    exact ((head 16 _ _ rfl).append (((lays_le 4 _).append (lays_b1 _)).append (lays_zero 11))).1
  | dropped k t => exact ((head 17 _ _ rfl).append (((lays_le 2 k).append (lays_zero 6)).append (lays_le 8 t))).1

/-! ## Decisions and mirrors -/

theorem reasons_bits {l : List RejectReason} (h : l.Nodup) : (l.map fun r => 2 ^ r.bitNo).sum =
    bits (([.purged, .fillBad, .fillUnreported, .verdictMissing, .verdictFail, .verdictUnsure, .suspectStale,
      .suspectReview] : List RejectReason).map fun why => decide (why ∈ l)) := by
  have hp : l.Perm (([.purged, .fillBad, .fillUnreported, .verdictMissing, .verdictFail, .verdictUnsure, .suspectStale,
      .suspectReview] : List RejectReason).filter fun why => decide (why ∈ l)) := by
    refine (List.perm_ext_iff_of_nodup h (List.Nodup.filter _ (by decide))).2 fun a => ?_
    cases a <;> simp
  have hs : ∀ (p : RejectReason → Bool) (k : List RejectReason),
      ((k.filter p).map fun r => 2 ^ r.bitNo).sum = (k.map fun r => 2 ^ r.bitNo * if p r then 1 else 0).sum := by
    intro p k
    induction k with
    | nil       => rfl
    | cons a k ih => by_cases hpa : p a = true <;> simp [hpa, ih]
  rw [(hp.map _).sum_eq, hs]
  simp only [List.map_cons, List.map_nil, List.sum_cons, List.sum_nil, bits, RejectReason.bitNo]
  omega

theorem decision_laid {d : Decision} (count : Nat) (h : d.reasons.Nodup) : laid (d.bytes count) 16 (decisionFields d) := by
  have hr : d.rejected = decide (d.reasons ≠ []) := by
    unfold Decision.rejected
    cases d.reasons <;> rfl
  unfold Decision.bytes decisionFields
  rw [reasons_bits h, hr, flagBits_three]
  exact ((((((lays_le 4 _).append (lays_b1 _)).append (lays_robot _)).append (lays_opt count 6 1 _)).append
    (lays_b1 _)).append (lays_le 8 _)).1

theorem mirror_laid (count : Nat) (r : Option FaultRecord) : laid (mirrorBytes count r) 32 (mirrorFields r) := by
  cases r with
  | none   => exact (lays_zero 32).1
  | some r =>
    unfold mirrorBytes mirrorFields
    simp only [fault_code, flagBits_five]
    exact ((((((((((lays_b1 _).append (lays_b1 _)).append (lays_tag _)).append (lays_opt count 3 1 _)).append
      (lays_win _)).append (lays_zero 1)).append (lays_le 2 _)).append (lays_opt count 8 4 _)).append
      (lays_le 4 _)).append (lays_le 8 _) |>.append (lays_le 8 _)).1

/-! ## Snapshots -/

theorem lays_identity (s : State) : Lays (identityBytes s) 64 (identityFields s) :=
  ((((((((((lays_le 4 _).append (lays_b1 1)).append (lays_b1 _)).append (lays_b1 32)).append (lays_b1 6)).append
    (lays_b1 8)).append (lays_b1 4)).append (lays_b1 16)).append (lays_zero 1)).append (lays_le 2 128)).append
    (lays_le 2 512) |>.append (lays_zero 48)

theorem lays_optVec {n : Nat} (c o len : Nat) (v : Option (BitVec n)) :
    Lays (optVec c o len v) len [mayBeAt 0 len (v.map BitVec.toNat)] := lays_opt c o len _

/-- A window entry's bytes, field by field. -/
theorem lays_entry (c o st : Nat) (v1 v2 v3 v5 v6 v7 v8 v12 v16 v20 : Option Nat) {fl : List Byte}
    {v4 : Option (List Bool)} (r : Option RobotIdx) (hf : Lays fl 1 [flagsAt 0 1 v4]) :
    Lays (b1 st ++ optBytes c (o + 1) 1 v1 ++ optBytes c (o + 2) 1 v2 ++ optBytes c (o + 3) 1 v3 ++ fl
      ++ optBytes c (o + 5) 1 v5 ++ optBytes c (o + 6) 1 v6 ++ optBytes c (o + 7) 1 v7 ++ optBytes c (o + 8) 4 v8
      ++ optBytes c (o + 12) 4 v12 ++ optBytes c (o + 16) 4 v16 ++ optBytes c (o + 20) 4 v20 ++ [robotByte r]
      ++ zeroBytes 7) 32
      [isAt 0 1 st, mayBeAt 1 1 v1, mayBeAt 2 1 v2, mayBeAt 3 1 v3, flagsAt 4 1 v4, mayBeAt 5 1 v5, mayBeAt 6 1 v6,
       mayBeAt 7 1 v7, mayBeAt 8 4 v8, mayBeAt 12 4 v12, mayBeAt 16 4 v16, mayBeAt 20 4 v20, indexAt 24 r] :=
  (((((((((((((lays_b1 st).append (lays_opt ..)).append (lays_opt ..)).append (lays_opt ..)).append hf).append
    (lays_opt ..)).append (lays_opt ..)).append (lays_opt ..)).append (lays_opt ..)).append (lays_opt ..)).append
    (lays_opt ..)).append (lays_opt ..)).append (lays_robot r)).append (lays_zero 7)

theorem lays_window (c o : Nat) (e : WinState) : Lays (windowBytes c o e) 32 (windowFields e) := by
  unfold windowBytes windowFields
  rw [show Authority.code = codeOfAuthority from funext authority_code,
    show feedKindCode = codeOfKind from funext feedKind_code]
  rcases e with _ | w | ⟨w, new⟩
  · exact lays_entry c o _ _ _ _ _ _ _ _ _ _ _ none (lays_openBits c _ 1 (by omega))
  all_goals
    rcases w with ⟨base, size, rs, ws, (_ | _ | _) | ⟨_, _⟩ | ⟨_, _, r, ha, hb⟩ | ⟨k, _ | _ | _⟩⟩ <;>
      exact lays_entry c o _ _ _ _ _ _ _ _ _ _ _ _ (lays_flags rfl (Nat.le_of_ble_eq_true rfl))

theorem lays_request (c o : Nat) (q : Option PublishRequest) : Lays (requestByte c o q) 1
    [flagsAt 0 6 (q.map fun q => [true, q.confirm, decide (q.origin = .service)])] := by
  cases q with
  | none   => exact lays_openBits c o 6 (by omega)
  | some q => exact lays_flags (flagBits_three ..) (Nat.le_of_ble_eq_true rfl)

theorem lays_robotRecord (c o : Nat) (r : Option Bound) : Lays (robotBytes c o r) 64 (robotFields r) := by
  have key : ∀ {fl : List Byte} {v0 : Nat} (w1 w2 : Option WinIdx) (t3 : Option Tag)
      (v4 v8 v9 v10 v11 v20 v21 v22 v23 v24 v26 v28 : Option Nat) (s12 s16 s18 : Nat) (q1 q2 : Option PublishRequest),
      Lays fl 1 [isAt 0 1 v0] →
      Lays (fl ++ [winByte w1] ++ [winByte w2] ++ [tagByte t3] ++ optBytes c (o + 4) 4 v4 ++ optBytes c (o + 8) 1 v8
        ++ optBytes c (o + 9) 1 v9 ++ optBytes c (o + 10) 1 v10 ++ optBytes c (o + 11) 1 v11 ++ leBytes 2 s12
        ++ requestByte c (o + 14) q1 ++ requestByte c (o + 15) q2 ++ leBytes 2 s16 ++ leBytes 2 s18
        ++ optBytes c (o + 20) 1 v20 ++ optBytes c (o + 21) 1 v21 ++ optBytes c (o + 22) 1 v22
        ++ optBytes c (o + 23) 1 v23 ++ optBytes c (o + 24) 1 v24 ++ zeroBytes 1 ++ optBytes c (o + 26) 2 v26
        ++ optBytes c (o + 28) 8 v28 ++ zeroBytes 28) 64
        [isAt 0 1 v0, indexAt 1 w1, indexAt 2 w2, indexAt 3 t3, mayBeAt 4 4 v4, mayBeAt 8 1 v8, mayBeAt 9 1 v9,
         mayBeAt 10 1 v10, mayBeAt 11 1 v11, isAt 12 2 s12,
         flagsAt 14 6 (q1.map fun q => [true, q.confirm, decide (q.origin = .service)]),
         flagsAt 15 6 (q2.map fun q => [true, q.confirm, decide (q.origin = .service)]), isAt 16 2 s16, isAt 18 2 s18,
         mayBeAt 20 1 v20, mayBeAt 21 1 v21, mayBeAt 22 1 v22, mayBeAt 23 1 v23, mayBeAt 24 1 v24, mayBeAt 26 2 v26,
         mayBeAt 28 8 v28] :=
    by
    intros _ v0 w1 w2 t3 v4 v8 v9 v10 v11 v20 v21 v22 v23 v24 v26 v28 s12 s16 s18 q1 q2 hf
    have h := (((((((((((((((((((((hf.append (lays_win w1)).append (lays_win w2)).append (lays_tag t3)).append
      (lays_opt c (o + 4) 4 v4)).append (lays_opt c (o + 8) 1 v8)).append (lays_opt c (o + 9) 1 v9)).append
      (lays_opt c (o + 10) 1 v10)).append (lays_opt c (o + 11) 1 v11)).append (lays_le 2 s12)).append
      (lays_request c (o + 14) q1)).append (lays_request c (o + 15) q2)).append (lays_le 2 s16)).append
      (lays_le 2 s18)).append (lays_opt c (o + 20) 1 v20)).append (lays_opt c (o + 21) 1 v21)).append
      (lays_opt c (o + 22) 1 v22)).append (lays_opt c (o + 23) 1 v23)).append (lays_opt c (o + 24) 1 v24)).append
      (lays_zero 1)).append (lays_opt c (o + 26) 2 v26)).append (lays_opt c (o + 28) 8 v28)).append (lays_zero 28)
    simpa only [List.map_cons, List.map_nil, List.cons_append, List.nil_append, List.append_nil, LayoutField.shift, isAt, mayBeAt, flagsAt,
      indexAt, Nat.reduceAdd] using h
  have hq : ∀ q : Option PublishRequest, ((q.map PublishRequest.seq).getD 0).toNat = match q with
      | some q => q.seq.toNat
      | none   => 0 := fun q => by cases q <;> rfl
  unfold robotBytes robotFields requestSeq
  simp only [hq, publish_code, echo_code, mode_code, flagBits_five]
  cases r with
  | none   => exact key none none none _ _ _ _ _ _ _ _ _ _ _ _ 0 _ _ none none (lays_b1 0)
  | some b => exact key _ _ _ _ _ _ _ _ _ _ _ _ _ _ _ _ _ _ _ _ (lays_b1 _)

theorem lays_header (c : Nat) (t : Tracking) : Lays (trackHeaderBytes c t) 64 (headerFields t) := by
  unfold trackHeaderBytes headerFields
  simp only [flagBits_two, line_code, unsure_code, show bit t.cfg.isSome 0 = if t.cfg.isSome = true then 1 else 0 from rfl]
  generalize t.cfg.bind (fun g => g.cameras[0]?) = k0
  generalize t.cfg.bind (fun g => g.cameras[1]?) = k1
  generalize t.cfg.bind (fun g => g.cameras[2]?) = k2
  have h := (((((((((((((((((((((((lays_b1 (if t.cfg.isSome = true then 1 else 0)).append (lays_b1 (codeOfLine t.line))).append
    (lays_opt c 2 1 (t.cfg.map (·.rejectPocket)))).append (lays_opt c 3 1 (t.cfg.map (·.cameras.length)))).append
    (lays_optVec c 4 1 (t.cfg.map (·.required)))).append (lays_opt c 5 1 (t.cfg.map fun g => codeOfUnsure g.unsure))).append
    (lays_opt c 6 1 (t.cfg.map (·.deadline)))).append (lays_opt c 7 1 (k0.map (·.station)))).append
    (lays_opt c 8 1 (k1.map (·.station)))).append (lays_opt c 9 1 (k2.map (·.station)))).append
    (lays_win (k0.map (·.feed)))).append (lays_win (k1.map (·.feed)))).append (lays_win (k2.map (·.feed)))).append
    (lays_b1 t.filled.length)).append (lays_opt c 14 2 (t.cfg.map (·.target)))).append
    (lays_opt c 16 2 (t.cfg.map (·.tolerance)))).append (lays_le 2 t.lineStopMs)).append
    (lays_opt c 20 4 (t.cfg.map (·.delay)))).append (lays_opt c 24 4 (t.cfg.map (·.width)))).append
    (lays_le 4 (t.nextExit.getD 0).toNat)).append (lays_b1 (bits [t.nextExit.isSome, t.interval.isSome]))).append
    (lays_zero 3)).append (lays_opt c 36 4 t.interval)).append (lays_opt c 40 8 t.lastPulse) |>.append (lays_zero 16)
  simpa only [List.map_cons, List.map_nil, List.cons_append, List.nil_append, List.append_nil, LayoutField.shift, isAt,
    mayBeAt, flagsAt, indexAt, Nat.reduceAdd, Option.map_map, Function.comp_def] using h

theorem lays_verdict (v : Option (Verdict × BitVec 16)) : Lays (verdictByte v) 1 [isAt 0 1 (match v with
    | some v => codeOfVerdict v.1
    | none   => 0)] := by
  unfold verdictByte
  rcases v with _ | ⟨v, x⟩
  · exact lays_b1 0
  · rw [show ((Option.map (fun v => verdictCode v.1) (some (v, x))).getD 0) = codeOfVerdict v from verdict_code v]
    exact lays_b1 _

theorem lays_bottle (c o : Nat) (b : Bottle) : Lays (bottleBytes c o b) 32 (chainFields (some (.bottle b))) := by
  have key : ∀ (flags judged serial stamp : Nat) (r : Option RobotIdx) (v4 : Option Byte) (v5 : Option Nat)
      (v6 d0 d1 d2 : Option (BitVec 16)) (v0 v1 v2 : Option (Verdict × BitVec 16)) (k0 k1 k2 : Nat),
      Lays (verdictByte v0) 1 [isAt 0 1 k0] → Lays (verdictByte v1) 1 [isAt 0 1 k1] →
      Lays (verdictByte v2) 1 [isAt 0 1 k2] →
      Lays (b1 1 ++ b1 flags ++ b1 judged ++ [robotByte r] ++ optVec c (o + 4) 1 v4 ++ optBytes c (o + 5) 1 v5
        ++ optVec c (o + 6) 2 v6 ++ leBytes 4 serial ++ verdictByte v0 ++ verdictByte v1 ++ verdictByte v2 ++ zeroBytes 1
        ++ optVec c (o + 16) 2 d0 ++ optVec c (o + 18) 2 d1 ++ optVec c (o + 20) 2 d2 ++ zeroBytes 2 ++ leBytes 8 stamp) 32
        [isAt 0 1 1, isAt 1 1 flags, isAt 2 1 judged, indexAt 3 r, mayBeAt 4 1 (v4.map BitVec.toNat), mayBeAt 5 1 v5,
         mayBeAt 6 2 (v6.map BitVec.toNat), isAt 8 4 serial, isAt 12 1 k0, isAt 13 1 k1, isAt 14 1 k2,
         mayBeAt 16 2 (d0.map BitVec.toNat), mayBeAt 18 2 (d1.map BitVec.toNat), mayBeAt 20 2 (d2.map BitVec.toNat),
         isAt 24 8 stamp] := by
    intros flags judged serial stamp r v4 v5 v6 d0 d1 d2 v0 v1 v2 k0 k1 k2 h0 h1 h2
    have h := (((((((((((((((((lays_b1 1).append (lays_b1 flags)).append (lays_b1 judged)).append (lays_robot r)).append
      (lays_optVec c (o + 4) 1 v4)).append (lays_opt c (o + 5) 1 v5)).append (lays_optVec c (o + 6) 2 v6)).append
      (lays_le 4 serial)).append h0).append h1).append h2).append (lays_zero 1)).append
      (lays_optVec c (o + 16) 2 d0)).append (lays_optVec c (o + 18) 2 d1)).append (lays_optVec c (o + 20) 2 d2)).append
      (lays_zero 2)).append (lays_le 8 stamp))
    simpa only [List.map_cons, List.map_nil, List.cons_append, List.nil_append, List.append_nil, LayoutField.shift, isAt,
      mayBeAt, flagsAt, indexAt, Nat.reduceAdd] using h
  have any : ∀ m : FillRecord → Bool, b.fill.any m = match b.fill with
      | some f => m f
      | none   => false := fun m => by cases b.fill <;> rfl
  unfold bottleBytes chainFields Bottle.judgement
  simp only [flagBits_four, fill_code, any]
  have h := key (bits [b.serial.isSome, b.windowOpen, match b.fill with
      | some f => f.stale
      | none   => false, match b.fill with
      | some f => f.review
      | none   => false]) (match b.fill with
      | some f => if f.good = true then 1 else 2
      | none   => 3) (b.serial.getD 0).toNat b.exitStamp (b.fill.map (·.robot)) (b.fill.map (·.valve))
    (b.fill.map fun f => codeOfFill f.result) (b.fill.map (·.mass)) (b.verdict0.map (·.2)) (b.verdict1.map (·.2))
    (b.verdict2.map (·.2)) _ _ _ _ _ _ (lays_verdict b.verdict0) (lays_verdict b.verdict1) (lays_verdict b.verdict2)
  simp only [Option.map_map, Function.comp_def] at h
  rcases b with ⟨serial, _ | f, v0, v1, v2, _, _⟩ <;> exact h

theorem lays_chainEntry (c o : Nat) (e : ChainEntry) : Lays (chainEntryBytes c o e) 32 (chainFields (some e)) := by
  have bare : ∀ kind, Lays (bareEntryBytes c o kind) 32 [isAt 0 1 kind, isAt 1 1 0, mayBeAt 2 1 none, isAt 3 1 255,
      mayBeAt 4 4 none, mayBeAt 16 6 none, mayBeAt 24 8 none] := fun kind =>
    ((((((((lays_b1 kind).append (lays_b1 0)).append (lays_openBytes c _ 1)).append
      (lays_byte 0xFF)).append (lays_openBytes c _ 4)).append (lays_zero 8)).append (lays_openBytes c _ 6)).append
      (lays_zero 2)).append (lays_openBytes c _ 8)
  cases e with
  | bottle b => exact lays_bottle c o b
  | gap      => exact bare 2
  | purged   => exact bare 3

theorem lays_filled (f : Option FillRecord) : Lays (filledBytes f) 16 (filledFields f) := by
  cases f with
  | none   => exact lays_zero 16
  | some f =>
    unfold filledBytes filledFields
    simp only [flagBits_three, fill_code]
    have hr : Lays [robotByte (some f.robot)] 1 [isAt 0 1 f.robot.val] := lays_robot (some f.robot)
    exact ((((((lays_le 4 _).append hr).append (lays_byte f.valve)).append (lays_b1 _)).append (lays_b1 _)).append
      (lays_le 2 _)).append (lays_zero 6)

theorem lays_place (p : Place) : Lays (placeBytes p) 24 (placeFields p) := by
  unfold placeBytes placeFields
  simp only [flagBits_two]
  exact ((((((lays_win _).append (lays_b1 _)).append (lays_byte _)).append (lays_zero 1)).append (lays_le 4 _)).append
    (lays_le 8 _)).append (lays_le 8 _)

theorem lays_clock (c : Nat) (s : State) : Lays (clockBytes c s) 128 (clockFields s.clk) := by
  unfold clockBytes clockFields intBytes4
  simp only [flagBits_two, clockState_code]
  generalize s.clk = k
  have h := ((((((((((((((((((((lays_le 8 k.ns.toNat).append (lays_le 4 k.frac.toNat)).append (lays_zero 4)).append
    (lays_le 8 k.elapsed)).append (lays_le 8 k.increment)).append (lays_le 4 (BitVec.ofInt 32 k.integral).toNat)).append
    (lays_le 4 (BitVec.ofInt 32 k.rate).toNat)).append (lays_le 4 k.params.step)).append (lays_le 4 k.params.lock)).append
    (lays_le 4 k.params.rateLimit)).append (lays_le 2 k.params.holdover)).append (lays_b1 k.params.pShift)).append
    (lays_b1 k.params.iShift)).append (lays_b1 (codeOfClock k.state))).append (lays_win k.selected)).append
    (lays_b1 k.lockCount)).append (lays_b1 k.outlierCount)).append (lays_b1 (bits [k.stepped, k.silence.isSome]))).append
    (lays_zero 3)).append (lays_opt c 64 8 k.silence)).append (lays_place k.place0) |>.append (lays_place k.place1)
    |>.append (lays_zero 8)
  simpa only [List.map_cons, List.map_nil, List.cons_append, List.nil_append, List.append_nil, LayoutField.shift, isAt,
    mayBeAt, flagsAt, indexAt, placeFields, Nat.reduceAdd] using h

theorem robotSet_bits (rs : List RobotIdx) :
    robotSet rs = bits (([0, 1, 2, 3, 4, 5] : List RobotIdx).map fun r => decide (r ∈ rs)) := by
  have hb : ∀ (b : Bool) (n : Nat), bit b n = 2 ^ n * if b then 1 else 0 := fun b n => by cases b <;> simp [bit]
  simp only [robotSet, allRobots, List.map_cons, List.map_nil, List.sum_cons, List.sum_nil, bits, hb, Fin.coe_ofNat_eq_mod,
    Nat.reduceMod, Nat.reducePow]
  omega

/-- The bytes of the SERVICE snapshot, field by field. -/
theorem lays_session (c st f1 f3 f5 f8 f12 f24 f26 f32 f40 f48 : Nat) (v2 v4 v6 : Option Nat) (ws : List WinIdx) :
    Lays (b1 st ++ b1 f1 ++ optBytes c 2 1 v2 ++ b1 f3 ++ optBytes c 4 1 v4 ++ b1 f5 ++ optBytes c 6 2 v6 ++ leBytes 4 f8
      ++ leBytes 4 f12 ++ claimWindowBytes ws ++ leBytes 2 f24 ++ leBytes 2 f26 ++ zeroBytes 4 ++ leBytes 8 f32
      ++ leBytes 8 f40 ++ leBytes 8 f48 ++ zeroBytes 8) 64
      ([isAt 0 1 st, isAt 1 1 f1, mayBeAt 2 1 v2, isAt 3 1 f3, mayBeAt 4 1 v4, isAt 5 1 f5, mayBeAt 6 2 v6, isAt 8 4 f8,
        isAt 12 4 f12] ++ claimIndices 16 ws
        ++ [isAt 24 2 f24, isAt 26 2 f26, isAt 32 8 f32, isAt 40 8 f40, isAt 48 8 f48]) := by
  have h := (((((((((((((((((lays_b1 st).append (lays_b1 f1)).append (lays_opt c 2 1 v2)).append (lays_b1 f3)).append
    (lays_opt c 4 1 v4)).append (lays_b1 f5)).append (lays_opt c 6 2 v6)).append (lays_le 4 f8)).append
    (lays_le 4 f12)).append (lays_claimWindows ws)).append (lays_le 2 f24)).append (lays_le 2 f26)).append
    (lays_zero 4)).append (lays_le 8 f32)).append (lays_le 8 f40)).append (lays_le 8 f48)).append (lays_zero 8))
  convert h using 1
  simp only [List.map_cons, List.map_nil, List.cons_append, List.nil_append, List.append_nil, LayoutField.shift, isAt,
    mayBeAt, indexAt, Nat.reduceAdd, claimIndices, List.map_map, Function.comp_def, List.append_assoc, Nat.zero_add]

theorem lays_service (c : Nat) (s : State) : Lays (serviceBytes c s) 64 (serviceFields s) := by
  unfold serviceBytes serviceFields Session.claimSeq Session.windows
  simp only [flagBits_four, session_code, robotSet_bits]
  rcases hk : s.svc.claim with _ | k <;> rcases hc : s.svc.cause with _ | x
  · exact lays_session ..
  · rw [show (Option.map (fun x : Cause => x.reason.code) (some x)).getD 0 = codeOfCause x from cause_code x]
    exact lays_session ..
  · exact lays_session ..
  · rw [show (Option.map (fun x : Cause => x.reason.code) (some x)).getD 0 = codeOfCause x from cause_code x]
    exact lays_session ..

/-- A snapshot's copy is laid as Table 10-12 says. -/
theorem snapshot_laid (k : SnapshotKind) (s : State) : snapshotLaid k s (snapshotSize k) (snapshotBytes k s) := by
  cases k with
  | identity => exact ⟨rfl, (lays_identity s).1⟩
  | windows  =>
    refine ⟨rfl, ?_⟩
    have h := Lays.blocks (fun i : WinIdx => windowBytes s.openCount (32 * i.val) (s.entry i))
      (fun i => windowFields (s.entry i)) (fun i => 32 * i.val) 32 (fun i => lays_window ..) (List.finRange 32) [] 0 []
      lays_nil (by decide)
    have e : allWindows = List.finRange 32 := by decide
    simpa [snapshotBytes, windowsBytes, e] using h.1
  | robots   =>
    refine ⟨rfl, ?_⟩
    have h := Lays.blocks (fun r : RobotIdx => robotBytes s.openCount (64 * r.val) (s.bound? r))
      (fun r => robotFields (s.bound? r)) (fun r => 64 * r.val) 64 (fun r => lays_robotRecord ..) (List.finRange 6) [] 0 []
      lays_nil (by decide)
    have e : allRobots = List.finRange 6 := by decide
    simpa [snapshotBytes, robotsBytes, e] using h.1
  | tracking =>
    refine ⟨rfl, ?_⟩
    have h1 := Lays.blocks (fun p : Nat => match s.trk.chain[p]? with
        | some e => chainEntryBytes s.openCount (64 + 32 * p) e
        | none   => zeroBytes 32)
      (fun p => chainFields s.trk.chain[p]?) (fun p => 64 + 32 * p) 32 (fun p => by
        cases h : s.trk.chain[p]? with
        | none   => exact lays_zero 32
        | some e => exact lays_chainEntry ..) (List.range 64) _ 64 _ (lays_header s.openCount s.trk) (by simp)
    have h2 := Lays.blocks (fun n : Nat => filledBytes s.trk.filled[n]?) (fun n => filledFields s.trk.filled[n]?)
      (fun n => 2112 + 16 * n) 16 (fun n => lays_filled _) (List.range 16) _ _ _ h1 (by simp)
    exact h2.1
  | clock    => exact ⟨rfl, (lays_clock s.openCount s).1⟩
  | service  => exact ⟨rfl, (lays_service s.openCount s).1⟩

end Sys2Proof.Machine
end

