-- ==== Sys2Proof/Laws/Pieces.lean ====
section
/-! SUPPORT. The own writes of a snapshot, piece by piece, and the join of a transaction that waits. -/

namespace Sys2Proof.Machine
open Sys2Proof

/-- The free places of the own queue that no unit waits for. -/
def freePlaces (p : Path) : Nat := if p.waiting = [] then 16 - p.own.length else 0

theorem writePieces_eq (bytes : List Byte) (os : List Nat) (s : State) :
  writePieces bytes os s = (let pcs := os.mapIdx fun n o => newWrite (s.path.nextId + n) (.snapshot (decide (n + 1 = os.length))) (s.areaBase + 0x6000 + o) ((bytes.drop o).take 128)
     { s with path := { s.path with own := s.path.own ++ pcs.take (freePlaces s.path), nextId := s.path.nextId + os.length, waiting := s.path.waiting ++ (pcs.drop (freePlaces s.path)).map Waiter.txn } }) := by
  induction os generalizing s with
  | nil => simp [writePieces]
  | cons o os ih =>
    rw [writePieces, ih]
    dsimp only
    have hl : os.isEmpty = decide (0 + 1 = (o :: os).length) := by
      cases os <;> simp
    rw [List.mapIdx_cons, ← hl]
    set w : OwnTxn := newWrite (s.path.nextId + 0) (.snapshot os.isEmpty) (s.areaBase + 0x6000 + o) ((bytes.drop o).take 128) with hw
    have hst : ownWrite (.snapshot os.isEmpty) (s.areaBase + 0x6000 + o) ((bytes.drop o).take 128) s = { s with path := s.path.enqueue w } := rfl
    have harea : State.areaBase { s with path := s.path.enqueue w } = s.areaBase := rfl
    rw [hst, harea]
    have hpc : (List.mapIdx (fun n o => newWrite ((s.path.enqueue w).nextId + n) (.snapshot (decide (n + 1 = os.length))) (s.areaBase + 0x6000 + o) ((bytes.drop o).take 128)) os) =
       (List.mapIdx (fun n o' => newWrite (s.path.nextId + (n + 1)) (.snapshot (decide (n + 1 + 1 = (o :: os).length))) (s.areaBase + 0x6000 + o') ((bytes.drop o').take 128)) os) := by
      congr 1
      funext n o'
      have h1 : (s.path.enqueue w).nextId = s.path.nextId + 1 := by unfold Path.enqueue; split <;> rfl
      rw [h1, List.length_cons, show s.path.nextId + 1 + n = s.path.nextId + (n + 1) by omega]
      simp only [Nat.add_right_cancel_iff]
    rw [hpc]
    generalize (List.mapIdx (fun n o' => newWrite (s.path.nextId + (n + 1)) (.snapshot (decide (n + 1 + 1 = (o :: os).length))) (s.areaBase + 0x6000 + o') ((bytes.drop o').take 128)) os) = P
    by_cases hp : s.path.hasPlace = true
    · have he : s.path.enqueue w = { s.path with own := s.path.own ++ [w], nextId := s.path.nextId + 1 } := by
        unfold Path.enqueue; rw [if_pos hp]
      have hq := (Path.hasPlace_iff _).1 hp
      have hf : freePlaces s.path = freePlaces (s.path.enqueue w) + 1 := by
        rw [he]; unfold freePlaces; dsimp only; rw [if_pos hq.2, if_pos hq.2, List.length_append]; simp only [List.length_singleton]; omega
      rw [hf, List.take_succ_cons, List.drop_succ_cons]
      simp only [he, List.append_assoc, List.singleton_append, List.length_cons]
      rw [show s.path.nextId + 1 + os.length = s.path.nextId + (os.length + 1) by omega]
    · have he : s.path.enqueue w = { s.path with waiting := s.path.waiting ++ [.txn w], nextId := s.path.nextId + 1 } := by
        unfold Path.enqueue; rw [if_neg hp]
      have hf : freePlaces s.path = 0 := by
        unfold freePlaces
        split
        · rename_i hn
          by_contra hc
          exact hp ((Path.hasPlace_iff _).2 ⟨by omega, hn⟩)
        · rfl
      have hf' : freePlaces (s.path.enqueue w) = 0 := by
        rw [he]; unfold freePlaces; dsimp only; rw [if_neg (by simp)]
      rw [hf, hf']
      simp only [he, List.take_zero, List.drop_zero, List.append_assoc, List.append_nil, List.length_cons, List.map_cons, List.singleton_append]
      rw [show s.path.nextId + 1 + os.length = s.path.nextId + (os.length + 1) by omega]

theorem ownQueueJoin_txn {s : State} {t : OwnTxn} {rest : List Waiter} (hr : s.running = true) (hl : s.path.own.length < 16) (hw : s.path.waiting = .txn t :: rest) :
  exec .ownQueueJoin s = .next (afterJoin t.kind { s with path := { s.path with own := s.path.own ++ [t], waiting := rest } }) := by
  change Host.Outcome.next (ownQueueJoinAct s) = _
  unfold ownQueueJoinAct
  rw [hr, (placeFree_iff _).2 hl]
  dsimp only
  simp only [Bool.and_self, if_true]
  rw [hw]
  dsimp only
  unfold joinTxn State.popWaiter
  dsimp only
  rw [hw]; rfl

end Sys2Proof.Machine
end

