-- ==== Sys2Proof/Laws/Feeds.lean ====
section
/-! SUPPORT. The feed assembler: bytes and fields, records, stamping, the words of a write and the judgement of a record. -/

namespace Sys2Proof.Machine
open Sys2Proof

theorem leNat_lt (l : List Byte) : leNat l < 256 ^ l.length := by
  induction l with
  | nil => simp [leNat]
  | cons b l ih =>
    rw [leNat, List.length_cons, pow_succ]
    have := b.isLt
    omega

theorem fieldAt_lt (d : List Byte) (o n : Nat) : fieldAt d o n < 256 ^ n := by
  unfold fieldAt
  refine lt_of_lt_of_le (leNat_lt _) ?_
  exact Nat.pow_le_pow_right (by decide) (by simp)

theorem byteAt_toNat (d : List Byte) (n : Nat) : (byteAt d n).toNat = fieldAt d n 1 := by
  unfold byteAt fieldAt
  rw [List.getD_eq_getElem?_getD]
  by_cases h : n < d.length
  · rw [List.getElem?_eq_getElem h, List.drop_eq_getElem_cons h, List.take_succ_cons]; simp [leNat]
  · rw [List.getElem?_eq_none (by omega), List.drop_eq_nil_of_le (by omega)]; rfl

theorem fieldAt_set_ne (d : List Byte) (x : Byte) (o n : Nat) (h : 3 ≤ o ∨ o + n ≤ 2) : fieldAt (d.set 2 x) o n = fieldAt d o n := by
  unfold fieldAt
  rcases h with h | h
  · rw [List.drop_set_of_lt (by omega)]
  · congr 1
    apply List.ext_getElem?
    intro k
    by_cases hk : k < n
    · simp only [List.getElem?_take_of_lt hk, List.getElem?_drop]
      rw [List.getElem?_set_ne (by omega)]
    · rw [List.getElem?_take_eq_none (by omega), List.getElem?_take_eq_none (by omega)]

theorem ofNat_eq_iff_toNat {k : Nat} (v : Nat) (x : BitVec k) (h : v < 2 ^ k) : BitVec.ofNat k v = x ↔ v = x.toNat := by
  constructor
  · rintro rfl; rw [BitVec.toNat_ofNat, Nat.mod_eq_of_lt h]
  · rintro rfl; rw [BitVec.ofNat_toNat, BitVec.setWidth_eq]

theorem fieldAt_lt_1 (d o) : fieldAt d o 1 < 2 ^ 8 := fieldAt_lt d o 1

theorem fieldAt_lt_2 (d o) : fieldAt d o 2 < 2 ^ 16 := fieldAt_lt d o 2

theorem fieldAt_lt_4 (d o) : fieldAt d o 4 < 2 ^ 32 := fieldAt_lt d o 4

theorem byteAt_eq_iff (d : List Byte) (n : Nat) (b : Byte) : byteAt d n = b ↔ fieldAt d n 1 = b.toNat := by
  rw [← byteAt_toNat]
  exact ⟨fun h => by rw [h], fun h => BitVec.eq_of_toNat_eq h⟩

theorem reportedMode?_eq (b : Byte) (m : Mode) : reportedMode? b = some m ↔ b.toNat = codeOfMode m ∧ m ≠ .unknown := by
  rw [← mode_code]
  unfold reportedMode?
  split <;> rename_i h <;> rcases m <;> simp_all [modeCode]

theorem fillResult?_eq (b : Byte) (m : FillResult) : fillResult? b = some m ↔ b.toNat = codeOfFill m := by
  rw [← fill_code]
  unfold fillResult?
  split <;> rename_i h <;> rcases m <;> simp_all [fillResultCode]

theorem verdict?_eq (b : Byte) (m : Verdict) : verdict? b = some m ↔ b.toNat = codeOfVerdict m := by
  rw [← verdict_code]
  unfold verdict?
  split <;> rename_i h <;> rcases m <;> simp_all [verdictCode]

theorem claimWindows?_eq (l : List Byte) (ws : List WinIdx) : claimWindows? l = some ws ↔ ws.length = l.length ∧ ∀ (n : Nat) (i : WinIdx), ws[n]? = some i → (l[n]?.map BitVec.toNat) = some i.val := by
  induction l generalizing ws with
  | nil =>
    cases ws with
    | nil => simp [claimWindows?]
    | cons a ws => simp [claimWindows?]
  | cons b l ih =>
    rw [claimWindows?]
    cases ws with
    | nil =>
      simp only [List.length_nil, List.length_cons]
      constructor
      · intro h; split at h <;> simp at h
      · rintro ⟨h, _⟩; omega
    | cons a ws =>
      constructor
      · intro h
        split at h
        · rename_i i is h1 h2
          injection h with h; injection h with e1 e2; subst e1; subst e2
          obtain ⟨hl, hn⟩ := (ih _).1 h2
          refine ⟨by simp [hl], ?_⟩
          intro n j hj
          cases n with
          | zero => simp at hj; subst hj; simp [winIdx?_eq_some.1 h1]
          | succ n => simpa using hn n j (by simpa using hj)
        · cases h
      · rintro ⟨hl, hn⟩
        have h1 : winIdx? b = some a := by
          rw [winIdx?_eq_some]; simpa using hn 0 a rfl
        have h2 : claimWindows? l = some ws := by
          rw [ih]
          refine ⟨by simpa using hl, fun n i h => ?_⟩
          simpa using hn (n + 1) i (by simpa using h)
        rw [h1, h2]

theorem claim?_eq (d : List Byte) (hd : d.length = 32) (c : Claim) : claim? d = some c ↔ fieldAt d 8 1 = c.windows.length ∧ 1 ≤ c.windows.length ∧ c.windows.length ≤ 8
      ∧ fieldAt d 10 2 = c.keepMs ∧ 100 ≤ c.keepMs ∧ c.keepMs ≤ 5000 ∧ fieldAt d 12 4 = c.seq.toNat
      ∧ ∀ n i, c.windows[n]? = some i → fieldAt d (16 + n) 1 = i.val := by
  unfold claim?
  dsimp only
  rw [byteAt_toNat]
  have hget : ∀ k n, n < k → k ≤ 8 → (((d.drop 16).take k)[n]?.map BitVec.toNat) = some (fieldAt d (16 + n) 1) := by
    intro k n hn hk
    rw [List.getElem?_take_of_lt hn, List.getElem?_drop, List.getElem?_eq_getElem (by omega), ← byteAt_toNat, byteAt, List.getD_eq_getElem _ _ (by omega)]
    rfl
  constructor
  · intro h
    split at h
    · rename_i hc
      rw [Option.map_eq_some_iff] at h
      obtain ⟨ws, hw, rfl⟩ := h
      rw [claimWindows?_eq] at hw
      have hl : ws.length = fieldAt d 8 1 := by rw [hw.1]; simp [hd]; omega
      dsimp only
      refine ⟨hl.symm, by omega, by omega, rfl, by omega, by omega, ?_, ?_⟩
      · rw [BitVec.toNat_ofNat, Nat.mod_eq_of_lt (fieldAt_lt_4 d 12)]
      · intro n i hi
        have hn : n < ws.length := by
          by_contra hc; rw [List.getElem?_eq_none (by omega)] at hi; cases hi
        have := hw.2 n i hi
        rw [hget _ n (by omega) (by omega)] at this
        injection this
    · cases h
  · rintro ⟨h1, h2, h3, h4, h5, h6, h7, h8⟩
    rw [if_pos (by omega)]
    have : claimWindows? ((d.drop 16).take (fieldAt d 8 1)) = some c.windows := by
      rw [claimWindows?_eq]
      refine ⟨by simp [hd]; omega, fun n i hi => ?_⟩
      have hn : n < c.windows.length := by
        by_contra hc; rw [List.getElem?_eq_none (by omega)] at hi; cases hi
      rw [hget _ n (by omega) (by omega), h8 n i hi]
    rw [this, Option.map_some]
    congr 1
    cases c with | mk q ws k =>
    simp only at *
    subst h4
    congr 1
    rw [ofNat_eq_iff_toNat _ _ (fieldAt_lt_4 d 12)]; exact h7

/-- What `typed` finds. -/
theorem RawRecord.typed_good_iff (r : RawRecord) (hd : r.bytes.length = 32) (h1 : fieldAt r.bytes 8 8 = r.w1.toNat) (h2 : fieldAt r.bytes 16 8 = r.w2.toNat) (rec : Record) :
   r.typed = .good rec ↔ spells r.bytes rec := by
  unfold RawRecord.typed RawRecord.typeCode RawRecord.subject
  generalize hD : r.bytes = d at *
  dsimp only
  simp only [byteAt_toNat]
  have hty : ∀ rec, spells d rec → fieldAt d 0 1 = (match rec with | .timeSync _ => 1 | .robotStatus _ => 2 | .fillReport _ => 3 | .verdict _ => 4 | .serviceClaim _ => 5 | .serviceKeep _ => 6 | .serviceRelease => 7 | .servicePublish _ => 8) := by
    intro rec h
    cases rec
    case serviceRelease => exact h
    all_goals exact h.1
  split
  case _ ht =>
    constructor
    · intro h; injection h with h; subst h
      exact ⟨ht, h1, h2, byteAt_toNat d 24 ▸ rfl⟩
    · intro h
      have := hty rec h
      rw [ht] at this
      cases rec <;> simp at this
      rename_i x
      obtain ⟨_, a, b, c⟩ := h
      cases x with | mk ra og gr =>
      congr 2
      congr 1
      · exact BitVec.eq_of_toNat_eq (h1.symm.trans a)
      · exact BitVec.eq_of_toNat_eq (h2.symm.trans b)
      · exact (byteAt_eq_iff _ _ _).2 c
  case _ ht =>
    constructor
    · intro h
      split at h
      · cases h
      · cases h
      · rename_i m n hm hn
        injection h with h; subst h
        rw [reportedMode?_eq, byteAt_toNat] at hm
        rw [robotIdx?_eq_some, byteAt_toNat] at hn
        exact ⟨ht, hn, hm.1, hm.2, by dsimp only; rw [BitVec.toNat_ofNat, Nat.mod_eq_of_lt (fieldAt_lt_2 d 10)], by dsimp only; rw [BitVec.toNat_ofNat, Nat.mod_eq_of_lt (fieldAt_lt_2 d 12)]⟩
    · intro h
      have := hty rec h
      rw [ht] at this
      cases rec <;> simp at this
      rename_i x
      cases x with | mk ro mo ap fc =>
      obtain ⟨_, a, b, b', c, e⟩ := h
      have hm : reportedMode? (byteAt d 8) = some mo := by rw [reportedMode?_eq, byteAt_toNat]; exact ⟨b, b'⟩
      have hn : robotIdx? (byteAt d 2) = some ro := by rw [robotIdx?_eq_some, byteAt_toNat]; exact a
      rw [hm, hn]
      dsimp only
      congr 2
      congr 1
      · exact (ofNat_eq_iff_toNat _ _ (fieldAt_lt_2 d 10)).2 c
      · exact (ofNat_eq_iff_toNat _ _ (fieldAt_lt_2 d 12)).2 e
  case _ ht =>
    constructor
    · intro h
      split at h
      · rename_i m n hm hn hr
        injection h with h; subst h
        rw [fillResult?_eq, byteAt_toNat] at hm
        rw [decide_eq_true_eq] at hn
        rw [robotIdx?_eq_some, byteAt_toNat] at hr
        exact ⟨ht, hr, by dsimp only; rw [BitVec.toNat_ofNat, Nat.mod_eq_of_lt (fieldAt_lt_4 d 8)], by dsimp only; rw [byteAt_toNat], by dsimp only; rw [byteAt_toNat]; exact hn, hm, by dsimp only; rw [BitVec.toNat_ofNat, Nat.mod_eq_of_lt (fieldAt_lt_2 d 14)]⟩
      · cases h
      · cases h
    · intro h
      have := hty rec h
      rw [ht] at this
      cases rec <;> simp at this
      rename_i x
      cases x with | mk ro se va re ma =>
      obtain ⟨_, a, b, c, c', e, f⟩ := h
      have hm : fillResult? (byteAt d 13) = some re := by rw [fillResult?_eq, byteAt_toNat]; exact e
      have hn : robotIdx? (byteAt d 2) = some ro := by rw [robotIdx?_eq_some, byteAt_toNat]; exact a
      have hv : decide (fieldAt d 12 1 ≤ 127) = true := by rw [decide_eq_true_eq, c]; exact c'
      rw [hm, hn, hv]
      dsimp only
      congr 2
      congr 1
      · exact (ofNat_eq_iff_toNat _ _ (fieldAt_lt_4 d 8)).2 b
      · exact (byteAt_eq_iff _ _ _).2 c
      · exact (ofNat_eq_iff_toNat _ _ (fieldAt_lt_2 d 14)).2 f
  case _ ht =>
    constructor
    · intro h
      split at h
      · cases h
      · rename_i v hv
        split at h
        · rename_i hs
          injection h with h; subst h
          rw [verdict?_eq, byteAt_toNat] at hv
          exact ⟨ht, by simp only, by dsimp only; rw [BitVec.toNat_ofNat, Nat.mod_eq_of_lt (fieldAt_lt_4 d 8)], hv, by dsimp only; rw [BitVec.toNat_ofNat, Nat.mod_eq_of_lt (fieldAt_lt_2 d 14)], h2⟩
        · cases h
    · intro h
      have := hty rec h
      rw [ht] at this
      cases rec <;> simp at this
      rename_i x
      cases x with | mk ca se ve de cp =>
      obtain ⟨_, a, b, c, e, f⟩ := h
      have hm : verdict? (byteAt d 12) = some ve := by rw [verdict?_eq, byteAt_toNat]; exact c
      rw [hm]
      dsimp only
      dsimp only at a
      rw [dif_pos (by rw [a]; exact ca.isLt)]
      congr 2
      congr 1
      · exact Fin.ext a
      · exact (ofNat_eq_iff_toNat _ _ (fieldAt_lt_4 d 8)).2 b
      · exact (ofNat_eq_iff_toNat _ _ (fieldAt_lt_2 d 14)).2 e
      · exact BitVec.eq_of_toNat_eq (h2.symm.trans f)
  case _ ht =>
    constructor
    · intro h
      split at h
      · rename_i c hc
        injection h with h; subst h
        exact ⟨ht, (claim?_eq d hd c).1 hc⟩
      · cases h
    · intro h
      have := hty rec h
      rw [ht] at this
      cases rec <;> simp at this
      rw [(claim?_eq d hd _).2 h.2]
  case _ ht =>
    constructor
    · intro h
      split at h
      · rename_i hp; injection h with h; subst h; exact ⟨ht, hp⟩
      · rename_i hp; injection h with h; subst h; exact ⟨ht, hp⟩
      · cases h
    · intro h
      have := hty rec h
      rw [ht] at this
      cases rec <;> simp at this
      rename_i p
      obtain ⟨_, h⟩ := h
      rw [h]
      cases p <;> rfl
  case _ ht =>
    constructor
    · intro h; injection h with h; subst h; exact ht
    · intro h
      have := hty rec h
      rw [ht] at this
      cases rec <;> simp at this
      rfl
  case _ ht =>
    have hbit : ((byteAt d 1).getLsbD 0 = true) ↔ fieldAt d 1 1 % 2 = 1 := by
      rw [← byteAt_toNat, BitVec.getLsbD, Nat.testBit_zero, decide_eq_true_eq]
    constructor
    · intro h
      split at h
      · rename_i n hn
        injection h with h; subst h
        rw [robotIdx?_eq_some, byteAt_toNat] at hn
        exact ⟨ht, hn, by dsimp only; rw [BitVec.toNat_ofNat, Nat.mod_eq_of_lt (fieldAt_lt_2 d 10)], hbit.symm⟩
      · cases h
    · intro h
      have := hty rec h
      rw [ht] at this
      cases rec <;> simp at this
      rename_i x
      cases x with | mk ro se cf =>
      obtain ⟨_, a, b, c⟩ := h
      have hn : robotIdx? (byteAt d 8) = some ro := by rw [robotIdx?_eq_some, byteAt_toNat]; exact a
      rw [hn]
      dsimp only
      congr 2
      congr 1
      · exact (ofNat_eq_iff_toNat _ _ (fieldAt_lt_2 d 10)).2 b
      · rw [Bool.eq_iff_iff, hbit]; exact c
  case _ n1 n2 n3 n4 n5 n6 n7 n8 =>
    constructor
    · intro h; cases h
    · intro h
      exfalso
      have := hty rec h
      cases rec <;> simp at this <;> simp_all

theorem leBytes_leNat (l : List Byte) : leBytes l.length (leNat l) = l := by
  induction l with
  | nil => rfl
  | cons b l ih =>
    rw [List.length_cons, leBytes, leNat]
    have hb := b.isLt
    have h1 : (b.toNat + 256 * leNat l) / 256 = leNat l := by omega
    rw [h1, ih]
    congr 1
    apply BitVec.eq_of_toNat_eq
    rw [BitVec.toNat_ofNat]; omega

theorem leBytes_word (l : List Byte) (h : l.length = 8) : leBytes 8 (BitVec.ofNat 64 (leNat l)).toNat = l := by
  have h2 := leNat_lt l
  rw [h] at h2
  rw [BitVec.toNat_ofNat, Nat.mod_eq_of_lt (lt_of_lt_of_le h2 (by decide))]
  have := leBytes_leNat l
  rwa [h] at this

theorem leNat_word (v : Word) : leNat (leBytes 8 v.toNat) = v.toNat := by
  rw [leNat_leBytes]; exact Nat.mod_eq_of_lt (lt_of_lt_of_le v.isLt (by decide))

theorem leNat_take (l : List Byte) (n : Nat) : leNat (l.take n) = leNat l % 256 ^ n := by
  induction l generalizing n with
  | nil => simp [leNat]
  | cons b l ih =>
    cases n with
    | zero => simp [leNat, Nat.mod_one]
    | succ n =>
      have hb : b.toNat < 256 := b.isLt
      rw [List.take_succ_cons, leNat, leNat, ih, pow_succ, Nat.mul_comm (256 ^ n) 256, Nat.mod_mul]
      congr 1
      · omega
      · congr 2; omega

theorem leNat_drop (l : List Byte) (n : Nat) : leNat (l.drop n) = leNat l / 256 ^ n := by
  induction l generalizing n with
  | nil => simp [leNat]
  | cons b l ih =>
    cases n with
    | zero => simp
    | succ n =>
      have hb : b.toNat < 256 := b.isLt
      rw [List.drop_succ_cons, leNat, ih, pow_succ, Nat.mul_comm (256 ^ n) 256, ← Nat.div_div_eq_div_mul]
      congr 1; omega

theorem fieldAt_leBytes (v : Word) (o n : Nat) : fieldAt (leBytes 8 v.toNat) o n = v.toNat / 256 ^ o % 256 ^ n := by
  rw [fieldAt, leNat_take, leNat_drop, leNat_word]

theorem RawRecord.bytes_length (r : RawRecord) : r.bytes.length = 32 := by
  simp [RawRecord.bytes, leBytes_length]

theorem RawRecord.field_w0 (r : RawRecord) (o n : Nat) (h : o + n ≤ 8) : fieldAt r.bytes o n = r.w0.toNat / 256 ^ o % 256 ^ n := by
  unfold RawRecord.bytes
  rw [fieldAt_append_left _ _ _ _ (by simp [leBytes_length]; omega), fieldAt_append_left _ _ _ _ (by simp [leBytes_length]; omega), fieldAt_append_left _ _ _ _ (by simp [leBytes_length]; omega), fieldAt_leBytes]

theorem RawRecord.field_w1 (r : RawRecord) : fieldAt r.bytes 8 8 = r.w1.toNat := by
  unfold RawRecord.bytes
  rw [fieldAt_append_left _ _ _ _ (by simp [leBytes_length]), fieldAt_append_left _ _ _ _ (by simp [leBytes_length]), fieldAt_append_right _ _ _ _ (by simp [leBytes_length]), leBytes_length, fieldAt_leBytes]
  have := r.w1.isLt
  rw [Nat.pow_zero, Nat.div_one, Nat.mod_eq_of_lt (lt_of_lt_of_le this (by decide))]

theorem RawRecord.field_w2 (r : RawRecord) : fieldAt r.bytes 16 8 = r.w2.toNat := by
  unfold RawRecord.bytes
  rw [fieldAt_append_left _ _ _ _ (by simp [leBytes_length]), fieldAt_append_right _ _ _ _ (by simp [leBytes_length])]
  simp only [List.length_append, leBytes_length]
  rw [fieldAt_leBytes]
  have := r.w2.isLt
  rw [Nat.pow_zero, Nat.div_one, Nat.mod_eq_of_lt (lt_of_lt_of_le this (by decide))]

theorem RawRecord.field_w3 (r : RawRecord) (o n : Nat) : fieldAt r.bytes (24 + o) n = r.w3.toNat / 256 ^ o % 256 ^ n := by
  unfold RawRecord.bytes
  rw [fieldAt_append_right _ _ _ _ (by simp [leBytes_length])]
  simp only [List.length_append, leBytes_length]
  rw [show 24 + o - (8 + 8 + 8) = o by omega, fieldAt_leBytes]

theorem headerSeq_field (r : RawRecord) : headerSeq r.w0 = BitVec.ofNat 32 (fieldAt r.bytes 4 4) := by
  rw [RawRecord.field_w0 r 4 4 (by omega)]
  apply BitVec.eq_of_toNat_eq
  rw [headerSeq, BitVec.extractLsb'_toNat, BitVec.toNat_ofNat, Nat.shiftRight_eq_div_pow]
  have h1 : 2 ^ 32 = 256 ^ 4 := by decide
  rw [h1, Nat.mod_mod]

theorem headerSeq_div (w0 : Word) : headerSeq w0 = BitVec.ofNat 32 (w0.toNat / 4294967296) := by
  apply BitVec.eq_of_toNat_eq
  rw [headerSeq, BitVec.extractLsb'_toNat, BitVec.toNat_ofNat, Nat.shiftRight_eq_div_pow]

theorem RawRecord.whole_iff (r : RawRecord) : r.whole = true ↔ fieldAt r.bytes 30 2 = fieldAt r.bytes 4 2 := by
  rw [show (30 : Nat) = 24 + 6 from rfl, RawRecord.field_w3 r 6 2, RawRecord.field_w0 r 4 2 (by omega)]
  unfold RawRecord.whole
  rw [beq_iff_eq]
  have h1 : (r.w3.extractLsb' 48 16).toNat = r.w3.toNat / 256 ^ 6 % 256 ^ 2 := by
    rw [BitVec.extractLsb'_toNat, Nat.shiftRight_eq_div_pow, show 2 ^ 48 = 256 ^ 6 by decide, show 2 ^ 16 = 256 ^ 2 by decide]
  have h2 : ((headerSeq r.w0).extractLsb' 0 16).toNat = r.w0.toNat / 256 ^ 4 % 256 ^ 2 := by
    rw [headerSeq, BitVec.extractLsb'_toNat, BitVec.extractLsb'_toNat, Nat.shiftRight_zero, Nat.shiftRight_eq_div_pow, show 2 ^ 32 = 256 ^ 4 by decide, show 2 ^ 16 = 256 ^ 2 by decide]
    rw [Nat.mod_mod_of_dvd _ (Nat.pow_dvd_pow 256 (by omega))]
  rw [← h1, ← h2]
  exact ⟨fun h => by rw [h], fun h => BitVec.eq_of_toNat_eq h⟩

theorem fieldAt_set_self (d : List Byte) (x : Byte) (h : 2 < d.length) : fieldAt (d.set 2 x) 2 1 = x.toNat := by
  rw [← byteAt_toNat, byteAt, List.getD_eq_getElem?_getD, List.getElem?_set_self (by simpa using h)]; rfl

theorem set_byteAt (d : List Byte) (h : 2 < d.length) : d.set 2 (byteAt d 2) = d := by
  rw [byteAt, List.getD_eq_getElem _ _ h]; exact List.set_getElem_self h

/-- the fields other than byte 2 pass -/
theorem RawRecord.typed_badSubject_some (r : RawRecord) (h : r.typed = .badSubject) : ∃ (x : Byte) (rec : Record), spells (r.bytes.set 2 x) rec := by
  have hl := RawRecord.bytes_length r
  have h2 := RawRecord.field_w2 r
  unfold RawRecord.typed RawRecord.typeCode RawRecord.subject at h
  generalize hD : r.bytes = d at *
  try dsimp only at h
  simp only [byteAt_toNat] at h
  have e1 : ∀ o n, 3 ≤ o ∨ o + n ≤ 2 → fieldAt (d.set 2 0) o n = fieldAt d o n := fun o n h => fieldAt_set_ne d 0 o n h
  have e2 : fieldAt (d.set 2 0) 2 1 = 0 := fieldAt_set_self d 0 (by omega)
  split at h
  · cases h
  · rename_i ht
    split at h
    · cases h
    · rename_i m hm hn
      rw [reportedMode?_eq, byteAt_toNat] at hm
      refine ⟨0, .robotStatus { robot := 0, mode := m, applied := BitVec.ofNat 16 (fieldAt d 10 2), faultCode := BitVec.ofNat 16 (fieldAt d 12 2) }, ?_⟩
      refine ⟨by rw [e1 _ _ (by omega)]; exact ht, e2, by rw [e1 _ _ (by omega)]; exact hm.1, hm.2, ?_, ?_⟩ <;> dsimp only <;> rw [e1 _ _ (by omega), BitVec.toNat_ofNat, Nat.mod_eq_of_lt (fieldAt_lt_2 _ _)]
    · cases h
  · rename_i ht
    split at h
    · cases h
    · rename_i m hm hn hr
      rw [fillResult?_eq, byteAt_toNat] at hm
      rw [decide_eq_true_eq] at hn
      refine ⟨0, .fillReport { robot := 0, serial := BitVec.ofNat 32 (fieldAt d 8 4), valve := byteAt d 12, result := m, mass := BitVec.ofNat 16 (fieldAt d 14 2) }, ?_⟩
      refine ⟨by rw [e1 _ _ (by omega)]; exact ht, e2, ?_, ?_, ?_, by rw [e1 _ _ (by omega)]; exact hm, ?_⟩
      · dsimp only; rw [e1 _ _ (by omega), BitVec.toNat_ofNat, Nat.mod_eq_of_lt (fieldAt_lt_4 _ _)]
      · dsimp only; rw [e1 _ _ (by omega), byteAt_toNat]
      · dsimp only; rw [byteAt_toNat]; exact hn
      · dsimp only; rw [e1 _ _ (by omega), BitVec.toNat_ofNat, Nat.mod_eq_of_lt (fieldAt_lt_2 _ _)]
    · cases h
  · rename_i ht
    split at h
    · cases h
    · rename_i v hv
      split at h
      · cases h
      · rw [verdict?_eq, byteAt_toNat] at hv
        refine ⟨0, .verdict { camera := 0, serial := BitVec.ofNat 32 (fieldAt d 8 4), verdict := v, defect := BitVec.ofNat 16 (fieldAt d 14 2), capture := r.w2 }, ?_⟩
        refine ⟨by rw [e1 _ _ (by omega)]; exact ht, e2, ?_, by rw [e1 _ _ (by omega)]; exact hv, ?_, by rw [e1 _ _ (by omega)]; exact h2⟩
        · dsimp only; rw [e1 _ _ (by omega), BitVec.toNat_ofNat, Nat.mod_eq_of_lt (fieldAt_lt_4 _ _)]
        · dsimp only; rw [e1 _ _ (by omega), BitVec.toNat_ofNat, Nat.mod_eq_of_lt (fieldAt_lt_2 _ _)]
  · split at h <;> cases h
  · split at h <;> cases h
  · cases h
  · split at h <;> cases h
  · cases h

theorem RawRecord.typed_badField_none (r : RawRecord) (h : r.typed = .badField) (x : Byte) (rec : Record) : ¬ spells (r.bytes.set 2 x) rec := by
  intro hs
  have hl := RawRecord.bytes_length r
  unfold RawRecord.typed RawRecord.typeCode RawRecord.subject at h
  generalize hD : r.bytes = d at *
  try dsimp only at h
  simp only [byteAt_toNat] at h
  have e1 : ∀ o n, 3 ≤ o ∨ o + n ≤ 2 → fieldAt (d.set 2 x) o n = fieldAt d o n := fun o n h => fieldAt_set_ne d x o n h
  cases rec with
  | timeSync q =>
    have ht := hs.1; rw [e1 _ _ (by omega)] at ht; rw [ht] at h; cases h
  | robotStatus q =>
    have ht := hs.1; rw [e1 _ _ (by omega)] at ht; simp only [ht] at h
    have hm : reportedMode? (byteAt d 8) = some q.mode := by
      rw [reportedMode?_eq, byteAt_toNat, ← e1 _ _ (by omega)]; exact ⟨hs.2.2.1, hs.2.2.2.1⟩
    simp only [hm] at h
    split at h <;> simp_all
  | fillReport q =>
    obtain ⟨ht, a1, a2, a3, a4, a5, a6⟩ := hs
    rw [e1 _ _ (by omega)] at ht a3 a5; simp only [ht] at h
    have hm : fillResult? (byteAt d 13) = some q.result := by rw [fillResult?_eq, byteAt_toNat]; exact a5
    simp only [hm, a3, decide_eq_true a4] at h
    cases h2 : robotIdx? (byteAt d 2) <;> rw [h2] at h <;> cases h
  | verdict q =>
    obtain ⟨ht, a1, a2, a3, a4⟩ := hs
    rw [e1 _ _ (by omega)] at ht a3; simp only [ht] at h
    have hm : verdict? (byteAt d 12) = some q.verdict := by rw [verdict?_eq, byteAt_toNat]; exact a3
    simp only [hm] at h
    split at h <;> cases h
  | serviceClaim c =>
    obtain ⟨ht, hs⟩ := hs
    rw [e1 _ _ (by omega)] at ht; simp only [ht] at h
    have hc : claim? d = some c := by
      rw [claim?_eq d hl]
      obtain ⟨a1, a2, a3, a4, a5, a6, a7, a8⟩ := hs
      rw [e1 _ _ (by omega)] at a1 a4 a7
      exact ⟨a1, a2, a3, a4, a5, a6, a7, fun n i hn => by rw [← e1 _ _ (by omega)]; exact a8 n i hn⟩
    rw [hc] at h; cases h
  | serviceKeep p =>
    obtain ⟨ht, hs⟩ := hs
    rw [e1 _ _ (by omega)] at ht hs; rw [ht, hs] at h
    cases p <;> cases h
  | serviceRelease =>
    have ht : fieldAt (d.set 2 x) 0 1 = 7 := hs
    rw [e1 _ _ (by omega)] at ht; rw [ht] at h; cases h
  | servicePublish q =>
    obtain ⟨ht, a1, hs⟩ := hs
    rw [e1 _ _ (by omega)] at ht a1; simp only [ht] at h
    have hm : robotIdx? (byteAt d 8) = some q.robot := by rw [robotIdx?_eq_some, byteAt_toNat]; exact a1
    rw [hm] at h; cases h

theorem FeedKind.allows_iff (k : FeedKind) (d : List Byte) : k.allows (byteAt d 0).toNat = true ↔ kindTakes k (d.getD 0 0) := by
  unfold FeedKind.allows kindTakes byteAt
  cases k <;> simp <;> omega

theorem subjectBound_iff (s : State) (i : WinIdx) (rec : Record) : subjectBound s i rec = true ↔ s.takesSubject i rec := by
  unfold subjectBound State.takesSubject
  cases rec with
  | timeSync r => simp
  | robotStatus r =>
    simp only [State.feedsRobot]
    cases h : s.bound? r.robot <;> simp
  | fillReport r =>
    simp only [State.feedsRobot]
    cases h : s.bound? r.robot <;> simp
  | verdict r =>
    simp only [State.feedsCamera]
    cases h : s.trk.cfg with
    | none => simp
    | some cfg =>
      simp only [reduceCtorEq, false_or, Option.some.injEq, exists_and_left, exists_eq_left']
      cases h2 : cfg.cameras[r.camera.val]? <;> simp
  | serviceClaim c => simp
  | serviceKeep p => simp
  | serviceRelease => simp
  | servicePublish r => simp

theorem stamped_bytes (place : StampAt) (o0 len time : Nat) (d : List Byte) (en : List Bool) (k : Nat) (hk : k < len) :
   let o := o0 + k
   let word := o / 32 * 32 + place.offset
   let stampedByte := word ≤ o ∧ o < word + 8 ∧ o0 ≤ word ∧ word + 8 ≤ o0 + len
   (stampedByte → (stampData place o0 len time d)[k]? = some (BitVec.ofNat 8 (time / 2 ^ (8 * (o - word)))) ∧ (stampEnables place o0 len en)[k]? = some true)
   ∧ (¬ stampedByte → (stampData place o0 len time d)[k]? = some (d.getD k 0) ∧ (stampEnables place o0 len en)[k]? = some (en.getD k false)) := by
    dsimp only
    have e1 : ∀ (n k v : Nat), k < n → (leBytes n v)[k]? = some (BitVec.ofNat 8 (v / 2 ^ (8 * k))) := by
      intro n
      induction n with
      | zero => intro k v h; omega
      | succ n ih =>
        intro k v h
        cases k with
        | zero => simp [leBytes]
        | succ k =>
          simp only [leBytes, List.getElem?_cons_succ]
          rw [ih k _ (by omega), Nat.div_div_eq_div_mul]
          congr 3
          rw [show (256 : Nat) = 2 ^ 8 from rfl, ← pow_add]; congr 1; omega
    have e2 : (inStampWord place o0 len (o0 + k) = true) ↔ ((o0 + k) / 32 * 32 + place.offset ≤ o0 + k ∧
       o0 + k < (o0 + k) / 32 * 32 + place.offset + 8 ∧
       o0 ≤ (o0 + k) / 32 * 32 + place.offset ∧
       (o0 + k) / 32 * 32 + place.offset + 8 ≤ o0 + len) := by
      simp [inStampWord, and_assoc]
    rw [← e2]
    simp only [stampData, stampEnables, List.getElem?_map, List.getElem?_range hk, Option.map_some]
    refine ⟨fun h => ?_, fun h => ?_⟩
    · rw [if_pos h, h]
      obtain ⟨h1, h2, -⟩ := e2.1 h
      refine ⟨?_, rfl⟩
      rw [byteAt, List.getD_eq_getElem?_getD, e1 8 _ _ (by omega)]; rfl
    · rw [if_neg h]
      have : inStampWord place o0 len (o0 + k) = false := by simpa using h
      rw [this]; exact ⟨rfl, rfl⟩

theorem list_ext_length {α : Type} (l m : List α) (n : Nat) (h1 : l.length = n) (h2 : m.length = n) (h : ∀ k, k < n → l[k]? = m[k]?) : l = m := by
  apply List.ext_getElem?
  intro k
  by_cases hk : k < n
  · exact h k hk
  · rw [List.getElem?_eq_none (by omega), List.getElem?_eq_none (by omega)]

theorem stamped_of_stampedAs {w : Window} {r : LinkRequest} {time : Nat} {data : List Byte} {enables : List Bool}
    (hd : r.dir = .write) (hws : w.writeSet.getLsbD r.tag.val = true) (h : stampedAs w r time data enables) :
    stamped w r time = (data, enables) := by
  unfold stamped stampFor
  rw [if_pos ⟨hd, hws⟩]
  cases hs : w.role.stamp? with
  | none => obtain ⟨rfl, rfl⟩ := h.1 hs; rfl
  | some p =>
    obtain ⟨hl, hl2, hk⟩ := h.2 p hs
    dsimp only
    congr 1
    · apply list_ext_length _ _ (8 * r.beats.val) (by simp [stampData, spanLen]) hl
      intro k hk'
      have h1 := hk k hk'
      have h2 := stamped_bytes p (spanFirst r - w.base.toNat) (spanLen r) time r.data r.enables k hk'
      dsimp only [spanFirst, spanLen] at h1 h2 ⊢
      by_cases hc : (r.addr.toNat - w.base.toNat + k) / 32 * 32 + p.offset ≤ r.addr.toNat - w.base.toNat + k ∧
       r.addr.toNat - w.base.toNat + k < (r.addr.toNat - w.base.toNat + k) / 32 * 32 + p.offset + 8 ∧
       r.addr.toNat - w.base.toNat ≤ (r.addr.toNat - w.base.toNat + k) / 32 * 32 + p.offset ∧
       (r.addr.toNat - w.base.toNat + k) / 32 * 32 + p.offset + 8 ≤ r.addr.toNat - w.base.toNat + 8 * r.beats.val
      · rw [(h1.1 hc).1, (h2.1 hc).1]
      · rw [(h1.2 hc).1, (h2.2 hc).1]
    · apply list_ext_length _ _ (8 * r.beats.val) (by simp [stampEnables, spanLen]) hl2
      intro k hk'
      have h1 := hk k hk'
      have h2 := stamped_bytes p (spanFirst r - w.base.toNat) (spanLen r) time r.data r.enables k hk'
      dsimp only [spanFirst, spanLen] at h1 h2 ⊢
      by_cases hc : (r.addr.toNat - w.base.toNat + k) / 32 * 32 + p.offset ≤ r.addr.toNat - w.base.toNat + k ∧
       r.addr.toNat - w.base.toNat + k < (r.addr.toNat - w.base.toNat + k) / 32 * 32 + p.offset + 8 ∧
       r.addr.toNat - w.base.toNat ≤ (r.addr.toNat - w.base.toNat + k) / 32 * 32 + p.offset ∧
       (r.addr.toNat - w.base.toNat + k) / 32 * 32 + p.offset + 8 ≤ r.addr.toNat - w.base.toNat + 8 * r.beats.val
      · rw [(h1.1 hc).2, (h2.1 hc).2]
      · rw [(h1.2 hc).2, (h2.2 hc).2]

theorem stampedAs_length {w : Window} {r : LinkRequest} {time : Nat} {data : List Byte} {enables : List Bool}
    (hd : r.dir = .write) (hwf : r.wf = true) (h : stampedAs w r time data enables) :
    data.length = 8 * r.beats.val ∧ enables.length = 8 * r.beats.val := by
  cases hs : w.role.stamp? with
  | none =>
    obtain ⟨rfl, rfl⟩ := h.1 hs
    simp only [LinkRequest.wf, hd, Bool.and_eq_true, beq_iff_eq] at hwf
    exact hwf
  | some p => exact ⟨(h.2 p hs).1, (h.2 p hs).2.1⟩

/-- The words of a write, each with its value if the write covers and enables all of it (R45). -/
theorem writtenWords_touched (o len : Nat) (data : List Byte) (enables : List Bool) :
    wordsTouched o len data enables (writtenWords o len data enables) := by
  refine ⟨?_, fun n value h => ?_⟩
  · simp [writtenWords, touchedWords, List.range_eq_range', List.map_add_range', Function.comp_def]
  · simp only [writtenWords, List.mem_map, Prod.mk.injEq] at h
    obtain ⟨m, -, rfl, rfl⟩ := h
    have hc : coversWord o len enables (8 * m) = true
        ↔ o ≤ 8 * m ∧ 8 * m + 8 ≤ o + len ∧ ∀ k, k < 8 → enables.getD (8 * m - o + k) false = true := by
      simp [coversWord, enabledAt, List.all_eq_true, and_assoc]
    dsimp only
    rw [← hc]
    exact ⟨fun h => by rw [if_pos h]; rfl, fun h => by rw [if_neg h]⟩

/-- The assembler's event, in the words of the statements. -/
def FeedEvent.ending : FeedEvent → RecordEnd
  | .torn o q      => .torn o q
  | .completed o r => .completed o r.bytes

theorem Slot.tear_ending (slot : Slot) :
    (slot = .empty → slot.tear.map FeedEvent.ending = [])
      ∧ ∀ o w0 w1 w2, slot = .collecting o w0 w1 w2 →
          slot.tear.map FeedEvent.ending = [.torn o (some (BitVec.ofNat 32 (w0.toNat / 4294967296)))] := by
  refine ⟨by rintro rfl; rfl, ?_⟩
  rintro o w0 w1 w2 rfl
  simp [Slot.tear, FeedEvent.ending, headerSeq_div]

/-- One word of an assembly step (R46 to R49). -/
theorem Slot.step_taken (slot : Slot) (n : Nat) (value : Option Word) :
    wordTaken slot n value (slot.step n value).1 ((slot.step n value).2.map FeedEvent.ending) := by
  have ht := slot.tear_ending
  refine ⟨fun h => by subst h; exact ⟨rfl, ht⟩, fun v h => ?_⟩
  subst h
  have hlt : n % 4 < 4 := Nat.mod_lt _ (by decide)
  refine ⟨fun h0 => ?_, fun h0 hslot => ?_, fun w0 w1 w2 hslot => ?_⟩
  · unfold Slot.step; dsimp only; rw [h0]; exact ⟨rfl, ht⟩
  · have hcol : slot = .empty ∨ ∃ o w0 w1 w2, slot = .collecting o w0 w1 w2 ∧ o ≠ n / 4 * 32 := by
      cases slot with
      | empty => exact .inl rfl
      | collecting o w0 w1 w2 => exact .inr ⟨o, w0, w1, w2, rfl, fun e => hslot w0 w1 w2 (by rw [e])⟩
    have hm : n % 4 = 1 ∨ n % 4 = 2 ∨ n % 4 = 3 := by omega
    rcases hcol with rfl | ⟨o, w0, w1, w2, rfl, ho⟩ <;> rcases hm with hm | hm | hm <;>
      simp [Slot.step, Slot.takeWord1, Slot.takeWord2, Slot.close, FeedEvent.ending, *]
  · subst hslot
    refine ⟨fun hm => ?_, fun hm => ?_, fun hm hw => ?_, fun hm x1 x2 h1 h2 => ?_⟩
    · simp [Slot.step, hm, Slot.takeWord1]
    · simp [Slot.step, hm, Slot.takeWord2]
    · cases w1 <;> cases w2 <;> simp_all [Slot.step, Slot.close, FeedEvent.ending, headerSeq_div]
    · subst h1; subst h2
      simp [Slot.step, hm, Slot.close, FeedEvent.ending, RawRecord.bytes]

theorem Slot.steps_taken (words : List (Nat × Option Word)) (slot : Slot) :
    wordsTaken words slot (slot.steps words).1 ((slot.steps words).2.map FeedEvent.ending) := by
  induction words generalizing slot with
  | nil => exact ⟨rfl, rfl⟩
  | cons w ws ih => exact ⟨_, _, _, slot.step_taken w.1 w.2, ih _, by simp [Slot.steps]⟩

theorem setSlot_slot {s : State} {i : WinIdx} {x : Option Slot} (h : s.slot? i = x) : s.setSlot i x = s := by
  unfold State.setSlot
  subst h
  have : s.feeds.set i.val (s.slot? i) i.isLt = s.feeds := by
    unfold State.slot?
    exact Vector.set_getElem_self ..
  rw [this]

theorem postNoticeAt_clk (time : Nat) (n : Notice) (s : State) : (postNoticeAt time n s).clk = s.clk := by
  obtain ⟨p, r, h⟩ := postNoticeAt_touches time n s; rw [h]

theorem setClockStateAt_clk (time : Nat) (new : ClockState) (cause : ClockCause) (s : State) :
    (setClockStateAt time new cause s).clk
      = if s.clk.state = new then s.clk else { s.clk with state := new, lockCount := 0, outlierCount := 0 } := by
  by_cases h : s.clk.state = new
  · simp [setClockStateAt, h]
  · rw [setClockStateAt_ne _ _ _ _ h, postNoticeAt_clk, if_neg h]

/-- A re-evaluation of the selection neither reads nor writes the stepped mark (R78, R79). -/
theorem reselectAt_clk (time : Nat) (x : Bool) (s : State) :
    (reselectAt time (s.setClk { s.clk with stepped := x })).clk = { (reselectAt time s).clk with stepped := x } := by
  have e : Clock.best { s.clk with stepped := x } = s.clk.best := rfl
  unfold reselectAt
  simp only [State.setClk, e]
  by_cases h : s.clk.best.map (·.1) = s.clk.selected
  · rw [if_pos h, if_pos h]
  rw [if_neg h, if_neg h]
  cases s.clk.best with
  | none => simp [postNoticeAt_clk]
  | some b =>
    simp only [Option.map_some, Option.isSome_some, if_true, sourceEffect, postNoticeAt_clk]
    cases hs : s.clk.state <;> simp [setClockStateAt_clk, postNoticeAt_clk, State.setClk]

theorem reselectAt_stepped (time : Nat) (s : State) : (reselectAt time s).clk.stepped = s.clk.stepped := by
  have := congrArg Clock.stepped (reselectAt_clk time s.clk.stepped s)
  exact this

theorem stepAndPost_stepped (src : Option WinIdx) (off : List Byte) (new : Word) (s : State) :
    (stepAndPost src off new s).clk.stepped = true := by
  obtain ⟨p, v, q, n, c, w, h⟩ := stepAndPost_touches src off new s
  rw [h]; rfl

theorem setClockStateAt_stepped (time : Nat) (new : ClockState) (cause : ClockCause) (s : State) :
    (setClockStateAt time new cause s).clk.stepped = s.clk.stepped := by
  rw [setClockStateAt_clk]; split <;> rfl

theorem setClockState_stepped (new : ClockState) (cause : ClockCause) (s : State) :
    (setClockState new cause s).clk.stepped = s.clk.stepped := setClockStateAt_stepped ..

theorem countLock_stepped (o : Int) (s : State) : (countLock o s).clk.stepped = s.clk.stepped := by
  unfold countLock
  dsimp only
  split
  · split
    · exact setClockState_stepped ..
    · rfl
  · rfl

/-- A selected record steps machine time exactly where it sets the stepped mark (R63, R82 to R86). -/
theorem selectedRecord_stepped (i : WinIdx) (o : Int) (s : State) :
    (selectedRecord i o s).1.clk.stepped = (s.clk.stepped || (selectedRecord i o s).2) := by
  unfold selectedRecord disciplineStep
  dsimp only
  split <;> split <;>
    simp [State.setClk, Clock.servo, Clock.setRate, setClockState_stepped, setClockStateAt_stepped, stepAndPost_stepped, countLock_stepped]
  split <;> simp [setClockStateAt_stepped, stepAndPost_stepped]

theorem selectedRecord_flag (i : WinIdx) (o : Int) (x : Bool) (s t : State) (h : t.clk = { s.clk with stepped := x }) :
    (selectedRecord i o t).2 = (selectedRecord i o s).2 := by
  unfold selectedRecord
  dsimp only
  simp only [h]
  cases s.clk.state <;> simp only [apply_ite Prod.snd]

/-- Whether a TIME SYNC steps machine time, seen from its mark (R63, R88). -/
theorem timeSyncAct_stepped (i : WinIdx) (r : TimeSync) (s : State) :
    (timeSyncAct i r none s).1.clk.stepped = (s.clk.stepped || (timeSyncAct i r none s).2.isSome) := by
  unfold timeSyncAct
  split
  · split
    · simp
    · dsimp only
      have h : (reselectAt ((none : Option Word).getD s.clk.ns).toNat (acceptSync ‹_› ‹_› r s)).clk.stepped = s.clk.stepped := by
        rw [reselectAt_stepped]
        simp only [acceptSync, State.setClk, Clock.setPlace]; split <;> rfl
      split
      · rw [selectedRecord_stepped, h]; split <;> simp_all
      · simp only [h]; simp
  · simp

/-- The reading that a TIME SYNC answers after a step of its own is that of its begin (R62). -/
theorem timeSyncAct_reading (i : WinIdx) (r : TimeSync) (s : State) (h : (timeSyncAct i r none s).2.isSome = true) :
    (timeSyncAct i r none s).2 = some s.clk.ns := by
  unfold timeSyncAct at h ⊢
  split at h
  · split at h
    · cases h
    · dsimp only at h ⊢
      split at h
      · split at h <;> simp_all
      · cases h
  · cases h

theorem timeSyncAct_flag (i : WinIdx) (r : TimeSync) (x : Bool) (s : State) :
    (timeSyncAct i r none (s.setClk { s.clk with stepped := x })).2.isSome = (timeSyncAct i r none s).2.isSome := by
  have e : Clock.placeOf? { s.clk with stepped := x } i = s.clk.placeOf? i := rfl
  unfold timeSyncAct
  simp only [State.setClk, e]
  split
  · rename_i n p _
    split
    · rfl
    · have h : acceptSync n p r { s with clk := { s.clk with stepped := x } }
          = (acceptSync n p r s).setClk { (acceptSync n p r s).clk with stepped := x } := by
        simp only [acceptSync, State.setClk, Clock.setPlace, Clock.holdoverNs]; split <;> rfl
      have hc := reselectAt_clk ((none : Option Word).getD s.clk.ns).toNat x (acceptSync n p r s)
      have hf := fun o => selectedRecord_flag i o x _ _ hc
      simp only [State.setClk] at h hc hf
      simp only [h, hc, hf]
      split
      · split <;> rfl
      · rfl
  · rfl

theorem timeSyncAct_after (i : WinIdx) (r : TimeSync) (t : Word) (s : State) : (timeSyncAct i r (some t) s).2 = some t := by
  unfold timeSyncAct
  split
  · split
    · rfl
    · simp
  · rfl

/-- The flag of a TIME SYNC's act, in the words of the statements (R88). -/
theorem stepsTime_iff (s : State) (src : Source) (r : TimeSync) (h : s.running = true) :
    s.stepsTime src r ↔ (timeSyncAct src.window r none s).2.isSome = true := by
  have hr : ({ s with clk := { s.clk with stepped := false } } : State).running = true := h
  unfold State.stepsTime
  simp only [exec, execTimeSync, whenRunning, hr, if_true, Host.Outcome.next.injEq, exists_eq_left']
  rw [timeSyncAct_stepped]
  show (false || (timeSyncAct src.window r none (s.setClk { s.clk with stepped := false })).2.isSome) = true ↔ _
  rw [timeSyncAct_flag, Bool.false_or]

/-- The judgement of a completed record, in the words of the statements (R49 to R54, Table 3-3). -/
theorem judge_judged (i : WinIdx) (w : Window) (kind : FeedKind) (off : Nat) (raw : RawRecord) (after : Option Word) (u : State)
    (tag : Tag) (hrun : u.running = true) (htag : (tagsOf w.writeSet).head? = some tag) :
    u.recordJudged i w kind tag off raw.bytes after (judge i w kind off raw after u).1 (judge i w kind off raw after u).2 := by
  obtain ⟨v, hv⟩ : ∃ v, v = judge i w kind off raw after u := ⟨_, rfl⟩
  rw [← hv]
  unfold State.recordJudged
  intro seq closed typed coded refused
  have hseq : headerSeq raw.w0 = seq := by rw [headerSeq_field]
  have hw : raw.whole = true ↔ closed := RawRecord.whole_iff raw
  have ht : kind.allows raw.typeCode = true ↔ typed := FeedKind.allows_iff kind raw.bytes
  have hl32 : raw.bytes.length = 32 := RawRecord.bytes_length raw
  have hgood : ∀ rec, raw.typed = .good rec ↔ spells raw.bytes rec :=
    RawRecord.typed_good_iff raw hl32 (RawRecord.field_w1 raw) (RawRecord.field_w2 raw)
  have hsub : ∀ rec, subjectBound u i rec = true ↔ u.takesSubject i rec := subjectBound_iff u i
  have hff : ∀ k, feedFaultTaken i w tag k off (some seq) u = takeFault (feedFault k i w off (some seq)) u := fun k => by
    unfold feedFaultTaken feedFault; rw [htag]
  have hcoded : ∀ rec, spells raw.bytes rec → coded :=
    fun rec h => ⟨byteAt raw.bytes 2, rec, by rw [set_byteAt _ (by omega)]; exact h⟩
  unfold judge at hv
  dsimp only at hv
  rw [hseq] at hv
  refine ⟨fun h1 => ?_, fun h1 h2 => ?_, fun h1 h2 h3 => ?_, fun h1 h2 h3 h4 => ?_, fun h1 h2 rec h3 => ⟨fun h4 => ?_, fun h4 => ?_⟩⟩
  · have h1 : raw.whole = false := by rw [Bool.eq_false_iff]; exact fun x => h1 (hw.1 x)
    rw [h1] at hv; subst hv; exact ⟨(hff _).symm, rfl⟩
  all_goals have h1 := hw.2 h1
  · have h2 : kind.allows raw.typeCode = false := by rw [Bool.eq_false_iff]; exact fun x => h2 (ht.1 x)
    rw [h1, h2] at hv; subst hv; exact ⟨(hff _).symm, rfl⟩
  all_goals have h2 := ht.2 h2
  · have h5 : raw.typed = .badField := by
      cases hc : raw.typed with
      | good rec => exact absurd (hcoded rec ((hgood rec).1 hc)) h3
      | badField => rfl
      | badSubject => exact absurd (RawRecord.typed_badSubject_some raw hc) h3
    rw [h1, h2, h5] at hv; subst hv; exact ⟨(hff _).symm, rfl⟩
  · have h5 : raw.typed = .badSubject := by
      cases hc : raw.typed with
      | good rec => exact absurd ((hgood rec).1 hc) (h4 rec)
      | badSubject => rfl
      | badField =>
        obtain ⟨x, rec, h3⟩ := h3
        exact absurd h3 (RawRecord.typed_badField_none raw hc x rec)
    rw [h1, h2, h5] at hv; subst hv; exact ⟨(hff _).symm, rfl⟩
  all_goals have h5 := (hgood rec).2 h3
  · have h6 : subjectBound u i rec = false := by rw [Bool.eq_false_iff]; exact fun x => h4 ((hsub rec).1 x)
    rw [h1, h2, h5] at hv; dsimp only at hv; rw [h6] at hv; subst hv; exact ⟨(hff _).symm, rfl⟩
  · have h6 := (hsub rec).2 h4
    rw [h1, h2, h5] at hv; dsimp only at hv; rw [h6] at hv; subst hv
    have hwr : ∀ f : State → State, whenRunning f u = f u := fun f => by unfold whenRunning; rw [hrun]; rfl
    cases rec with
    | timeSync r =>
      refine ⟨by simp only [Record.row, exec, execTimeSync, hwr]; rfl, ?_⟩
      have h := stepsTime_iff u { window := i, slot := BitVec.ofNat 32 (w.base.toNat + off), seq := seq } r hrun
      simp only [Record.timeSync.injEq, exists_eq_left', h]
      cases after with
      | none =>
        refine ⟨fun h' => absurd rfl h', fun _ h' => timeSyncAct_reading _ _ _ h', fun _ h' => ?_⟩
        exact Option.not_isSome_iff_eq_none.1 h'
      | some t => exact ⟨fun _ => timeSyncAct_after .., fun h' => (nomatch h'), fun h' => (nomatch h')⟩
    | _ =>
      exact ⟨by
        simp only [Record.row, exec, execRobotStatus, execFillReport, execVerdict, execServiceClaim, execServiceKeep,
          execServiceRelease, execServicePublish, hwr]
        rfl, by simp [dispatch]⟩

/-! ## A taken record leaves the pins (Table 3-6) -/

theorem takeFault_pins (f : FaultInfo) (s : State) : (takeFault f s).pins = s.pins := by
  obtain ⟨p, r, u, h⟩ := takeFault_touches f s
  rw [h]

theorem makeReply_pins (k : ReplyKind) (why : Reason) (q : BitVec 32) (s : State) : (makeReply k why q s).pins = s.pins := by
  obtain ⟨p, h⟩ := makeReply_touches k why q s
  rw [h]

theorem setClockStateAt_pins (time : Nat) (new : ClockState) (cause : ClockCause) (s : State) :
    (setClockStateAt time new cause s).pins = s.pins := by
  obtain ⟨p, r, a, b, c, h⟩ := setClockStateAt_touches time new cause s
  rw [h]

theorem setClockState_pins_eq (new : ClockState) (cause : ClockCause) (s : State) :
    (setClockState new cause s).pins = s.pins := setClockStateAt_pins ..

theorem countLock_pins (o : Int) (s : State) : (countLock o s).pins = s.pins := by
  unfold countLock
  dsimp only
  split
  · split
    · exact setClockState_pins_eq ..
    · rfl
  · rfl

theorem stepAndPost_pins (src : Option WinIdx) (off : List Byte) (new : Word) (s : State) :
    (stepAndPost src off new s).pins = s.pins := by
  obtain ⟨p, v, q, n, c, w, h⟩ := stepAndPost_touches src off new s
  rw [h]

theorem selectedRecord_pins (i : WinIdx) (o : Int) (s : State) : (selectedRecord i o s).1.pins = s.pins := by
  unfold selectedRecord disciplineStep
  dsimp only
  split <;> split <;> try split
  all_goals simp [State.setClk, setClockState_pins_eq, setClockStateAt_pins, countLock_pins, stepAndPost_pins]

theorem timeSyncAct_pins (i : WinIdx) (r : TimeSync) (after : Option Word) (s : State) :
    (timeSyncAct i r after s).1.pins = s.pins := by
  unfold timeSyncAct
  split
  · rename_i n p _
    split
    · rfl
    · dsimp only
      have h : (reselectAt (after.getD s.clk.ns).toNat (acceptSync n p r s)).pins = s.pins := by
        obtain ⟨q, m, d, a, b, c, h⟩ := reselectAt_touches (after.getD s.clk.ns).toNat (acceptSync n p r s)
        rw [h]; rfl
      split
      · rw [selectedRecord_pins, h]
      · exact h
  · rfl

theorem robotStatusAct_pins (st : RobotStatus) (s : State) : (robotStatusAct st s).pins = s.pins := by
  unfold robotStatusAct
  split
  · rename_i b _
    dsimp only
    have hn : ∀ (c : Prop) [Decidable c] (n : Notice) (u : State), (if c then postNotice n u else u).pins = u.pins := by
      intro c _ n u
      obtain ⟨p, r, h⟩ := postNotice_touches n u
      split
      · rw [h]
      · rfl
    have hm : ∀ (c : Prop) [Decidable c] (u : State),
        (if c then serviceModeChange st.robot st.mode u else u).pins = u.pins := by
      intro c _ u
      obtain ⟨p, v, q, n, c, w, h⟩ := serviceModeChange_touches st.robot st.mode u
      split
      · rw [h]
      · rfl
    rw [hm, hn]
    rfl
  · rfl

theorem setTrk_pins (t : Tracking) (s : State) : (s.setTrk t).pins = s.pins := by
  obtain ⟨m, h⟩ := setTrk_touches t s
  rw [h]

theorem setSvc_pins (v : Session) (s : State) : (s.setSvc v).pins = s.pins := by
  obtain ⟨m, h⟩ := setSvc_touches v s
  rw [h]

theorem dispatch_pins (src : Source) (rec : Record) (after : Option Word) (s : State) :
    (dispatch src rec after s).1.pins = s.pins := by
  cases rec with
  | timeSync r => exact timeSyncAct_pins ..
  | robotStatus r => exact robotStatusAct_pins ..
  | fillReport r =>
    show (fillReportAct src r s).pins = _
    unfold fillReportAct
    split
    · rfl
    · dsimp only
      split
      · rw [takeFault_pins, setTrk_pins]
      · split
        · rw [takeFault_pins, setTrk_pins]
        · split
          · rw [takeFault_pins, setTrk_pins]
          · rw [setTrk_pins, setTrk_pins]
  | verdict r =>
    show (verdictAct src r s).pins = _
    unfold verdictAct
    split
    · split
      · split
        · split
          · exact takeFault_pins ..
          · exact setTrk_pins ..
        · exact takeFault_pins ..
      · split <;> exact takeFault_pins ..
    · exact takeFault_pins ..
  | serviceClaim c =>
    show (serviceClaimAct c s).pins = _
    unfold serviceClaimAct
    split
    · split
      · exact makeReply_pins ..
      · obtain ⟨p, r, h⟩ := postNotice_touches (.serviceClaim c) (s.setSvc { s.svc with
          state := .claimed, claim := some c, named := s.robotsOf c.windows, consentWaiting := false,
          keepPhase := none, consentTimer := some (s.clk.elapsed + secToNs s.svc.consentS) })
        dsimp only
        rw [h]
        exact setSvc_pins ..
    all_goals exact makeReply_pins ..
  | serviceKeep p =>
    show (serviceKeepAct p s).pins = _
    unfold serviceKeepAct
    split
    · split
      · exact setSvc_pins ..
      · rfl
    · rfl
  | serviceRelease =>
    show (serviceReleaseAct s).pins = _
    unfold serviceReleaseAct
    split
    · obtain ⟨p, v, r, m, c, h⟩ := withdrawClaim_touches .withdrawn .none .keyed .state s
      rw [h]
    · obtain ⟨v, m, w, h⟩ := beginReturn_touches .released s
      rw [h]
    · rfl
  | servicePublish p =>
    show (servicePublishAct src.seq p s).pins = _
    unfold servicePublishAct
    dsimp only
    split
    · exact makeReply_pins ..
    · obtain ⟨v, h⟩ := modifyRobot_touches p.robot
        (·.place { seq := p.seq, confirm := p.confirm, origin := .service }) s
      rw [h]

/-- Acting on a completed record leaves the block out of reset (R53, R54). -/
theorem judge_running (i : WinIdx) (w : Window) (kind : FeedKind) (off : Nat) (raw : RawRecord) (after : Option Word) (u : State) :
    (judge i w kind off raw after u).1.running = u.running := by
  have h : (judge i w kind off raw after u).1.pins = u.pins := by
    unfold judge
    dsimp only
    split
    · exact takeFault_pins ..
    · split
      · exact takeFault_pins ..
      · split
        · exact takeFault_pins ..
        · exact takeFault_pins ..
        · split
          · exact dispatch_pins ..
          · exact takeFault_pins ..
  unfold State.running
  rw [h]

/-- The events of an assembly step, in the words of the statements (R45, R53, R54). -/
theorem handleEvents_taken (i : WinIdx) (w : Window) (kind : FeedKind) (tag : Tag)
    (htag : (tagsOf w.writeSet).head? = some tag) (events : List FeedEvent) (after : Option Word) (u : State)
    (hrun : u.running = true) :
    endsTaken i w kind tag (events.map FeedEvent.ending) after u (handleEvents i w kind events after u) := by
  induction events generalizing after u with
  | nil => rfl
  | cons e es ih =>
    cases e with
    | torn o q =>
      have h : feedFaultTaken i w tag .feedTorn o q u = takeFault (feedFault .feedTorn i w o q) u := by
        unfold feedFaultTaken feedFault; rw [htag]
      show endsTaken i w kind tag _ after (feedFaultTaken i w tag .feedTorn o q u) _
      rw [h]
      refine ih after _ ?_
      obtain ⟨p, v, x, h⟩ := takeFault_touches (feedFault .feedTorn i w o q) u
      rw [h]; exact hrun
    | completed o r =>
      exact ⟨_, _, judge_judged i w kind o r after u tag hrun htag, ih _ _ ((judge_running ..).trans hrun)⟩

theorem tagsOf_head {b : Byte} {t : Tag} (h : ∀ u : Tag, b.getLsbD u.val = true ↔ u = t) : (tagsOf b).head? = some t := by
  have : tagsOf b = allTags.filter (fun u => decide (u = t)) := by
    unfold tagsOf
    congr 1
    funext u
    rw [Bool.eq_iff_iff, decide_eq_true_eq]; exact h u
  rw [this]
  clear this h
  revert t; decide

end Sys2Proof.Machine
end

