-- ==== Sys2Proof/Laws/Shape.lean ====
section
/-! SUPPORT. What the invariants of the window table and of the command unit read: the contents of the entries apart from
their authority, and the own transactions that are not answered. `Calm s t` says that a move leaves all of it, and such a
move keeps both invariants. -/

namespace Sys2Proof.Machine
open Sys2Proof

/-! ## Contents apart from authority -/

/-- A window with its authority taken away. -/
def Window.shape (w : Window) : Window := { w with role := w.role.withAuthority .production }

/-- An entry with the authority of its contents taken away. -/
def WinState.shape : WinState → WinState
  | .empty          => .empty
  | .loaded w       => .loaded w.shape
  | .draining old n => .draining old.shape (n.map Window.shape)

theorem Window.shape_base (w : Window) : w.shape.base = w.base := rfl
theorem Window.shape_size (w : Window) : w.shape.size = w.size := rfl
theorem Window.shape_writeSet (w : Window) : w.shape.writeSet = w.writeSet := rfl

theorem Window.shape_feed (w : Window) (k : FeedKind) (p : Option StampAt) :
    w.shape.role = .feed k p ↔ w.role = .feed k p := by
  obtain ⟨b, z, x, y, role⟩ := w
  cases role <;> simp [Window.shape, Role.withAuthority]

theorem Window.shape_feedKind (w : Window) : w.shape.feedKind? = w.feedKind? := by
  obtain ⟨b, z, x, y, role⟩ := w
  cases role <;> rfl

theorem Window.shape_halves (w : Window) : w.shape.halves = w.halves := by
  obtain ⟨b, z, x, y, role⟩ := w
  cases role <;> rfl

theorem Window.shape_hasHalf (w : Window) (h : Addr) : w.shape.hasHalf h ↔ w.hasHalf h := by
  obtain ⟨b, z, x, y, role⟩ := w
  cases role <;> simp [Window.shape, Role.withAuthority, Window.hasHalf]

theorem Window.shape_banked (w : Window) (e : Bool) (n : RobotIdx) (ha hb : Addr) :
    (∃ x, w.shape.role = .banked e x n ha hb) ↔ ∃ x, w.role = .banked e x n ha hb := by
  obtain ⟨b, z, x, y, role⟩ := w
  cases role <;> simp [Window.shape, Role.withAuthority]

theorem Window.shape_rangeHas (w : Window) (a : Nat) : w.shape.rangeHas a ↔ w.rangeHas a := Iff.rfl

theorem Window.shape_halfHas (w : Window) (a : Nat) : w.shape.halfHas a ↔ w.halfHas a := by
  unfold Window.halfHas
  simp only [Window.shape_hasHalf, Window.shape_size]

theorem Window.shape_misaligned (w : Window) : w.shape.misaligned ↔ w.misaligned := by
  unfold Window.misaligned
  simp only [Window.shape_hasHalf, Window.shape_size, Window.shape_base]

theorem Window.shape_formed (w : Window) : w.shape.Formed ↔ w.Formed := by
  unfold Window.Formed
  simp only [Window.shape_hasHalf, Window.shape_size, Window.shape_base, Window.shape_misaligned, Window.shape_feed,
    Window.shape_writeSet]

theorem Window.shape_halvesApart (w : Window) : w.shape.HalvesApart ↔ w.HalvesApart := by
  unfold Window.HalvesApart
  simp only [Window.shape_halfHas, Window.shape_rangeHas, Window.shape_size]
  refine and_congr Iff.rfl ⟨fun h e x n ha hb hr => ?_, fun h e x n ha hb hr => ?_⟩
  · obtain ⟨y, hy⟩ := (w.shape_banked e n ha hb).2 ⟨x, hr⟩
    exact h e y n ha hb hy
  · obtain ⟨y, hy⟩ := (w.shape_banked e n ha hb).1 ⟨x, hr⟩
    exact h e y n ha hb hy

theorem Window.withAuthority_shape (w : Window) (a : Authority) :
    Window.shape { w with role := w.role.withAuthority a } = w.shape := by
  obtain ⟨b, z, x, y, role⟩ := w
  cases role <;> rfl

/-- The entries of `t` have the contents of those of `s`, apart from authority. -/
def State.SameShape (s t : State) : Prop := ∀ i, (t.entry i).shape = (s.entry i).shape

theorem State.SameShape.refl (s : State) : s.SameShape s := fun _ => rfl
theorem State.SameShape.symm {s t : State} (h : s.SameShape t) : t.SameShape s := fun i => (h i).symm
theorem State.SameShape.trans {s t u : State} (h : s.SameShape t) (h' : t.SameShape u) : s.SameShape u :=
  fun i => (h' i).trans (h i)

theorem State.SameShape.of_win {s t : State} (h : t.win.entries = s.win.entries) : s.SameShape t := fun i => by
  unfold State.entry
  rw [h]

theorem State.SameShape.loaded {s t : State} (h : s.SameShape t) {i : WinIdx} {w : Window} (hw : t.entry i = .loaded w) :
    ∃ v, s.entry i = .loaded v ∧ v.shape = w.shape := by
  have := h i
  rw [hw] at this
  cases hs : s.entry i with
  | empty => rw [hs] at this; cases this
  | draining o n => rw [hs] at this; cases this
  | loaded v =>
    rw [hs] at this
    injection this with this
    exact ⟨v, rfl, this.symm⟩

theorem State.SameShape.draining {s t : State} (h : s.SameShape t) {i : WinIdx} {o : Window} {n : Option Window}
    (hw : t.entry i = .draining o n) :
    ∃ v m, s.entry i = .draining v m ∧ v.shape = o.shape ∧ m.map Window.shape = n.map Window.shape := by
  have := h i
  rw [hw] at this
  cases hs : s.entry i with
  | empty => rw [hs] at this; cases this
  | loaded v => rw [hs] at this; cases this
  | draining v m =>
    rw [hs] at this
    injection this with h1 h2
    exact ⟨v, m, rfl, h1.symm, h2.symm⟩

theorem State.SameShape.empty {s t : State} (h : s.SameShape t) {i : WinIdx} (hw : s.entry i = .empty) :
    t.entry i = .empty := by
  have := h i
  rw [hw] at this
  cases hs : t.entry i with
  | empty => rfl
  | loaded v => rw [hs] at this; cases this
  | draining v m => rw [hs] at this; cases this

theorem State.SameShape.applies {s t : State} (h : s.SameShape t) {i : WinIdx} {w : Window} (hw : t.applies i w) :
    ∃ v, s.applies i v ∧ v.shape = w.shape := by
  rcases hw with hw | ⟨n, hw⟩
  · obtain ⟨v, h1, h2⟩ := h.loaded hw
    exact ⟨v, .inl h1, h2⟩
  · obtain ⟨v, m, h1, h2, -⟩ := h.draining hw
    exact ⟨v, .inr ⟨m, h1⟩, h2⟩

theorem State.SameShape.willApply {s t : State} (h : s.SameShape t) {i : WinIdx} {w : Window} (hw : t.willApply i w) :
    ∃ v, s.willApply i v ∧ v.shape = w.shape := by
  rcases hw with hw | ⟨o, hw⟩
  · obtain ⟨v, h1, h2⟩ := h.loaded hw
    exact ⟨v, .inl h1, h2⟩
  · obtain ⟨v, m, h1, -, h2⟩ := h.draining hw
    cases m with
    | none => cases h2
    | some x =>
      injection h2 with h2
      exact ⟨x, .inr ⟨v, h1⟩, h2⟩

theorem State.SameShape.contains {s t : State} (h : s.SameShape t) {i : WinIdx} {w : Window} (hw : t.contains i w) :
    ∃ v, s.contains i v ∧ v.shape = w.shape := by
  rcases hw with hw | hw
  · obtain ⟨v, h1, h2⟩ := h.applies hw
    exact ⟨v, .inl h1, h2⟩
  · obtain ⟨v, h1, h2⟩ := h.willApply hw
    exact ⟨v, .inr h1, h2⟩

theorem feedKind_of_shape {v w : Window} (h : v.shape = w.shape) : v.feedKind? = w.feedKind? := by
  rw [← v.shape_feedKind, h, w.shape_feedKind]

theorem halfHas_of_shape {v w : Window} (h : v.shape = w.shape) (a : Nat) : v.halfHas a ↔ w.halfHas a := by
  rw [← v.shape_halfHas, h, w.shape_halfHas]

theorem rangeHas_of_shape {v w : Window} (h : v.shape = w.shape) (a : Nat) : v.rangeHas a ↔ w.rangeHas a := by
  rw [← v.shape_rangeHas, h, w.shape_rangeHas]

/-! ## The own transactions that are not answered -/

/-- A move of the path that answers no own transaction and generates no fetch. -/
structure Path.Adds (p q : Path) : Prop where
  fetches : (q.unanswered.filter fun t => decide (t.kind = .fetch)).length
    = (p.unanswered.filter fun t => decide (t.kind = .fetch)).length
  names   : (p.unanswered.map OwnTxn.id).Nodup → (∀ t ∈ p.unanswered, t.id < p.nextId) →
    (q.unanswered.map OwnTxn.id).Nodup ∧ ∀ t ∈ q.unanswered, t.id < q.nextId
  waiting : ∀ t, Waiter.txn t ∈ p.waiting → Waiter.txn t ∈ q.waiting

theorem Path.Adds.refl (p : Path) : p.Adds p := ⟨rfl, fun h h' => ⟨h, h'⟩, fun _ h => h⟩

theorem Path.Adds.trans {p q r : Path} (h : p.Adds q) (h' : q.Adds r) : p.Adds r :=
  ⟨h'.1.trans h.1, fun a b => h'.2 (h.2 a b).1 (h.2 a b).2, fun t x => h'.3 t (h.3 t x)⟩

/-- The own queue and the line for a place stand, and no name is given twice. -/
theorem Path.Adds.of_own {p q : Path} (ho : q.own = p.own) (hw : q.waiting = p.waiting) (hn : p.nextId ≤ q.nextId) :
    p.Adds q := by
  have hu : q.unanswered = p.unanswered := by unfold Path.unanswered; rw [ho, hw]
  refine ⟨by rw [hu], fun h h' => ⟨by rw [hu]; exact h, fun t ht => ?_⟩, fun t h => by rw [hw]; exact h⟩
  rw [hu] at ht
  exact Nat.lt_of_lt_of_le (h' t ht) hn

/-- The unanswered own transactions are those before, in some order, and one more of the next name. -/
theorem names_grow {l l' : List OwnTxn} {t : OwnTxn} {n : Nat} (hp : l'.Perm (t :: l)) (ht : t.id = n)
    (hn : (l.map OwnTxn.id).Nodup) (hl : ∀ x ∈ l, x.id < n) :
    (l'.map OwnTxn.id).Nodup ∧ ∀ x ∈ l', x.id < n + 1 := by
  constructor
  · rw [(hp.map _).nodup_iff, List.map_cons, List.nodup_cons]
    refine ⟨fun h => ?_, hn⟩
    obtain ⟨x, hx, he⟩ := List.mem_map.1 h
    have := hl x hx
    omega
  · intro x hx
    rcases List.mem_cons.1 (hp.mem_iff.1 hx) with rfl | hx
    · omega
    · have := hl x hx
      omega

theorem unanswered_enqueue (p : Path) (t : OwnTxn) : (p.enqueue t).unanswered.Perm (t :: p.unanswered) := by
  unfold Path.enqueue Path.unanswered
  split
  · rename_i h
    rw [Path.hasPlace_iff] at h
    simp only [h.2, List.filterMap_nil, List.append_nil]
    exact List.perm_append_singleton t p.own
  · dsimp only
    rw [List.filterMap_append]
    simp only [List.filterMap_cons, List.filterMap_nil]
    rw [← List.append_assoc]
    exact List.perm_append_singleton t _

theorem enqueue_adds (p : Path) (t : OwnTxn) (ht : t.id = p.nextId) (hk : t.kind ≠ .fetch) : p.Adds (p.enqueue t) := by
  have hp := unanswered_enqueue p t
  have hn : (p.enqueue t).nextId = p.nextId + 1 := by unfold Path.enqueue; split <;> rfl
  refine ⟨?_, fun h h' => by rw [hn]; exact names_grow hp ht h h', fun x hx => ?_⟩
  · rw [(hp.filter _).length_eq, List.filter_cons, if_neg (by simpa using hk)]
  · unfold Path.enqueue
    split
    · exact hx
    · exact List.mem_append_left _ hx

theorem ownWrite_adds (k : OwnKind) (a : Nat) (b : List Byte) (s : State) (hk : k ≠ .fetch) :
    s.path.Adds (ownWrite k a b s).path := enqueue_adds _ _ rfl hk

theorem ownRead_adds (k : OwnKind) (a n : Nat) (s : State) (hk : k ≠ .fetch) :
    s.path.Adds (ownRead k a n s).path := enqueue_adds _ _ rfl hk

/-! ## Calm moves -/

/-- The move leaves all that the invariants of the window table and of the command unit read, but for own transactions that
join. -/
structure Calm (s t : State) : Prop where
  shape     : s.SameShape t := by exact fun _ => rfl
  slots     : ∀ i, (t.slot? i).isSome = (s.slot? i).isSome := by exact fun _ => rfl
  place0    : t.clk.place0.window = s.clk.place0.window := by rfl
  place1    : t.clk.place1.window = s.clk.place1.window := by rfl
  powerGood : t.pins.powerGood = s.pins.powerGood := by rfl
  cabinet   : t.pins.cabinetReset = s.pins.cabinetReset := by rfl
  strap     : t.pins.strap = s.pins.strap := by rfl
  unbinds   : ∀ r, t.unbinds r ↔ s.unbinds r := by exact fun _ => Iff.rfl
  session   : t.svc.state = s.svc.state := by rfl
  claim     : t.svc.claim = s.svc.claim := by rfl
  consent   : t.svc.consentWaiting = s.svc.consentWaiting := by rfl
  phase     : t.cmd.phase = s.cmd.phase := by rfl
  path      : s.path.Adds t.path := by exact Path.Adds.refl _

theorem Calm.refl (s : State) : Calm s s := {}

theorem Calm.trans {s t u : State} (h : Calm s t) (h' : Calm t u) : Calm s u where
  shape := h.shape.trans h'.shape
  slots i := (h'.slots i).trans (h.slots i)
  place0 := h'.place0.trans h.place0
  place1 := h'.place1.trans h.place1
  powerGood := h'.powerGood.trans h.powerGood
  cabinet := h'.cabinet.trans h.cabinet
  strap := h'.strap.trans h.strap
  unbinds r := (h'.unbinds r).trans (h.unbinds r)
  session := h'.session.trans h.session
  claim := h'.claim.trans h.claim
  consent := h'.consent.trans h.consent
  phase := h'.phase.trans h.phase
  path := h.path.trans h'.path

/-- The window table's invariant reads the shape of the entries, the slots, the places and the pins. -/
theorem tableRight_of_same {s t : State} (hs : s.SameShape t) (hl : ∀ i, (t.slot? i).isSome = (s.slot? i).isSome)
    (h0 : t.clk.place0.window = s.clk.place0.window) (h1 : t.clk.place1.window = s.clk.place1.window)
    (hg : t.pins.powerGood = s.pins.powerGood) (hc : t.pins.cabinetReset = s.pins.cabinetReset)
    (hp : t.pins.strap = s.pins.strap) (h : s.TableRight) : t.TableRight := by
  obtain ⟨⟨ha, hb⟩, hf, hd, hk, hx, hy, hz⟩ := h
  have harea : t.areaBase = s.areaBase := by unfold State.areaBase; rw [hp]
  refine ⟨⟨fun i w hw a hx => ?_, fun p c i => hs.empty (hb (hg ▸ p) (hc ▸ c) i)⟩, fun i w hw => ?_, fun i j w v hij hw hv a hwa => ?_,
    fun k n hn l hl hm => ?_, fun i => ?_, fun i => ?_, fun i => by rw [h0, h1]; exact hz i⟩
  · obtain ⟨v, hv, he⟩ := hs.contains hw
    unfold State.areaHas
    rw [harea]
    exact ha i v hv a (hx.imp (rangeHas_of_shape he a).2 (halfHas_of_shape he a).2)
  · obtain ⟨v, hv, he⟩ := hs.contains hw
    have := hf i v hv
    rw [← v.shape_formed, ← v.shape_halvesApart, he, w.shape_formed, w.shape_halvesApart] at this
    exact this
  · obtain ⟨w', hw', he⟩ := hs.contains hw
    obtain ⟨v', hv', he'⟩ := hs.contains hv
    have := hd i j w' v' hij hw' hv' a ((halfHas_of_shape he a).2 hwa)
    rw [rangeHas_of_shape he', halfHas_of_shape he'] at this
    exact this
  · refine hk k n hn l hl fun i hi => ?_
    obtain ⟨w, hw, he⟩ := hm i hi
    obtain ⟨v, hv, he'⟩ := hs.willApply hw
    exact ⟨v, hv, (feedKind_of_shape he').trans he⟩
  · rw [show (∃ a, t.slot? i = some a) ↔ (t.slot? i).isSome = true from Option.isSome_iff_exists.symm, hl,
      Option.isSome_iff_exists, hx]
    constructor
    · rintro ⟨w, k, hw, he⟩
      obtain ⟨v, hv, he'⟩ := hs.symm.applies hw
      exact ⟨v, k, hv, (feedKind_of_shape he').trans he⟩
    · rintro ⟨w, k, hw, he⟩
      obtain ⟨v, hv, he'⟩ := hs.applies hw
      exact ⟨v, k, hv, (feedKind_of_shape he').trans he⟩
  · rw [h0, h1, hy]
    constructor
    · rintro ⟨w, hw, he⟩
      obtain ⟨v, hv, he'⟩ := hs.symm.applies hw
      exact ⟨v, hv, (feedKind_of_shape he').trans he⟩
    · rintro ⟨w, hw, he⟩
      obtain ⟨v, hv, he'⟩ := hs.applies hw
      exact ⟨v, hv, (feedKind_of_shape he').trans he⟩

theorem draining_of_shape {s t : State} (hs : s.SameShape t) (i : WinIdx) :
    (∃ o n, t.entry i = .draining o n) ↔ ∃ o n, s.entry i = .draining o n := by
  constructor
  · rintro ⟨o, n, h⟩
    obtain ⟨v, m, h', -⟩ := hs.draining h
    exact ⟨v, m, h'⟩
  · rintro ⟨o, n, h⟩
    obtain ⟨v, m, h', -⟩ := hs.symm.draining h
    exact ⟨v, m, h'⟩

theorem Calm.table {s t : State} (h : Calm s t) (hs : s.TableRight) : t.TableRight :=
  tableRight_of_same h.shape h.slots h.place0 h.place1 h.powerGood h.cabinet h.strap hs

theorem Calm.commands {s t : State} (h : Calm s t) (hs : s.CommandsHold) : t.CommandsHold := by
  obtain ⟨a, b, c, d, e, f, g, i, j, k, l⟩ := hs
  obtain ⟨n1, n2⟩ := h.path.names a b
  refine ⟨n1, n2, ?_, fun i => ?_, fun r => ?_, ?_, ?_, ?_, fun r hr => ?_, fun hr => ?_, fun p q => ?_⟩
  · rw [h.path.fetches, h.phase]
    exact c
  · rw [draining_of_shape h.shape, h.phase]
    exact d i
  · rw [h.unbinds, h.phase]
    exact e r
  · rw [h.consent, h.phase]
    exact f
  · rw [h.consent, h.session]
    exact g
  · rw [h.claim, h.session]
    exact i
  · rw [h.phase] at hr
    obtain ⟨x, hx, hk⟩ := j r hr
    exact ⟨x, h.path.waiting x hx, hk⟩
  · rw [h.phase] at hr
    obtain ⟨x, hx, hk⟩ := k hr
    exact ⟨x, h.path.waiting x hx, hk⟩
  · rw [h.phase]
    exact l (h.powerGood ▸ p) (h.cabinet ▸ q)

end Sys2Proof.Machine
end

