-- ==== Sys2Proof/Laws/Keeps.lean ====
section
/-! SUPPORT. `Holds s t`: the move from `s` to `t` leaves the queue of commands and keeps the invariants of Safety.lean but
those of the window table and of the command unit. `Keeps s t`: it keeps these two as well, and begins or ends no command.
`Runs s t`: it is the run of a command, from its beginning to its completion or its wait. One lemma per shared operation
says that it is such a move. -/

namespace Sys2Proof.Machine
open Sys2Proof

/-- The move from `s` to `t` leaves the queue of commands and keeps each invariant that no command breaks on its way. -/
structure Holds (s t : State) : Prop where
  pending   : t.pending = s.pending
  queues    : s.QueuesBounded → t.QueuesBounded
  service   : s.ServiceOnlyGranted → t.ServiceOnlyGranted
  rate      : s.RateWithinLimit → t.RateWithinLimit
  attention : s.AttentionRight → t.AttentionRight
  rings     : s.RingsHeld → t.RingsHeld
  track     : s.TrackingRight → t.TrackingRight
  robots    : s.RobotsRight → t.RobotsRight

theorem Holds.refl (s : State) : Holds s s := ⟨rfl, id, id, id, id, id, id, id⟩

theorem Holds.trans {s t u : State} (h : Holds s t) (h' : Holds t u) : Holds s u :=
  ⟨h'.1.trans h.1, fun x => h'.2 (h.2 x), fun x => h'.3 (h.3 x), fun x => h'.4 (h.4 x), fun x => h'.5 (h.5 x),
    fun x => h'.6 (h.6 x), fun x => h'.7 (h.7 x), fun x => h'.8 (h.8 x)⟩

theorem Holds.after {s t u : State} (h' : Holds t u) (h : Holds s t) : Holds s u := h.trans h'

/-- The invariants of the window table and of the command unit, which only stand together. -/
def State.Ruled (s : State) : Prop := s.TableRight ∧ s.CommandsHold

/-- The move from `s` to `t` keeps each invariant, and begins or ends no command that is being judged. -/
structure Keeps (s t : State) : Prop extends Holds s t where
  ruled : s.Ruled → t.Ruled
  begun : t.cmd.phase = .executing .begun ↔ s.cmd.phase = .executing .begun

theorem Keeps.refl (s : State) : Keeps s s := ⟨.refl s, id, Iff.rfl⟩

theorem Keeps.trans {s t u : State} (h : Keeps s t) (h' : Keeps t u) : Keeps s u :=
  ⟨h.toHolds.trans h'.toHolds, fun x => h'.ruled (h.ruled x), h'.begun.trans h.begun⟩

theorem Keeps.after {s t u : State} (h' : Keeps t u) (h : Keeps s t) : Keeps s u := h.trans h'

theorem Calm.ruled {s t : State} (h : Calm s t) (hs : s.Ruled) : t.Ruled := ⟨h.table hs.1, h.commands hs.2⟩

/-- A calm move that keeps the other invariants. -/
theorem Holds.calm {s t : State} (h : Holds s t) (hc : Calm s t) : Keeps s t :=
  ⟨h, hc.ruled, by rw [hc.phase]⟩

/-- Reporting's levels and consumed counts stand, and the rings stay within their slots. -/
structure Reporting.Kept (r r' : Reporting) : Prop where
  enabled   : r'.enabled = r.enabled
  mask      : r'.mask = r.mask
  consumed  : r'.consumed = r.consumed
  published : r'.published = r.published
  notices   : r.consumed ≤ r.producer ∧ r.producer ≤ r.consumed + Config.noticeSlots →
    r'.consumed ≤ r'.producer ∧ r'.producer ≤ r'.consumed + Config.noticeSlots
  decisions : r.decConsumed ≤ r.decProducer ∧ r.decProducer ≤ r.decConsumed + Config.decisionSlots →
    r'.decConsumed ≤ r'.decProducer ∧ r'.decProducer ≤ r'.decConsumed + Config.decisionSlots

theorem Reporting.Kept.refl (r : Reporting) : r.Kept r := ⟨rfl, rfl, rfl, rfl, id, id⟩

/-- The service invariant reads the window table, the session's state and claim, and two pins. -/
theorem serviceOnly_of_same {s t : State} (hw : t.win.entries = s.win.entries) (hs : t.svc.state = s.svc.state)
    (hc : t.svc.claim = s.svc.claim) (hp : t.pins.powerGood = s.pins.powerGood)
    (hr : t.pins.cabinetReset = s.pins.cabinetReset) (h : s.ServiceOnlyGranted) : t.ServiceOnlyGranted := by
  have he : ∀ i, t.entry i = s.entry i := fun i => by unfold State.entry; rw [hw]
  have ha : ∀ i, t.authority? i = s.authority? i := fun i => by unfold State.authority? State.loaded?; rw [he]
  refine ⟨fun i hi => ?_, fun i o n hi => ?_, fun a b i => ?_⟩
  · rw [ha] at hi
    rw [hs]
    unfold Session.windows
    rw [hc]
    exact h.1 i hi
  · rw [he] at hi
    exact h.2.1 i o n hi
  · rw [he]
    exact h.2.2 (hp ▸ a) (hr ▸ b) i

/-- The robots' invariant reads the robot records and the shape of the entries. -/
theorem robotsRight_of_shape {s t : State} (hs : s.SameShape t) (hb : t.robots = s.robots) (h : s.RobotsRight) :
    t.RobotsRight := by
  intro r b hr
  have hr' : s.bound? r = some b := by
    unfold State.bound? at *
    rw [← hb]
    exact hr
  obtain ⟨h1, ⟨w, e, x, ha, hb', he, hw⟩, v, p, hv, hp⟩ := h r b hr'
  obtain ⟨w', hw', hsh⟩ := hs.symm.loaded he
  obtain ⟨v', hv', hsh'⟩ := hs.symm.loaded hv
  refine ⟨h1, ?_, v', p, hv', ?_⟩
  · obtain ⟨y, hy⟩ := (w'.shape_banked e r ha hb').1 (by rw [hsh]; exact (w.shape_banked e r ha hb').2 ⟨x, hw⟩)
    exact ⟨w', e, y, ha, hb', hw', hy⟩
  · rw [← v'.shape_feed, hsh', v.shape_feed]
    exact hp

/-- The parts that the invariants read stand, but for the own queue, the in-flight set, the hold queue and reporting, which
move as the hypotheses say. -/
theorem Keeps.of {s t : State} (hq : t.pending = s.pending) (hi : t.path.inflight = s.path.inflight)
    (ho : s.path.own.length ≤ Config.ownPlaces → t.path.own.length ≤ Config.ownPlaces) (hh : t.hold = s.hold)
    (hw : t.win.entries = s.win.entries) (ha : t.pins.attention = s.pins.attention) (hk : t.clk = s.clk)
    (hm : s.rep.Kept t.rep) (ht : t.trk = s.trk) (hb : t.robots = s.robots) (hc : Calm s t) : Keeps s t := by
  refine Holds.calm ⟨hq, fun h => ⟨ho h.1, by rw [hh]; exact h.2.1, fun g => ?_⟩,
    serviceOnly_of_same hw hc.session hc.claim hc.powerGood hc.cabinet, fun h => ?_, fun h => ?_, fun h => ?_, fun h => ?_,
    robotsRight_of_shape hc.shape hb⟩ hc
  · unfold State.tagCount
    rw [hi]
    exact h.2.2 g
  · unfold State.RateWithinLimit
    rw [hk]
    exact h
  · unfold State.AttentionRight Reporting.attention at *
    rw [ha, hc.powerGood, hm.enabled, hm.mask, hm.consumed, hm.published]
    exact h
  · exact ⟨(hm.notices ⟨h.1, h.2.1⟩).1, (hm.notices ⟨h.1, h.2.1⟩).2, hm.decisions h.2.2⟩
  · unfold State.TrackingRight
    rw [ht]
    exact h

theorem keeps_path (s : State) (p : Path) (h : s.path.OwnOnly p) (ha : s.path.Adds p) : Keeps s { s with path := p } :=
  .of rfl h.inflight h.bounded rfl rfl rfl rfl (.refl _) rfl rfl { path := ha }

theorem keeps_rep (s : State) (r : Reporting) (h : s.rep.Kept r) : Keeps s { s with rep := r } :=
  .of rfl rfl id rfl rfl rfl rfl h rfl rfl {}

theorem keeps_statusMark (s : State) (m : Bool) : Keeps s { s with rep := { s.rep with statusMark := m } } :=
  keeps_rep s _ ⟨rfl, rfl, rfl, rfl, id, id⟩

/-- Changes of parts that no invariant reads. -/
theorem keeps_flt (s : State) (v : FaultUnit) : Keeps s { s with flt := v } :=
  .of rfl rfl id rfl rfl rfl rfl (.refl _) rfl rfl {}
theorem keeps_openCount (s : State) (v : Nat) : Keeps s { s with openCount := v } :=
  .of rfl rfl id rfl rfl rfl rfl (.refl _) rfl rfl {}
theorem keeps_reject (s : State) (v : Bool) : Keeps s { s with pins := { s.pins with reject := v } } :=
  .of rfl rfl id rfl rfl rfl rfl (.refl _) rfl rfl {}
theorem keeps_mark (s : State) (v : Bool) : Keeps s { s with pins := { s.pins with mark := v } } :=
  .of rfl rfl id rfl rfl rfl rfl (.refl _) rfl rfl {}
theorem keeps_key (s : State) (v : Bool) : Keeps s { s with pins := { s.pins with key := v } } :=
  .of rfl rfl id rfl rfl rfl rfl (.refl _) rfl rfl {}

/-- A change of the command unit that leaves what it is doing. -/
theorem keeps_cmd (s : State) (v : CommandUnit) (h : v.phase = s.cmd.phase := by rfl) : Keeps s { s with cmd := v } :=
  .of rfl rfl id rfl rfl rfl rfl (.refl _) rfl rfl { phase := h }

/-- A change of the assembly slots that neither makes nor removes one. -/
theorem keeps_feeds (s : State) (v : Vector (Option Slot) 32) (h : ∀ i : WinIdx, (v[i]).isSome = (s.slot? i).isSome) :
    Keeps s { s with feeds := v } :=
  .of rfl rfl id rfl rfl rfl rfl (.refl _) rfl rfl { slots := h }

/-- A change of the tracking unit that keeps its invariant. -/
theorem keeps_trk (s : State) (v : Tracking) (h : s.trk.Right → v.Right) : Keeps s { s with trk := v } :=
  Holds.calm ⟨rfl, id, serviceOnly_of_same rfl rfl rfl rfl rfl, id, id, id, h, robotsRight_of_shape (.refl _) rfl⟩ {}

/-- A change of a robot's record that keeps its invariant, its windows and its unbinding mark. -/
structure Bound.Steps (b b' : Bound) : Prop where
  right     : b.Right → b'.Right
  bank      : b'.bank = b.bank := by rfl
  feed      : b'.feed = b.feed := by rfl
  unbinding : b'.unbinding = b.unbinding := by rfl

theorem unbinds_setRobot_of_ne {s : State} {r q : RobotIdx} (h : r ≠ q) (b : Option Bound) :
    (s.setRobot r b).unbinds q ↔ s.unbinds q := by
  unfold State.unbinds
  rw [State.bound_setRobot_of_ne _ h]

theorem unbinds_setRobot_self (s : State) (r : RobotIdx) (b : Option Bound) :
    (s.setRobot r b).unbinds r ↔ ∃ x, b = some x ∧ x.unbinding = true := by
  unfold State.unbinds
  rw [State.bound_setRobot_self]

theorem setRobot_calm {s : State} {r : RobotIdx} {b b' : Bound} (hb : s.bound? r = some b)
    (h : b'.unbinding = b.unbinding) : Calm s (s.setRobot r (some b')) where
  unbinds q := by
    by_cases hq : r = q
    · subst hq
      rw [unbinds_setRobot_self]
      unfold State.unbinds
      rw [hb]
      simp [h]
    · exact unbinds_setRobot_of_ne hq _

/-- The robots' invariant after a change of one record. -/
theorem robotsRight_setRobot {s : State} {r : RobotIdx} {b' : Option Bound} (h : s.RobotsRight)
    (hb : ∀ x, b' = some x → x.Right ∧ (∃ w e y ha hb, s.entry x.bank = .loaded w ∧ w.role = .banked e y r ha hb)
      ∧ ∃ w p, s.entry x.feed = .loaded w ∧ w.role = .feed .robot p) : (s.setRobot r b').RobotsRight := by
  intro q x hx
  by_cases hq : r = q
  · subst hq
    rw [State.bound_setRobot_self] at hx
    exact hb x hx
  · rw [State.bound_setRobot_of_ne _ hq] at hx
    exact h q x hx

theorem setRobot_holds (s : State) (r : RobotIdx) (b' : Option Bound) (h : s.RobotsRight → (s.setRobot r b').RobotsRight) :
    Holds s (s.setRobot r b') := ⟨rfl, id, serviceOnly_of_same rfl rfl rfl rfl rfl, id, id, id, id, h⟩

theorem setRobot_keeps {s : State} {r : RobotIdx} {b b' : Bound} (hb : s.bound? r = some b) (h : b.Steps b') :
    Keeps s (s.setRobot r (some b')) := by
  refine Holds.calm (setRobot_holds s r _ fun hs => robotsRight_setRobot hs fun x hx => ?_) (setRobot_calm hb h.unbinding)
  cases hx
  obtain ⟨h1, h2⟩ := hs r b hb
  rw [h.bank, h.feed]
  exact ⟨h.right h1, h2⟩

/-- A change of the session that keeps its state, its claim and the waiting consent. -/
theorem keeps_svc (s : State) (v : Session) (hs : v.state = s.svc.state) (hc : v.claim = s.svc.claim)
    (hw : v.consentWaiting = s.svc.consentWaiting) : Keeps s { s with svc := v } :=
  .of rfl rfl id rfl rfl rfl rfl (.refl _) rfl rfl { session := hs, claim := hc, consent := hw }

/-- A change of the clock unit that keeps the servo within its limits and the windows of the places. -/
theorem keeps_clk (s : State) (c : Clock) (h : s.RateWithinLimit → State.RateWithinLimit { s with clk := c })
    (h0 : c.place0.window = s.clk.place0.window) (h1 : c.place1.window = s.clk.place1.window) : Keeps s (s.setClk c) :=
  Holds.calm ⟨rfl, fun x => x, serviceOnly_of_same rfl rfl rfl rfl rfl, h, fun x => x, fun x => x, id,
    robotsRight_of_shape (.refl _) rfl⟩ { place0 := h0, place1 := h1 }

/-- A change of the clock unit that keeps the rate, the integral, the increment and the parameters. -/
theorem holds_clk_same (s : State) (c : Clock) (hi : c.increment = s.clk.increment := by rfl)
    (hr : c.rate = s.clk.rate := by rfl) (hn : c.integral = s.clk.integral := by rfl)
    (hp : c.params = s.clk.params := by rfl) : Holds s (s.setClk c) :=
  ⟨rfl, fun x => x, serviceOnly_of_same rfl rfl rfl rfl rfl, fun h => by
    unfold State.RateWithinLimit at *
    dsimp only [State.setClk]
    rw [hi, hr, hn, hp]
    exact h, fun x => x, fun x => x, id, robotsRight_of_shape (.refl _) rfl⟩

/-- Such a change that keeps the windows of the places too. -/
theorem keeps_clk_same (s : State) (c : Clock) (hi : c.increment = s.clk.increment := by rfl)
    (hr : c.rate = s.clk.rate := by rfl) (hn : c.integral = s.clk.integral := by rfl)
    (hp : c.params = s.clk.params := by rfl) (h0 : c.place0.window = s.clk.place0.window := by rfl)
    (h1 : c.place1.window = s.clk.place1.window := by rfl) : Keeps s (s.setClk c) :=
  Holds.calm (holds_clk_same s c hi hr hn hp) { place0 := h0, place1 := h1 }

theorem noteStatus_keeps {s a b : State} (h : Keeps s a) : Keeps s (b.noteStatus a) := by
  obtain ⟨m, hm⟩ := noteStatus_touches b a
  rw [hm]
  exact h.trans (keeps_statusMark a m)

theorem noteStatus_holds {s a b : State} (h : Holds s a) : Holds s (b.noteStatus a) := by
  obtain ⟨m, hm⟩ := noteStatus_touches b a
  rw [hm]
  exact h.trans (keeps_statusMark a m).toHolds

theorem setTrk_keeps (t : Tracking) (s : State) (h : s.trk.Right → t.Right) : Keeps s (s.setTrk t) :=
  noteStatus_keeps (keeps_trk s t h)

theorem setSvc_keeps (v : Session) (s : State) (hs : v.state = s.svc.state) (hc : v.claim = s.svc.claim)
    (hw : v.consentWaiting = s.svc.consentWaiting) : Keeps s (s.setSvc v) := noteStatus_keeps (keeps_svc s v hs hc hw)

theorem modifyRobot_keeps (r : RobotIdx) (f : Bound → Bound) (s : State) (hf : ∀ b : Bound, b.Steps (f b)) :
    Keeps s (s.modifyRobot r f) := by
  unfold State.modifyRobot
  split
  · rename_i b hb
    exact setRobot_keeps hb (hf b)
  · exact .refl s

theorem modifyRobots_keeps (f : Bound → Bound) (hf : ∀ b : Bound, b.Steps (f b)) (rs : List RobotIdx) (s : State) :
    Keeps s (State.modifyRobots f rs s) := by
  induction rs generalizing s with
  | nil => exact .refl s
  | cons r rs ih => exact (modifyRobot_keeps r f s hf).trans (ih _)

theorem ownWrite_keeps (k : OwnKind) (a : Nat) (b : List Byte) (s : State) (hk : k ≠ .fetch := by nofun) :
    Keeps s (ownWrite k a b s) :=
  keeps_path s _ (ownWrite_ownOnly k a b s) (ownWrite_adds k a b s hk)

theorem ownRead_keeps (k : OwnKind) (a n : Nat) (s : State) (hk : k ≠ .fetch := by nofun) : Keeps s (ownRead k a n s) :=
  keeps_path s _ (ownRead_ownOnly k a n s) (ownRead_adds k a n s hk)

theorem postNoticeAt_keeps (time : Nat) (n : Notice) (s : State) : Keeps s (postNoticeAt time n s) := by
  unfold postNoticeAt
  split
  · split
    · refine noteStatus_keeps (keeps_rep s _ ?_)
      split <;> exact ⟨rfl, rfl, rfl, rfl, id, id⟩
    · rename_i hf
      refine (ownWrite_keeps _ _ _ s).trans ((keeps_rep _ _ ?_).trans (ownWrite_keeps _ _ _ _))
      refine ⟨rfl, rfl, rfl, rfl, fun h => ?_, id⟩
      have hf' : ¬ 128 ≤ s.rep.producer - s.rep.consumed := fun h => hf ((Reporting.full_iff _).2 h)
      have h' : s.rep.consumed ≤ s.rep.producer ∧ s.rep.producer ≤ s.rep.consumed + 128 := h
      show s.rep.consumed ≤ s.rep.producer + 1 ∧ s.rep.producer + 1 ≤ s.rep.consumed + 128
      omega
  · exact .refl s

theorem postNotice_keeps (n : Notice) (s : State) : Keeps s (postNotice n s) := postNoticeAt_keeps s.time n s

theorem takeFault_keeps (f : FaultInfo) (s : State) : Keeps s (takeFault f s) := by
  unfold takeFault
  split
  · exact keeps_flt s _
  · split
    · exact .refl s
    · split
      · exact keeps_flt s _
      · exact (noteStatus_keeps (keeps_flt s _)).trans (postNotice_keeps _ _)

theorem holds_cmd (s : State) (v : CommandUnit) : Holds s { s with cmd := v } :=
  ⟨rfl, id, serviceOnly_of_same rfl rfl rfl rfl rfl, id, id, id, id, robotsRight_of_shape (.refl _) rfl⟩

theorem complete_holds (st : Status) (why : Reason) (s : State) : Holds s (complete st why s) :=
  ((ownWrite_keeps .completion _ _ s).toHolds.trans (holds_cmd _ _)).trans (ownWrite_keeps .headWord _ _ _).toHolds

/-! ## Completions -/

/-- Nothing waits on a command: no fetch is outstanding, no entry drains, no robot unbinds, no consent waits, and a claim is
held as the session says. -/
structure State.Rests (s : State) : Prop where
  distinct : (s.path.unanswered.map OwnTxn.id).Nodup
  names    : ∀ t ∈ s.path.unanswered, t.id < s.path.nextId
  fetches  : (s.path.unanswered.filter fun t => decide (t.kind = .fetch)).length = 0
  drains   : ∀ i o n, s.entry i ≠ .draining o n
  unbinds  : ∀ r, ¬ s.unbinds r
  consent  : s.svc.consentWaiting = false
  claim    : (∃ c, s.svc.claim = some c) ↔ s.svc.state = .claimed ∨ s.svc.state = .granted ∨ s.svc.state = .returning

/-- Unless the command unit fetches, drains, unbinds or waits for a consent, nothing waits on a command. -/
theorem rests_of {s : State} (h : s.CommandsHold) (hf : s.cmd.phase ≠ .fetching)
    (hd : ∀ i, s.cmd.phase ≠ .executing (.drain i)) (hu : ∀ r, s.cmd.phase ≠ .executing (.unbind r))
    (hc : s.cmd.phase ≠ .executing .consent) : s.Rests := by
  obtain ⟨a, b, c, d, e, f, -, i, -⟩ := h
  rw [if_neg hf] at c
  refine ⟨a, b, c, fun i o n hx => hd i ((d i).1 ⟨o, n, hx⟩), fun r hx => hu r ((e r).1 hx), ?_, i⟩
  by_contra hx
  exact hc (f.1 (by simpa using hx))

/-- While a command is judged, nothing waits on one. -/
theorem rests_of_begun {s : State} (h : s.CommandsHold) (hp : s.cmd.phase = .executing .begun) : s.Rests :=
  rests_of h (by rw [hp]; nofun) (fun i => by rw [hp]; nofun) (fun r => by rw [hp]; nofun) (by rw [hp]; nofun)

theorem Calm.rests {s t : State} (h : Calm s t) (hs : s.Rests) : t.Rests where
  distinct := (h.path.names hs.distinct hs.names).1
  names := (h.path.names hs.distinct hs.names).2
  fetches := h.path.fetches.trans hs.fetches
  drains i o n hx := by
    obtain ⟨v, m, hv, -⟩ := h.shape.draining hx
    exact hs.drains i v m hv
  unbinds r hr := hs.unbinds r ((h.unbinds r).1 hr)
  consent := h.consent.trans hs.consent
  claim := by rw [h.claim, h.session]; exact hs.claim

/-- Where nothing waits on a command, the command unit may be idle. -/
theorem State.Rests.idle {s : State} (h : s.Rests) (v : CommandUnit) (hv : v.phase = .idle) :
    State.CommandsHold { s with cmd := v } := by
  refine ⟨h.distinct, h.names, ?_, fun i => ?_, fun r => ?_, ?_, fun hc => ?_, h.claim, fun r hr => ?_, fun hr => ?_, fun _ _ => hv⟩
  · dsimp only
    rw [hv, h.fetches]
    rfl
  · dsimp only
    rw [hv]
    exact ⟨fun ⟨o, n, hx⟩ => absurd hx (h.drains i o n), fun hx => by cases hx⟩
  · dsimp only
    rw [hv]
    exact ⟨fun hx => absurd hx (h.unbinds r), fun hx => by cases hx⟩
  · dsimp only
    rw [hv, h.consent]
    exact ⟨(fun hx => by cases hx), (fun hx => by cases hx)⟩
  · dsimp only at hc
    rw [h.consent] at hc
    cases hc
  · dsimp only at hr
    rw [hv] at hr
    cases hr
  · dsimp only at hr
    rw [hv] at hr
    cases hr

theorem ownWrite_calm (k : OwnKind) (a : Nat) (b : List Byte) (s : State) (hk : k ≠ .fetch) : Calm s (ownWrite k a b s) where
  path := ownWrite_adds k a b s hk

/-- A command completes where nothing waits on it. -/
theorem complete_commands (st : Status) (why : Reason) {s : State} (h : s.Rests) : (complete st why s).CommandsHold :=
  (ownWrite_calm .headWord _ _ _ (by decide)).commands
    (((ownWrite_calm .completion _ _ s (by decide)).rests h).idle { s.cmd with head := s.cmd.head + 1, phase := .idle } rfl)

theorem complete_table (st : Status) (why : Reason) {s : State} (h : s.TableRight) : (complete st why s).TableRight :=
  tableRight_of_same (fun _ => rfl) (fun _ => rfl) rfl rfl rfl rfl rfl h

/-- A command waits: what it waits for, and nothing else, is begun. -/
theorem commandsHold_wait {t : State} {w : Wait} (hp : t.cmd.phase = .executing w)
    (distinct : (t.path.unanswered.map OwnTxn.id).Nodup) (names : ∀ x ∈ t.path.unanswered, x.id < t.path.nextId)
    (fetches : (t.path.unanswered.filter fun x => decide (x.kind = .fetch)).length = 0)
    (drains : ∀ i, (∃ o n, t.entry i = .draining o n) ↔ w = .drain i) (unbinds : ∀ r, t.unbinds r ↔ w = .unbind r)
    (consent : t.svc.consentWaiting = true ↔ w = .consent) (claimed : t.svc.consentWaiting = true → t.svc.state = .claimed)
    (claim : (∃ c, t.svc.claim = some c) ↔ t.svc.state = .claimed ∨ t.svc.state = .granted ∨ t.svc.state = .returning)
    (bind : ∀ r, w = .bindJoin r → ∃ x, Waiter.txn x ∈ t.path.waiting ∧ x.kind = .bankBind r)
    (snapshot : w = .snapshotJoin → ∃ x, Waiter.txn x ∈ t.path.waiting ∧ x.kind = .snapshot true)
    (run : t.pins.powerGood = true → t.pins.cabinetReset = true → False) : t.CommandsHold := by
  have he : ∀ v, t.cmd.phase = .executing v ↔ w = v := fun v => by rw [hp]; exact ⟨fun h => by injection h, fun h => by rw [h]⟩
  refine ⟨distinct, names, ?_, fun i => (drains i).trans (he _).symm, fun r => (unbinds r).trans (he _).symm,
    consent.trans (he _).symm, claimed, claim, fun r hr => bind r ((he _).1 hr), fun hr => snapshot ((he _).1 hr),
    fun p q => (run p q).elim⟩
  rw [fetches, hp, if_neg nofun]

/-- Where nothing waits on a command, it may wait for its own write to join or for writes to be answered. -/
theorem State.Rests.waits {s : State} (h : s.Rests) (w : Wait) (hd : ∀ i, w ≠ .drain i) (hu : ∀ r, w ≠ .unbind r)
    (hc : w ≠ .consent) (bind : ∀ r, w = .bindJoin r → ∃ x, Waiter.txn x ∈ s.path.waiting ∧ x.kind = .bankBind r)
    (snapshot : w = .snapshotJoin → ∃ x, Waiter.txn x ∈ s.path.waiting ∧ x.kind = .snapshot true)
    (run : s.pins.powerGood = true → s.pins.cabinetReset = true → False) : (s.setPhase (.executing w)).CommandsHold :=
  commandsHold_wait rfl h.distinct h.names h.fetches
    (fun i => ⟨fun ⟨o, n, hx⟩ => absurd hx (h.drains i o n), fun hx => absurd hx (hd i)⟩)
    (fun r => ⟨fun hx => absurd hx (h.unbinds r), fun hx => absurd hx (hu r)⟩)
    ⟨fun hx => absurd (h.consent.symm.trans hx) (by decide), fun hx => absurd hx hc⟩
    (fun hx => absurd (h.consent.symm.trans hx) (by decide)) h.claim bind snapshot run

/-- While a command executes, the part is not held by CABINET RESET. -/
theorem runs_of_executing {s : State} {w : Wait} (h : s.CommandsHold) (hp : s.cmd.phase = .executing w) :
    s.pins.powerGood = true → s.pins.cabinetReset = true → False := by
  intro p q
  have := h.2.2.2.2.2.2.2.2.2.2 p q
  rw [hp] at this
  cases this

/-- The move from `s` to `t` is the run of a command that begins in `s`, to its completion or its wait. -/
structure Runs (s t : State) : Prop extends Holds s t where
  ends : s.Ruled → s.cmd.phase = .executing .begun → t.Ruled ∧ t.cmd.phase ≠ .executing .begun

/-- What a command does before it completes keeps the invariants. -/
theorem Keeps.completes {s t : State} (h : Keeps s t) (st : Status) (why : Reason) : Runs s (complete st why t) :=
  ⟨h.toHolds.trans (complete_holds st why t), fun hr hp =>
    ⟨⟨complete_table st why (h.ruled hr).1,
      complete_commands st why (rests_of_begun (h.ruled hr).2 (h.begun.2 hp))⟩, by nofun⟩⟩

/-- A command that waits for its own write to join, or for writes to be answered, completes. -/
theorem Keeps.finishes {s t : State} (h : Keeps s t) (st : Status) (why : Reason) {w : Wait}
    (hp : s.cmd.phase = .executing w) (hb : w ≠ .begun) (hr : s.CommandsHold → t.Rests) : Keeps s (complete st why t) :=
  ⟨h.toHolds.trans (complete_holds st why t), fun hs => ⟨complete_table st why (h.ruled hs).1, complete_commands st why (hr hs.2)⟩,
    by rw [hp]; exact ⟨(fun hx => by cases hx), (fun hx => absurd (CmdPhase.executing.inj hx) hb)⟩⟩

theorem complete_runs (st : Status) (why : Reason) (s : State) : Runs s (complete st why s) := (Keeps.refl s).completes st why

/-- A command begins with moves that keep the invariants. -/
theorem Keeps.runs {s t u : State} (h : Keeps s t) (h' : Runs t u) : Runs s u :=
  ⟨h.toHolds.trans h'.toHolds, fun hr hp => h'.ends (h.ruled hr) (h.begun.2 hp)⟩

theorem makeReply_keeps (k : ReplyKind) (why : Reason) (q : BitVec 32) (s : State) : Keeps s (makeReply k why q s) := by
  have h : Keeps s { s with svc := { s.svc with replySeq := s.svc.replySeq + 1 } } := keeps_svc s _ rfl rfl rfl
  unfold makeReply
  dsimp only
  split
  · exact h.trans (ownWrite_keeps .reply _ _ _)
  · exact h

theorem writeBankWord_keeps (k : OwnKind) (i : WinIdx) (h : Half) (b : List Byte) (s : State) (hk : k ≠ .fetch) :
    Keeps s (writeBankWord k i h b s) := by
  unfold writeBankWord
  split
  · exact ownWrite_keeps _ _ _ s hk
  · exact .refl s

/-! ## The robot unit -/

theorem Bound.place_steps (b : Bound) (q : PublishRequest) : b.Steps (b.place q) := by
  unfold Bound.place
  split <;> rename_i hp <;> refine ⟨fun h => ?_, rfl, rfl, rfl⟩ <;> unfold Bound.Right at * <;> simp_all

theorem Bound.swap_copying_steps (b : Bound) : b.Steps { b.swap with publish := .copying } := by
  unfold Bound.swap
  dsimp only
  split <;> refine ⟨fun h => ?_, rfl, rfl, rfl⟩ <;> unfold Bound.Right at * <;> simp_all

theorem Bound.afterCopy_steps (b : Bound) : b.Steps b.afterCopy := by
  unfold Bound.afterCopy
  split
  · split <;> rename_i hp _ _ <;> refine ⟨fun h => ?_, rfl, rfl, rfl⟩ <;> unfold Bound.Right at * <;> simp_all
  · exact ⟨id, rfl, rfl, rfl⟩

theorem Bound.cancel_steps (b : Bound) : b.Steps b.cancel := by
  unfold Bound.cancel
  split <;> rename_i hp <;> refine ⟨fun h => ?_, rfl, rfl, rfl⟩ <;> unfold Bound.Right at * <;> simp_all

theorem Bound.grant_steps (b : Bound) : b.Steps b.grant := ⟨id, rfl, rfl, rfl⟩

theorem Bound.abandon_steps (b : Bound) : b.Steps b.abandon := ⟨id, rfl, rfl, rfl⟩

theorem productionPublish_keeps (r : RobotIdx) (q : BitVec 16) (c : Bool) (s : State) :
    Keeps s (productionPublish r q c s) := by
  unfold productionPublish
  dsimp only
  split
  · exact postNotice_keeps _ s
  · exact modifyRobot_keeps _ _ s fun b => b.place_steps _

/-- The flip's bank word is written while the bank is FLIPPING. -/
theorem writeFlip_keeps (r : RobotIdx) (s : State) (h : ∀ b, s.bound? r = some b → b.publish = .flipping) :
    Keeps s (writeFlip r s) := by
  unfold writeFlip
  split
  · rename_i b hb
    refine Keeps.after (writeBankWord_keeps (.bankFlip r) _ _ _ _ (by nofun)) (setRobot_keeps hb ⟨fun hr => ?_, rfl, rfl, rfl⟩)
    have := h b hb
    unfold Bound.Right at *
    simp_all
  · exact .refl s

theorem startFlip_keeps (r : RobotIdx) (s : State) : Keeps s (startFlip r s) := by
  unfold startFlip
  split
  · rename_i b hb
    split
    · rename_i hp
      have h : Keeps s (s.setRobot r (some { b with publish := .flipping, newFlipTime := none })) :=
        setRobot_keeps hb ⟨fun hr => by unfold Bound.Right at *; simp_all, rfl, rfl, rfl⟩
      dsimp only
      split
      · refine h.trans (writeFlip_keeps _ _ fun x hx => ?_)
        rw [State.bound_setRobot_self] at hx
        cases hx
        rfl
      · exact h
    · exact .refl s
  · exact .refl s

theorem copyReadAt_keeps (r : RobotIdx) (o : Nat) (s : State) : Keeps s (copyReadAt r o s) := by
  unfold copyReadAt
  split
  · split
    · dsimp only
      split
      · exact ownRead_keeps _ _ _ s (by nofun)
      · exact .refl s
    · exact .refl s
  · exact .refl s

theorem writeCopy_keeps (r : RobotIdx) (o n : Nat) (d : List Byte) (s : State) : Keeps s (writeCopy r o n d s) := by
  unfold writeCopy
  split
  · split
    · dsimp only
      split
      · exact (ownWrite_keeps _ _ _ s (by nofun)).trans (copyReadAt_keeps _ _ _)
      · exact ownWrite_keeps _ _ _ s (by nofun)
    · exact .refl s
  · exact .refl s

theorem modifyRobot_twice (r : RobotIdx) (f g : Bound → Bound) (s : State) :
    (s.modifyRobot r f).modifyRobot r g = s.modifyRobot r fun b => g (f b) := by
  unfold State.modifyRobot
  cases hb : s.bound? r with
  | none => simp only [hb]
  | some b =>
    dsimp only
    rw [State.bound_setRobot_self]
    dsimp only
    unfold State.setRobot
    simp

theorem swapBank_keeps (r : RobotIdx) (s : State) : Keeps s (swapBank r s) := by
  unfold swapBank startCopy
  rw [modifyRobot_twice]
  exact (modifyRobot_keeps r _ s Bound.swap_copying_steps).trans (copyReadAt_keeps _ _ _)

theorem Entry.release_tag (ids : List Nat) (e : Entry) : (e.release ids).tag = e.tag := by
  unfold Entry.release
  split <;> rfl

/-- Counting a tag in a list of entries that a map has passed over without changing tags. -/
theorem filter_tag_map (f : Entry → Entry) (hf : ∀ e, (f e).tag = e.tag) (g : Tag) (l : List Entry) :
    ((l.map f).filter fun e => e.tag = g).length = (l.filter fun e => e.tag = g).length := by
  induction l with
  | nil => rfl
  | cons e l ih =>
    rw [List.map_cons, List.filter_cons, List.filter_cons, hf]
    split
    · rw [List.length_cons, List.length_cons, ih]
    · exact ih

theorem releaseHeld_keeps (r : RobotIdx) (s : State) : Keeps s (releaseHeld r s) := by
  refine Holds.calm ⟨rfl, fun h => ⟨h.1, ?_, fun g => ?_⟩, serviceOnly_of_same rfl rfl rfl rfl rfl, fun x => x, fun x => x,
    fun x => x, fun x => x, robotsRight_of_shape (.refl _) rfl⟩ { path := .of_own rfl rfl (Nat.le_refl _) }
  · exact (List.length_filter_le _ _).trans h.2.1
  · exact (filter_tag_map _ (Entry.release_tag _) g _).le.trans (h.2.2 g)

theorem endCopy_keeps (r : RobotIdx) (s : State) : Keeps s (endCopy r s) :=
  (releaseHeld_keeps r s).trans (modifyRobot_keeps _ _ _ Bound.afterCopy_steps)

theorem cancelPublishes_keeps (r : RobotIdx) (s : State) : Keeps s (cancelPublishes r s) := by
  unfold cancelPublishes
  split
  · rename_i b hb
    have h : Keeps s (s.setRobot r (some b.cancel)) := setRobot_keeps hb b.cancel_steps
    dsimp only
    split
    · exact h.trans (postNotice_keeps _ _)
    · exact h
  · exact .refl s

theorem cancelAll_keeps (rs : List RobotIdx) (s : State) : Keeps s (cancelAll rs s) := by
  induction rs generalizing s with
  | nil => exact .refl s
  | cons r rs ih => exact (cancelPublishes_keeps r s).trans (ih _)

/-! ## The service unit -/

/-- What an operation on the window table and the session has to say for its move to keep what no command breaks. -/
theorem Holds.session {s t : State} (hq : t.pending = s.pending) (hp : t.path = s.path) (hh : t.hold = s.hold)
    (hn : t.pins = s.pins) (hk : t.clk = s.clk) (hr : s.rep.Kept t.rep) (ht : t.trk = s.trk)
    (hs : s.ServiceOnlyGranted → t.ServiceOnlyGranted) (hb : s.RobotsRight → t.RobotsRight) : Holds s t := by
  refine ⟨hq, fun h => ⟨by rw [hp]; exact h.1, by rw [hh]; exact h.2.1, fun g => ?_⟩, hs, fun h => ?_, fun h => ?_, fun h => ?_,
    fun h => ?_, hb⟩
  · unfold State.tagCount
    rw [hp]
    exact h.2.2 g
  · unfold State.RateWithinLimit
    rw [hk]
    exact h
  · unfold State.AttentionRight Reporting.attention at *
    rw [hn, hr.enabled, hr.mask, hr.consumed, hr.published]
    exact h
  · exact ⟨(hr.notices ⟨h.1, h.2.1⟩).1, (hr.notices ⟨h.1, h.2.1⟩).2, hr.decisions h.2.2⟩
  · unfold State.TrackingRight
    rw [ht]
    exact h

/-- Another session record, with the same waiting consent. -/
theorem commandsHold_svc {s : State} (h : s.CommandsHold) (v : Session) (hw : v.consentWaiting = s.svc.consentWaiting)
    (h1 : v.consentWaiting = true → v.state = .claimed)
    (h2 : (∃ c, v.claim = some c) ↔ v.state = .claimed ∨ v.state = .granted ∨ v.state = .returning) :
    State.CommandsHold { s with svc := v } := by
  obtain ⟨a, b, c, d, e, f, -, -, j, k, l⟩ := h
  refine ⟨a, b, c, d, e, ?_, h1, h2, j, k, l⟩
  dsimp only
  rw [hw]
  exact f

theorem notWaiting_of {s : State} (h : s.CommandsHold) (hs : s.svc.state ≠ .claimed) : s.svc.consentWaiting = false := by
  obtain ⟨-, -, -, -, -, -, g, -⟩ := h
  by_contra hx
  exact hs (g (by simpa using hx))

/-- Outside GRANTED no window's authority is SERVICE, so a change of the session keeps everything. -/
theorem holds_svc_of_not_granted (s : State) (v : Session) (h : s.svc.state ≠ .granted) : Holds s { s with svc := v } :=
  .session rfl rfl rfl rfl rfl (.refl _) rfl (fun hs => ⟨fun i hi => absurd (hs.1 i hi).1 h, hs.2⟩)
    (robotsRight_of_shape (.refl _) rfl)

/-- The session record `v` agrees with the waiting consent of `s` and holds a claim as its state says. -/
def Session.Fits (s : State) (v : Session) : Prop :=
  v.consentWaiting = s.svc.consentWaiting ∧ (v.consentWaiting = true → v.state = .claimed)
    ∧ ((∃ c, v.claim = some c) ↔ v.state = .claimed ∨ v.state = .granted ∨ v.state = .returning)

theorem ruled_svc {s : State} {v : Session} (h : s.Ruled) (hv : v.Fits s) : State.Ruled { s with svc := v } :=
  ⟨tableRight_of_same (fun _ => rfl) (fun _ => rfl) rfl rfl rfl rfl rfl h.1, commandsHold_svc h.2 v hv.1 hv.2.1 hv.2.2⟩

/-- Where a consent waited, the claim's end or its grant leaves nothing that waits on the command. -/
theorem rests_svc {s : State} {v : Session} (h : s.CommandsHold) (hp : s.cmd.phase = .executing .consent)
    (hw : v.consentWaiting = false)
    (hc : (∃ c, v.claim = some c) ↔ v.state = .claimed ∨ v.state = .granted ∨ v.state = .returning) :
    State.Rests { s with svc := v } := by
  obtain ⟨c1, c2, c3, c4, c5, -⟩ := h
  rw [hp] at c3
  refine ⟨c1, c2, c3, fun i o x hx => ?_, fun r hx => ?_, hw, hc⟩
  · have := (c4 i).1 ⟨o, x, hx⟩
    rw [hp] at this
    cases this
  · have := (c5 r).1 hx
    rw [hp] at this
    cases this

theorem noteStatus_calm {s a : State} (b : State) (h : Calm s a) : Calm s (b.noteStatus a) := by
  obtain ⟨m, hm⟩ := noteStatus_touches b a
  rw [hm]
  exact h.trans {}

theorem makeReply_calm (k : ReplyKind) (why : Reason) (q : BitVec 32) (s : State) : Calm s (makeReply k why q s) := by
  have h : Calm s { s with svc := { s.svc with replySeq := s.svc.replySeq + 1 } } := {}
  unfold makeReply
  dsimp only
  split
  · exact h.trans (ownWrite_calm .reply _ _ _ (by decide))
  · exact h

theorem postNoticeAt_calm (t : Nat) (n : Notice) (s : State) : Calm s (postNoticeAt t n s) := by
  unfold postNoticeAt
  split
  · split
    · unfold dropNotice
      exact noteStatus_calm _ {}
    · exact (ownWrite_calm .notice _ _ s (by decide)).trans (Calm.trans {} (ownWrite_calm (.noticeProducer _) _ _ _ (by nofun)))
  · exact .refl s

theorem postNotice_calm (n : Notice) (s : State) : Calm s (postNotice n s) := postNoticeAt_calm _ n s

theorem modifyRobots_calm (f : Bound → Bound) (hf : ∀ b : Bound, (f b).unbinding = b.unbinding) (rs : List RobotIdx)
    (s : State) : Calm s (State.modifyRobots f rs s) := by
  induction rs generalizing s with
  | nil => exact .refl s
  | cons r rs ih =>
    refine Calm.trans ?_ (ih _)
    unfold State.modifyRobot
    split
    · exact setRobot_calm ‹_› (hf _)
    · exact .refl s

theorem keeps_svc_of_not_granted (s : State) (v : Session) (h : s.svc.state ≠ .granted)
    (hv : s.CommandsHold → v.Fits s) : Keeps s (s.setSvc v) :=
  noteStatus_keeps ⟨holds_svc_of_not_granted s v h, fun hr => ruled_svc hr (hv hr.2), Iff.rfl⟩

theorem completeConsent_holds (st : Status) (why : Reason) (s : State) : Holds s (completeConsent st why s) := by
  unfold completeConsent
  split
  · exact complete_holds _ _ s
  · exact .refl s

theorem completeConsent_begun (st : Status) (why : Reason) (s : State) :
    (completeConsent st why s).cmd.phase = .executing .begun ↔ s.cmd.phase = .executing .begun := by
  unfold completeConsent
  split
  · rename_i h
    rw [h]
    exact ⟨(fun h => by cases h), (fun h => by cases h)⟩
  · exact Iff.rfl

/-- A claim ends without a grant, and with it a waiting consent. -/
theorem withdrawClaim_keeps (k : ReplyKind) (a : Reason) (n : SessionState) (b : Reason) (s : State)
    (h : s.svc.state ≠ .granted) (hn : n = .keyed ∨ n = .closed) : Keeps s (withdrawClaim k a n b s) := by
  have hr := makeReply_calm k a s.svc.claimSeq s
  have h1 : Holds s ((makeReply k a s.svc.claimSeq s).setSvc ((makeReply k a s.svc.claimSeq s).svc.dropClaim n)) := by
    refine (makeReply_keeps k a s.svc.claimSeq s).toHolds.trans
      (noteStatus_holds (holds_svc_of_not_granted _ _ ?_))
    rw [hr.session]
    exact h
  -- the command unit before the waiting consent completes
  have h2 : ∀ m, ({ makeReply k a s.svc.claimSeq s with
      svc := (makeReply k a s.svc.claimSeq s).svc.dropClaim n,
      rep := { (makeReply k a s.svc.claimSeq s).rep with statusMark := m } } : State).cmd.phase = s.cmd.phase :=
    fun m => hr.phase
  obtain ⟨m, hm⟩ := setSvc_touches ((makeReply k a s.svc.claimSeq s).svc.dropClaim n) (makeReply k a s.svc.claimSeq s)
  have hd : (s.svc.consentWaiting = true → s.cmd.phase = .executing .consent) → s.CommandsHold →
      s.cmd.phase = .executing .consent →
      ((makeReply k a s.svc.claimSeq s).setSvc ((makeReply k a s.svc.claimSeq s).svc.dropClaim n)).Rests := by
    intro _ hc hp
    rw [hm]
    have := rests_svc (v := (makeReply k a s.svc.claimSeq s).svc.dropClaim n) (hr.commands hc) (hr.phase.trans hp) rfl (by
      rcases hn with rfl | rfl <;> simp [Session.dropClaim])
    exact Calm.rests {} this
  have ht : s.TableRight →
      ((makeReply k a s.svc.claimSeq s).setSvc ((makeReply k a s.svc.claimSeq s).svc.dropClaim n)).TableRight := by
    intro hs
    rw [hm]
    exact tableRight_of_same (fun _ => rfl) (fun _ => rfl) rfl rfl rfl rfl rfl (hr.table hs)
  unfold withdrawClaim
  dsimp only
  split
  · rename_i hw
    have hc := modifyRobots_calm Bound.abandon (fun _ => rfl) s.svc.named
      ((makeReply k a s.svc.claimSeq s).setSvc ((makeReply k a s.svc.claimSeq s).svc.dropClaim n))
    refine ⟨h1.trans ((modifyRobots_keeps _ Bound.abandon_steps _ _).toHolds.trans (completeConsent_holds _ _ _)), fun hs => ?_, ?_⟩
    · have hp : s.cmd.phase = .executing .consent := by
        obtain ⟨-, -, -, -, -, f, -⟩ := hs.2
        exact f.1 hw
      have hpp : (State.modifyRobots Bound.abandon s.svc.named
          ((makeReply k a s.svc.claimSeq s).setSvc ((makeReply k a s.svc.claimSeq s).svc.dropClaim n))).cmd.phase
          = .executing .consent := by
        rw [hc.phase, hm]
        exact (h2 m).trans hp
      unfold completeConsent
      rw [if_pos hpp]
      exact ⟨complete_table _ _ (hc.table (ht hs.1)), complete_commands _ _ (hc.rests (hd (fun _ => hp) hs.2 hp))⟩
    · rw [completeConsent_begun, hc.phase, hm]
      rw [show _ = _ from h2 m]
  · rename_i hw
    refine ⟨h1, fun hs => ⟨ht hs.1, ?_⟩, ?_⟩
    · rw [hm]
      have := commandsHold_svc (hr.commands hs.2) ((makeReply k a s.svc.claimSeq s).svc.dropClaim n) (by
        rw [hr.consent]
        exact (Bool.eq_false_iff.2 hw).symm) (fun hx => by cases hx) (by
        rcases hn with rfl | rfl <;> simp [Session.dropClaim])
      exact Calm.commands {} this
    · rw [hm]
      rw [show _ = _ from h2 m]

/-- The authority of a window after a change of authority of several windows. -/
theorem authority_setAuthority (s : State) (a : Authority) (i j : WinIdx) :
    (s.setAuthority j a).authority? i = if j = i ∧ (s.authority? i).isSome then some a else s.authority? i := by
  unfold State.setAuthority
  split
  · rename_i w hw
    by_cases hij : j = i
    · subst hij
      unfold State.authority? State.loaded?
      rw [State.entry_setEntry_self, hw]
      obtain ⟨b, z, x, y, role⟩ := w
      cases role <;> simp [Role.withAuthority]
    · unfold State.authority? State.loaded?
      rw [State.entry_setEntry_of_ne _ hij]
      simp [hij]
  · rename_i hw
    by_cases hij : j = i
    · subst hij
      have : s.authority? j = none := by
        unfold State.authority? State.loaded?
        split
        · rename_i w h
          split at h
          · rename_i v hv
            exact absurd hv (hw v)
          · cases h
        · rfl
      simp [this]
    · simp [hij]

theorem authority_setAuthorities (a : Authority) (ws : List WinIdx) (s : State) (i : WinIdx) :
    (State.setAuthorities a ws s).authority? i
      = if i ∈ ws ∧ (s.authority? i).isSome then some a else s.authority? i := by
  induction ws generalizing s with
  | nil => simp [State.setAuthorities]
  | cons j ws ih =>
    unfold State.setAuthorities
    rw [ih, authority_setAuthority]
    by_cases hj : j = i
    · subst hj
      by_cases hs : (s.authority? j).isSome <;> simp [hs]
    · simp [hj, Ne.symm hj]

/-- A change of authority leaves the DRAINING and the EMPTY entries. -/
theorem setAuthorities_draining (a : Authority) (ws : List WinIdx) (s : State) (i : WinIdx) (o : Window) (n : Option Window) :
    (State.setAuthorities a ws s).entry i = .draining o n ↔ s.entry i = .draining o n := by
  induction ws generalizing s with
  | nil => rfl
  | cons j ws ih =>
    unfold State.setAuthorities
    rw [ih]
    unfold State.setAuthority
    split
    · rename_i w hw
      by_cases hj : j = i
      · subst hj
        rw [State.entry_setEntry_self, hw]
        simp
      · rw [State.entry_setEntry_of_ne _ hj]
    · rfl

theorem setAuthorities_empty (a : Authority) (ws : List WinIdx) (s : State) (i : WinIdx) (h : s.entry i = .empty) :
    (State.setAuthorities a ws s).entry i = .empty := by
  induction ws generalizing s with
  | nil => exact h
  | cons j ws ih =>
    unfold State.setAuthorities
    refine ih _ ?_
    unfold State.setAuthority
    split
    · rename_i w hw
      by_cases hj : j = i
      · subst hj
        rw [hw] at h
        cases h
      · rw [State.entry_setEntry_of_ne _ hj]
        exact h
    · exact h

theorem setAuthority_shape (s : State) (i : WinIdx) (a : Authority) : s.SameShape (s.setAuthority i a) := by
  intro j
  unfold State.setAuthority
  split
  · rename_i w hw
    by_cases hj : i = j
    · subst hj
      rw [State.entry_setEntry_self, hw]
      exact congrArg WinState.loaded (w.withAuthority_shape a)
    · rw [State.entry_setEntry_of_ne _ hj]
  · rfl

theorem setAuthorities_shape (a : Authority) (ws : List WinIdx) (s : State) : s.SameShape (State.setAuthorities a ws s) := by
  induction ws generalizing s with
  | nil => exact .refl s
  | cons i ws ih => exact (setAuthority_shape s i a).trans (ih _)

theorem setAuthorities_calm (a : Authority) (ws : List WinIdx) (s : State) : Calm s (State.setAuthorities a ws s) := by
  have hs := setAuthorities_shape a ws s
  obtain ⟨w, hw⟩ := setAuthorities_touches a ws s
  rw [hw] at hs ⊢
  exact { shape := hs }

/-- A return begins from GRANTED. -/
theorem beginReturn_keeps (x : Cause) (s : State) (h : s.svc.state = .granted) : Keeps s (beginReturn x s) := by
  unfold beginReturn
  dsimp only
  obtain ⟨m, hm⟩ := setSvc_touches { s.svc with state := .returning, cause := some x, keepTimer := none } s
  have hc := setAuthorities_calm .frozen s.svc.windows
    (s.setSvc { s.svc with state := .returning, cause := some x, keepTimer := none })
  obtain ⟨w, hw⟩ := setAuthorities_touches .frozen s.svc.windows
    (s.setSvc { s.svc with state := .returning, cause := some x, keepTimer := none })
  have hsame : ∀ i, (s.setSvc { s.svc with state := .returning, cause := some x, keepTimer := none }).entry i = s.entry i := by
    intro i
    rw [hm]
    rfl
  have hauth : ∀ i, (s.setSvc { s.svc with state := .returning, cause := some x, keepTimer := none }).authority? i
      = s.authority? i := by
    intro i
    rw [hm]
    rfl
  refine ⟨.session (by rw [hw, hm]) (by rw [hw, hm]) (by rw [hw, hm]) (by rw [hw, hm]) (by rw [hw, hm])
    (by rw [hw, hm]; exact ⟨rfl, rfl, rfl, rfl, id, id⟩) (by rw [hw, hm])
    (fun hs => ⟨fun i hi => ?_, fun i o n hi => ?_, fun a b i => ?_⟩)
    (robotsRight_of_shape (State.SameShape.trans (by rw [hm]; exact fun _ => rfl) hc.shape) (by rw [hw, hm])),
    fun hs => hc.ruled ?_, by rw [hc.phase, hm]⟩
  · rw [authority_setAuthorities, hauth] at hi
    by_cases hc : i ∈ s.svc.windows ∧ (s.authority? i).isSome
    · rw [if_pos hc] at hi
      cases hi
    · rw [if_neg hc] at hi
      exact absurd ⟨(hs.1 i hi).2, by rw [hi]; rfl⟩ hc
  · rw [setAuthorities_draining, hsame] at hi
    exact hs.2.1 i o n hi
  · refine setAuthorities_empty _ _ _ _ ?_
    rw [hsame]
    rw [hw, hm] at a b
    exact hs.2.2 a b i
  · rw [hm]
    have hn := notWaiting_of hs.2 (by rw [h]; decide)
    have hcl := hs.2.2.2.2.2.2.2.2.1
    rw [h] at hcl
    refine Calm.ruled (s := { s with svc := { s.svc with state := .returning, cause := some x, keepTimer := none } }) {}
      (ruled_svc hs ⟨rfl, fun hx => ?_, ?_⟩)
    · exact absurd (hn.symm.trans hx) (by decide)
    · simpa using hcl

/-- What the invariants need of a state in which the grant is made. -/
theorem grantReady_iff {s : State} (h : grantReady s = true) : s.svc.state = .claimed ∧ s.svc.consentWaiting = true := by
  unfold grantReady at h
  simp only [Bool.and_eq_true, decide_eq_true_eq] at h
  exact ⟨h.1.1, h.1.2⟩

/-- The grant of a claim whose consent waits: the command completes, and nothing waits on it. -/
theorem grantSession_keeps (s : State) (h : s.svc.state = .claimed) (hcw : s.svc.consentWaiting = true) :
    Keeps s (grantSession s) := by
  have hg : s.svc.state ≠ .granted := by rw [h]; decide
  unfold grantSession
  split
  · rename_i c hc
    dsimp only
    obtain ⟨m, hm⟩ := setSvc_touches { s.svc with consentTimer := none } s
    obtain ⟨w, hw⟩ := setAuthorities_touches .service c.windows (s.setSvc { s.svc with consentTimer := none })
    have k1 : Calm s (s.setSvc { s.svc with consentTimer := none }) := noteStatus_calm s {}
    have k2 := k1.trans (setAuthorities_calm .service c.windows (s.setSvc { s.svc with consentTimer := none }))
    have k3 := k2.trans (modifyRobots_calm Bound.grant (fun _ => rfl)
      (State.setAuthorities .service c.windows (s.setSvc { s.svc with consentTimer := none })).svc.named
      (State.setAuthorities .service c.windows (s.setSvc { s.svc with consentTimer := none })))
    have kr := modifyRobots_keeps Bound.grant Bound.grant_steps
      (State.setAuthorities .service c.windows (s.setSvc { s.svc with consentTimer := none })).svc.named
      (State.setAuthorities .service c.windows (s.setSvc { s.svc with consentTimer := none }))
    obtain ⟨v, hv⟩ := modifyRobots_touches Bound.grant
      (State.setAuthorities .service c.windows (s.setSvc { s.svc with consentTimer := none })).svc.named
      (State.setAuthorities .service c.windows (s.setSvc { s.svc with consentTimer := none }))
    generalize hu : State.modifyRobots Bound.grant
      (State.setAuthorities .service c.windows (s.setSvc { s.svc with consentTimer := none })).svc.named
      (State.setAuthorities .service c.windows (s.setSvc { s.svc with consentTimer := none })) = u at *
    have hwin : u.win = (State.setAuthorities .service c.windows (s.setSvc { s.svc with consentTimer := none })).win := by
      rw [hv]
    have hent : ∀ i, (s.setSvc { s.svc with consentTimer := none }).entry i = s.entry i := fun i => by rw [hm]; rfl
    have haut : ∀ i, (s.setSvc { s.svc with consentTimer := none }).authority? i = s.authority? i := fun i => by
      rw [hm]
      rfl
    have hsvc : u.svc = { s.svc with consentTimer := none } := by rw [hv, hw, hm]
    have hgrant : Holds s (u.setSvc { u.svc with
        state := .granted, consentWaiting := false, keepPhase := none,
        keepTimer := some (u.clk.elapsed + msToNs c.keepMs) }) := by
      refine noteStatus_holds (.session ?_ ?_ ?_ ?_ ?_ ?_ ?_ (fun hs => ?_) fun hs => ?_)
      · rw [hv, hw, hm]
      · rw [hv, hw, hm]
      · rw [hv, hw, hm]
      · rw [hv, hw, hm]
      · rw [hv, hw, hm]
      · rw [hv, hw, hm]
        exact ⟨rfl, rfl, rfl, rfl, id, id⟩
      · rw [hv, hw, hm]
      · refine ⟨fun i hi => ⟨rfl, ?_⟩, fun i o n hi => ?_, fun a b i => ?_⟩
        · have hi' : (State.setAuthorities .service c.windows (s.setSvc { s.svc with consentTimer := none })).authority? i
              = some .service := by
            rw [← hi]
            unfold State.authority? State.loaded? State.entry
            dsimp only
            rw [hwin]
          rw [authority_setAuthorities, haut] at hi'
          unfold Session.windows
          dsimp only
          rw [hsvc, hc]
          by_cases hin : i ∈ c.windows
          · exact hin
          · rw [if_neg (fun x => hin x.1)] at hi'
            exact absurd (hs.1 i hi').1 hg
        · have hi' : (State.setAuthorities .service c.windows (s.setSvc { s.svc with consentTimer := none })).entry i
              = .draining o (some n) := by
            rw [← hi]
            unfold State.entry
            dsimp only
            rw [hwin]
          rw [setAuthorities_draining, hent] at hi'
          exact hs.2.1 i o n hi'
        · have he : (State.setAuthorities .service c.windows (s.setSvc { s.svc with consentTimer := none })).entry i = .empty := by
            refine setAuthorities_empty _ _ _ _ ?_
            rw [hent]
            dsimp only at a b
            rw [hv, hw, hm] at a b
            exact hs.2.2 a b i
          rw [← he]
          unfold State.entry
          dsimp only
          rw [hwin]
      · have h1 := (keeps_svc s { s.svc with consentTimer := none } rfl rfl rfl).robots hs
        have h2 : (s.setSvc { s.svc with consentTimer := none }).RobotsRight := by
          rw [hm]
          exact h1
        have h3 := robotsRight_of_shape (setAuthorities_shape .service c.windows _) (by rw [hw]) h2
        exact robotsRight_of_shape (.refl _) rfl (kr.robots h3)
    generalize hgr : u.setSvc { u.svc with
        state := .granted, consentWaiting := false, keepPhase := none,
        keepTimer := some (u.clk.elapsed + msToNs c.keepMs) } = g at *
    obtain ⟨mg, hmg⟩ := setSvc_touches { u.svc with
        state := .granted, consentWaiting := false, keepPhase := none,
        keepTimer := some (u.clk.elapsed + msToNs c.keepMs) } u
    have kc : Calm g (postNotice (.serviceGranted c) (makeReply .granted .none c.seq g)) :=
      (makeReply_calm _ _ _ _).trans (postNotice_calm _ _)
    refine ⟨hgrant.trans ((makeReply_keeps _ _ _ _).toHolds.trans
      ((postNotice_keeps _ _).toHolds.trans (completeConsent_holds _ _ _))), fun hs => ?_, ?_⟩
    · have hp : s.cmd.phase = .executing .consent := by
        obtain ⟨-, -, -, -, -, f, -⟩ := hs.2
        exact f.1 hcw
      have hup : u.cmd.phase = .executing .consent := k3.phase.trans hp
      have hgp : g.cmd.phase = .executing .consent := by
        rw [← hgr, hmg]
        exact hup
      have hrest : g.Rests := by
        rw [← hgr, hmg]
        have := rests_svc (v := { u.svc with
          state := .granted, consentWaiting := false, keepPhase := none,
          keepTimer := some (u.clk.elapsed + msToNs c.keepMs) }) (k3.commands hs.2) hup rfl (by
            dsimp only
            rw [hsvc, hc]
            simp)
        exact Calm.rests {} this
      have htab : g.TableRight := by
        rw [← hgr, hmg]
        exact tableRight_of_same (fun _ => rfl) (fun _ => rfl) rfl rfl rfl rfl rfl (k3.table hs.1)
      unfold completeConsent
      rw [if_pos (kc.phase.trans hgp)]
      exact ⟨complete_table _ _ (kc.table htab), complete_commands _ _ (kc.rests hrest)⟩
    · rw [completeConsent_begun, kc.phase, ← hgr, hmg, show _ = _ from k3.phase]
  · exact .refl s

theorem setAuthorities_keeps_production (ws : List WinIdx) (s : State) : Keeps s (State.setAuthorities .production ws s) := by
  obtain ⟨w, hw⟩ := setAuthorities_touches .production ws s
  refine Holds.calm (.session (by rw [hw]) (by rw [hw]) (by rw [hw]) (by rw [hw]) (by rw [hw]) (by rw [hw]; exact .refl _)
    (by rw [hw]) (fun hs => ⟨fun i hi => ?_, fun i o n hi => ?_, fun a b i => ?_⟩)
    (robotsRight_of_shape (setAuthorities_shape _ _ _) (by rw [hw]))) (setAuthorities_calm _ _ _)
  · rw [authority_setAuthorities] at hi
    by_cases hc : i ∈ ws ∧ (s.authority? i).isSome
    · rw [if_pos hc] at hi
      cases hi
    · rw [if_neg hc] at hi
      rw [hw]
      exact hs.1 i hi
  · rw [setAuthorities_draining] at hi
    exact hs.2.1 i o n hi
  · rw [hw] at a b
    exact setAuthorities_empty _ _ _ _ (hs.2.2 a b i)

theorem endReturn_keeps (s : State) (h : s.svc.state = .returning) : Keeps s (endReturn s) := by
  unfold endReturn
  split
  · rename_i c cause hc hx
    dsimp only
    have h1 := ((setAuthorities_keeps_production c.windows s).trans
      ((makeReply_keeps .returned cause.reason c.seq _).trans (postNotice_keeps (.serviceReturned c.seq cause) _)))
    have h2 := ((setAuthorities_calm .production c.windows s).trans
      ((makeReply_calm .returned cause.reason c.seq _).trans (postNotice_calm (.serviceReturned c.seq cause) _))).session
    rw [h] at h2
    have h3 : ∀ {u : State} {v : Session}, u.svc.state = .returning → u.CommandsHold →
        v.consentWaiting = u.svc.consentWaiting → v.claim = none →
        (v.state = .keyed ∨ v.state = .closed ∨ v.state = .lockout) → v.Fits u := by
      intro u v hu hk h1 h2 h3
      refine ⟨h1, fun hx => ?_, ?_⟩
      · rw [h1, notWaiting_of hk (by rw [hu]; decide)] at hx
        cases hx
      · rw [h2]
        rcases h3 with h3 | h3 | h3 <;> rw [h3] <;> simp
    have h4 : ∀ k, nextByKey k = .keyed ∨ nextByKey k = .closed ∨ nextByKey k = .lockout := by decide
    split <;> refine h1.trans (keeps_svc_of_not_granted _ _ (by rw [h2]; decide) fun hk => h3 h2 hk rfl rfl ?_)
    · exact h4 _
    · exact h4 _
    · exact .inr (.inr rfl)
  · exact .refl s

theorem serviceModeChange_keeps (r : RobotIdx) (m : Mode) (s : State) : Keeps s (serviceModeChange r m s) := by
  unfold serviceModeChange
  split
  · split
    · exact beginReturn_keeps _ s ‹_›
    · split
      · rename_i h
        exact withdrawClaim_keeps _ _ _ _ s (by rw [h.1]; decide) (.inl rfl)
      · exact .refl s
  · exact .refl s

theorem servicePulse_keeps (s : State) : Keeps s (servicePulse s) := by
  unfold servicePulse
  split
  · split
    · exact beginReturn_keeps _ s ‹_›
    · split
      · rename_i h
        exact withdrawClaim_keeps _ _ _ _ s (by rw [h.1]; decide) (.inl rfl)
      · exact .refl s
  · exact .refl s

theorem serviceClaimAct_keeps (c : Claim) (s : State) : Keeps s (serviceClaimAct c s) := by
  unfold serviceClaimAct
  split
  · rename_i h
    split
    · exact makeReply_keeps _ _ _ s
    · refine (keeps_svc_of_not_granted s _ (by rw [h]; decide) fun hk => ?_).trans (postNotice_keeps _ _)
      have := notWaiting_of hk (by rw [h]; decide)
      exact ⟨this.symm, nofun, by simp⟩
  · exact makeReply_keeps _ _ _ s
  · exact makeReply_keeps _ _ _ s
  · exact makeReply_keeps _ _ _ s

theorem serviceKeepAct_keeps (phase : Bool) (s : State) : Keeps s (serviceKeepAct phase s) := by
  unfold serviceKeepAct
  split
  · split
    · exact setSvc_keeps _ s rfl rfl rfl
    · exact .refl s
  · exact .refl s

theorem serviceReleaseAct_keeps (s : State) : Keeps s (serviceReleaseAct s) := by
  unfold serviceReleaseAct
  split
  · rename_i h
    exact withdrawClaim_keeps _ _ _ _ s (by rw [h]; decide) (.inl rfl)
  · exact beginReturn_keeps _ s ‹_›
  · exact .refl s

theorem servicePublishAct_keeps (q : BitVec 32) (p : ServicePublish) (s : State) : Keeps s (servicePublishAct q p s) := by
  unfold servicePublishAct
  dsimp only
  split
  · exact makeReply_keeps _ _ _ s
  · exact modifyRobot_keeps _ _ s fun b => b.place_steps _

/-- Between KEYED, CLOSED and LOCKOUT no claim is held and none comes. -/
theorem fits_of_unclaimed {s : State} {v : Session} (hk : s.CommandsHold)
    (hs : s.svc.state = .keyed ∨ s.svc.state = .closed ∨ s.svc.state = .lockout)
    (hv : v.state = .keyed ∨ v.state = .closed ∨ v.state = .lockout) (hc : v.claim = s.svc.claim)
    (hw : v.consentWaiting = s.svc.consentWaiting) : v.Fits s := by
  refine ⟨hw, fun hx => ?_, ?_⟩
  · rw [hw, notWaiting_of hk (by rcases hs with h | h | h <;> rw [h] <;> decide)] at hx
    cases hx
  · have := hk.2.2.2.2.2.2.2.1
    rw [hc, this]
    rcases hs with h | h | h <;> rcases hv with h' | h' | h' <;> rw [h, h'] <;> simp

theorem keyOffAct_keeps (s : State) : Keeps s (keyOffAct s) := by
  unfold keyOffAct
  split
  · rename_i h
    exact keeps_svc_of_not_granted s _ (by rw [h]; decide) fun hk =>
      fits_of_unclaimed hk (.inl h) (.inr (.inl rfl)) rfl rfl
  · rename_i h
    exact withdrawClaim_keeps _ _ _ _ s (by rw [h]; decide) (.inr rfl)
  · exact beginReturn_keeps _ s ‹_›
  · exact .refl s

theorem keyOnAct_keeps (s : State) : Keeps s (keyOnAct s) := by
  unfold keyOnAct
  split
  · rename_i h
    exact keeps_svc_of_not_granted s _ (by rw [h]; decide) fun hk =>
      fits_of_unclaimed hk (.inr (.inl h)) (.inl rfl) rfl rfl
  · exact .refl s

theorem cancelAll_calm (rs : List RobotIdx) (s : State) : Calm s (cancelAll rs s) := by
  induction rs generalizing s with
  | nil => exact .refl s
  | cons r rs ih =>
    refine Calm.trans ?_ (ih _)
    show Calm s (cancelPublishes r s)
    unfold cancelPublishes
    split
    · rename_i b hb
      have h : Calm s (s.setRobot r (some b.cancel)) := setRobot_calm hb b.cancel_steps.unbinding
      dsimp only
      split
      · exact h.trans (postNotice_calm _ _)
      · exact h
    · exact .refl s

/-- A claim is accepted: refused at the second check, granted at once, or waiting. -/
theorem acceptClaim_runs (c : Claim) (s : State) (h : s.svc.state = .claimed) : Runs s (acceptClaim c s) := by
  have hg : s.svc.state ≠ .granted := by rw [h]; decide
  unfold acceptClaim
  split
  · exact (withdrawClaim_keeps _ _ _ _ s hg (.inl rfl)).completes _ _
  · dsimp only
    have h1 : Holds s (s.setSvc { s.svc with named := s.robotsOf c.windows, consentWaiting := true }) :=
      noteStatus_holds (holds_svc_of_not_granted s _ hg)
    obtain ⟨m, hm⟩ := setSvc_touches { s.svc with named := s.robotsOf c.windows, consentWaiting := true } s
    have kc := cancelAll_calm (s.robotsOf c.windows)
      (s.setSvc { s.svc with named := s.robotsOf c.windows, consentWaiting := true })
    have kk := cancelAll_keeps (s.robotsOf c.windows)
      (s.setSvc { s.svc with named := s.robotsOf c.windows, consentWaiting := true })
    generalize hu : cancelAll (s.robotsOf c.windows)
      (s.setSvc { s.svc with named := s.robotsOf c.windows, consentWaiting := true }) = u at *
    have h2 : Holds s (u.setPhase (.executing .consent)) := h1.trans (kk.toHolds.trans (holds_cmd u _))
    have hst : (u.setPhase (.executing .consent)).svc.state = .claimed := by
      show u.svc.state = _
      rw [kc.session, hm]
      exact h
    have hcw : (u.setPhase (.executing .consent)).svc.consentWaiting = true := by
      show u.svc.consentWaiting = _
      rw [kc.consent, hm]
    -- the command waits: the invariants hold with the consent as the executing command
    have hr : s.Ruled → s.cmd.phase = .executing .begun → (u.setPhase (.executing .consent)).Ruled := by
      intro hs hp
      have hrest := rests_of_begun hs.2 hp
      have hsvc : ∀ i, (s.setSvc { s.svc with named := s.robotsOf c.windows, consentWaiting := true }).entry i = s.entry i := by
        intro i
        rw [hm]
        rfl
      have hd : ∀ i o n, u.entry i ≠ .draining o n := fun i o n hx => by
        obtain ⟨v, k, hv, -⟩ := kc.shape.draining hx
        rw [hsvc] at hv
        exact hrest.drains i v k hv
      have hub : ∀ r, ¬ u.unbinds r := fun r hx => by
        have := (kc.unbinds r).1 hx
        rw [hm] at this
        exact hrest.unbinds r this
      have hpath : s.path.Adds u.path := by
        have := kc.path
        rw [hm] at this
        exact this
      obtain ⟨n1, n2⟩ := hpath.names hrest.distinct hrest.names
      refine ⟨tableRight_of_same (fun _ => rfl) (fun _ => rfl) rfl rfl rfl rfl rfl (kc.table ?_),
        n1, n2, hpath.fetches.trans hrest.fetches, fun i => ?_, fun r => ?_, ?_, fun _ => hst, ?_, nofun, nofun, fun p q => ?_⟩
      · rw [hm]
        exact tableRight_of_same (fun _ => rfl) (fun _ => rfl) rfl rfl rfl rfl rfl hs.1
      · exact ⟨fun ⟨o, n, hx⟩ => absurd hx (hd i o n), fun hx => by cases hx⟩
      · exact ⟨fun hx => absurd hx (hub r), fun hx => by cases hx⟩
      · exact ⟨fun _ => rfl, fun _ => hcw⟩
      · show (∃ c, u.svc.claim = some c) ↔ u.svc.state = .claimed ∨ u.svc.state = .granted ∨ u.svc.state = .returning
        rw [kc.claim, kc.session, hm]
        exact hrest.claim
      · have p' : s.pins.powerGood = true := by
          rw [← p]
          show _ = u.pins.powerGood
          rw [kc.powerGood, hm]
        have q' : s.pins.cabinetReset = true := by
          rw [← q]
          show _ = u.pins.cabinetReset
          rw [kc.cabinet, hm]
        have := hs.2.2.2.2.2.2.2.2.2.2.2 p' q'
        rw [hp] at this
        cases this
    split
    · have hk := grantSession_keeps (u.setPhase (.executing .consent)) hst hcw
      exact ⟨h2.trans hk.toHolds, fun hs hp => ⟨hk.ruled (hr hs hp), fun hx => by cases hk.begun.1 hx⟩⟩
    · exact ⟨h2, fun hs hp => ⟨hr hs hp, nofun⟩⟩

theorem serviceConsentAct_runs (d : Byte) (q : BitVec 32) (s : State) : Runs s (serviceConsentAct d q s) := by
  unfold serviceConsentAct
  split
  · exact complete_runs _ _ s
  · split
    · rename_i hs _
      split
      · split
        · exact (withdrawClaim_keeps _ _ _ _ s (by rw [hs]; decide) (.inl rfl)).completes _ _
        · exact acceptClaim_runs _ s hs
      · exact complete_runs _ _ s
    · exact complete_runs _ _ s

theorem serviceRevokeAct_runs (s : State) : Runs s (serviceRevokeAct s) := by
  unfold serviceRevokeAct
  split
  · exact (beginReturn_keeps _ s ‹_›).completes _ _
  · exact complete_runs _ _ s

theorem serviceSetupAct_runs (p : ServiceParams) (s : State) : Runs s (serviceSetupAct p s) := by
  unfold serviceSetupAct
  dsimp only
  split
  · exact complete_runs _ _ s
  · have h := keeps_svc s { s.svc with
      consentS := if p.given.getLsbD 0 then p.consent.toNat else s.svc.consentS,
      lockoutS := if p.given.getLsbD 1 then p.lockout.toNat else s.svc.lockoutS } rfl rfl rfl
    exact h.completes _ _

end Sys2Proof.Machine
end

