-- ==== Sys2Proof/Laws/Track.lean ====
section
/-! SUPPORT. Tracking: the setup, the chain, decisions, reports and verdicts. -/

namespace Sys2Proof.Machine
open Sys2Proof

theorem setTrk_eq (s : State) (t : Tracking) : s.setTrk t = State.statusIf { s with trk := t } (decide (t.cfg.isSome ≠ s.trk.cfg.isSome ∨ t.line ≠ s.trk.line)) := by
  unfold State.setTrk State.noteStatus State.statusIf
  by_cases h : t.cfg.isSome = s.trk.cfg.isSome ∧ t.line = s.trk.line
  · rw [if_pos]
    · simp [h]
    · unfold State.statusFields; simp [h]
  · rw [if_neg]
    · have : (t.cfg.isSome ≠ s.trk.cfg.isSome ∨ t.line ≠ s.trk.line) := by
        by_contra hc; push Not at hc; exact h hc
      simp [this]
    · intro hh; apply h; unfold State.statusFields at hh; simpa using hh

theorem setTrk_same (s : State) (t : Tracking) (h : t.cfg.isSome = s.trk.cfg.isSome) (h' : t.line = s.trk.line) : s.setTrk t = { s with trk := t } := by
  rw [setTrk_eq]; unfold State.statusIf; simp [h, h']

theorem stopLine_eq (s : State) : stopLine s = postNotice .lineStopped
        (State.statusIf { s with trk := { s.trk with line := .stopped, lineStop := none } }
          (decide (s.trk.line = .running))) := by
  unfold stopLine; rw [setTrk_eq]
  congr 1
  cases hl : s.trk.line <;> simp

theorem recordDecision_spec (s : State) (d : Decision) : (s.rep.enabled = false → recordDecision d s = s)
        ∧ (s.rep.enabled = true → s.rep.decConsumed + 512 ≤ s.rep.decProducer →
            (s.rep.decOverflow = true → recordDecision d s = s)
            ∧ (s.rep.decOverflow = false → recordDecision d s = postNotice (.decisionOverflow d.serial)
                { s with rep := { s.rep with decOverflow := true, statusMark := true } }))
        ∧ (s.rep.enabled = true → s.rep.decProducer < s.rep.decConsumed + 512 →
            let p := s.rep.decProducer
            let t := s.makes [(.decision, s.areaBase + 0x4000 + 16 * (p % 512), d.bytes s.openCount),
                               (.decisionProducer, s.areaBase + 0x28, leBytes 8 (p + 1))]
            recordDecision d s = { t with rep := { s.rep with decProducer := p + 1 }, openCount := s.openCount + 1 }) := by
  refine ⟨fun h => ?_, fun h h1 => ⟨fun h2 => ?_, fun h2 => ?_⟩, fun h h1 => ?_⟩
  · unfold recordDecision; rw [h]; rfl
  · unfold recordDecision; rw [if_pos h, if_pos ((Reporting.decFull_iff _).2 (by omega))]
    unfold dropDecision; rw [if_pos h2]
  · unfold recordDecision; rw [if_pos h, if_pos ((Reporting.decFull_iff _).2 (by omega))]
    unfold dropDecision; rw [if_neg (by simp [h2])]
    congr 1
    unfold State.noteStatus; rw [if_neg]
    unfold State.statusFields; simp [h2]
  · unfold recordDecision; rw [if_pos h, if_neg (by rw [Reporting.decFull_iff]; omega)]
    dsimp only
    rw [← makes_two s .decision .decisionProducer]
    rfl

theorem mem_reasonIf (r r' : RejectReason) (h : Bool) : r ∈ reasonIf r' h ↔ r = r' ∧ h = true := by
  unfold reasonIf; split <;> simp_all

theorem decideEntry_trk (cfg : TrackConfig) (pg : Bool) (e : ChainEntry) (s : State) :
    (decideEntry cfg pg e s).clk = s.clk ∧ (decideEntry cfg pg e s).trk = { s.trk with schedule := (decideEntry cfg pg e s).trk.schedule } := by
  unfold decideEntry
  split
  · have h1 : ∀ d (u : State), (recordDecision d u).clk = u.clk ∧ (recordDecision d u).trk = u.trk := by
      intro d u
      unfold recordDecision
      split
      · split
        · unfold dropDecision
          split
          · exact ⟨rfl, rfl⟩
          · obtain ⟨p, m, h⟩ := postNotice_touches (.decisionOverflow d.serial) (u.noteStatus { u with rep := { u.rep with decOverflow := true } })
            obtain ⟨m', h'⟩ := noteStatus_touches u { u with rep := { u.rep with decOverflow := true } }
            rw [h, h']; exact ⟨rfl, rfl⟩
        · exact ⟨rfl, rfl⟩
      · exact ⟨rfl, rfl⟩
    refine ⟨?_, ?_⟩
    · rw [(h1 _ _).1]; split <;> rfl
    · rw [(h1 _ _).2]; split <;> rfl
  · exact ⟨rfl, rfl⟩

theorem startLine_eq (s : State) : startLine s = if s.trk.line = .stopped then
            postNotice .lineRunning (State.statusIf { s with trk := { s.trk with line := .running } } true) else s := by
  unfold startLine
  split
  · rename_i h
    rw [setTrk_eq]; simp [h]
  · rfl

theorem startLine_trk (s : State) : (startLine s).clk = s.clk ∧ (startLine s).trk = { s.trk with line := (startLine s).trk.line } := by
  rw [startLine_eq]
  split
  · obtain ⟨p, m, h⟩ := postNotice_touches .lineRunning (State.statusIf { s with trk := { s.trk with line := .running } } true)
    rw [h]; exact ⟨rfl, rfl⟩
  · exact ⟨rfl, rfl⟩

theorem notePulse_eq (s : State) : notePulse s = { s with trk := { s.trk with
          lastPulse := some s.clk.elapsed, pulseSinceSetup := true,
          lineStop := some (s.clk.elapsed + s.trk.lineStopMs * 1000000) } } := by
  unfold notePulse; rw [setTrk_same]; rfl; rfl; rfl

theorem notePulse_startLine (u s : State) (h1 : u.clk.elapsed = s.clk.elapsed) (h2 : u.trk.line = s.trk.line) (h3 : u.trk.lineStopMs = s.trk.lineStopMs) :
   notePulse (startLine u) = (fun (u : State) => { u with trk := { u.trk with
          lastPulse := some s.clk.elapsed, pulseSinceSetup := true,
          lineStop := some (s.clk.elapsed + s.trk.lineStopMs * 1000000) } }) (if s.trk.line = .stopped then
            postNotice .lineRunning (State.statusIf { u with trk := { u.trk with line := .running } } true) else u) := by
  obtain ⟨g1, g2⟩ := startLine_trk u
  have hl : (startLine u).trk.lineStopMs = s.trk.lineStopMs := by rw [g2]; exact h3
  have hs : startLine u = (if s.trk.line = .stopped then
            postNotice .lineRunning (State.statusIf { u with trk := { u.trk with line := .running } } true) else u) := by
    rw [startLine_eq, h2]
  rw [← hs, notePulse_eq]
  have he : (startLine u).clk.elapsed = s.clk.elapsed := by rw [g1, h1]
  rw [hl, he]

theorem moveChain_eq (cfg : TrackConfig) (new : ChainEntry) (front : List ChainEntry) (last : ChainEntry) (h : (front ++ [last]).length = cfg.rejectPocket) :
   moveChain cfg new (front ++ [last]) = (new :: front).mapIdx fun p e =>
              match e with
              | .bottle b => if p = cfg.deadline then .bottle { b with windowOpen := false } else .bottle b
              | e         => e := by
  unfold moveChain
  have : (front ++ [last]).take (cfg.rejectPocket - 1) = front := by
    rw [← h]; simp
  rw [this]
  apply List.ext_getElem?
  intro k
  rw [List.getElem?_modify, List.getElem?_mapIdx]
  cases (new :: front)[k]? with
  | none => rfl
  | some e =>
    simp only [Option.map_some, Option.some.injEq, Functor.map]
    cases e with
    | bottle b =>
      by_cases hk : cfg.deadline = k
      · simp [hk, ChainEntry.close]
      · simp [hk, Ne.symm hk]
    | _ => split <;> rfl

theorem decideEntries_eq (cfg pg) (l : List ChainEntry) (s : State) : decideEntries cfg pg l s = l.foldl (fun v e => decideEntry cfg pg e v) s := by
  induction l generalizing s with
  | nil => rfl
  | cons e l ih => exact ih _

theorem cameras?_spec (p : TrackParams) (l : List (Byte × Byte)) (cs : List Camera) : cameras? p l = some cs ↔
    cs.length = l.length ∧ ∀ c, c < l.length → ∃ (b : Byte × Byte) (k : Camera), l[c]? = some b ∧ cs[c]? = some k ∧ 1 ≤ b.1.toNat ∧ b.1.toNat < p.rejectPocket.toNat ∧ k.station = b.1.toNat ∧ k.feed.val = b.2.toNat := by
  induction l generalizing cs with
  | nil => simp [cameras?, eq_comm]
  | cons b l ih =>
    unfold cameras?
    have hcam : ∀ k, camera? p b = some k ↔ 1 ≤ b.1.toNat ∧ b.1.toNat < p.rejectPocket.toNat ∧ k.station = b.1.toNat ∧ k.feed.val = b.2.toNat := by
      intro k
      unfold camera?
      cases hw : winIdx? b.2 with
      | none =>
        simp only [reduceCtorEq, false_iff]
        rintro ⟨-, -, -, h⟩
        have := winIdx?_eq_some.2 h.symm
        rw [hw] at this; simp at this
      | some i =>
        have hi := winIdx?_eq_some.1 hw
        dsimp only
        split
        · rename_i h
          rw [Option.some.injEq]
          constructor
          · rintro rfl; exact ⟨h.1, h.2, rfl, hi.symm⟩
          · rintro ⟨-, -, h3, h4⟩
            cases k; simp only [Camera.mk.injEq] at *; exact ⟨Fin.ext (by omega), h3.symm⟩
        · rename_i h
          simp only [reduceCtorEq, false_iff]
          rintro ⟨h1, h2, -, -⟩; exact h ⟨h1, h2⟩
    constructor
    · intro h
      split at h
      · rename_i c cs' hc hcs
        injection h with h; subst h
        obtain ⟨i1, i2⟩ := (ih cs').1 hcs
        refine ⟨by simp [i1], fun n hn => ?_⟩
        cases n with
        | zero =>
          obtain ⟨k1, k2, k3, k4⟩ := (hcam c).1 hc
          exact ⟨b, c, rfl, rfl, k1, k2, k3, k4⟩
        | succ n => 
          obtain ⟨b', k, g⟩ := i2 n (by simpa using hn)
          exact ⟨b', k, by simpa using g⟩
      · simp at h
    · rintro ⟨h1, h2⟩
      cases cs with
      | nil => simp at h1
      | cons c cs' =>
        obtain ⟨b', k, g1, g2, g3, g4, g5, g6⟩ := h2 0 (by simp)
        simp only [List.getElem?_cons_zero, Option.some.injEq] at g1 g2
        subst g1 g2
        have hc := (hcam c).2 ⟨g3, g4, g5, g6⟩
        have hcs := (ih cs').2 ⟨by simpa using h1, fun n hn => by
          obtain ⟨b', k, g⟩ := h2 (n + 1) (by simpa using hn)
          exact ⟨b', k, by simpa using g⟩⟩
        rw [hc, hcs]

theorem cameraBytes_get (p : TrackParams) (hc : p.cameras.toNat ≤ 3) (c : Nat) (h : c < p.cameras.toNat) : (cameraBytes p)[c]? = some ([p.station0, p.station1, p.station2].getD c 0, [p.feed0, p.feed1, p.feed2].getD c 0) := by
  unfold cameraBytes
  rw [List.getElem?_take_of_lt h]
  have : c < 3 := by omega
  interval_cases c <;> rfl

theorem cameraBytes_length (p : TrackParams) (hc : p.cameras.toNat ≤ 3) : (cameraBytes p).length = p.cameras.toNat := by
  unfold cameraBytes; simp; omega

theorem unsure?_iff (b : Byte) (u) : unsure? b = some u ↔ (b.toNat = 1 ∧ u = .reject) ∨ (b.toNat = 2 ∧ u = .pass) := by
  unfold unsure?
  split <;> rename_i h
  · simp [h, eq_comm]
  · simp [h, eq_comm]
  · simp_all

theorem trackConfig?_iff (p : TrackParams) (cfg : TrackConfig) : trackConfig? p = some cfg ↔ setupDescribes p cfg := by
  unfold trackConfig? setupDescribes
  dsimp only
  constructor
  · intro h
    split at h
    · rename_i cs u hcs hu
      split at h
      · rename_i hin
        injection h with h
        subst h
        unfold trackInRange at hin
        simp only [Bool.and_eq_true, decide_eq_true_eq, List.all_eq_true] at hin
        obtain ⟨⟨⟨⟨⟨⟨⟨⟨⟨⟨⟨h1, h2⟩, h3⟩, h4⟩, h5⟩, h6⟩, h7⟩, h8⟩, h9⟩, h10⟩, h11⟩, h12⟩ := hin
        obtain ⟨c1, c2⟩ := (cameras?_spec p _ cs).1 hcs
        rw [cameraBytes_length p h3] at c1 c2
        have hk : ∀ c, c < p.cameras.toNat → ∃ k, cs[c]? = some k ∧ 1 ≤ ([p.station0, p.station1, p.station2].getD c 0).toNat ∧ ([p.station0, p.station1, p.station2].getD c 0).toNat < p.rejectPocket.toNat ∧ k.station = ([p.station0, p.station1, p.station2].getD c 0).toNat ∧ k.feed.val = ([p.feed0, p.feed1, p.feed2].getD c 0).toNat := by
          intro c hc
          obtain ⟨b, k, g1, g2, g3⟩ := c2 c hc
          rw [cameraBytes_get p h3 c hc] at g1
          injection g1 with g1; subst g1
          exact ⟨k, g2, g3⟩
        refine ⟨h1, h2, h3, h4, h5, h7, h8, h9, h10, h11, h12, fun c hc => ?_, rfl, rfl, rfl, (unsure?_iff _ _).1 hu, rfl, rfl, rfl, rfl, c1, fun c k hck => ?_⟩
        · obtain ⟨k, g1, g2, g3, g4, g5⟩ := hk c hc
          refine ⟨g2, g3, ?_⟩
          rw [← g4]; exact h6 k (List.mem_of_getElem? g1)
        · have hc : c < p.cameras.toNat := by
            rw [← c1]; exact (List.getElem?_eq_some_iff.1 hck).1
          obtain ⟨k', g1, g2, g3, g4, g5⟩ := hk c hc
          have hkk : cs[c]? = some k := hck
          rw [g1] at hkk; injection hkk with e; subst e
          exact ⟨g4, g5⟩
      · simp at h
    · simp at h
  · rintro ⟨h1, h2, h3, h4, h5, h7, h8, h9, h10, h11, h12, hst, e1, e2, e3, hu, e4, e5, e6, e7, hl, hk⟩
    have hcs : cameras? p (cameraBytes p) = some cfg.cameras := by
      rw [cameras?_spec, cameraBytes_length p h3]
      refine ⟨hl, fun c hc => ?_⟩
      have hget : cfg.cameras[c]? = some (cfg.cameras[c]'(by omega)) := List.getElem?_eq_getElem _
      obtain ⟨k1, k2⟩ := hk c _ hget
      exact ⟨_, _, cameraBytes_get p h3 c hc, hget, (hst c hc).1, (hst c hc).2.1, k1, k2⟩
    rw [hcs, (unsure?_iff _ _).2 hu]
    dsimp only
    rw [if_pos]
    · cases cfg; simp_all
    · unfold trackInRange
      simp only [Bool.and_eq_true, decide_eq_true_eq, List.all_eq_true]
      refine ⟨⟨⟨⟨⟨⟨⟨⟨⟨⟨⟨h1, h2⟩, h3⟩, h4⟩, h5⟩, fun k hkm => ?_⟩, h7⟩, h8⟩, h9⟩, h10⟩, h11⟩, h12⟩
      obtain ⟨c, hc, hck⟩ := List.getElem_of_mem hkm
      have := (hk c k (by rw [List.getElem?_eq_getElem hc, hck])).1
      rw [this]; exact (hst c (by omega)).2.2

theorem feedTag_of_feedTagIs {s : State} {i : WinIdx} {t : Tag} (h : s.feedTagIs i t) : (s.loaded? i).bind (fun w => (tagsOf w.writeSet).head?) = some t := by
  obtain ⟨w, hw, ht⟩ := h
  rw [loaded?_eq_some.2 hw]
  have h1 := (tagsOf_length_one w.writeSet).2 ⟨t, (ht t).2 rfl, fun u hu => (ht u).1 hu⟩
  obtain ⟨x, hx⟩ := List.length_eq_one_iff.1 h1
  have : x = t := by
    have : x ∈ tagsOf w.writeSet := by rw [hx]; simp
    simp [tagsOf, inSet] at this
    exact (ht x).1 (by simpa using this.2)
  simp [hx, this]

theorem findBottle_eq_none (q : BitVec 32) (l : List ChainEntry) : findBottle q l = none ↔ ∀ x, ChainEntry.bottle x ∈ l → x.serial ≠ some q := by
  induction l with
  | nil => simp [findBottle]
  | cons e l ih =>
    cases e with
    | bottle b =>
      unfold findBottle
      split
      · rename_i h; simp only [reduceCtorEq, false_iff]; intro hh; exact hh b (by simp) h
      · rename_i h
        rw [Option.map_eq_none_iff, ih]
        constructor
        · intro hh x hx
          rw [List.mem_cons] at hx
          rcases hx with hx | hx
          · injection hx with hx; subst hx; exact h
          · exact hh x hx
        · intro hh x hx; exact hh x (by simp [hx])
    | gap => unfold findBottle; rw [Option.map_eq_none_iff, ih]; simp
    | purged => unfold findBottle; rw [Option.map_eq_none_iff, ih]; simp

theorem findBottle_eq_some (q : BitVec 32) (pre : List ChainEntry) (b : Bottle) (post) (h : ∀ x, ChainEntry.bottle x ∈ pre → x.serial ≠ some q) (hb : b.serial = some q) :
    findBottle q (pre ++ .bottle b :: post) = some (pre.length, b) := by
  induction pre with
  | nil => unfold findBottle; simp [hb]
  | cons e l ih =>
    have ih := ih (fun x hx => h x (by simp [hx]))
    cases e with
    | bottle c =>
      simp only [List.cons_append]
      unfold findBottle
      rw [if_neg (h c (by simp)), ih]; rfl
    | gap => simp only [List.cons_append]; unfold findBottle; rw [ih]; rfl
    | purged => simp only [List.cons_append]; unfold findBottle; rw [ih]; rfl

theorem insertFill_between (next : BitVec 32) (f : FillRecord) (pre post : List FillRecord) (h1 : ∀ g ∈ pre, (g.serial - next).toInt ≤ (f.serial - next).toInt)
    (h2 : ∀ g rest, post = g :: rest → (f.serial - next).toInt < (g.serial - next).toInt) : insertFill next f (pre ++ post) = pre ++ f :: post := by
  induction pre with
  | nil =>
    cases post with
    | nil => rfl
    | cons g rest => simp only [List.nil_append]; unfold insertFill serialDiff; rw [if_pos (h2 g rest rfl)]
  | cons g pre ih =>
    simp only [List.cons_append]; unfold insertFill serialDiff
    rw [if_neg (by have := h1 g (by simp); omega), ih (fun x hx => h1 x (by simp [hx]))]

end Sys2Proof.Machine
end

