-- ==== Sys2Proof/Laws/TrackRight.lean ====
section
/-! SUPPORT. The invariant of the tracking unit's chain and lists, kept by each change of them. -/

namespace Sys2Proof.Machine
open Sys2Proof

/-- The invariant reads the parameters, the chain, the filled list and the next exit serial. -/
theorem Tracking.Right.same {t v : Tracking} (h : t.Right) (hc : v.cfg = t.cfg := by rfl) (hn : v.chain = t.chain := by rfl)
    (hf : v.filled = t.filled := by rfl) (hx : v.nextExit = t.nextExit := by rfl) : v.Right := by
  unfold Tracking.Right at *
  rw [hc, hn, hf, hx]
  exact h

/-! ## Serials -/

theorem toInt_sub_inj {a b n : BitVec 32} (h : (a - n).toInt = (b - n).toInt) : a = b := by
  have := BitVec.eq_of_toInt_eq h
  have h2 : a - n + n = b - n + n := by rw [this]
  simpa using h2

theorem toInt_pred {d : BitVec 32} (h : 0 < d.toInt) : (d - 1#32).toInt = d.toInt - 1 := by
  rw [BitVec.toInt_eq_toNat_cond] at *
  rw [BitVec.toInt_eq_toNat_cond, BitVec.toNat_sub]
  have : d.toNat < 2 ^ 32 := d.isLt
  have h1 : (1#32).toNat = 1 := rfl
  rw [h1]
  have h2 : 2 * d.toNat < 2 ^ 32 := by
    split at h
    · assumption
    · omega
  rw [if_pos h2] at h ⊢
  have h3 : (2 ^ 32 - 1 + d.toNat) % 2 ^ 32 = d.toNat - 1 := by omega
  rw [h3, if_pos (by omega)]
  omega

theorem toInt_sub_next {a n : BitVec 32} (h : 0 ≤ (a - n).toInt) (hne : a ≠ n) :
    (a - (n + 1)).toInt = (a - n).toInt - 1 := by
  have h0 : (a - n).toInt ≠ 0 := fun hz => hne (toInt_sub_inj (n := n) (by rw [hz]; simp))
  have hs : a - (n + 1) = (a - n) - 1#32 := by
    rw [BitVec.sub_eq_add_neg, BitVec.sub_eq_add_neg a n, BitVec.neg_add]
    rw [BitVec.sub_eq_add_neg, BitVec.sub_eq_add_neg, BitVec.add_assoc]
    rfl
  rw [hs]
  exact toInt_pred (by omega)

theorem serial_next (n : BitVec 32) (k : Nat) : n - BitVec.ofNat 32 (k + 1) = n + 1 - BitVec.ofNat 32 (k + 1 + 1) := by
  rw [BitVec.ofNat_add (k + 1) 1]
  generalize BitVec.ofNat 32 (k + 1) = x
  show n - x = n + 1#32 - (x + 1#32)
  bv_omega

/-- A strictly rising list of whole numbers of a range is no longer than the range. -/
theorem length_le_of_rising (f : FillRecord → Int) (l : List FillRecord) (a b : Int) (hab : a ≤ b)
    (hl : ∀ x ∈ l, a ≤ f x ∧ f x < b) (hp : l.Pairwise fun x y => f x < f y) : (l.length : Int) ≤ b - a := by
  induction l generalizing a with
  | nil => simp; omega
  | cons x l ih =>
    rw [List.pairwise_cons] at hp
    have hx := hl x (by simp)
    have := ih (f x + 1) (by omega) (fun y hy => ⟨hp.1 y hy, (hl y (by simp [hy])).2⟩) hp.2
    rw [List.length_cons]
    push_cast
    omega

/-! ## The filled list -/

theorem mem_insertFill (n : BitVec 32) (f g : FillRecord) (l : List FillRecord) :
    g ∈ insertFill n f l ↔ g = f ∨ g ∈ l := by
  induction l with
  | nil => simp [insertFill]
  | cons x l ih =>
    unfold insertFill
    split
    · simp
    · simp only [List.mem_cons, ih]
      tauto

theorem insertFill_rising (n : BitVec 32) (f : FillRecord) (l : List FillRecord)
    (hne : ∀ g ∈ l, g.serial ≠ f.serial) (hp : l.Pairwise fun x y => (x.serial - n).toInt < (y.serial - n).toInt) :
    (insertFill n f l).Pairwise fun x y => (x.serial - n).toInt < (y.serial - n).toInt := by
  induction l with
  | nil => simp [insertFill]
  | cons x l ih =>
    rw [List.pairwise_cons] at hp
    unfold insertFill serialDiff
    split
    · rename_i h
      refine List.pairwise_cons.2 ⟨fun y hy => ?_, List.pairwise_cons.2 hp⟩
      rcases List.mem_cons.1 hy with rfl | hy
      · exact h
      · exact h.trans (hp.1 y hy)
    · rename_i h
      refine List.pairwise_cons.2 ⟨fun y hy => ?_, ih (fun g hg => hne g (by simp [hg])) hp.2⟩
      rcases (mem_insertFill _ _ _ _).1 hy with rfl | hy
      · exact lt_of_le_of_ne (not_lt.1 h) fun e => hne x (by simp) (toInt_sub_inj e)
      · exact hp.1 y hy

/-- A fill record joins the filled list (R120). -/
theorem Tracking.Right.fill {t : Tracking} {n : BitVec 32} {f : FillRecord} (h : t.Right) (hn : t.nextExit = some n)
    (h0 : 0 ≤ (f.serial - n).toInt) (h1 : (f.serial - n).toInt < 16) (hne : ∀ g ∈ t.filled, g.serial ≠ f.serial)
    (hc : t.cfg ≠ none) : Tracking.Right { t with filled := insertFill n f t.filled } := by
  obtain ⟨a, b, c, d⟩ := h
  refine ⟨fun hx => absurd hx hc, b, fun hx => ?_, fun m hm => ?_⟩
  · dsimp only at hx
    rw [hn] at hx
    cases hx
  · dsimp only at hm
    rw [hn] at hm
    cases hm
    obtain ⟨-, d2, d3, d4⟩ := d n hn
    have hall : ∀ g ∈ insertFill n f t.filled, 0 ≤ (g.serial - n).toInt ∧ (g.serial - n).toInt < 16 := by
      intro g hg
      rcases (mem_insertFill _ _ _ _).1 hg with rfl | hg
      · exact ⟨h0, h1⟩
      · exact d2 g hg
    have hp := insertFill_rising n f t.filled hne d3
    refine ⟨?_, hall, hp, d4⟩
    have := length_le_of_rising (fun g => (g.serial - n).toInt) _ 0 16 (by omega) hall hp
    dsimp only
    omega

/-- The first report after a setup or a clear gives the next exit serial (R119). -/
theorem Tracking.Right.begin {t : Tracking} (h : t.Right) (n : BitVec 32) (hc : t.cfg ≠ none) :
    Tracking.Right { t with nextExit := some (t.nextExit.getD n) } := by
  cases hn : t.nextExit with
  | some m => exact h.same rfl rfl rfl (by rw [hn]; rfl)
  | none =>
    obtain ⟨a, b, c, -⟩ := h
    obtain ⟨c1, c2⟩ := c hn
    refine ⟨fun hx => absurd hx hc, b, nofun, fun m _ => ?_⟩
    have hs : t.chain.filterMap ChainEntry.serial? = [] := by
      rw [List.filterMap_eq_nil_iff]
      intro e he
      cases e with
      | bottle b => exact c2 b he
      | gap => rfl
      | purged => rfl
    dsimp only
    rw [c1, hs]
    simp

/-! ## The chain -/

theorem findBottle_get {q : BitVec 32} {l : List ChainEntry} {p : Nat} {b : Bottle} (h : findBottle q l = some (p, b)) :
    l[p]? = some (.bottle b) ∧ b.serial = some q := by
  induction l generalizing p with
  | nil => cases h
  | cons e l ih =>
    have step : ∀ {x}, (findBottle q l).map (fun p => (p.1 + 1, p.2)) = some (x, b) →
        (e :: l)[x]? = some (.bottle b) ∧ b.serial = some q := by
      intro x hx
      rw [Option.map_eq_some_iff] at hx
      obtain ⟨⟨y, c⟩, hy, he⟩ := hx
      cases he
      exact ih hy
    cases e with
    | bottle c =>
      unfold findBottle at h
      split at h
      · cases h
        exact ⟨rfl, ‹_›⟩
      · exact step h
    | gap => unfold findBottle at h; exact step h
    | purged => unfold findBottle at h; exact step h

theorem filterMap_set {α β : Type} (g : α → Option β) (l : List α) (p : Nat) (x y : α) (hx : l[p]? = some x)
    (hg : g y = g x) : (l.set p y).filterMap g = l.filterMap g := by
  induction l generalizing p with
  | nil => cases hx
  | cons a l ih =>
    cases p with
    | zero =>
      cases hx
      rw [List.set_cons_zero, List.filterMap_cons, List.filterMap_cons, hg]
    | succ p =>
      rw [List.set_cons_succ, List.filterMap_cons, List.filterMap_cons, ih p hx]

/-- A verdict is recorded in the entry of a bottle (R128). -/
theorem Tracking.Right.record {t : Tracking} (h : t.Right) {p : Nat} {b b' : Bottle} (hp : t.chain[p]? = some (.bottle b))
    (hs : b'.serial = b.serial) (hw : b'.windowOpen = b.windowOpen) :
    Tracking.Right { t with chain := t.chain.set p (.bottle b') } := by
  have hm : ∀ x, ChainEntry.bottle x ∈ t.chain.set p (.bottle b') → x.serial = none → True := fun _ _ _ => trivial
  obtain ⟨a, bb, c, d⟩ := h
  refine ⟨fun hx => ?_, fun cfg hc => ?_, fun hn => ?_, fun n hn => ?_⟩
  · have := (a hx).1
    rw [this] at hp
    cases hp
  · obtain ⟨b1, b2, b3, b4, b5, b6⟩ := bb cfg hc
    refine ⟨b1, b2, b3, b4, by simpa using b5, fun q x hx => ?_⟩
    dsimp only at hx
    by_cases hq : p = q
    · subst hq
      rw [List.getElem?_set_self (List.getElem?_eq_some_iff.1 hp).1] at hx
      cases hx
      rw [hw]
      exact b6 p b hp
    · rw [List.getElem?_set_ne hq] at hx
      exact b6 q x hx
  · obtain ⟨c1, c2⟩ := c hn
    refine ⟨c1, fun x hx => ?_⟩
    rcases List.mem_or_eq_of_mem_set hx with hx | hx
    · exact c2 x hx
    · cases hx
      rw [hs]
      exact c2 b (List.mem_of_getElem? hp)
  · obtain ⟨d1, d2, d3, d4⟩ := d n hn
    refine ⟨d1, d2, d3, fun k q hk => d4 k q ?_⟩
    rw [← hk]
    exact congrArg (·[k]?) (filterMap_set _ _ _ _ _ hp hs).symm

/-- The entry that moves to a position, with its window closed at the verdict deadline pocket, keeps its serial. -/
theorem moveChain_serials (cfg : TrackConfig) (new : ChainEntry) (chain : List ChainEntry) :
    (moveChain cfg new chain).filterMap ChainEntry.serial?
      = (new :: chain.take (cfg.rejectPocket - 1)).filterMap ChainEntry.serial? := by
  unfold moveChain
  generalize new :: chain.take (cfg.rejectPocket - 1) = l
  generalize cfg.deadline = p
  induction l generalizing p with
  | nil => cases p <;> rfl
  | cons e l ih =>
    cases p with
    | zero => cases e <;> rfl
    | succ p =>
      rw [List.modify_succ_cons, List.filterMap_cons, List.filterMap_cons, ih p]

/-- A pulse moves the chain (R124, R125). -/
theorem Tracking.Right.advance {t : Tracking} {cfg : TrackConfig} (h : t.Right) (hc : t.cfg = some cfg) (present : Bool)
    (time : Nat) :
    Tracking.Right { t with
      chain := moveChain cfg (newEntry present time t).1 t.chain,
      filled := (newEntry present time t).2.1, nextExit := (newEntry present time t).2.2 } := by
  obtain ⟨-, b, c, d⟩ := h
  obtain ⟨b1, b2, b3, b4, b5, b6⟩ := b cfg hc
  have hwin : ∀ p x, (moveChain cfg (newEntry present time t).1 t.chain)[p]? = some (.bottle x) →
      (x.windowOpen = true ↔ p < cfg.deadline) := by
    intro p x hx
    unfold moveChain at hx
    rw [List.getElem?_modify] at hx
    obtain ⟨e, he, hx⟩ := Option.map_eq_some_iff.1 hx
    cases p with
    | zero =>
      rw [if_neg (by omega)] at hx
      subst hx
      have hx' : (newEntry present time t).1 = .bottle x := by simpa using he
      have hopen : x.windowOpen = true := by
        unfold newEntry newBottle at hx'
        split at hx'
        · split at hx' <;> cases hx' <;> rfl
        · cases hx'
      exact ⟨fun _ => b3, fun _ => hopen⟩
    | succ p =>
      rw [List.getElem?_cons_succ, List.getElem?_take] at he
      split at he
      · cases e with
        | bottle y =>
          have hy := b6 p y he
          split at hx
          · cases hx
            exact ⟨nofun, fun hl => by omega⟩
          · cases hx
            rw [hy]
            omega
        | gap => split at hx <;> cases hx
        | purged => split at hx <;> cases hx
      · cases he
  have hlen : (moveChain cfg (newEntry present time t).1 t.chain).length = cfg.rejectPocket := by
    unfold moveChain
    rw [List.length_modify, List.length_cons, List.length_take, b5]
    omega
  have hpre : ∀ (k : Nat) (q : BitVec 32), ((t.chain.take (cfg.rejectPocket - 1)).filterMap ChainEntry.serial?)[k]? = some q →
      (t.chain.filterMap ChainEntry.serial?)[k]? = some q := by
    intro k q hk
    obtain ⟨rest, hr⟩ := (List.take_prefix (cfg.rejectPocket - 1) t.chain).filterMap ChainEntry.serial?
    rw [← hr, List.getElem?_append_left (List.getElem?_eq_some_iff.1 hk).1]
    exact hk
  refine ⟨fun hx => ?_, fun g hg => ?_, fun hx => ?_, fun n hn => ?_⟩
  · dsimp only at hx
    rw [hc] at hx
    cases hx
  · dsimp only at hg
    rw [hc] at hg
    cases hg
    exact ⟨b1, b2, b3, b4, hlen, hwin⟩
  · have hnone : t.nextExit = none := by
      dsimp only at hx
      unfold newEntry at hx
      split at hx
      · split at hx
        · cases hx
        · assumption
      · exact hx
    obtain ⟨c1, c2⟩ := c hnone
    refine ⟨?_, fun x hm => ?_⟩
    · dsimp only
      unfold newEntry
      rw [hnone]
      split <;> exact c1
    · have hs : (moveChain cfg (newEntry present time t).1 t.chain).filterMap ChainEntry.serial? = [] := by
        rw [moveChain_serials, List.filterMap_cons]
        have h1 : (newEntry present time t).1.serial? = none := by
          unfold newEntry
          rw [hnone]
          split <;> rfl
        rw [h1]
        dsimp only
        rw [List.filterMap_eq_nil_iff]
        intro e he
        cases e with
        | bottle y => exact c2 y (List.mem_of_mem_take he)
        | gap => rfl
        | purged => rfl
      rw [List.filterMap_eq_nil_iff] at hs
      exact hs _ hm
  · dsimp only at hn
    cases hne : t.nextExit with
    | none =>
      unfold newEntry at hn
      rw [hne] at hn
      split at hn <;> cases hn
    | some m =>
      obtain ⟨d1, d2, d3, d4⟩ := d m hne
      cases present with
      | false =>
        have he : newEntry false time t = (.gap, t.filled, t.nextExit) := rfl
        rw [he] at hn ⊢
        dsimp only at hn ⊢
        rw [hne] at hn
        cases hn
        refine ⟨d1, d2, d3, fun k q hk => d4 k q (hpre k q ?_)⟩
        rw [moveChain_serials, List.filterMap_cons] at hk
        exact hk
      | true =>
        have he : newEntry true time t = (newBottle (some m) (t.filled.find? fun f => f.serial = m) time,
            t.filled.filter (fun f => f.serial ≠ m), some (m + 1)) := by
          unfold newEntry
          rw [hne]
          rfl
        rw [he] at hn ⊢
        dsimp only at hn ⊢
        cases hn
        have hmem : ∀ f ∈ t.filled.filter (fun f => decide (f.serial ≠ m)), f ∈ t.filled ∧ f.serial ≠ m := by
          intro f hf
          rw [List.mem_filter] at hf
          exact ⟨hf.1, by simpa using hf.2⟩
        have hdiff : ∀ f ∈ t.filled.filter (fun f => decide (f.serial ≠ m)),
            (f.serial - (m + 1)).toInt = (f.serial - m).toInt - 1 := by
          intro f hf
          obtain ⟨h1, h2⟩ := hmem f hf
          exact toInt_sub_next (d2 f h1).1 h2
        refine ⟨(List.length_filter_le _ _).trans d1, fun f hf => ?_, ?_, fun k q hk => ?_⟩
        · obtain ⟨h1, h2⟩ := hmem f hf
          have h3 := d2 f h1
          have h4 : (f.serial - m).toInt ≠ 0 := fun hz => h2 (toInt_sub_inj (n := m) (by rw [hz]; simp))
          rw [hdiff f hf]
          omega
        · refine (d3.filter _).imp_of_mem fun hx hy hxy => ?_
          rw [hdiff _ hx, hdiff _ hy]
          omega
        · rw [moveChain_serials, List.filterMap_cons] at hk
          change (m :: _)[k]? = some q at hk
          cases k with
          | zero =>
            cases hk
            simp
          | succ k =>
            rw [d4 k q (hpre k q hk)]
            exact serial_next m k

/-- TRACK SETUP purges the chain and empties the lists (R117). -/
theorem Tracking.right_setup (t : Tracking) (cfg : TrackConfig) (h : 4 ≤ cfg.rejectPocket ∧ cfg.rejectPocket ≤ 64
    ∧ 1 ≤ cfg.deadline ∧ cfg.deadline ≤ cfg.rejectPocket) (ms : Nat) (l : Option Nat) : Tracking.Right { t with
    cfg := some cfg, lineStopMs := ms, chain := purgedChain cfg.rejectPocket, filled := [],
    nextExit := none, interval := none, pulseSinceSetup := false, lineStop := l } := by
  refine ⟨nofun, fun g hg => ?_, fun _ => ⟨rfl, fun b hb => ?_⟩, nofun⟩
  · cases hg
    refine ⟨h.1, h.2.1, h.2.2.1, h.2.2.2, by simp [purgedChain], fun p b hp => ?_⟩
    have := List.mem_of_getElem? hp
    simp [purgedChain] at this
  · simp [purgedChain] at hb

/-- TRACK CLEAR purges the bottles and empties the lists (R118). -/
theorem Tracking.Right.clear {t : Tracking} (h : t.Right) :
    Tracking.Right { t with chain := t.chain.map ChainEntry.clear, filled := [], nextExit := none } := by
  obtain ⟨a, b, -, -⟩ := h
  have hno : ∀ x, ChainEntry.bottle x ∉ t.chain.map ChainEntry.clear := by
    intro x hx
    rw [List.mem_map] at hx
    obtain ⟨e, -, he⟩ := hx
    cases e <;> cases he
  refine ⟨fun hx => ?_, fun g hg => ?_, fun _ => ⟨rfl, fun x hx => absurd hx (hno x)⟩, nofun⟩
  · rw [(a hx).1]
    exact ⟨rfl, rfl, rfl⟩
  · obtain ⟨b1, b2, b3, b4, b5, -⟩ := b g hg
    exact ⟨b1, b2, b3, b4, by simpa using b5, fun p x hx => absurd (List.mem_of_getElem? hx) (hno x)⟩

end Sys2Proof.Machine
end

