-- ==== Sys2Proof/Laws/KeepsUnits.lean ====
section
/-! SUPPORT. The operations of the clock unit, the tracking unit, the window unit, the robot unit, the command unit, the
feed assembler and the memory port as moves that keep the invariants. -/

namespace Sys2Proof.Machine
open Sys2Proof

/-! ## The clock unit -/

theorem clampTo_natAbs (l : Nat) (v : Int) : (clampTo l v).natAbs ≤ l := by
  unfold clampTo
  omega

theorem ite_keeps {s t u : State} (c : Prop) [Decidable c] (h : Keeps s t) (h' : Keeps s u) :
    Keeps s (if c then t else u) := by
  split
  · exact h
  · exact h'

theorem setRate_keeps (s : State) (c : Clock) (rate : Int) (hp : c.params = s.clk.params)
    (hr : rate.natAbs ≤ s.clk.params.rateLimit)
    (hi : c.integral.natAbs ≤ s.clk.params.rateLimit ∨ c.integral = s.clk.integral)
    (h0 : c.place0.window = s.clk.place0.window := by rfl) (h1 : c.place1.window = s.clk.place1.window := by rfl) :
    Keeps s (s.setClk (c.setRate rate)) := by
  refine keeps_clk s (c.setRate rate) (fun h => ⟨rfl, ?_, ?_, ?_⟩) h0 h1
  · show rate.natAbs ≤ c.params.rateLimit
    rw [hp]
    exact hr
  · show c.integral.natAbs ≤ c.params.rateLimit
    rw [hp]
    rcases hi with hi | hi
    · exact hi
    · rw [hi]
      exact h.2.2.1
  · show c.params.rateLimit ≤ 500000
    rw [hp]
    exact h.2.2.2

theorem servo_keeps (s : State) (o : Int) : Keeps s (s.setClk (s.clk.servo o)) :=
  setRate_keeps s _ _ rfl (clampTo_natAbs _ _) (.inl (clampTo_natAbs _ _))

theorem setClockStateAt_keeps (t : Nat) (n : ClockState) (c : ClockCause) (s : State) : Keeps s (setClockStateAt t n c s) := by
  unfold setClockStateAt
  split
  · exact .refl s
  · exact (postNoticeAt_keeps _ _ _).after (noteStatus_keeps (keeps_clk_same s _))

theorem setClockState_keeps (n : ClockState) (c : ClockCause) (s : State) : Keeps s (setClockState n c s) :=
  setClockStateAt_keeps _ n c s

theorem sourceEffect_keeps (t : Nat) (s : State) : Keeps s (sourceEffect t s) := by
  unfold sourceEffect
  split
  · exact setClockStateAt_keeps _ _ _ s
  · exact setClockStateAt_keeps _ _ _ s
  · exact keeps_clk_same s _
  · exact .refl s

theorem reselectAt_keeps (t : Nat) (s : State) : Keeps s (reselectAt t s) := by
  unfold reselectAt
  dsimp only
  split
  · exact .refl s
  · have h := (keeps_clk_same s { s.clk with selected := s.clk.best.map (·.1) }).trans
      (postNoticeAt_keeps t (.sourceChange s.clk.selected (s.clk.best.map (·.1)) (s.clk.best.map (·.2))) _)
    split
    · exact h.trans (sourceEffect_keeps _ _)
    · exact h

theorem reselect_keeps (s : State) : Keeps s (reselect s) := reselectAt_keeps _ s

theorem setPlace_holds (s : State) (n : Fin 2) (p : Place) : Holds s (s.setClk (s.clk.setPlace n p)) := by
  unfold Clock.setPlace
  split <;> exact holds_clk_same s _

theorem setPlace_keeps (s : State) (n : Fin 2) (p : Place) (h : p.window = (s.clk.place n).window) :
    Keeps s (s.setClk (s.clk.setPlace n p)) := by
  unfold Clock.place at h
  unfold Clock.setPlace
  split
  · rw [if_pos ‹_›] at h
    exact keeps_clk_same s { s.clk with place0 := p } rfl rfl rfl rfl h
  · rw [if_neg ‹_›] at h
    exact keeps_clk_same s { s.clk with place1 := p } rfl rfl rfl rfl rfl h

theorem createSource_holds (i : WinIdx) (s : State) : Holds s (createSource i s) := by
  unfold createSource
  dsimp only
  split
  · exact holds_clk_same s _
  · split
    · exact holds_clk_same s _
    · exact .refl s

theorem vanishSource_holds (i : WinIdx) (s : State) : Holds s (vanishSource i s) := by
  unfold vanishSource
  split
  · exact (setPlace_holds s _ _).trans (reselect_keeps _).toHolds
  · exact .refl s

theorem silenceExpiry_keeps (s : State) : Keeps s (silenceExpiry s) := by
  unfold silenceExpiry
  dsimp only
  have h := keeps_clk_same s { s.clk with silence := none }
  split
  · exact h.trans (setClockState_keeps _ _ _)
  · exact h.trans (setClockState_keeps _ _ _)
  · exact h

theorem heardExpiry_keeps (n : Fin 2) (s : State) : Keeps s (heardExpiry n s) :=
  (setPlace_keeps s n (s.clk.place n).unheard rfl).trans (reselect_keeps _)

/-! ## Robots at a boundary -/

theorem Bound.next_steps (b : Bound) (n : Nat) : b.Steps { b with nextBoundary := n } :=
  ⟨fun h => by unfold Bound.Right at *; exact h, rfl, rfl, rfl⟩

theorem countEcho_keeps (r : RobotIdx) (s : State) : Keeps s (countEcho r s) := by
  unfold countEcho
  split
  · rename_i b hb
    split
    · rename_i he
      split
      · split
        · unfold nudge
          dsimp only
          refine Keeps.after (writeBankWord_keeps (.nudge r) _ _ _ _ (by nofun))
            (setRobot_keeps hb ⟨fun h => ?_, rfl, rfl, rfl⟩)
          unfold Bound.Right at *
          simp_all
        · unfold makeStale
          refine Keeps.after (postNotice_keeps _ _) (setRobot_keeps hb ⟨fun h => ?_, rfl, rfl, rfl⟩)
          unfold Bound.Right at *
          simp_all
      · refine setRobot_keeps hb ⟨fun h => ?_, rfl, rfl, rfl⟩
        unfold Bound.Right at *
        simp_all
        omega
    · exact .refl s
  · exact .refl s

theorem countMode_keeps (r : RobotIdx) (s : State) : Keeps s (countMode r s) := by
  unfold countMode
  split
  · rename_i b hb
    dsimp only
    split
    · refine Keeps.after (serviceModeChange_keeps _ _ _) (setRobot_keeps hb ⟨fun h => ?_, rfl, rfl, rfl⟩)
      unfold Bound.Right at *
      simp_all
    · rename_i hn
      refine setRobot_keeps hb ⟨fun h => ?_, rfl, rfl, rfl⟩
      unfold Bound.Right at *
      refine ⟨h.1, h.2.1, h.2.2.1, h.2.2.2.1, h.2.2.2.2.1, h.2.2.2.2.2.1, h.2.2.2.2.2.2.1, h.2.2.2.2.2.2.2.1,
        h.2.2.2.2.2.2.2.2.1, h.2.2.2.2.2.2.2.2.2.1, h.2.2.2.2.2.2.2.2.2.2.1, Nat.min_le_left _ _, fun hx => ?_⟩
      by_contra hm
      exact hn ⟨hx, hm⟩
  · exact .refl s

theorem robotBoundary_keeps (r : RobotIdx) (s : State) : Keeps s (robotBoundary r s) :=
  ((startFlip_keeps r s).trans (countEcho_keeps r _)).trans (countMode_keeps r _)

theorem advanceBoundaries_keeps (rs : List RobotIdx) (s : State) : Keeps s (advanceBoundaries rs s) := by
  induction rs generalizing s with
  | nil => exact .refl s
  | cons r rs ih =>
    refine Keeps.trans ?_ (ih _)
    unfold advanceBoundary
    split
    · rename_i b hb
      split
      · exact (robotBoundary_keeps _ _).after (setRobot_keeps hb (b.next_steps _))
      · exact .refl s
    · exact .refl s

theorem stepBoundaries_keeps (old : Nat) (rs : List RobotIdx) (s : State) : Keeps s (stepBoundaries old rs s) := by
  induction rs generalizing s with
  | nil => exact .refl s
  | cons r rs ih =>
    refine Keeps.trans ?_ (ih _)
    unfold stepBoundary
    split
    · rename_i b hb
      dsimp only
      split
      · exact (robotBoundary_keeps _ _).after (setRobot_keeps hb (b.next_steps _))
      · exact setRobot_keeps hb (b.next_steps _)
    · exact .refl s

theorem advanceMark_keeps (old : Nat) (s : State) : Keeps s (advanceMark old s) := by
  obtain ⟨m, e, f, t, h⟩ := advanceMark_touches old s
  rw [h]
  exact (keeps_mark s m).trans (keeps_clk_same _ _)

theorem refclk_keeps (s : State) : Keeps s (refclk s) := by
  unfold refclk
  split
  · refine Keeps.trans ?_ ((advanceMark_keeps _ _).trans (advanceBoundaries_keeps _ _))
    exact (keeps_openCount _ _).after (keeps_clk_same s { s.clk with
      elapsed := s.clk.elapsed + Config.refclkNs, ns := (s.clk.advanced s.openCount).extractLsb' 32 64,
      frac := (s.clk.advanced s.openCount).setWidth 32 })
  · exact .refl s

theorem stepTime_keeps (new : Word) (s : State) : Keeps s (stepTime new s) :=
  (stepBoundaries_keeps _ _ _).after
    (setRate_keeps s { s.clk with ns := new, frac := 0, stepped := true } 0 rfl (Nat.zero_le _) (.inr rfl))

theorem clear_keeps (s : State) : Keeps s (s.setClk s.clk.clear) :=
  keeps_clk s _ (fun h => ⟨h.1, h.2.1, Nat.zero_le _, h.2.2.2⟩) rfl rfl

theorem stepAndPost_keeps (src : Option WinIdx) (off : List Byte) (new : Word) (s : State) :
    Keeps s (stepAndPost src off new s) :=
  (postNoticeAt_keeps _ _ _).after ((clear_keeps _).after (stepTime_keeps new s))

theorem disciplineStep_keeps (i : WinIdx) (o : Int) (s : State) : Keeps s (disciplineStep i o s) :=
  stepAndPost_keeps _ _ _ s

theorem countLock_keeps (o : Int) (s : State) : Keeps s (countLock o s) := by
  unfold countLock
  split
  · dsimp only
    split
    · exact Keeps.trans (keeps_clk_same s { s.clk with lockCount := s.clk.lockCount + 1 })
        (setClockState_keeps _ _ _)
    · exact keeps_clk_same s _
  · exact keeps_clk_same s _

theorem selectedRecord_keeps (i : WinIdx) (o : Int) (s : State) : Keeps s (selectedRecord i o s).1 := by
  have step := disciplineStep_keeps i o s
  have enter : ∀ {u : State}, Keeps s u → Keeps s (setClockState .acquiring .record u) :=
    fun h => (setClockState_keeps _ _ _).after h
  have enterAt : Keeps s (setClockStateAt s.time .acquiring .record (disciplineStep i o s)) :=
    (setClockStateAt_keeps _ _ _ _).after step
  have servo := servo_keeps s o
  unfold selectedRecord
  cases s.clk.state with
  | free =>
    dsimp only
    split
    · dsimp only
      exact enterAt
    · dsimp only
      exact enter servo
  | acquiring =>
    dsimp only
    split
    · dsimp only
      exact step
    · dsimp only
      exact (countLock_keeps _ _).after servo
  | locked =>
    dsimp only
    split
    · split
      · dsimp only
        exact keeps_clk_same s _
      · dsimp only
        exact enterAt
    · dsimp only
      exact (keeps_clk_same (s.setClk (s.clk.servo o)) { s.clk.servo o with outlierCount := 0 }).after servo
  | holdover =>
    dsimp only
    split
    · dsimp only
      exact enterAt
    · dsimp only
      exact (countLock_keeps _ _).after (enter servo)

theorem Clock.placeOf_place {c : Clock} {i : WinIdx} {n : Fin 2} {p : Place} (h : c.placeOf? i = some (n, p)) :
    p = c.place n ∧ p.window = some i := by
  unfold Clock.placeOf? at h
  split at h
  · cases h
    exact ⟨rfl, ‹_›⟩
  · split at h
    · cases h
      exact ⟨rfl, ‹_›⟩
    · cases h

theorem acceptSync_keeps (n : Fin 2) (p : Place) (r : TimeSync) (s : State) (h : p = s.clk.place n) :
    Keeps s (acceptSync n p r s) := by
  unfold acceptSync
  dsimp only
  exact (setPlace_keeps s n { p with
    lastOrigin := some r.origin, lastGrade := some r.grade, lastAccept := some s.clk.elapsed,
    heard := true, heardTimer := some (s.clk.elapsed + s.clk.holdoverNs) } (by rw [← h])).trans
      (keeps_clk_same _ _)

theorem timeSyncAct_keeps (i : WinIdx) (r : TimeSync) (b : Option Word) (s : State) : Keeps s (timeSyncAct i r b s).1 := by
  unfold timeSyncAct
  split
  · rename_i hp
    split
    · exact .refl s
    · dsimp only
      have h := (acceptSync_keeps _ _ r s (Clock.placeOf_place hp).1).trans (reselectAt_keeps (b.getD s.clk.ns).toNat _)
      split
      · exact h.trans (selectedRecord_keeps _ _ _)
      · exact h
  · exact .refl s

theorem clockSetAct_runs (t : Word) (s : State) : Runs s (clockSetAct t s) := by
  unfold clockSetAct
  dsimp only
  exact (((keeps_openCount s _).trans (stepAndPost_keeps _ _ _ _)).trans (setClockStateAt_keeps _ _ _ _)).completes _ _

theorem Clock.setDelay_same (c : Clock) (g : Bool) (b : Byte) (d : Nat) :
    (c.setDelay g b d).increment = c.increment ∧ (c.setDelay g b d).rate = c.rate
      ∧ (c.setDelay g b d).integral = c.integral ∧ (c.setDelay g b d).params = c.params
      ∧ (c.setDelay g b d).place0.window = c.place0.window ∧ (c.setDelay g b d).place1.window = c.place1.window := by
  unfold Clock.setDelay
  split
  · split
    · split
      · rename_i hp
        obtain ⟨rfl, -⟩ := Clock.placeOf_place hp
        unfold Clock.setPlace Clock.place
        split <;> exact ⟨rfl, rfl, rfl, rfl, rfl, rfl⟩
      · exact ⟨rfl, rfl, rfl, rfl, rfl, rfl⟩
    · exact ⟨rfl, rfl, rfl, rfl, rfl, rfl⟩
  · exact ⟨rfl, rfl, rfl, rfl, rfl, rfl⟩

theorem tune_keeps (p : TuneParams) (s : State) (h : tuneInRange p s.clk.params = true) : Keeps s (s.setClk (s.clk.tune p)) := by
  obtain ⟨a1, a2, a3, a4, a5, a6⟩ := Clock.setDelay_same (Clock.setDelay (Clock.setRate { s.clk with
      params := tuneApply p s.clk.params, integral := clampTo (tuneApply p s.clk.params).rateLimit s.clk.integral }
      (clampTo (tuneApply p s.clk.params).rateLimit s.clk.rate)) (tuneHas p 6) p.window1 p.delay1.toNat)
    (tuneHas p 7) p.window2 p.delay2.toNat
  obtain ⟨b1, b2, b3, b4, b5, b6⟩ := Clock.setDelay_same (Clock.setRate { s.clk with
      params := tuneApply p s.clk.params, integral := clampTo (tuneApply p s.clk.params).rateLimit s.clk.integral }
      (clampTo (tuneApply p s.clk.params).rateLimit s.clk.rate)) (tuneHas p 6) p.window1 p.delay1.toNat
  refine keeps_clk s _ (fun hr => ?_) (a5.trans b5) (a6.trans b6)
  have hl : (tuneApply p s.clk.params).rateLimit ≤ 500000 := by
    have hg : givenIn (tuneHas p 4) p.rateLimit.toNat 1000 500000 = true := by
      unfold tuneInRange at h
      simp only [Bool.and_eq_true] at h
      exact h.1.1.1.1.1.2
    unfold tuneApply
    dsimp only
    split
    · rename_i h4
      unfold givenIn at hg
      rw [h4] at hg
      simp only [Bool.not_true, Bool.false_or, Bool.and_eq_true, decide_eq_true_eq] at hg
      exact hg.2
    · exact hr.2.2.2
  refine ⟨?_, ?_, ?_, ?_⟩
  · exact (a1.trans b1).trans (congrArg incrementOf (a2.trans b2)).symm
  · show (Clock.rate _).natAbs ≤ (Clock.params _).rateLimit
    rw [show (s.clk.tune p).rate = _ from a2.trans b2, show (s.clk.tune p).params = _ from a4.trans b4]
    exact clampTo_natAbs _ _
  · show (Clock.integral _).natAbs ≤ (Clock.params _).rateLimit
    rw [show (s.clk.tune p).integral = _ from a3.trans b3, show (s.clk.tune p).params = _ from a4.trans b4]
    exact clampTo_natAbs _ _
  · show (Clock.params _).rateLimit ≤ 500000
    rw [show (s.clk.tune p).params = _ from a4.trans b4]
    exact hl

theorem Place.retimed_window (p : Place) (h now : Nat) : ((p.retime h).expireNow now).window = p.window := by
  unfold Place.expireNow Place.retime Place.unheard
  split <;> split <;> rfl

theorem retimeHoldover_keeps (s : State) : Keeps s (retimeHoldover s) := by
  unfold retimeHoldover
  dsimp only
  have h := (keeps_clk_same s { s.clk with
    place0 := (s.clk.place0.retime s.clk.holdoverNs).expireNow s.clk.elapsed,
    place1 := (s.clk.place1.retime s.clk.holdoverNs).expireNow s.clk.elapsed,
    silence := s.clk.retimeSilence } rfl rfl rfl rfl (Place.retimed_window _ _ _) (Place.retimed_window _ _ _)).trans
      (reselect_keeps _)
  split
  · exact h.trans (silenceExpiry_keeps _)
  · exact h

theorem clockTuneAct_runs (p : TuneParams) (s : State) : Runs s (clockTuneAct p s) := by
  unfold clockTuneAct
  split
  · exact complete_runs _ _ s
  · rename_i hr
    split
    · exact complete_runs _ _ s
    · dsimp only
      have h := tune_keeps p s (by simpa using hr)
      split
      · exact (h.trans (retimeHoldover_keeps _)).completes _ _
      · exact h.completes _ _

/-! ## The tracking unit -/

theorem refreshReject_keeps (s : State) : Keeps s s.refreshReject := keeps_reject s _

theorem recordDecision_keeps (d : Decision) (s : State) : Keeps s (recordDecision d s) := by
  unfold recordDecision
  split
  · split
    · unfold dropDecision
      split
      · exact .refl s
      · refine (postNotice_keeps _ _).after (noteStatus_keeps (keeps_rep s _ ?_))
        exact ⟨rfl, rfl, rfl, rfl, id, id⟩
    · rename_i hf
      unfold writeDecision
      dsimp only
      refine (ownWrite_keeps _ _ _ _).after ?_
      refine Keeps.after (s := s) (keeps_rep _ _ ?_) ((keeps_openCount _ _).after (ownWrite_keeps _ _ _ s))
      refine ⟨rfl, rfl, rfl, rfl, id, fun h => ?_⟩
      have hf' : ¬ 512 ≤ s.rep.decProducer - s.rep.decConsumed := fun h => hf ((Reporting.decFull_iff _).2 h)
      have h' : s.rep.decConsumed ≤ s.rep.decProducer ∧ s.rep.decProducer ≤ s.rep.decConsumed + 512 := h
      show s.rep.decConsumed ≤ s.rep.decProducer + 1 ∧ s.rep.decProducer + 1 ≤ s.rep.decConsumed + 512
      omega
  · exact .refl s

theorem decideEntry_keeps (cfg : TrackConfig) (p : Bool) (e : ChainEntry) (s : State) :
    Keeps s (decideEntry cfg p e s) := by
  unfold decideEntry
  split
  · split
    · exact ((keeps_trk s _ fun h => h.same).trans (refreshReject_keeps _)).trans (recordDecision_keeps _ _)
    · exact recordDecision_keeps _ s
  · exact .refl s

theorem decideEntries_keeps (cfg : TrackConfig) (p : Bool) (es : List ChainEntry) (s : State) :
    Keeps s (decideEntries cfg p es s) := by
  induction es generalizing s with
  | nil => exact .refl s
  | cons e es ih => exact (decideEntry_keeps cfg p e s).trans (ih _)

theorem stopLine_keeps (s : State) : Keeps s (stopLine s) :=
  (setTrk_keeps _ s fun h => h.same).trans (postNotice_keeps _ _)

theorem startLine_keeps (s : State) : Keeps s (startLine s) := by
  unfold startLine
  split
  · exact (setTrk_keeps _ s fun h => h.same).trans (postNotice_keeps _ _)
  · exact .refl s

theorem advanceChain_keeps (cfg : TrackConfig) (present : Bool) (s : State) (hc : s.trk.cfg = some cfg) :
    Keeps s (advanceChain cfg present s) := by
  refine (decideEntry_keeps _ _ _ s).trans (setTrk_keeps _ _ fun h => h.advance ?_ present _)
  rw [(decideEntry_trk _ _ _ s).2]
  exact hc

theorem setTrk_trk (t : Tracking) (s : State) : (s.setTrk t).trk = t := by
  obtain ⟨m, hm⟩ := setTrk_touches t s
  rw [hm]

theorem pocketPulseAct_keeps (present : Bool) (s : State) : Keeps s (pocketPulseAct present s) := by
  unfold pocketPulseAct
  split
  · exact .refl s
  · dsimp only
    have h1 : Keeps s (s.setTrk { s.trk with interval := measuredInterval s }) := setTrk_keeps _ s fun h => h.same
    refine (servicePulse_keeps _).after ((setTrk_keeps _ _ fun h => h.same).after ((startLine_keeps _).after ?_))
    split
    · rename_i cfg hc
      exact (advanceChain_keeps cfg _ _ hc).after h1
    · exact h1

/-- A TRACK SETUP in range applies. -/
theorem applySetup_keeps (cfg : TrackConfig) (ms : Nat) (s : State) (h : 4 ≤ cfg.rejectPocket ∧ cfg.rejectPocket ≤ 64
    ∧ 1 ≤ cfg.deadline ∧ cfg.deadline ≤ cfg.rejectPocket) : Keeps s (applySetup cfg ms s) := by
  have hs : ∀ u : State, Keeps u (u.setTrk { u.trk with
      cfg := some cfg, lineStopMs := ms, chain := purgedChain cfg.rejectPocket, filled := [],
      nextExit := none, interval := none, pulseSinceSetup := false,
      lineStop := match u.trk.lineStop, u.trk.lastPulse with
        | some _, some p => some (p + msToNs ms)
        | t, _           => t }) := fun u => setTrk_keeps _ u fun _ => Tracking.right_setup u.trk cfg h ms _
  unfold applySetup
  cases s.trk.cfg with
  | none =>
    dsimp only
    exact ite_keeps _ ((stopLine_keeps _).after (hs s)) (hs s)
  | some old =>
    dsimp only
    have h := decideEntries_keeps old true (s.trk.chain.drop cfg.rejectPocket).reverse s
    exact ite_keeps _ ((stopLine_keeps _).after ((hs _).after h)) ((hs _).after h)

theorem trackSetupAct_runs (p : TrackParams) (s : State) : Runs s (trackSetupAct p s) := by
  unfold trackSetupAct
  split
  · exact complete_runs _ _ s
  · rename_i cfg hc
    split
    · exact complete_runs _ _ s
    · split
      · exact complete_runs _ _ s
      · refine (applySetup_keeps _ _ s ?_).completes _ _
        have := (trackConfig?_iff p cfg).1 hc
        unfold setupDescribes at this
        dsimp only at this
        omega

theorem trackClearAct_runs (s : State) : Runs s (trackClearAct s) := by
  unfold trackClearAct
  split
  · exact complete_runs _ _ s
  · split
    · exact (setTrk_keeps _ s fun h => h.clear).completes _ _
    · exact complete_runs _ _ s

theorem fillReportAct_keeps (src : Source) (f : FillReport) (s : State) : Keeps s (fillReportAct src f s) := by
  unfold fillReportAct
  split
  · exact .refl s
  · rename_i cfg hc
    dsimp only
    have h1 : Keeps s (s.setTrk { s.trk with nextExit := some (s.trk.nextExit.getD f.serial) }) :=
      setTrk_keeps _ s fun h => h.begin f.serial (by rw [hc]; nofun)
    split
    · exact (takeFault_keeps _ _).after h1
    · rename_i hb
      split
      · exact (takeFault_keeps _ _).after h1
      · rename_i hr
        split
        · exact (takeFault_keeps _ _).after h1
        · rename_i hd
          refine (setTrk_keeps _ _ fun h => ?_).after h1
          rw [setTrk_trk] at h hd ⊢
          unfold serialBelow serialDiff at hb
          unfold serialDiff at hr
          simp only [decide_eq_true_eq, not_lt] at hb
          simp only [Bool.or_eq_true, not_or, List.any_eq_true, decide_eq_true_eq, not_exists, not_and] at hd
          exact h.fill (f := fillRecord cfg f _) rfl hb (not_le.1 hr) hd.1 (by show s.trk.cfg ≠ none; rw [hc]; nofun)

theorem Bottle.record_same (b : Bottle) (c : Fin 3) (v : Verdict × BitVec 16) :
    (b.record c v).serial = b.serial ∧ (b.record c v).windowOpen = b.windowOpen := by
  unfold Bottle.record
  split
  · exact ⟨rfl, rfl⟩
  · split <;> exact ⟨rfl, rfl⟩

theorem verdictAct_keeps (src : Source) (v : VerdictRecord) (s : State) : Keeps s (verdictAct src v s) := by
  unfold verdictAct
  split
  · split
    · rename_i hf
      split
      · split
        · exact takeFault_keeps _ s
        · exact setTrk_keeps _ s fun h => h.record (findBottle_get hf).1 (Bottle.record_same _ _ _).1
            (Bottle.record_same _ _ _).2
      · exact takeFault_keeps _ s
    · split <;> exact takeFault_keeps _ s
  · exact takeFault_keeps _ s

/-! ## Robots -/

theorem Bound.takeStatus_steps (b : Bound) (st : RobotStatus) : b.Steps (b.takeStatus st) :=
  ⟨fun h => by unfold Bound.Right Bound.takeStatus at *; simp_all, rfl, rfl, rfl⟩

theorem Bound.confirmEcho_steps (b : Bound) : b.Steps b.confirmEcho :=
  ⟨fun h => by unfold Bound.Right Bound.confirmEcho at *; simp_all, rfl, rfl, rfl⟩

theorem Bound.Steps.trans {a b c : Bound} (h : a.Steps b) (h' : b.Steps c) : a.Steps c :=
  ⟨fun x => h'.right (h.right x), h'.bank.trans h.bank, h'.feed.trans h.feed, h'.unbinding.trans h.unbinding⟩

theorem robotStatusAct_keeps (st : RobotStatus) (s : State) : Keeps s (robotStatusAct st s) := by
  unfold robotStatusAct
  split
  · rename_i b hb
    dsimp only
    have h1 : ∀ u : State, Keeps u (if decide (st.applied = b.publishedSeq) = true ∧ b.echo = .stale then
        postNotice (.robotRecovered st.robot b.publishedSeq) u else u) := fun u => by
      split
      · exact postNotice_keeps _ u
      · exact .refl u
    have h2 : Keeps s (s.setRobot st.robot (some (if decide (st.applied = b.publishedSeq) = true then
        (b.takeStatus st).confirmEcho else b.takeStatus st))) := by
      refine setRobot_keeps hb ?_
      split
      · exact (b.takeStatus_steps st).trans (Bound.confirmEcho_steps _)
      · exact b.takeStatus_steps st
    split
    · exact (h2.trans (h1 _)).trans (serviceModeChange_keeps _ _ _)
    · exact h2.trans (h1 _)
  · exact .refl s

end Sys2Proof.Machine
end

