-- ==== Sys2Proof/Laws/WindowCommands.lean ====
section
/-! SUPPORT. WINDOW LOAD and WINDOW DROP: their refusals and the drain. -/

namespace Sys2Proof.Machine
open Sys2Proof

theorem loadRefusal_cases (b : State) (i : WinIdx) (w : Window) :
    (b.boundAt i → loadRefusal b i w = some .bound) ∧
    (¬ b.boundAt i → b.busyAt i → loadRefusal b i w = some .busy) ∧
    (¬ b.boundAt i → ¬ b.busyAt i → b.overlapsArea w → loadRefusal b i w = some .overlapControl) ∧
    (¬ b.boundAt i → ¬ b.busyAt i → ¬ b.overlapsArea w → b.overlapsHidden i w → loadRefusal b i w = some .hiddenOverlap) ∧
    (¬ b.boundAt i → ¬ b.busyAt i → ¬ b.overlapsArea w → ¬ b.overlapsHidden i w → b.feedsFull i w → loadRefusal b i w = some .limit) ∧
    (¬ b.boundAt i → ¬ b.busyAt i → ¬ b.overlapsArea w → ¬ b.overlapsHidden i w → ¬ b.feedsFull i w → loadRefusal b i w = none) := by
  unfold loadRefusal entryRefusal
  rw [← entryBound_iff, ← entryBusy_iff, ← overlapControl_iff, ← hiddenOverlap_iff, ← feedLimitReached_iff]
  cases b.entryBound i <;> cases b.entryBusy i <;> cases overlapControl b w <;> cases hiddenOverlap b i w <;> cases feedLimitReached b i w <;> simp

theorem entryRefusal_cases (b : State) (i : WinIdx) :
    (b.boundAt i → entryRefusal b i = some .bound) ∧
    (¬ b.boundAt i → b.busyAt i → entryRefusal b i = some .busy) ∧
    (¬ b.boundAt i → ¬ b.busyAt i → entryRefusal b i = none) := by
  unfold entryRefusal
  rw [← entryBound_iff, ← entryBusy_iff]
  cases b.entryBound i <;> cases b.entryBusy i <;> simp

theorem exec_windowLoad {s b : State} (hb : s.fetchAnswered b) (p) : exec (.windowLoad p) s = .next (windowLoadAct p b) := by
  change Host.Outcome.next (onCommand _ s) = _
  rw [onCommand_of_fetchAnswered hb]

theorem exec_windowDrop {s b : State} (hb : s.fetchAnswered b) (p) : exec (.windowDrop p) s = .next (windowDropAct p b) := by
  change Host.Outcome.next (onCommand _ s) = _
  rw [onCommand_of_fetchAnswered hb]

theorem windowLoadAct_describes {b : State} {p i w} (h : describes p i w) : windowLoadAct p b = if !aligned w then completeRefused .align b
    else
      match loadRefusal b i w with
      | some why => completeRefused why b
      | none =>
        match (b.entry i).contents? with
        | none     => completeDone (applyWindow i w b)
        | some old => startDrain i old (some w) b := by
  unfold windowLoadAct
  rw [loadWindow?_eq_some.2 h]; try rfl

theorem drainReady_iff (b : State) (i) : drainReady b i = true ↔ b.drained i := by
  unfold drainReady State.drained; simp

theorem setEntry_twice (b : State) (i : WinIdx) (x y : WinState) : (b.setEntry i x).setEntry i y = b.setEntry i y := by
  unfold State.setEntry; simp

theorem setSlot_setEntry (b : State) (i : WinIdx) (x  : WinState) (a) : (b.setSlot i a).setEntry i x = (b.setEntry i x).setSlot i a := rfl

theorem setSlot_twice (b : State) (i : WinIdx) (x y) : (b.setSlot i x).setSlot i y = b.setSlot i y := by
  unfold State.setSlot; simp

theorem startDrain_eq (i old new) (b : State) : startDrain i old new b = if drainReady b i then 
   complete .done .none (match (new : Option Window) with
      | some w => applyWindow i w (ceaseWindow i old ((b.setEntry i .empty).setSlot i none))
      | none   => ceaseWindow i old ((b.setEntry i .empty).setSlot i none))
   else ((b.setEntry i (.draining old new)).setSlot i (if (b.slot? i).isSome then some .empty else none)).setPhase (.executing (.drain i)) := by
  unfold startDrain
  have hs : ((b.setEntry i (.draining old new)).slot? i).map (fun _ => Slot.empty) = if (b.slot? i).isSome then some .empty else none := by
    change (b.slot? i).map _ = _
    cases b.slot? i <;> rfl
  dsimp only
  rw [hs]
  generalize (if (b.slot? i).isSome then some Slot.empty else none) = a
  have hd : drainReady ((b.setEntry i (.draining old new)).setSlot i a) i = drainReady b i := rfl
  rw [hd]
  split
  · unfold finishDrain
    have : ((b.setEntry i (.draining old new)).setSlot i a).entry i = .draining old new := by
      change (b.setEntry i (.draining old new)).entry i = _
      simp
    rw [this]
    cases new <;> (dsimp only; rw [setSlot_setEntry, setEntry_twice, setSlot_twice]; rfl)
  · rfl

end Sys2Proof.Machine
end

