-- ==== Sys2Proof/Laws/TableRight.lean ====
section
/-! SUPPORT. The window table's invariant where one entry changes, and what the checks of WINDOW LOAD give for it. -/

namespace Sys2Proof.Machine
open Sys2Proof

/-- One of the two places serves the window. -/
def State.served (s : State) (i : WinIdx) : Prop := s.clk.place0.window = some i ∨ s.clk.place1.window = some i

/-- The contents `w` may stand at entry `i`, beside what the other entries contain (R34, R36). -/
def State.Admits (s : State) (i : WinIdx) (w : Window) : Prop :=
  w.Formed ∧ w.HalvesApart ∧ (∀ a, w.rangeHas a ∨ w.halfHas a → ¬ s.areaHas a)
    ∧ ∀ j v, j ≠ i → s.contains j v → ∀ a,
        (w.halfHas a → ¬ v.rangeHas a ∧ ¬ v.halfHas a) ∧ (v.halfHas a → ¬ w.rangeHas a ∧ ¬ w.halfHas a)

/-- There is room for one more feed of the kind of `w` beside the other entries (R37). -/
def State.RoomFor (s : State) (i : WinIdx) (w : Window) : Prop :=
  ∀ k limit, w.feedKind? = some k → kindLimit k limit → ∀ l : List WinIdx, l.Nodup →
    (∀ j ∈ l, j ≠ i ∧ ∃ v, s.willApply j v ∧ v.feedKind? = some k) → l.length < limit

/-- An empty table, with no slot and no source, is right (R42). -/
theorem tableRight_of_empty {s : State} (h : ∀ i, s.entry i = .empty) (hs : ∀ i, s.slot? i = none)
    (h0 : s.clk.place0.window = none) (h1 : s.clk.place1.window = none) : s.TableRight := by
  have ha : ∀ i w, ¬ s.applies i w := by
    rintro i w (hx | ⟨n, hx⟩) <;> rw [h] at hx <;> cases hx
  have hw : ∀ i w, ¬ s.willApply i w := by
    rintro i w (hx | ⟨n, hx⟩) <;> rw [h] at hx <;> cases hx
  have hc : ∀ i w, ¬ s.contains i w := fun i w hx => hx.elim (ha i w) (hw i w)
  refine ⟨⟨fun i w hx => absurd hx (hc i w), fun _ _ => h⟩, fun i w hx => absurd hx (hc i w),
    fun i j w v _ hx => absurd hx (hc i w), fun k n _ l _ hl => ?_, fun i => ?_, fun i => ?_, fun i => ?_⟩
  · cases l with
    | nil => exact Nat.zero_le _
    | cons i l =>
      obtain ⟨w, hx, -⟩ := hl i (List.mem_cons_self ..)
      exact absurd hx (hw i w)
  · rw [hs]
    exact ⟨fun ⟨_, hx⟩ => (by cases hx), fun ⟨w, _, hx, _⟩ => absurd hx (ha i w)⟩
  · rw [h0, h1]
    exact ⟨fun hx => (by rcases hx with hx | hx <;> cases hx), fun ⟨w, hx, _⟩ => absurd hx (ha i w)⟩
  · rw [h0]
    rintro ⟨hx, -⟩
    cases hx

/-- Where one entry changes, the window table's invariant asks for its new contents only. -/
theorem tableRight_entered {s t : State} {i : WinIdx} (h : s.TableRight)
    (others : ∀ j, j ≠ i → t.entry j = s.entry j)
    (new : ∀ w, t.contains i w → s.contains i w ∨ s.Admits i w)
    (room : ∀ w, t.willApply i w → s.willApply i w ∨ s.RoomFor i w)
    (slots : ∀ j, j ≠ i → (t.slot? j).isSome = (s.slot? j).isSome)
    (slot : (∃ a, t.slot? i = some a) ↔ ∃ w k, t.applies i w ∧ w.feedKind? = some k)
    (places : ∀ j, j ≠ i → (t.served j ↔ s.served j))
    (place : t.served i ↔ ∃ w, t.applies i w ∧ w.feedKind? = some .time)
    (apart : ∀ j, ¬ (t.clk.place0.window = some j ∧ t.clk.place1.window = some j))
    (strap : t.pins.strap = s.pins.strap) (run : t.pins.powerGood = true → t.pins.cabinetReset = true → False) :
    t.TableRight := by
  have harea : ∀ a, t.areaHas a ↔ s.areaHas a := fun a => by unfold State.areaHas State.areaBase; rw [strap]
  have happ : ∀ j, j ≠ i → ∀ w, t.applies j w ↔ s.applies j w := fun j hj w => by unfold State.applies; rw [others j hj]
  have hwill : ∀ j, j ≠ i → ∀ w, t.willApply j w ↔ s.willApply j w := fun j hj w => by
    unfold State.willApply; rw [others j hj]
  have hcon : ∀ j, j ≠ i → ∀ w, t.contains j w ↔ s.contains j w := fun j hj w => by
    unfold State.contains; rw [happ j hj, hwill j hj]
  obtain ⟨⟨ha, -⟩, hf, hd, hk, hx, hy, -⟩ := h
  refine ⟨⟨fun j w hw a hm => ?_, fun p c => (run p c).elim⟩, fun j w hw => ?_, fun j k w v hjk hw hv a hwa => ?_,
    fun k n hn l hl hm => ?_, fun j => ?_, fun j => ?_, apart⟩
  · rw [harea]
    by_cases hj : j = i
    · subst hj
      rcases new w hw with hw | hw
      · exact ha j w hw a hm
      · exact hw.2.2.1 a hm
    · exact ha j w ((hcon j hj w).1 hw) a hm
  · by_cases hj : j = i
    · subst hj
      rcases new w hw with hw | hw
      · exact hf j w hw
      · exact ⟨hw.1, hw.2.1⟩
    · exact hf j w ((hcon j hj w).1 hw)
  · by_cases hj : j = i
    · subst hj
      have hv' := (hcon k (Ne.symm hjk) v).1 hv
      rcases new w hw with hw | hw
      · exact hd j k w v hjk hw hv' a hwa
      · exact (hw.2.2.2 k v (Ne.symm hjk) hv' a).1 hwa
    · have hw' := (hcon j hj w).1 hw
      by_cases hk' : k = i
      · subst hk'
        rcases new v hv with hv | hv
        · exact hd j k w v hjk hw' hv a hwa
        · exact (hv.2.2.2 j w hj hw' a).2 hwa
      · exact hd j k w v hjk hw' ((hcon k hk' v).1 hv) a hwa
  · by_cases hi : i ∈ l
    · obtain ⟨w, hw, hwk⟩ := hm i hi
      rcases room w hw with hw | hw
      · refine hk k n hn l hl fun j hj => ?_
        by_cases hji : j = i
        · subst hji
          exact ⟨w, hw, hwk⟩
        · obtain ⟨v, hv, hvk⟩ := hm j hj
          exact ⟨v, (hwill j hji v).1 hv, hvk⟩
      · have := hw k n hwk hn (l.erase i) (hl.erase i) fun j hj => by
          have hji : j ≠ i := fun e => by
            subst e
            exact (hl.not_mem_erase) hj
          obtain ⟨v, hv, hvk⟩ := hm j (List.mem_of_mem_erase hj)
          exact ⟨hji, v, (hwill j hji v).1 hv, hvk⟩
        rw [List.length_erase_of_mem hi] at this
        omega
    · refine hk k n hn l hl fun j hj => ?_
      have hji : j ≠ i := fun e => hi (e ▸ hj)
      obtain ⟨v, hv, hvk⟩ := hm j hj
      exact ⟨v, (hwill j hji v).1 hv, hvk⟩
  · by_cases hj : j = i
    · subst hj
      exact slot
    · rw [show (∃ a, t.slot? j = some a) ↔ (t.slot? j).isSome = true from Option.isSome_iff_exists.symm, slots j hj,
        Option.isSome_iff_exists, hx]
      simp only [happ j hj]
  · by_cases hj : j = i
    · subst hj
      exact place
    · have := (places j hj).trans (hy j)
      simp only [happ j hj]
      exact this

/-! ## The checks of WINDOW LOAD (R34 to R37) -/

theorem formed_of_describes {p : LoadParams} {i : WinIdx} {w : Window} (h : describes p i w) (ha : ¬ w.misaligned) :
    w.Formed := by
  obtain ⟨-, hb, hz, -, hws, h1, h2, h3, hr⟩ := h
  rw [← hz] at h1 h2
  rw [← hz, ← hb] at h3
  have h64 : w.size.toNat % 64 = 0 := by
    by_contra hx
    exact ha (.inr (.inl hx))
  refine ⟨by omega, h2, h3, ha, fun x hx => ?_, fun k st hk => ?_⟩
  · obtain ⟨e, y, n, a, b, hw, hx⟩ := hx
    rw [hw] at hr
    rcases hr with ⟨-, -, st, -, h⟩ | ⟨-, -, h⟩ | ⟨-, -, g1, g2, g3, r, -, h⟩ | ⟨-, -, -, k, st, -, -, h⟩
    · cases h
    · cases h
    · cases h
      rw [← hz] at g1 g2 g3
      rcases hx with rfl | rfl
      · exact ⟨g1, g2⟩
      · exact ⟨g1, g3⟩
    · cases h
  · rw [hk] at hr
    rcases hr with ⟨-, -, st', -, h⟩ | ⟨-, -, h⟩ | ⟨-, -, -, -, -, r, -, h⟩ | ⟨-, -, ⟨t, h1, h2⟩, k', st', -, -, h⟩
    · cases h
    · cases h
    · cases h
    · rw [hws]
      exact ⟨t, fun u => ⟨h2 u, fun e => e ▸ h1⟩⟩

/-- Where no entry drains, contents that pass R34 and R36 may stand. -/
theorem admits_of_checks {s : State} {p : LoadParams} {i : WinIdx} {w : Window} (h : describes p i w)
    (hm : ¬ w.misaligned) (ha : ¬ s.overlapsArea w) (ho : ¬ s.overlapsHidden i w)
    (hd : ∀ j o n, s.entry j ≠ .draining o n) : s.Admits i w := by
  refine ⟨formed_of_describes h hm, ⟨fun a hx hr => ho ⟨a, .inr (.inr (.inl ⟨hx, hr⟩))⟩,
    fun e x n ha hb hw a hx => ho ⟨a, .inr (.inr (.inr ⟨e, x, n, ha, hb, hw, hx⟩))⟩⟩, fun a hx har => ha ⟨a, hx, har⟩,
    fun j v hj hv a => ?_⟩
  have hv' : s.entry j = .loaded v := by
    rcases hv with (hv | ⟨n, hv⟩) | (hv | ⟨o, hv⟩)
    · exact hv
    · exact absurd hv (hd j v n)
    · exact hv
    · exact absurd hv (hd j o (some v))
  have hb : v.halfHas a → s.hidesBeside i a := fun hx => ⟨j, v, hj, .inl hv', hx⟩
  exact ⟨fun hx => ⟨fun hr => ho ⟨a, .inr (.inl ⟨hx, j, v, hj, hv', hr⟩)⟩, fun hy => ho ⟨a, .inl ⟨.inr hx, hb hy⟩⟩⟩,
    fun hx => ⟨fun hr => ho ⟨a, .inl ⟨.inl hr, hb hx⟩⟩, fun hy => ho ⟨a, .inl ⟨.inr hy, hb hx⟩⟩⟩⟩

theorem roomFor_of_checks {s : State} {i : WinIdx} {w : Window} (h : ¬ s.feedsFull i w)
    (hd : ∀ j o n, s.entry j ≠ .draining o n) : s.RoomFor i w := by
  intro k limit hk hl l hn hm
  by_contra hlt
  refine h ⟨k, limit, hk, hl, l.take limit, hn.sublist (List.take_sublist _ _), ?_, fun j hj => ?_⟩
  · rw [List.length_take]
    omega
  · obtain ⟨h1, v, hv, hvk⟩ := hm j (List.mem_of_mem_take hj)
    refine ⟨h1, v, ?_, hvk⟩
    rcases hv with hv | ⟨o, hv⟩
    · exact hv
    · exact absurd hv (hd j o (some v))

end Sys2Proof.Machine
end

