-- ==== Sys2Proof/Laws/KeepsTable.lean ====
section
/-! SUPPORT. The commands that change the window table or a binding, from their beginning to their completion or their
wait, and the ends of their waits. -/

namespace Sys2Proof.Machine
open Sys2Proof

/-! ## One entry and its slot -/

/-- An entry takes contents that carry no SERVICE authority, while the part runs and no robot is bound to it. -/
theorem setEntry_holds (i : WinIdx) (e : WinState) (s : State) (hr : s.running = true)
    (hl : ∀ w, e = .loaded w → w.role.authority? ≠ some .service)
    (hd : ∀ o n, e = .draining o (some n) → n.role.authority? ≠ some .service)
    (hb : s.RobotsRight → ∀ r b, s.bound? r = some b → b.bank ≠ i ∧ b.feed ≠ i) : Holds s (s.setEntry i e) := by
  refine .session rfl rfl rfl rfl rfl (.refl _) rfl (fun hs => ⟨fun j hj => ?_, fun j o n hj => ?_, fun a b => ?_⟩)
    fun hs r b hrb => ?_
  · by_cases hij : i = j
    · subst hij
      exfalso
      unfold State.authority? State.loaded? at hj
      rw [State.entry_setEntry_self] at hj
      cases e with
      | loaded w =>
        have h := hl w rfl
        obtain ⟨b, z, x, y, role⟩ := w
        cases role <;> first | (cases hj; done) | exact h hj
      | empty => cases hj
      | draining o n => cases hj
    · unfold State.authority? State.loaded? at hj
      rw [State.entry_setEntry_of_ne _ hij] at hj
      exact hs.1 j hj
  · by_cases hij : i = j
    · subst hij
      rw [State.entry_setEntry_self] at hj
      exact hd o n hj
    · rw [State.entry_setEntry_of_ne _ hij] at hj
      exact hs.2.1 j o n hj
  · unfold State.running at hr
    have a' : s.pins.powerGood = true := a
    have b' : s.pins.cabinetReset = true := b
    rw [a', b'] at hr
    cases hr
  · obtain ⟨h1, h2⟩ := hb hs r b hrb
    rw [State.entry_setEntry_of_ne _ (Ne.symm h1), State.entry_setEntry_of_ne _ (Ne.symm h2)]
    exact hs r b hrb

/-- No robot is bound to an entry that is not LOADED. -/
theorem unbound_of_entry {s : State} {i : WinIdx} (h : ∀ w, s.entry i ≠ .loaded w) (hs : s.RobotsRight) :
    ∀ r b, s.bound? r = some b → b.bank ≠ i ∧ b.feed ≠ i := by
  intro r b hr
  obtain ⟨-, ⟨w, e, x, ha, hb, hw, -⟩, v, p, hv, -⟩ := hs r b hr
  exact ⟨fun e => h w (e ▸ hw), fun e => h v (e ▸ hv)⟩

theorem setSlot_holds (i : WinIdx) (a : Option Slot) (s : State) : Holds s (s.setSlot i a) :=
  ⟨rfl, id, serviceOnly_of_same rfl rfl rfl rfl rfl, id, id, id, id, robotsRight_of_shape (.refl _) rfl⟩

theorem setSlot_keeps (i : WinIdx) (a : Option Slot) (s : State) (h : a.isSome = (s.slot? i).isSome) :
    Keeps s (s.setSlot i a) := by
  refine keeps_feeds s _ fun j => ?_
  show ((s.setSlot i a).slot? j).isSome = _
  by_cases hj : i = j
  · subst hj
    rw [State.slot_setSlot_self, h]
  · rw [State.slot_setSlot_of_ne _ hj]

/-- Nothing that rests on a command is read from the entries' contents, the slots, the clock or the rings. -/
theorem rests_of_same {s t : State} (h : s.Rests) (hp : s.path.Adds t.path) (hd : ∀ i o n, t.entry i ≠ .draining o n)
    (hb : t.robots = s.robots) (hv : t.svc = s.svc) : t.Rests where
  distinct := (hp.names h.distinct h.names).1
  names := (hp.names h.distinct h.names).2
  fetches := hp.fetches.trans h.fetches
  drains := hd
  unbinds r hr := h.unbinds r (by unfold State.unbinds State.bound? at *; rw [hb] at hr; exact hr)
  consent := by rw [hv]; exact h.consent
  claim := by rw [hv]; exact h.claim

theorem rests_setEntry {s : State} (h : s.Rests) (i : WinIdx) (e : WinState) (he : ∀ o n, e ≠ .draining o n) :
    (s.setEntry i e).Rests := by
  refine rests_of_same h (.refl _) (fun j o n hx => ?_) rfl rfl
  by_cases hj : i = j
  · subst hj
    rw [State.entry_setEntry_self] at hx
    exact he o n hx
  · rw [State.entry_setEntry_of_ne _ hj] at hx
    exact h.drains j o n hx

theorem rests_setSlot {s : State} (h : s.Rests) (i : WinIdx) (a : Option Slot) : (s.setSlot i a).Rests :=
  rests_of_same h (.refl _) h.drains rfl rfl

theorem rests_setClk {s : State} (h : s.Rests) (c : Clock) : (s.setClk c).Rests :=
  rests_of_same h (.refl _) h.drains rfl rfl

/-! ## A source vanishes -/

theorem setClockStateAt_calm (t : Nat) (n : ClockState) (c : ClockCause) (s : State) : Calm s (setClockStateAt t n c s) := by
  unfold setClockStateAt
  split
  · exact .refl s
  · dsimp only
    exact (noteStatus_calm s {}).trans (postNoticeAt_calm _ _ _)

theorem sourceEffect_calm (t : Nat) (s : State) : Calm s (sourceEffect t s) := by
  unfold sourceEffect
  split
  · exact setClockStateAt_calm _ _ _ s
  · exact setClockStateAt_calm _ _ _ s
  · exact {}
  · exact .refl s

theorem reselect_calm (s : State) : Calm s (reselect s) := by
  unfold reselect reselectAt
  dsimp only
  split
  · exact .refl s
  · have h := Calm.trans (s := s) (t := s.setClk { s.clk with selected := s.clk.best.map (·.1) }) {}
      (postNoticeAt_calm s.time (.sourceChange s.clk.selected (s.clk.best.map (·.1)) (s.clk.best.map (·.2))) _)
    split
    · exact h.trans (sourceEffect_calm _ _)
    · exact h

theorem vanishSource_rests {s : State} (h : s.Rests) (i : WinIdx) : (vanishSource i s).Rests := by
  unfold vanishSource
  split
  · exact (reselect_calm _).rests (rests_setClk h _)
  · exact h

theorem createSource_rests {s : State} (h : s.Rests) (i : WinIdx) : (createSource i s).Rests := by
  unfold createSource
  dsimp only
  split
  · exact rests_setClk h _
  · split
    · exact rests_setClk h _
    · exact h

theorem ceaseWindow_rests {s : State} (h : s.Rests) (i : WinIdx) (old : Window) : (ceaseWindow i old s).Rests := by
  unfold ceaseWindow
  split
  · exact vanishSource_rests h i
  · exact h

theorem applyWindow_rests {s : State} (h : s.Rests) (i : WinIdx) (w : Window) : (applyWindow i w s).Rests := by
  unfold applyWindow
  dsimp only
  have h' := rests_setSlot (rests_setEntry h i (.loaded w) (by nofun)) i (w.feedKind?.map fun _ => .empty)
  split
  · exact createSource_rests h' i
  · exact h'

/-! ## Applying contents -/

theorem ceaseWindow_holds (i : WinIdx) (old : Window) (s : State) : Holds s (ceaseWindow i old s) := by
  unfold ceaseWindow
  split
  · exact vanishSource_holds _ s
  · exact .refl s

theorem applyWindow_holds (i : WinIdx) (w : Window) (s : State) (hr : s.running = true)
    (hw : w.role.authority? ≠ some .service) (he : ∀ w, s.entry i ≠ .loaded w) : Holds s (applyWindow i w s) := by
  unfold applyWindow
  dsimp only
  have h := (setEntry_holds i (.loaded w) s hr (fun v hv => by cases hv; exact hw) (fun o n hn => by cases hn)
    (unbound_of_entry he)).trans (setSlot_holds i (w.feedKind?.map fun _ => .empty) _)
  split
  · exact h.trans (createSource_holds _ _)
  · exact h

theorem applies_loaded {s : State} {i : WinIdx} {w v : Window} (h : s.entry i = .loaded w) : s.applies i v ↔ v = w := by
  unfold State.applies
  rw [h]
  constructor
  · rintro (h | ⟨n, h⟩)
    · cases h
      rfl
    · cases h
  · rintro rfl
    exact .inl rfl

/-- Contents that may stand apply at an empty entry (R38, R43, R75). -/
theorem applyWindow_table {s : State} {i : WinIdx} {w : Window} (h : s.TableRight) (he : s.entry i = .empty)
    (ha : s.Admits i w) (hr : s.RoomFor i w) (hd : ∀ j o n, s.entry j ≠ .draining o n)
    (run : s.pins.powerGood = true → s.pins.cabinetReset = true → False) : (applyWindow i w s).TableRight := by
  have hserved : ¬ s.served i := fun hx => by
    obtain ⟨-, -, -, -, -, hf, -⟩ := h
    obtain ⟨v, hv, -⟩ := (hf i).1 hx
    rcases hv with hv | ⟨n, hv⟩ <;> rw [he] at hv <;> cases hv
  -- what the entry and the slot become, whatever the clock does
  have key : ∀ c : Clock, (∀ j, j ≠ i → ((((s.setEntry i (.loaded w)).setSlot i (w.feedKind?.map fun _ => .empty)).setClk c).served j
        ↔ s.served j)) →
      ((((s.setEntry i (.loaded w)).setSlot i (w.feedKind?.map fun _ => .empty)).setClk c).served i
        ↔ w.feedKind? = some .time) →
      (∀ j, ¬ (c.place0.window = some j ∧ c.place1.window = some j)) →
      (((s.setEntry i (.loaded w)).setSlot i (w.feedKind?.map fun _ => .empty)).setClk c).TableRight := by
    intro c c1 c2 c3
    have hent : (((s.setEntry i (.loaded w)).setSlot i (w.feedKind?.map fun _ => .empty)).setClk c).entry i = .loaded w :=
      State.entry_setEntry_self ..
    have happ : ∀ v, (((s.setEntry i (.loaded w)).setSlot i (w.feedKind?.map fun _ => .empty)).setClk c).applies i v ↔ v = w :=
      fun v => applies_loaded hent
    have hwill : ∀ v, (((s.setEntry i (.loaded w)).setSlot i (w.feedKind?.map fun _ => .empty)).setClk c).willApply i v → v = w := by
      rintro v (hv | ⟨o, hv⟩)
      · rw [hent] at hv
        cases hv
        rfl
      · rw [hent] at hv
        cases hv
    refine tableRight_entered (i := i) h (fun j hj => State.entry_setEntry_of_ne _ (Ne.symm hj) _) (fun v hv => .inr ?_)
      (fun v hv => .inr ?_) (fun j hj => ?_) ?_ c1 ?_ c3 rfl run
    · rcases hv with hv | hv
      · rw [(happ v).1 hv]
        exact ha
      · rw [hwill v hv]
        exact ha
    · rw [hwill v hv]
      exact hr
    · exact congrArg Option.isSome (State.slot_setSlot_of_ne _ (Ne.symm hj) _)
    · have hslot : (((s.setEntry i (.loaded w)).setSlot i (w.feedKind?.map fun _ => .empty)).setClk c).slot? i
          = w.feedKind?.map fun _ => .empty := State.slot_setSlot_self ..
      rw [hslot]
      constructor
      · rintro ⟨a, hx⟩
        rw [Option.map_eq_some_iff] at hx
        obtain ⟨k, hk, -⟩ := hx
        exact ⟨w, k, (happ w).2 rfl, hk⟩
      · rintro ⟨v, k, hv, hk⟩
        rw [(happ v).1 hv] at hk
        exact ⟨.empty, by rw [hk]; rfl⟩
    · rw [c2]
      constructor
      · intro hx
        exact ⟨w, (happ w).2 rfl, hx⟩
      · rintro ⟨v, hv, hk⟩
        rw [(happ v).1 hv] at hk
        exact hk
  obtain ⟨-, -, -, -, -, hf, hz⟩ := h
  unfold applyWindow
  dsimp only
  split
  · rename_i ht
    unfold createSource
    dsimp only
    split
    · rename_i h0
      have h0' : s.clk.place0.window = none := by simpa using h0
      have h1 : s.clk.place1.window ≠ some i := fun e => hserved (.inr e)
      refine key _ (fun j hj => ?_) ⟨fun _ => ht, fun _ => .inl rfl⟩ fun j hj => ?_
      · unfold State.served
        rw [h0']
        simp [State.setClk, State.setSlot, State.setEntry, Ne.symm hj]
      · obtain ⟨h2, h3⟩ := hj
        cases h2
        exact h1 h3
    · rename_i h0
      split
      · rename_i h1
        have h1' : s.clk.place1.window = none := by simpa using h1
        have h0' : s.clk.place0.window ≠ some i := fun e => hserved (.inl e)
        refine key _ (fun j hj => ?_) ⟨fun _ => ht, fun _ => .inr rfl⟩ fun j hj => ?_
        · unfold State.served
          rw [h1']
          simp [State.setClk, State.setSlot, State.setEntry, Ne.symm hj]
        · obtain ⟨h2, h3⟩ := hj
          cases h3
          exact h0' h2
      · -- both places are taken: two other TIME feeds are LOADED
        exfalso
        rename_i h1
        obtain ⟨j0, hj0⟩ := Option.ne_none_iff_exists'.1 (fun e : s.clk.place0.window = none => h0 (by
          show s.clk.place0.window.isNone = true
          rw [e]
          rfl))
        obtain ⟨j1, hj1⟩ := Option.ne_none_iff_exists'.1 (fun e : s.clk.place1.window = none => h1 (by
          show s.clk.place1.window.isNone = true
          rw [e]
          rfl))
        have hwill : ∀ j, s.served j → j ≠ i ∧ ∃ v, s.willApply j v ∧ v.feedKind? = some .time := by
          intro j hj
          obtain ⟨v, hv, hk⟩ := (hf j).1 hj
          refine ⟨fun e => hserved (e ▸ hj), v, ?_, hk⟩
          rcases hv with hv | ⟨n, hv⟩
          · exact .inl hv
          · exact absurd hv (hd j v n)
        have := hr .time 2 ht (.inl ⟨rfl, rfl⟩) [j0, j1] (by
            simp only [List.nodup_cons, List.mem_singleton, List.not_mem_nil, not_false_eq_true, List.nodup_nil, and_true]
            rintro rfl
            exact hz j0 ⟨hj0, hj1⟩) fun j hj => by
          rcases List.mem_cons.1 hj with rfl | hj
          · exact hwill j (.inl hj0)
          · rw [List.mem_singleton] at hj
            subst hj
            exact hwill j (.inr hj1)
        simp at this
  · rename_i ht
    exact key s.clk (fun j _ => Iff.rfl) ⟨fun hx => absurd hx hserved, fun hx => absurd hx ht⟩ hz

/-! ## The end of a drain -/

/-- Old contents cease to apply (R40, R75): the entry is empty, without a slot, and a TIME feed's source has vanished. -/
theorem ceaseWindow_table {s : State} {i : WinIdx} {old : Window} {n : Option Window} (h : s.TableRight)
    (he : s.entry i = .draining old n) (run : s.pins.powerGood = true → s.pins.cabinetReset = true → False) :
    (ceaseWindow i old ((s.setEntry i .empty).setSlot i none)).TableRight := by
  have key : ∀ c : Clock, (∀ j, j ≠ i → ((((s.setEntry i .empty).setSlot i none).setClk c).served j ↔ s.served j)) →
      ¬ (((s.setEntry i .empty).setSlot i none).setClk c).served i →
      (∀ j, ¬ (c.place0.window = some j ∧ c.place1.window = some j)) →
      (((s.setEntry i .empty).setSlot i none).setClk c).TableRight := by
    intro c c1 c2 c3
    have hent : (((s.setEntry i .empty).setSlot i none).setClk c).entry i = .empty := State.entry_setEntry_self ..
    have hno : ∀ v, ¬ (((s.setEntry i .empty).setSlot i none).setClk c).applies i v := by
      rintro v (hv | ⟨o, hv⟩) <;> rw [hent] at hv <;> cases hv
    have hno' : ∀ v, ¬ (((s.setEntry i .empty).setSlot i none).setClk c).willApply i v := by
      rintro v (hv | ⟨o, hv⟩) <;> rw [hent] at hv <;> cases hv
    refine tableRight_entered (i := i) h (fun j hj => State.entry_setEntry_of_ne _ (Ne.symm hj) _)
      (fun v hv => (hv.elim (hno v) (hno' v)).elim) (fun v hv => absurd hv (hno' v))
      (fun j hj => congrArg Option.isSome (State.slot_setSlot_of_ne _ (Ne.symm hj) _)) ?_ c1 ?_ c3 rfl run
    · have hslot : (((s.setEntry i .empty).setSlot i none).setClk c).slot? i = none := State.slot_setSlot_self ..
      rw [hslot]
      exact ⟨(fun ⟨a, hx⟩ => by cases hx), (fun ⟨v, k, hv, _⟩ => absurd hv (hno v))⟩
    · exact ⟨fun hx => absurd hx c2, fun ⟨v, hv, _⟩ => absurd hv (hno v)⟩
  obtain ⟨-, -, -, -, -, hf, hz⟩ := h
  have hold : s.served i ↔ old.feedKind? = some .time := by
    refine (hf i).trans ⟨?_, fun hk => ⟨old, .inr ⟨n, he⟩, hk⟩⟩
    rintro ⟨v, hv | ⟨m, hv⟩, hk⟩ <;> rw [he] at hv <;> cases hv
    exact hk
  unfold ceaseWindow
  split
  · rename_i ht
    have hs := hold.2 ht
    unfold vanishSource
    have hp : ((s.setEntry i .empty).setSlot i none).clk = s.clk := rfl
    rw [hp]
    unfold Clock.placeOf?
    by_cases h0 : s.clk.place0.window = some i
    · rw [if_pos h0]
      have h1 : s.clk.place1.window ≠ some i := fun e => hz i ⟨h0, e⟩
      refine (reselect_calm _).table (key _ (fun j hj => ?_) (fun hx => ?_) fun j hj => ?_)
      · unfold State.served
        rw [h0]
        simp [State.setClk, State.setSlot, State.setEntry, Clock.setPlace, Place.vacant, Ne.symm hj]
      · rcases hx with hx | hx
        · cases hx
        · exact h1 hx
      · cases hj.1
    · rw [if_neg h0]
      have h1 : s.clk.place1.window = some i := hs.resolve_left h0
      rw [if_pos h1]
      refine (reselect_calm _).table (key _ (fun j hj => ?_) (fun hx => ?_) fun j hj => ?_)
      · unfold State.served
        rw [h1]
        simp [State.setClk, State.setSlot, State.setEntry, Clock.setPlace, Place.vacant, Ne.symm hj]
      · rcases hx with hx | hx
        · exact h0 hx
        · cases hx
      · cases hj.2
  · rename_i ht
    exact key s.clk (fun j _ => Iff.rfl) (fun hx => ht (hold.1 hx)) hz

/-- Contents that an entry has may stand beside what the others contain, and have room. -/
theorem admits_of_contains {s t : State} {i : WinIdx} {w : Window} (h : s.TableRight) (hw : s.willApply i w)
    (ho : ∀ j, j ≠ i → (t.entry j).shape = (s.entry j).shape) (hs : t.pins.strap = s.pins.strap) :
    t.Admits i w ∧ t.RoomFor i w := by
  obtain ⟨⟨ha, -⟩, hf, hd, hk, -⟩ := h
  have one : ∀ j, j ≠ i → ∀ v, t.contains j v → ∃ x, s.contains j x ∧ x.shape = v.shape := by
    intro j hj v hv
    -- an auxiliary pair of states that differ nowhere else
    have hsame : State.SameShape (s.setEntry i .empty) (t.setEntry i .empty) := by
      intro k
      by_cases hki : i = k
      · subst hki
        rw [State.entry_setEntry_self, State.entry_setEntry_self]
      · rw [State.entry_setEntry_of_ne _ hki, State.entry_setEntry_of_ne _ hki]
        exact ho k (Ne.symm hki)
    have hv' : (t.setEntry i .empty).contains j v := by
      unfold State.contains State.applies State.willApply at *
      rw [State.entry_setEntry_of_ne _ (Ne.symm hj)]
      exact hv
    obtain ⟨x, hx, hxs⟩ := hsame.contains hv'
    refine ⟨x, ?_, hxs⟩
    unfold State.contains State.applies State.willApply at *
    rw [State.entry_setEntry_of_ne _ (Ne.symm hj)] at hx
    exact hx
  have will : ∀ j, j ≠ i → ∀ v, t.willApply j v → ∃ x, s.willApply j x ∧ x.shape = v.shape := by
    intro j hj v hv
    have hsame : State.SameShape (s.setEntry i .empty) (t.setEntry i .empty) := by
      intro k
      by_cases hki : i = k
      · subst hki
        rw [State.entry_setEntry_self, State.entry_setEntry_self]
      · rw [State.entry_setEntry_of_ne _ hki, State.entry_setEntry_of_ne _ hki]
        exact ho k (Ne.symm hki)
    have hv' : (t.setEntry i .empty).willApply j v := by
      unfold State.willApply at *
      rw [State.entry_setEntry_of_ne _ (Ne.symm hj)]
      exact hv
    obtain ⟨x, hx, hxs⟩ := hsame.willApply hv'
    refine ⟨x, ?_, hxs⟩
    unfold State.willApply at *
    rw [State.entry_setEntry_of_ne _ (Ne.symm hj)] at hx
    exact hx
  have hc : s.contains i w := .inr hw
  refine ⟨⟨(hf i w hc).1, (hf i w hc).2, fun a hx har => ha i w hc a hx ?_, fun j v hj hv a => ?_⟩, fun k limit hwk hl l hn hm => ?_⟩
  · unfold State.areaHas State.areaBase at *
    rw [hs] at har
    exact har
  · obtain ⟨x, hx, hxs⟩ := one j hj v hv
    have h1 := hd i j w x (Ne.symm hj) hc hx a
    have h2 := hd j i x w hj hx hc a
    rw [rangeHas_of_shape hxs, halfHas_of_shape hxs] at h1
    rw [halfHas_of_shape hxs] at h2
    exact ⟨h1, h2⟩
  · have := hk k limit hl (i :: l) (List.nodup_cons.2 ⟨fun hi => (hm i hi).1 rfl, hn⟩) fun j hj => by
      rcases List.mem_cons.1 hj with rfl | hj
      · exact ⟨w, hw, hwk⟩
      · obtain ⟨hji, v, hv, hvk⟩ := hm j hj
        obtain ⟨x, hx, hxs⟩ := will j hji v hv
        exact ⟨x, hx, (feedKind_of_shape hxs).trans hvk⟩
    rw [List.length_cons] at this
    omega

theorem ceaseWindow_shape (i : WinIdx) (old : Window) (s : State) : s.SameShape (ceaseWindow i old s) := by
  unfold ceaseWindow vanishSource
  split
  · split
    · exact (reselect_calm (s.setClk _)).shape
    · exact .refl s
  · exact .refl s

theorem reselect_pins (s : State) : (reselect s).pins = s.pins := by
  obtain ⟨p, r, d, a, b, c, h⟩ := reselectAt_touches s.time s
  unfold reselect
  rw [h]

theorem ceaseWindow_pins (i : WinIdx) (old : Window) (s : State) : (ceaseWindow i old s).pins = s.pins := by
  unfold ceaseWindow vanishSource
  split
  · split
    · exact reselect_pins _
    · rfl
  · rfl


/-- `Holds`, where the service invariant is kept as far as `p` holds: a drain puts contents into the table that the invariant
of an earlier state speaks of. -/
structure HoldsIf (p : Prop) (s t : State) : Prop where
  always    : p → Holds s t
  pending   : t.pending = s.pending
  queues    : s.QueuesBounded → t.QueuesBounded
  rate      : s.RateWithinLimit → t.RateWithinLimit
  attention : s.AttentionRight → t.AttentionRight
  rings     : s.RingsHeld → t.RingsHeld
  track     : s.TrackingRight → t.TrackingRight
  robots    : s.RobotsRight → t.RobotsRight

theorem Holds.if {s t : State} (h : Holds s t) (p : Prop) : HoldsIf p s t :=
  ⟨fun _ => h, h.pending, h.queues, h.rate, h.attention, h.rings, h.track, h.robots⟩

theorem HoldsIf.trans {p : Prop} {s t u : State} (h : HoldsIf p s t) (h' : HoldsIf p t u) : HoldsIf p s u :=
  ⟨fun x => (h.1 x).trans (h'.1 x), h'.2.trans h.2, fun x => h'.3 (h.3 x), fun x => h'.4 (h.4 x), fun x => h'.5 (h.5 x),
    fun x => h'.6 (h.6 x), fun x => h'.7 (h.7 x), fun x => h'.8 (h.8 x)⟩

theorem HoldsIf.holds {p : Prop} {s t : State} (h : HoldsIf p s t) (hp : s.ServiceOnlyGranted → p) : Holds s t :=
  ⟨h.pending, h.queues, fun x => (h.always (hp x)).service x, h.rate, h.attention, h.rings, h.track, h.robots⟩

theorem applyWindow_holdsIf (i : WinIdx) (w : Window) (s : State) (hr : s.running = true) (he : ∀ w, s.entry i ≠ .loaded w) :
    HoldsIf (w.role.authority? ≠ some .service) s (applyWindow i w s) := by
  have h0 : HoldsIf (w.role.authority? ≠ some .service) s (s.setEntry i (.loaded w)) :=
    ⟨fun hw => setEntry_holds i _ s hr (fun v hv => by cases hv; exact hw) (fun o n hn => by cases hn) (unbound_of_entry he),
      rfl, id, id, id, id, id, fun hs r b hrb => by
        obtain ⟨h1, h2⟩ := unbound_of_entry he hs r b hrb
        rw [State.entry_setEntry_of_ne _ (Ne.symm h1), State.entry_setEntry_of_ne _ (Ne.symm h2)]
        exact hs r b hrb⟩
  unfold applyWindow
  dsimp only
  have h := h0.trans ((setSlot_holds i (w.feedKind?.map fun _ => .empty) _).if _)
  split
  · exact h.trans ((createSource_holds _ _).if _)
  · exact h

theorem emptied_holds (i : WinIdx) (old : Window) (n : Option Window) (s : State) (hr : s.running = true)
    (he : s.entry i = .draining old n) : Holds s (ceaseWindow i old ((s.setEntry i .empty).setSlot i none)) :=
  (ceaseWindow_holds _ _ _).after ((setSlot_holds _ _ _).after (setEntry_holds i .empty s hr (fun w hw => by cases hw)
    (fun o n hn => by cases hn) (unbound_of_entry fun w hw => by rw [he] at hw; cases hw)))

theorem ceased_empty (i : WinIdx) (old : Window) (s : State) :
    (ceaseWindow i old ((s.setEntry i .empty).setSlot i none)).entry i = .empty :=
  (ceaseWindow_shape i old _).empty (State.entry_setEntry_self ..)

theorem finishDrain_holds (i : WinIdx) (s : State) (hr : s.running = true) : Holds s (finishDrain i s) := by
  unfold finishDrain
  split
  · rename_i old he
    exact (complete_holds _ _ _).after (emptied_holds i old none s hr he)
  · rename_i old new he
    have h1 := emptied_holds i old (some new) s hr he
    have h2 := applyWindow_holdsIf i new (ceaseWindow i old ((s.setEntry i .empty).setSlot i none)) (by
      unfold State.running
      rw [ceaseWindow_pins]
      exact hr) (fun w hw => by rw [ceased_empty] at hw; cases hw)
    exact (complete_holds _ _ _).after (((h1.if _).trans h2).holds fun hs => hs.2.1 i old new he)
  · exact .refl s

/-- The end of a drain, where no other entry drains and nothing else waits on a command (R40). -/
theorem finishDrain_ends {s : State} {i : WinIdx} {old : Window} {n : Option Window} (h : s.TableRight)
    (he : s.entry i = .draining old n) (hr : ((s.setEntry i .empty).setSlot i none).Rests)
    (run : s.pins.powerGood = true → s.pins.cabinetReset = true → False) :
    (finishDrain i s).Ruled ∧ (finishDrain i s).cmd.phase = .idle := by
  have ht := ceaseWindow_table h he run
  have hrest := ceaseWindow_rests hr i old
  have hpins := ceaseWindow_pins i old ((s.setEntry i .empty).setSlot i none)
  unfold finishDrain
  rw [he]
  cases n with
  | none => exact ⟨⟨complete_table _ _ ht, complete_commands _ _ hrest⟩, rfl⟩
  | some new =>
    dsimp only
    obtain ⟨ha, hroom⟩ := admits_of_contains (t := ceaseWindow i old ((s.setEntry i .empty).setSlot i none)) h
      (.inr ⟨old, he⟩) (fun j hj => (ceaseWindow_shape i old _ j).trans
        (congrArg WinState.shape (State.entry_setEntry_of_ne _ (Ne.symm hj) _))) (by rw [hpins]; rfl)
    have hw := applyWindow_table ht (ceased_empty i old s) ha hroom hrest.drains (by rw [hpins]; exact run)
    exact ⟨⟨complete_table _ _ hw, complete_commands _ _ (applyWindow_rests hrest i new)⟩, rfl⟩

/-- A drain begins, and may end at once (R39, R40). -/
theorem startDrain_runs (i : WinIdx) (old : Window) (new : Option Window) (s : State) (hr : s.running = true)
    (he : s.Rests → s.entry i = .loaded old) (hn : ∀ n, new = some n → n.role.authority? ≠ some .service) (hb : ¬ s.boundAt i)
    (hw : s.Rests → ∀ w, new = some w → s.Admits i w ∧ s.RoomFor i w) : Runs s (startDrain i old new s) := by
  unfold startDrain
  dsimp only
  generalize ha : (((s.setEntry i (.draining old new)).slot? i).map fun _ => Slot.empty) = a
  have has : a.isSome = (s.slot? i).isSome := by
    rw [← ha, Option.isSome_map]
    rfl
  have hh : Holds s ((s.setEntry i (.draining old new)).setSlot i a) :=
    (setEntry_holds i (.draining old new) s hr (fun w hw => by cases hw) (fun o n hx => by
      cases hx
      exact hn n rfl) (fun _ r b hrb => ⟨fun e => hb ⟨r, b, hrb, .inl e⟩, fun e => hb ⟨r, b, hrb, .inr e⟩⟩)).trans
      (setSlot_holds i a _)
  have hent : ((s.setEntry i (.draining old new)).setSlot i a).entry i = .draining old new := State.entry_setEntry_self ..
  have hoth : ∀ j, j ≠ i → ((s.setEntry i (.draining old new)).setSlot i a).entry j = s.entry j :=
    fun j hj => State.entry_setEntry_of_ne _ (Ne.symm hj) _
  have htab : s.Ruled → s.cmd.phase = .executing .begun → ((s.setEntry i (.draining old new)).setSlot i a).TableRight := by
    intro hs hp
    have hrest := rests_of_begun hs.2 hp
    have happ : ∀ v, ((s.setEntry i (.draining old new)).setSlot i a).applies i v ↔ s.applies i v := by
      intro v
      rw [applies_loaded (he hrest)]
      unfold State.applies
      rw [hent]
      constructor
      · rintro (hx | ⟨m, hx⟩) <;> cases hx
        rfl
      · rintro rfl
        exact .inr ⟨new, rfl⟩
    have hwill : ∀ v, ((s.setEntry i (.draining old new)).setSlot i a).willApply i v → new = some v := by
      rintro v (hx | ⟨o, hx⟩)
      · rw [hent] at hx
        cases hx
      · rw [hent] at hx
        cases hx
        rfl
    have hmain := hs.1
    obtain ⟨-, -, -, -, hx, hy, hz⟩ := hs.1
    refine tableRight_entered (i := i) hmain hoth (fun v hv => ?_) (fun v hv => .inr (hw hrest v (hwill v hv)).2)
      (fun j hj => congrArg Option.isSome (State.slot_setSlot_of_ne _ (Ne.symm hj) _)) ?_ (fun j _ => Iff.rfl) ?_ hz rfl
      (runs_of_executing (s := s) hs.2 hp)
    · rcases hv with hv | hv
      · exact .inl (.inl ((happ v).1 hv))
      · exact .inr (hw hrest v (hwill v hv)).1
    · have hslot : ((s.setEntry i (.draining old new)).setSlot i a).slot? i = a := State.slot_setSlot_self ..
      rw [hslot, ← Option.isSome_iff_exists, has, Option.isSome_iff_exists, hx]
      simp only [happ]
    · simp only [happ]
      exact hy i
  split
  · refine ⟨hh.trans (finishDrain_holds i _ hr), fun hs hp => ?_⟩
    have hrest := rests_of_begun hs.2 hp
    have := finishDrain_ends (htab hs hp) hent (rests_of_same hrest (.refl _) (fun j o n hx => ?_) rfl rfl)
      (runs_of_executing (s := s) hs.2 hp)
    · exact ⟨this.1, by rw [this.2]; nofun⟩
    · by_cases hj : i = j
      · subst hj
        rw [show ((((s.setEntry i (.draining old new)).setSlot i a).setEntry i .empty).setSlot i none).entry i = .empty
          from State.entry_setEntry_self ..] at hx
        cases hx
      · rw [show ((((s.setEntry i (.draining old new)).setSlot i a).setEntry i .empty).setSlot i none).entry j
            = ((s.setEntry i (.draining old new)).setSlot i a).entry j from State.entry_setEntry_of_ne _ hj _,
          hoth j (Ne.symm hj)] at hx
        exact hrest.drains j o n hx
  · refine ⟨hh.trans (holds_cmd _ _), fun hs hp => ⟨⟨tableRight_of_same (fun _ => rfl) (fun _ => rfl) rfl rfl rfl rfl rfl
      (htab hs hp), ?_⟩, nofun⟩⟩
    have hrest := rests_of_begun hs.2 hp
    refine commandsHold_wait rfl hrest.distinct hrest.names hrest.fetches (fun j => ?_)
      (fun r => ⟨fun hx => absurd hx (hrest.unbinds r), nofun⟩)
      ⟨fun hx => absurd (hrest.consent.symm.trans hx) (by decide), nofun⟩
      (fun hx => absurd (hrest.consent.symm.trans hx) (by decide)) hrest.claim nofun nofun (runs_of_executing (s := s) hs.2 hp)
    constructor
    · rintro ⟨o, n, hx⟩
      by_cases hj : j = i
      · rw [hj]
      · exact absurd ((hoth j hj).symm.trans hx) (hrest.drains j o n)
    · intro hx
      injection hx with hx
      subst hx
      exact ⟨old, new, hent⟩

/-! ## WINDOW LOAD and WINDOW DROP -/

theorem loadWindow_role {p : LoadParams} {i : WinIdx} {w : Window} (h : loadWindow? p = some (i, w)) :
    w.role.authority? ≠ some .service := by
  unfold loadWindow? at h
  split at h
  · rename_i role _ hrole
    dsimp only at h
    split at h
    · cases h
      intro hs
      unfold loadRole? at hrole
      split at hrole
      · cases hrole
      · split at hrole
        · split at hrole
          · cases hrole
          · cases hrole
            cases hs
        · split at hrole
          · cases hrole
          · cases hrole
            cases hs
        · split at hrole
          · cases hrole
          · rw [Option.map_eq_some_iff] at hrole
            obtain ⟨r, -, rfl⟩ := hrole
            cases hs
        · split at hrole
          · cases hrole
          · rw [Option.map_eq_some_iff] at hrole
            obtain ⟨r, -, rfl⟩ := hrole
            cases hs
        · cases hrole
    · cases h
  · cases h

theorem loadRefusal_none {s : State} {i : WinIdx} {w : Window} (h : loadRefusal s i w = none) :
    ¬ s.boundAt i ∧ ¬ s.overlapsArea w ∧ ¬ s.overlapsHidden i w ∧ ¬ s.feedsFull i w := by
  obtain ⟨c1, c2, c3, c4, c5, -⟩ := loadRefusal_cases s i w
  by_cases h1 : s.boundAt i
  · rw [c1 h1] at h
    cases h
  by_cases h2 : s.busyAt i
  · rw [c2 h1 h2] at h
    cases h
  by_cases h3 : s.overlapsArea w
  · rw [c3 h1 h2 h3] at h
    cases h
  by_cases h4 : s.overlapsHidden i w
  · rw [c4 h1 h2 h3 h4] at h
    cases h
  by_cases h5 : s.feedsFull i w
  · rw [c5 h1 h2 h3 h4 h5] at h
    cases h
  exact ⟨h1, h3, h4, h5⟩

theorem WinState.contents_none {e : WinState} (h : e.contents? = none) : e = .empty := by
  cases e with
  | empty => rfl
  | loaded w => cases h
  | draining o n => cases h

/-- Where no entry drains, contents that an entry has are those of a LOADED entry. -/
theorem loaded_of_contents {s : State} {i : WinIdx} {old : Window} (h : (s.entry i).contents? = some old)
    (hd : ∀ j o n, s.entry j ≠ .draining o n) : s.entry i = .loaded old := by
  cases he : s.entry i with
  | empty => rw [he] at h; cases h
  | loaded w => rw [he] at h; cases h; rfl
  | draining o n => exact absurd he (hd i o n)

theorem windowLoadAct_runs (p : LoadParams) (s : State) (hr : s.running = true) : Runs s (windowLoadAct p s) := by
  unfold windowLoadAct
  split
  · exact complete_runs _ _ s
  · rename_i i w hw
    have hrole := loadWindow_role hw
    split
    · exact complete_runs _ _ s
    · rename_i hal
      split
      · exact complete_runs _ _ s
      · rename_i href
        obtain ⟨h1, h2, h3, h4⟩ := loadRefusal_none href
        have hm : ¬ w.misaligned := by rw [← aligned_iff]; simpa using hal
        have hadm : s.Rests → s.Admits i w ∧ s.RoomFor i w := fun hx =>
          ⟨admits_of_checks (loadWindow?_eq_some.1 hw) hm h2 h3 hx.drains, roomFor_of_checks h4 hx.drains⟩
        split
        · rename_i hc
          have he := WinState.contents_none hc
          refine ⟨(applyWindow_holds i w s hr hrole fun v hv => by rw [he] at hv; cases hv).trans (complete_holds _ _ _),
            fun hs hp => ?_⟩
          have hrest := rests_of_begun hs.2 hp
          exact ⟨⟨complete_table _ _ (applyWindow_table hs.1 he (hadm hrest).1 (hadm hrest).2 hrest.drains
            (runs_of_executing hs.2 hp)), complete_commands _ _ (applyWindow_rests hrest i w)⟩, nofun⟩
        · rename_i old hc
          exact startDrain_runs i old (some w) s hr (fun hx => loaded_of_contents hc hx.drains)
            (fun n hn => by cases hn; exact hrole) h1 fun hx v hv => by cases hv; exact hadm hx

theorem windowDropAct_runs (index : Byte) (s : State) (hr : s.running = true) : Runs s (windowDropAct index s) := by
  unfold windowDropAct
  split
  · exact complete_runs _ _ s
  · rename_i i _
    split
    · exact complete_runs _ _ s
    · rename_i old hc
      split
      · exact complete_runs _ _ s
      · rename_i href
        refine startDrain_runs i old none s hr (fun hx => loaded_of_contents hc hx.drains) nofun (fun hb => ?_) nofun
        rw [(entryRefusal_cases s i).1 hb] at href
        cases href

theorem drainEndAct_keeps (s : State) : Keeps s (drainEndAct s) := by
  unfold drainEndAct
  split
  · rename_i i hi
    split
    · rename_i h
      rw [Bool.and_eq_true] at h
      have hp : s.cmd.phase = .executing (.drain i) := by
        unfold drainIndex? at hi
        split at hi
        · cases hi
          assumption
        · cases hi
      have hends : s.Ruled → (finishDrain i s).Ruled ∧ (finishDrain i s).cmd.phase = .idle := by
        intro hs
        obtain ⟨c1, c2, c3, c4, c5, c6, -, c8, -⟩ := hs.2
        obtain ⟨old, new, he⟩ := (c4 i).2 hp
        rw [hp] at c3
        refine finishDrain_ends hs.1 he ⟨c1, c2, c3, fun j o n hx => ?_, fun r hx => ?_, ?_, c8⟩
          (runs_of_executing (s := s) hs.2 hp)
        · by_cases hj : i = j
          · subst hj
            rw [show ((s.setEntry i .empty).setSlot i none).entry i = .empty from State.entry_setEntry_self ..] at hx
            cases hx
          · rw [show ((s.setEntry i .empty).setSlot i none).entry j = s.entry j from State.entry_setEntry_of_ne _ hj _] at hx
            have := (c4 j).1 ⟨o, n, hx⟩
            rw [hp] at this
            cases this
            exact hj rfl
        · have := (c5 r).1 hx
          rw [hp] at this
          cases this
        · by_contra hx
          have := c6.1 (by simpa using hx)
          rw [hp] at this
          cases this
      refine ⟨finishDrain_holds _ s h.1, fun hs => (hends hs).1, ?_⟩
      unfold finishDrain
      split
      · exact ⟨nofun, fun hx => by rw [hp] at hx; cases hx⟩
      · exact ⟨nofun, fun hx => by rw [hp] at hx; cases hx⟩
      · exact Iff.rfl
    · exact .refl s
  · exact .refl s

/-! ## ROBOT BIND and ROBOT UNBIND (R94 to R96) -/

theorem copyReadAt_calm (r : RobotIdx) (o : Nat) (s : State) : Calm s (copyReadAt r o s) := by
  have h : ∀ k a n, k ≠ OwnKind.fetch → Calm s (ownRead k a n s) := fun k a n hk => { path := ownRead_adds k a n s hk }
  unfold copyReadAt
  split
  · split
    · dsimp only
      split
      · exact h _ _ _ nofun
      · exact .refl s
    · exact .refl s
  · exact .refl s

theorem startCopy_calm (r : RobotIdx) (s : State) : Calm s (startCopy r s) := by
  unfold startCopy
  refine Calm.trans ?_ (copyReadAt_calm r 8 _)
  unfold State.modifyRobot
  split
  · rename_i b hb
    exact setRobot_calm hb rfl
  · exact .refl s

/-- The copy of a bank in COPYING begins. -/
theorem startCopy_keeps (r : RobotIdx) (s : State) (h : ∀ b, s.bound? r = some b → b.publish = .copying) :
    Keeps s (startCopy r s) := by
  unfold startCopy
  refine Keeps.after (copyReadAt_keeps r 8 _) ?_
  unfold State.modifyRobot
  split
  · rename_i b hb
    refine setRobot_keeps hb ⟨fun hr => ?_, rfl, rfl, rfl⟩
    have := h b hb
    unfold Bound.Right at *
    simp_all
  · exact .refl s

theorem newBound_right (p : BindParams) {r : RobotIdx} {w f : WinIdx} {t : Tag} (s : State)
    (h : bindRange p = some (r, w, f, t)) : (newBound p w f t s).Right := by
  unfold bindRange at h
  split at h
  · split at h
    · rename_i hx
      cases h
      unfold Bound.Right newBound
      simp
      omega
    · cases h
  · cases h

theorem robotBindAct_runs (p : BindParams) (s : State) : Runs s (robotBindAct p s) := by
  unfold robotBindAct
  split
  · exact complete_runs _ _ s
  · rename_i r w f t hrange
    split
    · exact complete_runs _ _ s
    · rename_i hnb
      have hnone : s.bound? r = none := by simpa using hnb
      split
      · exact complete_runs _ _ s
      · rename_i hrole
        simp only [Bool.not_eq_true, Bool.not_eq_false', Bool.and_eq_true] at hrole
        obtain ⟨hbank, hfeed⟩ : s.bankCarries w r = true ∧ s.isFeed f .robot = true := by
          simpa using hrole
        have hbank' := (bankCarries_iff s w r).1 hbank
        dsimp only
        -- the bind, the bank word, the copy
        have k1 : Holds s (s.setRobot r (some (newBound p w f t s))) := setRobot_holds s r _ fun hs =>
          robotsRight_setRobot hs fun x hx => by
            cases hx
            refine ⟨newBound_right p s hrange, hbank', ?_⟩
            obtain ⟨v, hv, hk⟩ := (isFeed_iff s f .robot).1 hfeed
            obtain ⟨a, b, c, d, role⟩ := v
            cases role <;> simp [Window.feedKind?] at hk
            subst hk
            exact ⟨_, _, hv, rfl⟩
        have c1 : Calm s (s.setRobot r (some (newBound p w f t s))) := {
          unbinds := fun q => by
            by_cases hq : r = q
            · subst hq
              rw [unbinds_setRobot_self]
              unfold State.unbinds
              rw [hnone]
              simp [newBound]
            · exact unbinds_setRobot_of_ne hq _ }
        have k2 := Holds.calm k1 c1
        generalize hu : s.setRobot r (some (newBound p w f t s)) = u at *
        have k3 := writeBankWord_keeps (.bankBind r) w .a (bankWordBytes 0 0 false u.lowTime) u (by nofun)
        have k4 : Keeps _ (startCopy r (writeBankWord (.bankBind r) w .a (bankWordBytes 0 0 false u.lowTime) u)) :=
          startCopy_keeps r _ fun x hx => by
            unfold State.bound? at hx
            rw [writeBankWord_robots, ← hu] at hx
            have : some (newBound p w f t s) = some x := (State.bound_setRobot_self s r _).symm.trans hx
            cases this
            rfl
        split
        · exact (k2.trans (k3.trans k4)).completes _ _
        · rename_i hplace
          have k := k2.trans (k3.trans k4)
          refine ⟨k.toHolds.trans (holds_cmd _ _), fun hs hp => ?_⟩
          have hk := k.ruled hs
          have hpk := k.begun.2 hp
          refine ⟨⟨tableRight_of_same (fun _ => rfl) (fun _ => rfl) rfl rfl rfl rfl rfl hk.1,
            (rests_of_begun hk.2 hpk).waits (.bindJoin r) nofun nofun nofun (fun q hq => ?_) nofun
              (runs_of_executing hk.2 hpk)⟩, nofun⟩
          cases hq
          -- the bank word's write waits for a place
          have hpath : u.path = s.path := by rw [← hu]; rfl
          have hent : ∀ i, u.entry i = s.entry i := fun i => by rw [← hu]; rfl
          obtain ⟨v, e, x, ha, hb, hv, hrl⟩ := hbank'
          have hb? : ∃ b, u.bank? w = some b := by
            unfold State.bank? State.loaded?
            rw [hent, hv]
            dsimp only
            rw [hrl]
            exact ⟨_, rfl⟩
          obtain ⟨b, hb?⟩ := hb?
          have hwait : ∃ x, Waiter.txn x ∈ (writeBankWord (.bankBind r) w .a (bankWordBytes 0 0 false u.lowTime) u).path.waiting
              ∧ x.kind = .bankBind r := by
            unfold writeBankWord
            rw [hb?]
            dsimp only
            unfold ownWrite Path.enqueue
            rw [hpath, if_neg hplace]
            exact ⟨_, List.mem_append_right _ (List.mem_singleton.2 rfl), rfl⟩
          obtain ⟨y, hy, hyk⟩ := hwait
          exact ⟨y, (startCopy_calm r _).path.waiting y hy, hyk⟩

/-- A robot is unbound (R96). -/
theorem unbound_holds (r : RobotIdx) (s : State) : Holds s (s.setRobot r none) := by
  refine setRobot_holds s r none fun hs => robotsRight_setRobot hs ?_
  intro x hx
  cases hx

/-- Unbinding the one robot that may be unbinding leaves nothing that waits on a command. -/
theorem unbound_rests {s : State} {r : RobotIdx} (distinct : (s.path.unanswered.map OwnTxn.id).Nodup)
    (names : ∀ x ∈ s.path.unanswered, x.id < s.path.nextId)
    (fetches : (s.path.unanswered.filter fun x => decide (x.kind = .fetch)).length = 0)
    (drains : ∀ i o n, s.entry i ≠ .draining o n) (unbinds : ∀ q, s.unbinds q → q = r)
    (consent : s.svc.consentWaiting = false)
    (claim : (∃ c, s.svc.claim = some c) ↔ s.svc.state = .claimed ∨ s.svc.state = .granted ∨ s.svc.state = .returning) :
    (s.setRobot r none).Rests := by
  refine ⟨distinct, names, fetches, drains, fun q hq => ?_, consent, claim⟩
  by_cases h : r = q
  · subst h
    rw [unbinds_setRobot_self] at hq
    obtain ⟨x, hx, -⟩ := hq
    cases hx
  · rw [unbinds_setRobot_of_ne h] at hq
    exact h (unbinds q hq).symm

theorem robotUnbindAct_runs (robot : Byte) (s : State) : Runs s (robotUnbindAct robot s) := by
  unfold robotUnbindAct
  split
  · exact complete_runs _ _ s
  · rename_i r _
    split
    · exact complete_runs _ _ s
    · rename_i b hb
      split
      · exact complete_runs _ _ s
      · split
        · exact complete_runs _ _ s
        · dsimp only
          have k1 : Holds s (s.setRobot r (some { b with unbinding := true })) := setRobot_holds s r _ fun hs =>
            robotsRight_setRobot hs fun x hx => by
              cases hx
              obtain ⟨h1, h2⟩ := hs r b hb
              refine ⟨?_, h2⟩
              unfold Bound.Right at *
              exact h1
          have hunb : ∀ hrest : s.Rests, ∀ q, (s.setRobot r (some { b with unbinding := true })).unbinds q ↔ q = r := by
            intro hrest q
            by_cases hq : r = q
            · subst hq
              rw [unbinds_setRobot_self]
              simp
            · rw [unbinds_setRobot_of_ne hq]
              exact ⟨fun hx => absurd hx (hrest.unbinds q), fun e => absurd e.symm hq⟩
          split
          · refine ⟨k1.trans ((unbound_holds r _).trans (complete_holds _ _ _)), fun hs hp => ?_⟩
            have hrest := rests_of_begun hs.2 hp
            exact ⟨⟨complete_table _ _ (tableRight_of_same (fun _ => rfl) (fun _ => rfl) rfl rfl rfl rfl rfl hs.1),
              complete_commands _ _ (unbound_rests hrest.distinct hrest.names hrest.fetches hrest.drains
                (fun q hq => (hunb hrest q).1 hq) hrest.consent hrest.claim)⟩, nofun⟩
          · refine ⟨k1.trans (holds_cmd _ _), fun hs hp => ?_⟩
            have hrest := rests_of_begun hs.2 hp
            refine ⟨⟨tableRight_of_same (fun _ => rfl) (fun _ => rfl) rfl rfl rfl rfl rfl hs.1,
              commandsHold_wait rfl hrest.distinct hrest.names hrest.fetches
                (fun i => ⟨fun ⟨o, n, hx⟩ => absurd hx (hrest.drains i o n), nofun⟩)
                (fun q => (hunb hrest q).trans ⟨fun e => by rw [e], fun e => by injection e with e; exact e.symm⟩)
                ⟨fun hx => absurd (hrest.consent.symm.trans hx) (by decide), nofun⟩
                (fun hx => absurd (hrest.consent.symm.trans hx) (by decide)) hrest.claim nofun nofun
                (runs_of_executing (s := s) hs.2 hp)⟩, nofun⟩

theorem finishUnbind_keeps (r : RobotIdx) (s : State) (hp : s.cmd.phase = .executing (.unbind r)) :
    Keeps s (finishUnbind r s) := by
  refine ⟨(unbound_holds r s).trans (complete_holds _ _ _), fun hs => ?_, ?_⟩
  · obtain ⟨c1, c2, c3, c4, c5, c6, -, c8, -⟩ := hs.2
    rw [hp] at c3
    refine ⟨complete_table _ _ (tableRight_of_same (fun _ => rfl) (fun _ => rfl) rfl rfl rfl rfl rfl hs.1),
      complete_commands _ _ (unbound_rests c1 c2 c3 (fun i o n hx => ?_) (fun q hq => ?_) ?_ c8)⟩
    · have := (c4 i).1 ⟨o, n, hx⟩
      rw [hp] at this
      cases this
    · have := (c5 q).1 hq
      rw [hp] at this
      cases this
      rfl
    · by_contra hx
      have := c6.1 (by simpa using hx)
      rw [hp] at this
      cases this
  · rw [hp]
    exact ⟨nofun, nofun⟩

end Sys2Proof.Machine
end

