-- ==== Sys2Proof/Laws/KeepsEvents.lean ====
section
/-! SUPPORT. The window commands, the command ring, the feed assembler, the link, the memory port and the resets as moves
that keep the invariants. -/

namespace Sys2Proof.Machine
open Sys2Proof

/-- The move from `s` to `t`, both between commands, keeps each invariant. -/
structure Settles (s t : State) : Prop extends Holds s t where
  settled : s.Ruled → s.cmd.phase ≠ .executing .begun → t.Ruled ∧ t.cmd.phase ≠ .executing .begun

theorem Keeps.settles {s t : State} (h : Keeps s t) : Settles s t :=
  ⟨h.toHolds, fun hs hp => ⟨h.ruled hs, fun hx => hp (h.begun.1 hx)⟩⟩

theorem ite_runs {s t u : State} (c : Prop) [Decidable c] (h : Runs s t) (h' : Runs s u) :
    Runs s (if c then t else u) := by
  split
  · exact h
  · exact h'

/-! ## The command ring and reporting -/

theorem commandTailAct_keeps (v : Word) (s : State) : Keeps s (commandTailAct v s) := by
  unfold commandTailAct
  split
  · split
    · exact keeps_cmd s _
    · split
      · exact noteStatus_keeps (keeps_cmd s _)
      · exact .refl s
  · exact (takeFault_keeps _ _).after (noteStatus_keeps (keeps_cmd s _))

theorem policyEnforceAct_runs (s : State) : Runs s (policyEnforceAct s) := by
  have h : Keeps s { s with win := { s.win with policy := .enforcing } } :=
    .of rfl rfl id rfl rfl rfl rfl (.refl _) rfl rfl {}
  exact (noteStatus_keeps (b := s) h).completes _ _

theorem faultClearAct_runs (m o : Byte) (s : State) : Runs s (faultClearAct m o s) := by
  unfold faultClearAct
  split
  · exact complete_runs _ _ s
  · exact (noteStatus_keeps (b := s) (keeps_flt s _)).completes _ _

/-- Reporting takes new contents whose rings are held, and ATTENTION is brought to its level. -/
theorem levels_keeps (s : State) (r : Reporting) (hp : s.pins.powerGood = true)
    (hr : s.RingsHeld → State.RingsHeld { s with rep := r }) : Keeps s (State.refreshAttention { s with rep := r }) :=
  Holds.calm ⟨rfl, id, serviceOnly_of_same rfl rfl rfl rfl rfl, id, fun _ => by
    unfold State.AttentionRight State.refreshAttention
    dsimp only
    rw [hp, Bool.true_and], hr, id, robotsRight_of_shape (.refl _) rfl⟩ {}

theorem powerGood_of_running {s : State} (h : s.running = true) : s.pins.powerGood = true := by
  unfold State.running at h
  rw [Bool.and_eq_true] at h
  exact h.1

theorem reportingAct_runs (e m : Byte) (s : State) (hr : s.running = true) : Runs s (reportingAct e m s) := by
  unfold reportingAct
  split
  · exact complete_runs _ _ s
  · dsimp only
    refine Keeps.completes ?_ _ _
    obtain ⟨k, hk⟩ := noteStatus_touches s { s with rep := s.rep.configure (decide (e = 1)) (decide (m = 1)) }
    rw [hk]
    refine levels_keeps s _ (powerGood_of_running hr) fun h => ?_
    unfold State.RingsHeld Reporting.configure at *
    dsimp only
    split <;> exact h

theorem reportDropped_keeps (s : State) : Keeps s (reportDropped s) := by
  unfold reportDropped
  split
  · refine noteStatus_keeps (Keeps.after (keeps_rep _ _ ?_) (postNotice_keeps _ s))
    exact ⟨rfl, rfl, rfl, rfl, id, id⟩
  · exact .refl s

theorem reportDropped_calm (s : State) : Calm s (reportDropped s) := by
  unfold reportDropped
  split
  · exact noteStatus_calm _ ((postNotice_calm _ s).trans {})
  · exact .refl s

theorem noticeConsumedAct_keeps (v : Word) (s : State) (hr : s.running = true) : Keeps s (noticeConsumedAct v s) := by
  unfold noticeConsumedAct
  split
  · rename_i hv
    have hk := reportDropped_keeps { s with rep := { s.rep with consumed := v.toNat } }
    have hc := reportDropped_calm { s with rep := { s.rep with consumed := v.toNat } }
    refine Holds.calm ⟨hk.pending, fun x => hk.queues x, fun x => ?_, fun x => hk.rate x, fun _ => ?_, fun x => ?_,
      fun x => hk.track x, fun x => ?_⟩ (Calm.trans (t := { s with rep := { s.rep with consumed := v.toNat } }) {}
        (hc.trans {}))
    · exact serviceOnly_of_same rfl rfl rfl rfl rfl (hk.service (serviceOnly_of_same rfl rfl rfl rfl rfl x))
    · unfold State.AttentionRight State.refreshAttention
      dsimp only
      rw [hc.powerGood]
      dsimp only
      rw [powerGood_of_running hr, Bool.true_and]
    · refine hk.rings ⟨hv.2, ?_, x.2.2⟩
      have hx : s.rep.producer ≤ s.rep.consumed + 128 := x.2.1
      show s.rep.producer ≤ v.toNat + 128
      omega
    · exact robotsRight_of_shape (.refl _) rfl (hk.robots (robotsRight_of_shape (.refl _) rfl x))
  · exact .refl s

theorem decisionConsumedAct_keeps (v : Word) (s : State) : Keeps s (decisionConsumedAct v s) := by
  unfold decisionConsumedAct
  split
  · rename_i hv
    refine noteStatus_keeps (keeps_rep s _ ⟨rfl, rfl, rfl, rfl, id, fun h => ⟨hv.2, ?_⟩⟩)
    have hx : s.rep.decProducer ≤ s.rep.decConsumed + 512 := h.2
    show s.rep.decProducer ≤ v.toNat + 512
    omega
  · exact .refl s

theorem publishProducer_keeps (n : Nat) (s : State) (hp : s.pins.powerGood = true) : Keeps s (publishProducer n s) :=
  levels_keeps s _ hp id

theorem writePieces_keeps (b : List Byte) (os : List Nat) (s : State) : Keeps s (writePieces b os s) := by
  induction os generalizing s with
  | nil => exact .refl s
  | cons o os ih => exact (ownWrite_keeps _ _ _ s).trans (ih _)

/-- After the writes of a copy, the last of them waits for a place unless no unit does. -/
theorem writePieces_waiting (b : List Byte) (os : List Nat) (s : State) (h : os ≠ []) :
    (writePieces b os s).path.waiting = [] ∨ ∃ x, Waiter.txn x ∈ (writePieces b os s).path.waiting ∧ x.kind = .snapshot true := by
  induction os generalizing s with
  | nil => exact absurd rfl h
  | cons o os ih =>
    cases os with
    | nil =>
      show (ownWrite _ _ _ s).path.waiting = [] ∨ ∃ x, Waiter.txn x ∈ (ownWrite _ _ _ s).path.waiting ∧ x.kind = .snapshot true
      unfold ownWrite Path.enqueue
      split
      · rename_i hp
        exact .inl ((Path.hasPlace_iff _).1 hp).2
      · exact .inr ⟨_, List.mem_append_right _ (List.mem_singleton.2 rfl), rfl⟩
    | cons o' os => exact ih _ (by simp)

theorem pieceOffsets_ne_nil (k : SnapshotKind) : pieceOffsets (snapshotSize k) ≠ [] := by
  cases k <;> decide

theorem snapshotAct_runs (k : Byte) (s : State) : Runs s (snapshotAct k s) := by
  unfold snapshotAct
  split
  · exact complete_runs _ _ s
  · rename_i k _
    have h : Keeps s (writePieces (snapshotBytes k s) (pieceOffsets (snapshotSize k)) s.bumpOpen) :=
      (writePieces_keeps _ _ _).after (keeps_openCount s _)
    dsimp only
    split
    · exact h.completes _ _
    · rename_i hw
      refine ⟨h.toHolds.trans (holds_cmd _ _), fun hs hp => ?_⟩
      have hk := h.ruled hs
      have hpk := h.begun.2 hp
      refine ⟨⟨tableRight_of_same (fun _ => rfl) (fun _ => rfl) rfl rfl rfl rfl rfl hk.1,
        (rests_of_begun hk.2 hpk).waits .snapshotJoin nofun nofun nofun nofun (fun _ => ?_) (runs_of_executing hk.2 hpk)⟩, nofun⟩
      exact (writePieces_waiting _ _ _ (pieceOffsets_ne_nil k)).resolve_left (by simpa using hw)

/-- FENCE-DONE, if it is asked for, before the completion. -/
theorem fenceNotice_keeps (n : Bool) (s : State) :
    Keeps s (if n then postNotice (.fenceDone s.cmd.head.val) s else s) := by
  split
  · exact postNotice_keeps _ s
  · exact .refl s

theorem fenceAct_runs (n : Bool) (s : State) : Runs s (fenceAct n s) := by
  unfold fenceAct
  split
  · exact (fenceNotice_keeps n s).completes _ _
  · refine ⟨holds_cmd _ _, fun hs hp => ⟨⟨tableRight_of_same (fun _ => rfl) (fun _ => rfl) rfl rfl rfl rfl rfl hs.1,
      (rests_of_begun hs.2 hp).waits _ nofun nofun nofun nofun nofun (runs_of_executing hs.2 hp)⟩, nofun⟩⟩

theorem fenceCompleteAct_keeps (s : State) : Keeps s (fenceCompleteAct s) := by
  unfold fenceCompleteAct
  split
  · rename_i n hn
    split
    · have hp : ∃ ids m, s.cmd.phase = .executing (.fence ids m) := by
        unfold fenceReady? at hn
        split at hn
        · exact ⟨_, _, ‹_›⟩
        · cases hn
      obtain ⟨ids, m, hp⟩ := hp
      have hk := fenceNotice_keeps n s
      refine hk.finishes _ _ hp nofun fun hs => ?_
      have hrest : s.Rests := rests_of hs (by rw [hp]; nofun) (fun i => by rw [hp]; nofun) (fun r => by rw [hp]; nofun)
        (by rw [hp]; nofun)
      split
      · exact (postNotice_calm _ s).rests hrest
      · exact hrest
    · exact .refl s
  · exact .refl s

theorem holds_own (s : State) (p : Path) (h : s.path.OwnOnly p) : Holds s { s with path := p } :=
  ⟨rfl, fun x => ⟨h.bounded x.1, x.2.1, fun g => by unfold State.tagCount; dsimp only; rw [h.inflight]; exact x.2.2 g⟩,
    serviceOnly_of_same rfl rfl rfl rfl rfl, id, id, id, id, robotsRight_of_shape (.refl _) rfl⟩

/-- The fetch of the next command is generated where the command unit is idle (R164). -/
theorem fetchAct_keeps (s : State) (h : s.cmd.phase = .idle) (hr : s.running = true) : Keeps s (fetchAct s) := by
  refine ⟨(holds_cmd s { s.cmd with phase := .fetching }).trans (holds_own _ _ (ownRead_ownOnly .fetch _ _ _)), fun hs => ⟨?_, ?_⟩, ?_⟩
  · exact tableRight_of_same (fun _ => rfl) (fun _ => rfl) rfl rfl rfl rfl rfl hs.1
  · have hrest : s.Rests := rests_of hs.2 (by rw [h]; nofun) (fun i => by rw [h]; nofun) (fun r => by rw [h]; nofun)
      (by rw [h]; nofun)
    have hperm := unanswered_enqueue s.path
      (s.path.newTxn .fetch (s.areaBase + 0x1000 + 64 * s.cmd.head.val) 64 none)
    have hn : (fetchAct s).path.nextId = s.path.nextId + 1 := by
      show (s.path.enqueue _).nextId = _
      unfold Path.enqueue
      split <;> rfl
    have hnames := names_grow (n := s.path.nextId) hperm rfl hrest.distinct hrest.names
    refine ⟨hnames.1, by rw [hn]; exact hnames.2, ?_, fun i => ⟨fun ⟨o, n, hx⟩ => absurd hx (hrest.drains i o n), nofun⟩,
      fun r => ⟨fun hx => absurd hx (hrest.unbinds r), nofun⟩,
      ⟨fun hx => absurd (hrest.consent.symm.trans hx) (by decide), nofun⟩,
      fun hx => absurd (hrest.consent.symm.trans hx) (by decide), hrest.claim, nofun, nofun, fun p q => ?_⟩
    · have : (fetchAct s).path.unanswered = (s.path.enqueue
          (s.path.newTxn .fetch (s.areaBase + 0x1000 + 64 * s.cmd.head.val) 64 none)).unanswered := rfl
      rw [this, (hperm.filter _).length_eq, List.filter_cons, if_pos (by simp [Path.newTxn]), List.length_cons, hrest.fetches]
      rfl
    · unfold State.running at hr
      rw [show s.pins.powerGood = true from p, show s.pins.cabinetReset = true from q] at hr
      cases hr
  · rw [h]
    exact ⟨nofun, nofun⟩

theorem runCommand_runs (c : Command) (s : State) (hr : s.running = true) : Runs s (runCommand c s) := by
  cases c with
  | unknown code => exact complete_runs _ _ s
  | policyEnforce => exact policyEnforceAct_runs s
  | windowLoad p => exact windowLoadAct_runs p s hr
  | windowDrop i => exact windowDropAct_runs i s hr
  | robotBind p => exact robotBindAct_runs p s
  | robotUnbind r => exact robotUnbindAct_runs r s
  | trackSetup p => exact trackSetupAct_runs p s
  | trackClear => exact trackClearAct_runs s
  | clockSet t => exact clockSetAct_runs t s
  | clockTune p => exact clockTuneAct_runs p s
  | serviceSetup p => exact serviceSetupAct_runs p s
  | serviceConsent d q => exact serviceConsentAct_runs d q s
  | serviceRevoke => exact serviceRevokeAct_runs s
  | faultClear m o => exact faultClearAct_runs m o s
  | reporting e m => exact reportingAct_runs e m s hr
  | snapshot k => exact snapshotAct_runs k s
  | fence n => exact fenceAct_runs n s

/-! ## The path -/

/-- The path changes: the in-flight set holds no more of any tag, and an own queue within its places stays so. -/
theorem holds_path_of (s : State) (p : Path)
    (hi : ∀ g, (p.inflight.filter fun e => e.tag = g).length ≤ s.tagCount g)
    (ho : s.path.own.length ≤ Config.ownPlaces → p.own.length ≤ Config.ownPlaces) : Holds s { s with path := p } :=
  ⟨rfl, fun h => ⟨ho h.1, h.2.1, fun g => (hi g).trans (h.2.2 g)⟩, serviceOnly_of_same rfl rfl rfl rfl rfl, id, id, id, id,
    robotsRight_of_shape (.refl _) rfl⟩

theorem keeps_path_of (s : State) (p : Path)
    (hi : ∀ g, (p.inflight.filter fun e => e.tag = g).length ≤ s.tagCount g)
    (ho : s.path.own.length ≤ Config.ownPlaces → p.own.length ≤ Config.ownPlaces) (ha : s.path.Adds p) :
    Keeps s { s with path := p } := Holds.calm (holds_path_of s p hi ho) { path := ha }

/-- The path changes, but for its own queue, the line for a place and the names it gives. -/
theorem keeps_passing (s : State) (p : Path)
    (hi : ∀ g, (p.inflight.filter fun e => e.tag = g).length ≤ s.tagCount g) (ho : p.own = s.path.own := by rfl)
    (hw : p.waiting = s.path.waiting := by rfl) (hn : p.nextId = s.path.nextId := by rfl) : Keeps s { s with path := p } :=
  keeps_path_of s p hi (by rw [ho]; exact id) (.of_own ho hw hn.ge)

/-! ## The own queue -/

theorem dropOwn_holds (t : OwnTxn) (s : State) : Holds s (s.dropOwn t) :=
  holds_path_of s _ (fun _ => Nat.le_refl _) fun h => (List.length_filter_le _ _).trans h

/-- A list whose names differ is the transaction of a name and the rest. -/
theorem perm_drop {l : List OwnTxn} {t : OwnTxn} (hn : (l.map OwnTxn.id).Nodup) (ht : t ∈ l) :
    l.Perm (t :: l.filter fun x => decide (x.id ≠ t.id)) := by
  induction l with
  | nil => cases ht
  | cons x l ih =>
    rw [List.map_cons, List.nodup_cons] at hn
    by_cases hx : x = t
    · subst hx
      rw [List.filter_cons, if_neg (by simp)]
      have : l.filter (fun y => decide (y.id ≠ x.id)) = l := List.filter_eq_self.2 fun y hy => by
        rw [decide_eq_true_eq]
        intro e
        exact hn.1 (List.mem_map.2 ⟨y, hy, e⟩)
      rw [this]
    · have ht' : t ∈ l := (List.mem_cons.1 ht).resolve_left (Ne.symm hx)
      have hid : x.id ≠ t.id := fun e => hn.1 (List.mem_map.2 ⟨t, ht', e.symm⟩)
      rw [List.filter_cons, if_pos (by simpa using hid)]
      exact ((ih hn.2 ht').cons x).trans (List.Perm.swap t x _)

/-- A transaction of the own queue leaves it. -/
theorem unanswered_drop {p : Path} {t : OwnTxn} (hn : (p.unanswered.map OwnTxn.id).Nodup) (ht : t ∈ p.own) :
    p.unanswered.Perm (t :: (p.dropOwn t.id).unanswered) := by
  have ho : (p.own.map OwnTxn.id).Nodup := by
    refine hn.sublist ?_
    unfold Path.unanswered
    rw [List.map_append]
    exact List.sublist_append_left _ _
  exact (perm_drop ho ht).append_right _

theorem names_drop {p : Path} {t : OwnTxn} (hn : (p.unanswered.map OwnTxn.id).Nodup)
    (hl : ∀ x ∈ p.unanswered, x.id < p.nextId) (ht : t ∈ p.own) :
    ((p.dropOwn t.id).unanswered.map OwnTxn.id).Nodup ∧ ∀ x ∈ (p.dropOwn t.id).unanswered, x.id < (p.dropOwn t.id).nextId := by
  have hp := unanswered_drop hn ht
  constructor
  · have := (hp.map OwnTxn.id).nodup_iff.1 hn
    rw [List.map_cons, List.nodup_cons] at this
    exact this.2
  · intro x hx
    exact hl x (hp.mem_iff.2 (List.mem_cons_of_mem _ hx))

/-- Another own transaction than a fetch leaves the own queue. -/
theorem dropOwn_keeps (t : OwnTxn) (s : State) (ht : t ∈ s.path.own) (hk : t.kind ≠ .fetch) : Keeps s (s.dropOwn t) := by
  refine ⟨dropOwn_holds t s, fun hs => ⟨?_, ?_⟩, Iff.rfl⟩
  · exact tableRight_of_same (fun _ => rfl) (fun _ => rfl) rfl rfl rfl rfl rfl hs.1
  · obtain ⟨a, b, c, rest⟩ := hs.2
    obtain ⟨n1, n2⟩ := names_drop a b ht
    refine ⟨n1, n2, ?_, rest⟩
    have := ((unanswered_drop a ht).filter fun x => decide (x.kind = .fetch)).length_eq
    rw [List.filter_cons, if_neg (by simpa using hk)] at this
    exact this.symm.trans c

/-- The fetch leaves the own queue, and the command begins. -/
theorem begins_ruled {s : State} {t : OwnTxn} (hs : s.Ruled) (ht : t ∈ s.path.own) (hk : t.kind = .fetch) :
    ((s.dropOwn t).setPhase (.executing .begun)).Ruled := by
  obtain ⟨a, b, c, d, e, f, g, i, -, -, l⟩ := hs.2
  have hc := ((unanswered_drop a ht).filter fun x => decide (x.kind = .fetch)).length_eq
  rw [List.filter_cons, if_pos (by simpa using hk), List.length_cons, c] at hc
  have hp : s.cmd.phase = .fetching := by
    by_contra hx
    rw [if_neg hx] at hc
    omega
  rw [if_pos hp] at hc
  obtain ⟨n1, n2⟩ := names_drop a b ht
  refine ⟨tableRight_of_same (fun _ => rfl) (fun _ => rfl) rfl rfl rfl rfl rfl hs.1,
    commandsHold_wait rfl n1 n2 (by show ((s.path.dropOwn t.id).unanswered.filter _).length = 0; omega)
      (fun i => ⟨fun hx => ?_, nofun⟩) (fun r => ⟨fun hx => ?_, nofun⟩) ⟨fun hx => ?_, nofun⟩ g i nofun nofun fun p q => ?_⟩
  · have := (d i).1 hx
    rw [hp] at this
    cases this
  · have := (e r).1 hx
    rw [hp] at this
    cases this
  · have := f.1 hx
    rw [hp] at this
    cases this
  · have := l p q
    rw [hp] at this
    cases this

theorem begins_holds (s : State) (t : OwnTxn) : Holds s ((s.dropOwn t).setPhase (.executing .begun)) :=
  (dropOwn_holds t s).trans (holds_cmd _ _)

/-- A fetched command runs from its beginning to its completion or its wait. -/
theorem onCommand_settles (act : State → State) (s : State)
    (h : ∀ b : State, b.running = true → Runs b (act b)) : Settles s (onCommand act s) := by
  unfold onCommand State.beginCommand?
  by_cases hr : s.running = true
  · rw [if_pos hr]
    cases hf : s.fetchTxn? with
    | none => exact (Keeps.refl s).settles
    | some t =>
      have hb := h (s.begun t) hr
      have hmem : t ∈ s.path.own := List.mem_of_find?_eq_some hf
      have hkind : t.kind = .fetch := by
        have := List.find?_some hf
        rw [Bool.and_eq_true, decide_eq_true_eq] at this
        exact this.1
      exact ⟨(begins_holds s t).trans hb.toHolds, fun hs _ => hb.ends (begins_ruled hs hmem hkind) rfl⟩
  · rw [if_neg hr]
    exact (Keeps.refl s).settles

theorem giveReady_count (t g : Tag) (l : List Entry) :
    ((giveReady t l).1.filter fun e => e.tag = g).length ≤ (l.filter fun e => e.tag = g).length := by
  induction l with
  | nil => exact Nat.le_refl _
  | cons e l ih =>
    unfold giveReady
    split
    · split
      · refine ih.trans ?_
        rw [List.filter_cons]
        split
        · exact Nat.le_succ _
        · exact Nat.le_refl _
      · exact Nat.le_refl _
    · dsimp only
      rw [List.filter_cons, List.filter_cons]
      split
      · exact Nat.succ_le_succ ih
      · exact ih

theorem Entry.answer_tag (i : Nat) (d : List Byte) (e : Entry) : (e.answer i d).tag = e.tag := by
  unfold Entry.answer
  split <;> rfl

theorem answerPassing_keeps (t : PassingTxn) (d : List Byte) (s : State) :
    Keeps s { s with path := s.path.answerPassing t d } := by
  refine keeps_path_of s _ (fun g => ?_) ?_ ?_
  · unfold Path.answerPassing
    dsimp only
    split
    · exact (giveReady_count _ _ _).trans (filter_tag_map _ (Entry.answer_tag _ _) g _).le
    · exact (filter_tag_map _ (Entry.answer_tag _ _) g _).le
  · unfold Path.answerPassing
    dsimp only
    split <;> exact id
  · unfold Path.answerPassing
    dsimp only
    split <;> exact .of_own rfl rfl (Nat.le_refl _)

theorem markPresented_map {α : Type} (f : OwnTxn → α) (hf : ∀ t : OwnTxn, f { t with presented := true } = f t)
    (l : List OwnTxn) : (markPresented l).map f = l.map f := by
  induction l with
  | nil => rfl
  | cons t l ih =>
    unfold markPresented
    split
    · rw [List.map_cons, ih, List.map_cons]
    · rw [List.map_cons, List.map_cons, hf]

theorem markPresented_length (l : List OwnTxn) : (markPresented l).length = l.length := by
  induction l with
  | nil => rfl
  | cons t l ih =>
    unfold markPresented
    split
    · rw [List.length_cons, ih, List.length_cons]
    · rfl

theorem presentPassing_keeps (s : State) : Keeps s { s with path := s.path.presentPassing } := by
  refine keeps_path_of s _ (fun g => ?_) ?_ ?_ <;> unfold Path.presentPassing
  · split <;> exact Nat.le_refl _
  · split <;> exact id
  · split <;> exact .of_own rfl rfl (Nat.le_refl _)

theorem presentOwn_adds (p : Path) : p.Adds p.presentOwn := by
  have h : ∀ {α : Type} (f : OwnTxn → α), (∀ t : OwnTxn, f { t with presented := true } = f t) →
      p.presentOwn.unanswered.map f = p.unanswered.map f := by
    intro α f hf
    unfold Path.unanswered Path.presentOwn
    dsimp only
    rw [List.map_append, List.map_append, markPresented_map f hf]
  have hid := h OwnTxn.id fun _ => rfl
  refine ⟨?_, fun hn hl => ⟨by rw [hid]; exact hn, fun x hx => ?_⟩, fun _ hx => hx⟩
  · have := h (fun t => decide (t.kind = .fetch)) fun _ => rfl
    rw [← List.countP_eq_length_filter, ← List.countP_eq_length_filter]
    have hc : ∀ l : List OwnTxn, l.countP (fun t => decide (t.kind = .fetch))
        = (l.map fun t => decide (t.kind = .fetch)).countP id := fun l => by rw [List.countP_map]; rfl
    rw [hc, hc, this]
  · have hm : x.id ∈ p.presentOwn.unanswered.map OwnTxn.id := List.mem_map.2 ⟨x, hx, rfl⟩
    rw [hid] at hm
    obtain ⟨y, hy, he⟩ := List.mem_map.1 hm
    rw [← he]
    exact hl y hy

theorem presentOwn_keeps (s : State) : Keeps s { s with path := s.path.presentOwn } :=
  keeps_path_of s _ (fun _ => Nat.le_refl _) (fun h => (markPresented_length _).le.trans h) (presentOwn_adds _)

theorem presentAct_keeps (s : State) : Keeps s (presentAct s) := by
  unfold presentAct
  split
  · split
    · exact .refl s
    · exact presentPassing_keeps s
    · exact presentOwn_keeps s
  · exact .refl s

/-- The answer of an own transaction that has left the queue, other than a fetch. -/
theorem handAnswer_keeps (t : OwnTxn) (d : List Byte) (s : State) (hr : s.running = true) (hk : t.kind ≠ .fetch) :
    Keeps s (handAnswer t d s) := by
  unfold handAnswer
  split
  · exact absurd ‹_› hk
  · exact publishProducer_keeps _ s (powerGood_of_running hr)
  · exact swapBank_keeps _ s
  · exact writeCopy_keeps _ _ _ _ s
  · exact ite_keeps _ (endCopy_keeps _ s) (.refl s)
  · exact .refl s

theorem answerable_spec {s : State} {w : OwnTxn → Bool} {t : OwnTxn} (h : s.answerable? w = some t) :
    s.running = true ∧ t ∈ s.path.own ∧ w t = true := by
  unfold State.answerable? at h
  split at h
  · refine ⟨‹_›, List.mem_of_find?_eq_some h, ?_⟩
    have := List.find?_some h
    rw [Bool.and_eq_true] at this
    exact this.2
  · cases h

/-- Memory answers an own transaction. -/
theorem ownAnswer_settles (s : State) (w : OwnTxn → Bool) (d : List Byte) :
    Settles s (match s.answerable? w with
      | some t => handAnswer t d (s.dropOwn t)
      | none   => s) := by
  split
  · rename_i t ht
    obtain ⟨hr, hm, -⟩ := answerable_spec ht
    by_cases hk : t.kind = .fetch
    · have h := runCommand_runs (decodeSlot (fitBytes 64 d)) ((s.dropOwn t).setPhase (.executing .begun)) hr
      have he : handAnswer t d (s.dropOwn t)
          = runCommand (decodeSlot (fitBytes 64 d)) ((s.dropOwn t).setPhase (.executing .begun)) := by
        unfold handAnswer
        rw [hk]
      rw [he]
      exact ⟨(begins_holds s t).trans h.toHolds, fun hs _ => h.ends (begins_ruled hs hm hk) rfl⟩
    · exact ((dropOwn_keeps t s hm hk).trans (handAnswer_keeps t d _ hr hk)).settles
  · exact (Keeps.refl s).settles

/-- Memory answers an own transaction that is no fetch. -/
theorem answered_keeps (s : State) (w : OwnTxn → Bool) (act : OwnTxn → State → State)
    (hw : ∀ t, w t = true → t.kind ≠ .fetch) (h : ∀ t u, u.running = true → w t = true → Keeps u (act t u)) :
    Keeps s (match s.answerable? w with
      | some t => act t (s.dropOwn t)
      | none   => s) := by
  split
  · rename_i t ht
    obtain ⟨hr, hm, hk⟩ := answerable_spec ht
    exact (h t (s.dropOwn t) hr hk).after (dropOwn_keeps t s hm (hw t hk))
  · exact .refl s

/-- A transaction of the line for a place joins the queue while a place is free. -/
theorem joinTxn_holds (t : OwnTxn) (s : State) (h : s.path.placeFree = true) : Holds s (joinTxn t s) := by
  refine holds_path_of s _ (fun _ => Nat.le_refl _) fun _ => ?_
  unfold Path.placeFree at h
  rw [decide_eq_true_eq] at h
  show (s.path.own ++ [t]).length ≤ Config.ownPlaces
  rw [List.length_append]
  exact h

theorem joinWrite_keeps (k : OwnKind) (a : Nat) (b : List Byte) (s : State) (h : s.path.placeFree = true) (hk : k ≠ .fetch) :
    Keeps s (joinWrite k a b s) := by
  refine keeps_path_of s _ (fun _ => Nat.le_refl _) (fun _ => ?_) ?_
  · unfold Path.placeFree at h
    rw [decide_eq_true_eq] at h
    show (s.path.own ++ [_]).length ≤ Config.ownPlaces
    rw [List.length_append]
    exact h
  · have hp : ∀ x : OwnTxn, ({ s.path with own := s.path.own ++ [x], nextId := s.path.nextId + 1 } : Path).unanswered.Perm
        (x :: s.path.unanswered) := by
      intro x
      unfold Path.unanswered
      dsimp only
      rw [List.append_assoc]
      exact List.perm_middle
    refine ⟨?_, fun hn hl => names_grow (hp _) rfl hn hl, fun _ hx => hx⟩
    rw [((hp _).filter _).length_eq, List.filter_cons, if_neg (by simpa [Path.newTxn] using hk)]

theorem postCreations_keeps (n : Fin 8) (cs : List Creation) (s : State) : Keeps s (postCreations n cs s) := by
  induction cs generalizing s with
  | nil => exact .refl s
  | cons c cs ih => exact (ih _).after (ite_keeps _ (postNotice_keeps _ s) (.refl s))

theorem joinMirror_keeps (s : State) (h : s.path.placeFree = true) : Keeps s (joinMirror s) := by
  unfold joinMirror
  split
  · exact .refl s
  · exact (postCreations_keeps _ _ _).after ((keeps_flt _ _).after ((keeps_openCount _ _).after (joinWrite_keeps (.mirror _) _ _ s h nofun)))

theorem joinStatus_keeps (s : State) (h : s.path.placeFree = true) : Keeps s (joinStatus s) := by
  unfold joinStatus
  split
  · exact (keeps_statusMark _ false).after (joinWrite_keeps .statusWord _ _ s h nofun)
  · exact .refl s

theorem popWaiter_holds (s : State) : Holds s s.popWaiter := holds_path_of s _ (fun _ => Nat.le_refl _) id

/-- A unit whose write takes its values at the join leaves the line for a place. -/
theorem popWaiter_keeps (s : State) (h : ∀ t, s.path.waiting.head? ≠ some (.txn t)) : Keeps s s.popWaiter := by
  refine Holds.calm (popWaiter_holds s) { path := ?_ }
  have hu : s.popWaiter.path.unanswered = s.path.unanswered := by
    unfold Path.unanswered State.popWaiter
    dsimp only
    cases hw : s.path.waiting with
    | nil => rfl
    | cons w ws =>
      cases w with
      | txn t => exact absurd (by rw [hw]; rfl) (h t)
      | mirror => rfl
      | status => rfl
  refine ⟨by rw [hu], fun hn hl => by rw [hu]; exact ⟨hn, hl⟩, fun t ht => ?_⟩
  show Waiter.txn t ∈ s.path.waiting.tail
  cases hw : s.path.waiting with
  | nil => rw [hw] at ht; cases ht
  | cons w ws =>
    rw [hw] at ht
    rcases List.mem_cons.1 ht with rfl | ht
    · exact absurd (by rw [hw]; rfl) (h t)
    · exact ht

/-- A unit whose write takes its values at the join joins the line for a place. -/
theorem awaitPlace_keeps (w : Waiter) (s : State) (h : ∀ t, w ≠ .txn t) : Keeps s (s.awaitPlace w) := by
  unfold State.awaitPlace
  refine ite_keeps _ (.refl s) (keeps_path_of s _ (fun _ => Nat.le_refl _) id ?_)
  have hu : ({ s.path with waiting := s.path.waiting ++ [w] } : Path).unanswered = s.path.unanswered := by
    unfold Path.unanswered
    dsimp only
    rw [List.filterMap_append]
    cases w with
    | txn t => exact absurd rfl (h t)
    | mirror => simp
    | status => simp
  refine ⟨by rw [hu], fun hn hl => by rw [hu]; exact ⟨hn, hl⟩, fun t ht => List.mem_append_left _ ht⟩

theorem joinOrWait_keeps (w : Waiter) (join : State → State) (s : State) (hw : ∀ t, w ≠ .txn t)
    (h : ∀ u : State, u.path.placeFree = true → Keeps u (join u)) : Keeps s (joinOrWait w join s) := by
  unfold joinOrWait
  split
  · rename_i hf
    rw [Bool.and_eq_true] at hf
    exact h s hf.1
  · split
    · rename_i hf
      rw [Bool.and_eq_true, decide_eq_true_eq] at hf
      exact (h s.popWaiter hf.1).after (popWaiter_keeps s fun t ht => by
        rw [hf.2] at ht
        exact hw t (Option.some.inj ht))
    · exact awaitPlace_keeps w s hw

theorem mirrorWriteAct_keeps (s : State) : Keeps s (mirrorWriteAct s) :=
  ite_keeps _ (joinOrWait_keeps _ _ s nofun joinMirror_keeps) (.refl s)

theorem statusWordWriteAct_keeps (s : State) : Keeps s (statusWordWriteAct s) :=
  ite_keeps _ (joinOrWait_keeps _ _ s nofun joinStatus_keeps) (.refl s)

/-- The first of the line joins the own queue: the unanswered transactions are those before. -/
theorem unanswered_join {p : Path} {t : OwnTxn} {ws : List Waiter} (h : p.waiting = .txn t :: ws) :
    ({ p with own := p.own ++ [t], waiting := ws } : Path).unanswered = p.unanswered := by
  unfold Path.unanswered
  dsimp only
  rw [h]
  simp

/-- What a waiting command waits for is the write that joins, or stays in the line. -/
theorem joined_ruled {s : State} {t : OwnTxn} {ws : List Waiter} (hs : s.Ruled) (hw : s.path.waiting = .txn t :: ws)
    (hb : ∀ r, t.kind = .bankBind r → s.cmd.phase ≠ .executing (.bindJoin r))
    (hn : t.kind = .snapshot true → s.cmd.phase ≠ .executing .snapshotJoin) : (joinTxn t s.popWaiter).Ruled := by
  have hp : (joinTxn t s.popWaiter).path = { s.path with own := s.path.own ++ [t], waiting := ws } := by
    unfold joinTxn State.popWaiter
    dsimp only
    rw [hw]
    rfl
  have hu := unanswered_join hw
  obtain ⟨a, b, c, d, e, f, g, i, j, k, l⟩ := hs.2
  refine ⟨tableRight_of_same (fun _ => rfl) (fun _ => rfl) rfl rfl rfl rfl rfl hs.1, by rw [hp, hu]; exact a,
    by rw [hp, hu]; exact b, by rw [hp, hu]; exact c, d, e, f, g, i, fun r hr => ?_, fun hr => ?_, l⟩
  · obtain ⟨x, hx, hk⟩ := j r hr
    refine ⟨x, ?_, hk⟩
    rw [hp]
    rw [hw] at hx
    refine (List.mem_cons.1 hx).resolve_left fun e => ?_
    cases e
    exact hb r hk hr
  · obtain ⟨x, hx, hk⟩ := k hr
    refine ⟨x, ?_, hk⟩
    rw [hp]
    rw [hw] at hx
    refine (List.mem_cons.1 hx).resolve_left fun e => ?_
    cases e
    exact hn hk hr

/-- The write that a command waits for joins, and the command completes. -/
theorem joined_completes {s : State} {t : OwnTxn} {ws : List Waiter} (hw : s.path.waiting = .txn t :: ws) {w : Wait}
    (hp : s.cmd.phase = .executing w) (hk : (∃ r, w = .bindJoin r) ∨ w = .snapshotJoin) (hf : s.path.placeFree = true) :
    Keeps s (completeDone (joinTxn t s.popWaiter)) := by
  have hh : Holds s (joinTxn t s.popWaiter) := (popWaiter_holds s).trans (joinTxn_holds t s.popWaiter hf)
  have hpath : (joinTxn t s.popWaiter).path = { s.path with own := s.path.own ++ [t], waiting := ws } := by
    unfold joinTxn State.popWaiter
    dsimp only
    rw [hw]
    rfl
  refine ⟨hh.trans (complete_holds _ _ _), fun hs => ?_, ?_⟩
  · have hrest : s.Rests := rests_of hs.2 (by rw [hp]; nofun)
      (fun i => by rw [hp]; rcases hk with ⟨r, rfl⟩ | rfl <;> nofun)
      (fun r => by rw [hp]; rcases hk with ⟨q, rfl⟩ | rfl <;> nofun)
      (by rw [hp]; rcases hk with ⟨q, rfl⟩ | rfl <;> nofun)
    have hu := unanswered_join hw
    exact ⟨complete_table _ _ (tableRight_of_same (fun _ => rfl) (fun _ => rfl) rfl rfl rfl rfl rfl hs.1),
      complete_commands _ _ ⟨by rw [hpath, hu]; exact hrest.distinct, by rw [hpath, hu]; exact hrest.names,
        by rw [hpath, hu]; exact hrest.fetches, hrest.drains, hrest.unbinds, hrest.consent, hrest.claim⟩⟩
  · rw [hp]
    refine ⟨nofun, fun hx => ?_⟩
    rcases hk with ⟨r, rfl⟩ | rfl <;> cases hx

theorem ownQueueJoinAct_keeps (s : State) : Keeps s (ownQueueJoinAct s) := by
  unfold ownQueueJoinAct
  split
  · rename_i h
    rw [Bool.and_eq_true] at h
    have hpop : ∀ w ws, s.path.waiting = w :: ws → (∀ t, w ≠ .txn t) → Keeps s s.popWaiter := fun w ws hw hx =>
      popWaiter_keeps s fun t ht => by
        rw [hw] at ht
        exact hx t (Option.some.inj ht)
    split
    · exact .refl s
    · rename_i t ws hw
      have hj : (∀ r, t.kind = .bankBind r → s.cmd.phase ≠ .executing (.bindJoin r)) →
          (t.kind = .snapshot true → s.cmd.phase ≠ .executing .snapshotJoin) → Keeps s (joinTxn t s.popWaiter) :=
        fun hb hn => ⟨(popWaiter_holds s).trans (joinTxn_holds t s.popWaiter h.2), fun hs => joined_ruled hs hw hb hn, Iff.rfl⟩
      unfold afterJoin
      split
      · rename_i r hk
        split
        · rename_i hp
          exact joined_completes hw hp (.inl ⟨r, rfl⟩) h.2
        · rename_i hp
          exact hj (fun q hq => by rw [hk] at hq; cases hq; exact hp) (fun hq => by rw [hk] at hq; cases hq)
      · rename_i hk
        split
        · rename_i hp
          exact joined_completes hw hp (.inr rfl) h.2
        · rename_i hp
          exact hj (fun q hq => by rw [hk] at hq; cases hq) (fun _ => hp)
      · rename_i hk
        exact (copyReadAt_keeps _ _ _).after
          (hj (fun q hq => by rw [hk] at hq; cases hq) (fun hq => by rw [hk] at hq; cases hq))
      · rename_i h1 h2 _
        exact hj (fun q hq => absurd hq (h1 q)) (fun hq => absurd hq h2)
    · rename_i hw
      exact (joinMirror_keeps s.popWaiter h.2).after (hpop _ _ hw nofun)
    · rename_i hw
      exact (joinStatus_keeps s.popWaiter h.2).after (hpop _ _ hw nofun)
  · exact .refl s

/-! ## The feed assembler -/

theorem dispatch_keeps (src : Source) (rec : Record) (b : Option Word) (s : State) : Keeps s (dispatch src rec b s).1 := by
  cases rec with
  | timeSync r => exact timeSyncAct_keeps _ r b s
  | robotStatus r => exact robotStatusAct_keeps r s
  | fillReport r => exact fillReportAct_keeps src r s
  | verdict r => exact verdictAct_keeps src r s
  | serviceClaim c => exact serviceClaimAct_keeps c s
  | serviceKeep p => exact serviceKeepAct_keeps p s
  | serviceRelease => exact serviceReleaseAct_keeps s
  | servicePublish p => exact servicePublishAct_keeps src.seq p s

theorem judge_keeps (i : WinIdx) (w : Window) (k : FeedKind) (o : Nat) (r : RawRecord) (b : Option Word) (s : State) :
    Keeps s (judge i w k o r b s).1 := by
  unfold judge
  dsimp only
  split
  · exact takeFault_keeps _ s
  · split
    · exact takeFault_keeps _ s
    · split
      · exact takeFault_keeps _ s
      · exact takeFault_keeps _ s
      · split
        · exact dispatch_keeps _ _ b s
        · exact takeFault_keeps _ s

theorem handleEvents_keeps (i : WinIdx) (w : Window) (k : FeedKind) (es : List FeedEvent) (b : Option Word) (s : State) :
    Keeps s (handleEvents i w k es b s) := by
  induction es generalizing b s with
  | nil => exact .refl s
  | cons e es ih =>
    cases e with
    | torn o q => exact (takeFault_keeps _ s).trans (ih b _)
    | completed o r => exact (judge_keeps i w k o r b s).trans (ih _ _)

theorem assemblyStep_keeps (i : WinIdx) (w : Window) (k : FeedKind) (r : LinkRequest) (d : List Byte) (e : List Bool)
    (s : State) : Keeps s (assemblyStep i w k r d e s) := by
  unfold assemblyStep
  split
  · exact .refl s
  · rename_i hs
    exact (setSlot_keeps _ _ s (by rw [hs]; rfl)).trans (handleEvents_keeps _ _ _ _ _ _)

/-! ## The link -/

/-- An entry of a tag with fewer than four in flight joins the in-flight set. -/
theorem addEntry_keeps (e : Entry) (s : State) (h : s.tagCount e.tag < Config.tagLimit) : Keeps s (s.addEntry e) := by
  refine Holds.calm ⟨rfl, fun hq => ⟨hq.1, hq.2.1, fun g => ?_⟩, serviceOnly_of_same rfl rfl rfl rfl rfl, id, id, id, id,
    robotsRight_of_shape (.refl _) rfl⟩ { path := .of_own rfl rfl (Nat.le_succ _) }
  unfold State.tagCount State.addEntry at *
  dsimp only
  rw [List.filter_append, List.length_append]
  by_cases hg : e.tag = g
  · subst hg
    simp only [List.filter_cons, decide_true, if_true, List.filter_nil, List.length_cons, List.length_nil]
    exact h
  · simp only [List.filter_cons, hg, decide_false, List.filter_nil, if_false, List.length_nil, Nat.add_zero,
      Bool.false_eq_true]
    exact hq.2.2 g

theorem giveResponses_keeps (t : Tag) (s : State) : Keeps s { s with path := giveResponses t s.path } :=
  keeps_passing s _ fun g => giveReady_count t g _

theorem refuseRequest_keeps (k : FaultKind) (c : Checked) (r : LinkRequest) (s : State)
    (h : s.tagCount r.tag < Config.tagLimit) : Keeps s (refuseRequest k c r s) :=
  (giveResponses_keeps _ _).after ((takeFault_keeps _ _).after (addEntry_keeps _ s h))

theorem forwardRequest_keeps (c : Checked) (half : Option Half) (reader : Bool) (a : Addr) (r : LinkRequest)
    (d : List Byte) (e : List Bool) (s : State) (h : s.tagCount r.tag < Config.tagLimit) :
    Keeps s (forwardRequest c half reader a r d e s) :=
  Keeps.after (keeps_passing _ { (s.addEntry (entryOf s r .forwarded c half reader (some a))).path with
      passing := s.path.passing ++ [{ id := s.path.nextId, dir := r.dir, addr := a, len := spanLen r, data := d, enables := e }] }
    (fun _ => Nat.le_refl _)) (addEntry_keeps (entryOf s r .forwarded c half reader (some a)) s h)

theorem holdRequest_keeps (c : Checked) (half : Half) (n : RobotIdx) (a : Addr) (r : LinkRequest) (s : State)
    (h : s.tagCount r.tag < Config.tagLimit) (hf : holdFull s = false) : Keeps s (holdRequest c half n a r s) := by
  refine Keeps.after (t := s.addEntry (entryOf s r .held c (some half) false (some a))) ?_ (addEntry_keeps _ s h)
  refine Holds.calm ⟨rfl, fun hq => ⟨hq.1, ?_, hq.2.2⟩, serviceOnly_of_same rfl rfl rfl rfl rfl, id, id, id, id,
    robotsRight_of_shape (.refl _) rfl⟩ {}
  unfold holdFull at hf
  rw [decide_eq_false_iff_not] at hf
  unfold holdRequest
  dsimp only
  rw [List.length_append]
  exact Nat.lt_of_not_le hf

theorem bankRequest_keeps (i : WinIdx) (w : Window) (k : Bank) (r : LinkRequest) (s : State)
    (h : s.tagCount r.tag < Config.tagLimit) : Keeps s (bankRequest i w k r s) := by
  unfold bankRequest
  dsimp only
  split
  · exact forwardRequest_keeps _ _ _ _ _ _ _ s h
  · split
    · exact .refl s
    · rename_i n b _ hst
      split
      · rename_i hh
        refine holdRequest_keeps _ _ _ _ _ s h ?_
        unfold bankHolds at hh
        simp only [Bool.and_eq_true, decide_eq_true_eq] at hh
        unfold bankStalls at hst
        rw [hh.1] at hst
        simpa [hh.2] using hst
      · exact forwardRequest_keeps _ _ _ _ _ _ _ s h

theorem windowRequest_keeps (i : WinIdx) (w : Window) (r : LinkRequest) (s : State)
    (h : s.tagCount r.tag < Config.tagLimit) : Keeps s (windowRequest i w r s) := by
  unfold windowRequest
  dsimp only
  have hf := forwardRequest_keeps (.window i) none false r.addr r (stamped w r s.time).1 (stamped w r s.time).2 s h
  split
  · exact ite_keeps _ (hf.trans (assemblyStep_keeps _ _ _ _ _ _ _)) hf
  · exact hf

theorem observe_running (w : Watched) (v : Word) (s : State) : (observe w v s).running = s.running := by
  unfold State.running
  cases w with
  | tail =>
    show ((commandTailAct v s).pins.powerGood && !(commandTailAct v s).pins.cabinetReset) = _
    unfold commandTailAct
    split
    · split
      · rfl
      · split
        · obtain ⟨m, hm⟩ := noteStatus_touches s { s with cmd := { s.cmd with ring := .running, tail := ⟨v.toNat, by assumption⟩ } }
          rw [hm]
        · rfl
    · obtain ⟨m, hm⟩ := noteStatus_touches s { s with cmd := { s.cmd with ring := .stopped } }
      obtain ⟨p, q, u, hf⟩ := takeFault_touches (ringFault v s) (s.noteStatus { s with cmd := { s.cmd with ring := .stopped } })
      rw [hf, hm]
  | noticeConsumed =>
    show ((noticeConsumedAct v s).pins.powerGood && !(noticeConsumedAct v s).pins.cabinetReset) = _
    unfold noticeConsumedAct
    split
    · have h : ∀ u : State, (reportDropped u).pins = u.pins := by
        intro u
        unfold reportDropped
        split
        · dsimp only
          obtain ⟨p, r, hn⟩ := postNotice_touches (.dropped u.rep.droppedCount u.rep.firstDrop) u
          obtain ⟨m, hm⟩ := noteStatus_touches (postNotice (.dropped u.rep.droppedCount u.rep.firstDrop) u)
            { postNotice (.dropped u.rep.droppedCount u.rep.firstDrop) u with
              rep := { (postNotice (.dropped u.rep.droppedCount u.rep.firstDrop) u).rep with
                dropped := false, droppedCount := 0 } }
          rw [hm, hn]
        · rfl
      unfold State.refreshAttention
      dsimp only
      rw [h]
    · rfl
  | decisionConsumed =>
    show ((decisionConsumedAct v s).pins.powerGood && !(decisionConsumedAct v s).pins.cabinetReset) = _
    unfold decisionConsumedAct
    split
    · obtain ⟨m, hm⟩ := noteStatus_touches s { s with rep := { s.rep with decConsumed := v.toNat, decOverflow := false } }
      rw [hm]
    · rfl
  | publish r =>
    obtain ⟨p, m, q, hp⟩ := productionPublish_touches r (publishSeq v) (publishConfirm v) s
    show ((productionPublish r (publishSeq v) (publishConfirm v) s).pins.powerGood
      && !(productionPublish r (publishSeq v) (publishConfirm v) s).pins.cabinetReset) = _
    rw [hp]

theorem observe_keeps (w : Watched) (v : Word) (s : State) (hr : s.running = true) : Keeps s (observe w v s) := by
  cases w with
  | tail => exact commandTailAct_keeps v s
  | noticeConsumed => exact noticeConsumedAct_keeps v s hr
  | decisionConsumed => exact decisionConsumedAct_keeps v s
  | publish r => exact productionPublish_keeps r _ _ s

theorem observeAll_keeps (ws : List (Watched × Word)) (s : State) (hr : s.running = true) : Keeps s (observeAll ws s) := by
  induction ws generalizing s with
  | nil => exact .refl s
  | cons w ws ih => exact (observe_keeps w.1 w.2 s hr).trans (ih _ ((observe_running w.1 w.2 s).trans hr))

theorem linkRequestAct_keeps (r : LinkRequest) (s : State) : Keeps s (linkRequestAct r s) := by
  unfold linkRequestAct
  split
  · exact .refl s
  · rename_i hr
    split
    · exact .refl s
    · rename_i hl
      have h : s.tagCount r.tag < Config.tagLimit := Nat.lt_of_not_le hl
      split
      · exact refuseRequest_keeps _ _ r s h
      · split
        · exact .refl s
        · unfold decideRequest
          split
          · exact refuseRequest_keeps _ _ r s h
          · unfold areaRequest
            refine (observeAll_keeps _ _ ?_).after (forwardRequest_keeps _ _ _ _ _ _ _ s h)
            show s.running = true
            simpa using hr
          · exact forwardRequest_keeps _ _ _ _ _ _ _ s h
          · split
            · exact bankRequest_keeps _ _ _ r s h
            · exact windowRequest_keeps _ _ r s h

/-! ## The resets -/

theorem keyAct_keeps (level : Bool) (s : State) : Keeps s (keyAct level s) := by
  unfold keyAct
  split
  · exact .refl s
  · dsimp only
    split
    · split
      · exact (keyOnAct_keeps _).after (keeps_key s level)
      · exact (keyOffAct_keeps _).after (keeps_key s level)
    · exact keeps_key s level

end Sys2Proof.Machine
end

