-- ==== Sys2Proof/Laws/Session.lean ====
section
/-! SUPPORT. The service session: setters, checks of a claim, and the grant. -/

namespace Sys2Proof.Machine
open Sys2Proof

theorem setSvc_eq (s : State) (v : Session) :
    s.setSvc v = State.statusIf { s with svc := v } (decide (s.svc.state ≠ v.state)) := by
  unfold State.setSvc State.noteStatus State.statusIf
  by_cases h : v.state = s.svc.state
  · rw [if_pos]
    · simp [h]
    · unfold State.statusFields; simp [h]
  · rw [if_neg]
    · have : (s.svc.state ≠ v.state) := fun e => h e.symm
      simp [this]
    · intro hh; apply h; unfold State.statusFields at hh; simpa using hh

theorem setSvc_same (s : State) (v : Session) (h : v.state = s.svc.state) : s.setSvc v = { s with svc := v } := by
  rw [setSvc_eq]; simp [h, State.statusIf]

theorem setSvc_new (s : State) (v : Session) (h : s.svc.state ≠ v.state) :
    s.setSvc v = { s with svc := v, rep := { s.rep with statusMark := true } } := by
  rw [setSvc_eq]; simp [h, State.statusIf]

theorem modifyRobots_eq (f : Bound → Bound) (rs : List RobotIdx) (s : State) :
    State.modifyRobots f rs s = s.withRobots f rs := by
  induction rs generalizing s with
  | nil => rfl
  | cons r rs ih =>
    simp only [State.modifyRobots, ih, State.withRobots, List.foldl_cons]
    congr 1

theorem setAuthorities_eq (a : Authority) (ws : List WinIdx) (s : State) :
    State.setAuthorities a ws s = s.withAuthority a ws := by
  induction ws generalizing s with
  | nil => rfl
  | cons r rs ih =>
    simp only [State.setAuthorities, ih, State.withAuthority, List.foldl_cons]
    congr 1

theorem serviceFeedAt_iff (s : State) (i : WinIdx) (w : Window) :
    s.serviceFeedAt i = some w ↔ s.entry i = .loaded w ∧ w.feedKind? = some .service := by
  unfold State.serviceFeedAt State.loaded? Window.feedKind?
  cases s.entry i with
  | loaded v =>
    simp only [WinState.loaded.injEq]
    constructor
    · intro h
      split at h
      · obtain rfl : v = w := by simpa using h
        simp_all
      · cases h
    · rintro ⟨rfl, h⟩
      cases hr : v.role with
      | feed k st => rw [hr] at h; obtain rfl : k = .service := by simpa using h
                     rfl
      | _ => rw [hr] at h; simp at h
  | _ => simp

theorem findSome?_first {α β : Type} (f : α → Option β) (l : List α) (le : α → α → Prop) (hs : l.Pairwise le)
    (i : α) (w : β) (hi : i ∈ l) (hw : f i = some w) (hm : ∀ j v, f j = some v → j ≠ i → ¬ le j i) :
    l.findSome? f = some w := by
  induction l with
  | nil => simp at hi
  | cons a l ih =>
    rw [List.findSome?_cons]
    by_cases h : a = i
    · subst h; simp [hw]
    · cases hfa : f a with
      | some v =>
        exact absurd (List.rel_of_pairwise_cons hs (by simpa [Ne.symm h] using hi)) (hm a v hfa h)
      | none => exact ih hs.of_cons (by simpa [Ne.symm h] using hi)

theorem allWindows_sorted : allWindows.Pairwise (· ≤ ·) := by decide

theorem serviceFeed?_some (s : State) (i : WinIdx) (w : Window) (h : s.entry i = .loaded w ∧ w.feedKind? = some .service)
    (hm : ∀ j v, s.entry j = .loaded v ∧ v.feedKind? = some .service → i ≤ j) : s.serviceFeed? = some w := by
  apply findSome?_first _ _ (· ≤ ·) allWindows_sorted i w (Machine.mem_allWindows i) ((serviceFeedAt_iff _ _ _).2 h)
  intro j v hj hne hle
  have := hm j v ((serviceFeedAt_iff _ _ _).1 hj)
  exact hne (le_antisymm hle this)

theorem serviceFeed?_none (s : State) (h : ∀ i w, ¬ (s.entry i = .loaded w ∧ w.feedKind? = some .service)) :
    s.serviceFeed? = none := by
  unfold State.serviceFeed?
  rw [List.findSome?_eq_none_iff]
  intro i _
  cases hi : s.serviceFeedAt i with
  | none => rfl
  | some w => exact absurd ((serviceFeedAt_iff _ _ _).1 hi) (h i w)

theorem makeReply_svc (k : ReplyKind) (why : Reason) (q : BitVec 32) (s : State) :
    (makeReply k why q s).svc = { s.svc with replySeq := s.svc.replySeq + 1 } := by
  unfold makeReply
  simp only
  split <;> rfl

theorem makeReply_cmd (k : ReplyKind) (why : Reason) (q : BitVec 32) (s : State) :
    (makeReply k why q s).cmd = s.cmd := by
  unfold makeReply
  simp only
  split <;> rfl

theorem withRobots_cmd (f : Bound → Bound) (rs : List RobotIdx) (s : State) : (s.withRobots f rs).cmd = s.cmd := by
  induction rs generalizing s with
  | nil => rfl
  | cons r rs ih =>
    unfold State.withRobots at ih ⊢
    rw [List.foldl_cons, ih]
    split <;> rfl

theorem isBanked_iff (s : State) (i : WinIdx) : s.isBanked i = true ↔ s.bankedAt i := by
  unfold State.isBanked State.bank? State.loaded? State.bankedAt
  cases h : s.entry i with
  | loaded w =>
    simp only
    cases hr : w.role with
    | banked e x n a b => exact ⟨fun _ => ⟨w, _, _, _, _, _, rfl, hr⟩, fun _ => rfl⟩
    | _ => refine ⟨fun h => by simp at h, ?_⟩; rintro ⟨v, e, x, n, a, b, hv, hr'⟩; cases hv; rw [hr] at hr'; cases hr'
  | _ => simp

theorem claimable_iff (s : State) (i : WinIdx) : s.claimable i = true ↔ s.mayName i := by
  unfold State.claimable State.loaded? State.mayName
  cases h : s.entry i with
  | loaded w =>
    simp only
    cases hr : w.role with
    | banked e x n a b =>
      constructor
      · intro he; simp only at he; subst he; exact ⟨w, rfl, .inr ⟨_, _, _, _, hr⟩⟩
      · rintro ⟨v, hv, ⟨x, h'⟩ | ⟨x, n, a, b, h'⟩⟩ <;> cases hv <;> rw [hr] at h' <;> cases h'; rfl
    | guarded e x =>
      constructor
      · intro he; simp only at he; subst he; exact ⟨w, rfl, .inl ⟨_, hr⟩⟩
      · rintro ⟨v, hv, ⟨x, h'⟩ | ⟨x, n, a, b, h'⟩⟩ <;> cases hv <;> rw [hr] at h' <;> cases h'; rfl
    | _ =>
      constructor
      · intro he; simp at he
      · rintro ⟨v, hv, ⟨x, h'⟩ | ⟨x, n, a, b, h'⟩⟩ <;> cases hv <;> rw [hr] at h' <;> cases h'
  | _ => simp

theorem robotHolds_iff (s : State) (i : WinIdx) : s.robotHolds i = true ↔ ∃ r, s.holdsAt i r := by
  unfold State.robotHolds State.holdsAt
  cases h : s.bankRobot? i with
  | none => simp
  | some p => obtain ⟨r, b⟩ := p; simp

theorem failsWindow_iff (s : State) (ws : List WinIdx) :
    (!(ws.all s.claimable) || !decide ws.Nodup) = true ↔ s.failsWindow ws := by
  unfold State.failsWindow
  simp only [Bool.or_eq_true, Bool.not_eq_true', decide_eq_false_iff_not, ← claimable_iff, List.all_eq_false]

theorem failsMode_iff (s : State) (ws : List WinIdx) :
    (!((ws.filter s.isBanked).all s.robotHolds)) = true ↔ s.failsMode ws := by
  unfold State.failsMode
  simp only [Bool.not_eq_true', List.all_eq_false, List.mem_filter, isBanked_iff, robotHolds_iff, not_exists, and_assoc]

theorem failsLine_iff (s : State) (ws : List WinIdx) :
    (ws.any s.isBanked && decide (s.trk.line = .running)) = true ↔ s.failsLine ws := by
  unfold State.failsLine
  simp only [Bool.and_eq_true, List.any_eq_true, isBanked_iff, decide_eq_true_iff]

theorem claimRefusal_eq (s : State) (ws : List WinIdx) (p1 p2 p3 : Prop) [Decidable p1] [Decidable p2] [Decidable p3]
    (h1 : s.failsWindow ws ↔ p1) (h2 : s.failsMode ws ↔ p2) (h3 : s.failsLine ws ↔ p3) :
    claimRefusal s ws = if p1 then some .window else if p2 then some .robotMode else if p3 then some .line else none := by
  unfold claimRefusal
  have e1 := (failsWindow_iff s ws).trans h1
  have e2 := (failsMode_iff s ws).trans h2
  have e3 := (failsLine_iff s ws).trans h3
  by_cases q1 : p1
  · rw [if_pos (e1.2 q1), if_pos q1]
  · rw [if_neg (fun h => q1 (e1.1 h)), if_neg q1]
    by_cases q2 : p2
    · rw [if_pos (e2.2 q2), if_pos q2]
    · rw [if_neg (fun h => q2 (e2.1 h)), if_neg q2]
      by_cases q3 : p3
      · rw [if_pos (e3.2 q3), if_pos q3]
      · rw [if_neg (fun h => q3 (e3.1 h)), if_neg q3]

open Classical in
theorem claimRefusal_some (s : State) (ws : List WinIdx) (why : Reason) (h : s.refusesClaim ws why) :
    claimRefusal s ws = some why := by
  rw [claimRefusal_eq s ws _ _ _ Iff.rfl Iff.rfl Iff.rfl]
  rcases h with ⟨a, rfl⟩ | ⟨a, b, rfl⟩ | ⟨a, b, c, rfl⟩
  · rw [if_pos a]
  · rw [if_neg a, if_pos b]
  · rw [if_neg a, if_neg b, if_pos c]

open Classical in
theorem claimRefusal_none (s : State) (ws : List WinIdx)
    (h : ¬ s.failsWindow ws ∧ ¬ s.failsMode ws ∧ ¬ s.failsLine ws) : claimRefusal s ws = none := by
  rw [claimRefusal_eq s ws _ _ _ Iff.rfl Iff.rfl Iff.rfl]
  rw [if_neg h.1, if_neg h.2.1, if_neg h.2.2]

theorem bankRobot?_bank (s : State) (i : WinIdx) (r : RobotIdx) (b : Bound) (h : s.bankRobot? i = some (r, b)) :
    s.bound? r = some b ∧ b.bank = i := by
  unfold State.bankRobot? at h
  obtain ⟨x, _, hx⟩ := List.exists_of_findSome?_eq_some h
  unfold State.bankRobotAt at hx
  split at hx
  · rename_i b' hb
    split at hx
    · cases hx; exact ⟨hb, by assumption⟩
    · cases hx
  · cases hx

theorem takesClaim_robotsOf (s : State) (ws : List WinIdx)
    (h : ¬ s.failsWindow ws ∧ ¬ s.failsMode ws ∧ ¬ s.failsLine ws) : s.takesClaim ws (s.robotsOf ws) := by
  obtain ⟨h1, h2, h3⟩ := h
  have hold : ∀ i ∈ ws, s.bankedAt i → ∀ r b, s.bankRobot? i = some (r, b) → s.holdsAt i r := by
    intro i hi hb r b hr
    by_contra hc
    refine h2 ⟨i, hi, hb, fun r2 h => ?_⟩
    obtain ⟨b2, e, _⟩ := id h
    rw [hr] at e; cases e; exact hc h
  refine ⟨h1, h2, h3, ?_, ?_, ws.filter s.isBanked, List.filter_sublist, fun i hi => ?_, ?_⟩
  · unfold State.robotsOf
    have hn : (ws.filter s.isBanked).Nodup := by
      have : ws.Nodup := by
        by_contra hc; exact h1 (.inr hc)
      exact this.filter _
    refine List.Nodup.filterMap ?_ hn
    intro i j r hi hj
    simp only [Option.mem_def, Option.map_eq_some_iff] at hi hj
    obtain ⟨⟨r1, b1⟩, hi, e1⟩ := hi
    obtain ⟨⟨r2, b2⟩, hj, e2⟩ := hj
    obtain ⟨hb1, rfl⟩ := bankRobot?_bank s i r1 b1 hi
    obtain ⟨hb2, rfl⟩ := bankRobot?_bank s j r2 b2 hj
    simp only at e1 e2; subst e1 e2
    rw [hb1] at hb2; cases hb2; rfl
  · intro r
    unfold State.robotsOf
    simp only [List.mem_filterMap, List.mem_filter, isBanked_iff, Option.map_eq_some_iff]
    constructor
    · rintro ⟨i, ⟨hi, hb⟩, ⟨r', b⟩, hr, rfl⟩
      exact ⟨i, hi, hb, hold i hi hb r' b hr⟩
    · rintro ⟨i, hi, hb, b, hr, _⟩
      exact ⟨i, ⟨hi, hb⟩, ⟨r, b⟩, hr, rfl⟩
  · simp [hi, isBanked_iff]
  · unfold State.robotsOf
    have hin : ∀ i ∈ ws.filter s.isBanked, ∃ r b, s.bankRobot? i = some (r, b) ∧ s.holdsAt i r := by
      intro i hi
      simp only [List.mem_filter, isBanked_iff] at hi
      by_contra hc
      refine h2 ⟨i, hi.1, hi.2, fun r h => hc ?_⟩
      obtain ⟨b, e, _⟩ := id h
      exact ⟨r, b, e, h⟩
    generalize ws.filter s.isBanked = l at hin
    induction l with
    | nil => exact .nil
    | cons i l ih =>
      obtain ⟨r, b, e, h⟩ := hin i (by simp)
      rw [List.filterMap_cons, e]
      exact .cons h (ih fun j hj => hin j (by simp [hj]))

theorem publishRefusal_service (s : State) (r : RobotIdx) (q : PublishRequest) (hq : q.origin = .service) (b : Bound)
    (hb : s.bound? r = some b) :
    publishRefusal s r q = (if b.unbinding = true then some .notBound
      else if ¬ s.authority? b.bank = some .service then some .authority
      else if b.review = true ∧ q.confirm = false then some .review
      else if q.seq = b.publishedSeq ∨ (b.publish = .flipping ∧ ∃ p, b.pendingReq = some p ∧ p.seq = q.seq) then some .sameSequence
      else none) := by
  unfold publishRefusal
  simp only [hb, hq, holdsAuthority, sameSequence]
  congr 1
  simp only [Bool.not_eq_true', decide_eq_false_iff_not, Bool.and_eq_true, Bool.or_eq_true, decide_eq_true_iff, Option.map_eq_some_iff]

theorem fetchAnswered_phase {s b : State} (h : s.fetchAnswered b) : b.cmd.phase = .executing .begun := by
  obtain ⟨_, _, _, _, _, _, _, rfl⟩ := h; rfl

theorem cancelAll_eq (rs : List RobotIdx) (s : State) : cancelAll rs s = rs.foldl (fun v r => cancelPublishes r v) s := by
  induction rs generalizing s with
  | nil => rfl
  | cons r rs ih => simp only [cancelAll, ih, List.foldl_cons]

theorem postNotice_svc (n : Notice) (s : State) : (postNotice n s).svc = s.svc := by
  obtain ⟨m, r, h⟩ := postNotice_touches n s
  rw [h]

theorem cancelPublishes_svc (r : RobotIdx) (s : State) : (cancelPublishes r s).svc = s.svc := by
  unfold cancelPublishes
  split
  · simp only; split
    · rw [postNotice_svc]; rfl
    · rfl
  · rfl

theorem cancelAll_svc (rs : List RobotIdx) (s : State) : (cancelAll rs s).svc = s.svc := by
  induction rs generalizing s with
  | nil => rfl
  | cons r rs ih => simp only [cancelAll, ih, cancelPublishes_svc]

theorem allIdle_iff (s : State) (rs : List RobotIdx) :
    s.allIdle rs = true ↔ ∀ r ∈ rs, ∀ x, s.bound? r = some x → x.publish = .idle := by
  unfold State.allIdle
  rw [List.all_eq_true]
  refine forall₂_congr fun r _ => ?_
  cases h : s.bound? r <;> simp

theorem withAuthority_touches (a : Authority) (ws : List WinIdx) (s : State) :
    ∃ w, s.withAuthority a ws = { s with win := w } := by
  induction ws generalizing s with
  | nil => exact ⟨s.win, rfl⟩
  | cons i ws ih =>
    unfold State.withAuthority at ih ⊢
    rw [List.foldl_cons]
    split
    · obtain ⟨w, h⟩ := ih (s.setEntry i _)
      rw [h]; exact ⟨w, rfl⟩
    · exact ih s

theorem withRobots_touches (f : Bound → Bound) (rs : List RobotIdx) (s : State) :
    ∃ w, s.withRobots f rs = { s with robots := w } := by
  induction rs generalizing s with
  | nil => exact ⟨s.robots, rfl⟩
  | cons i ws ih =>
    unfold State.withRobots at ih ⊢
    rw [List.foldl_cons]
    split
    · rename_i b _
      obtain ⟨w, h⟩ := ih (s.setRobot i (some (f b)))
      rw [h]; exact ⟨w, rfl⟩
    · exact ih s

theorem withAuthority_svc (a : Authority) (ws : List WinIdx) (s : State) (v : Session) :
    State.withAuthority { s with svc := v } a ws = { s.withAuthority a ws with svc := v } := by
  unfold State.withAuthority
  refine List.foldl_hom (fun s : State => { s with svc := v }) ?_
  intro x i
  cases h : x.entry i with
  | loaded w =>
    have : ({ x with svc := v } : State).entry i = .loaded w := h
    simp only [this]; rfl
  | empty =>
    have : ({ x with svc := v } : State).entry i = .empty := h
    simp only [this]
  | draining o n =>
    have : ({ x with svc := v } : State).entry i = .draining o n := h
    simp only [this]

theorem withRobots_svc (f : Bound → Bound) (rs : List RobotIdx) (s : State) (v : Session) :
    State.withRobots { s with svc := v } f rs = { s.withRobots f rs with svc := v } := by
  unfold State.withRobots
  refine List.foldl_hom (fun s : State => { s with svc := v }) ?_
  intro x i
  cases h : x.bound? i with
  | some w =>
    have : ({ x with svc := v } : State).bound? i = some w := h
    simp only [this]; rfl
  | none =>
    have : ({ x with svc := v } : State).bound? i = none := h
    simp only [this]

theorem grantSession_eq (s : State) (c : Claim) (hs : s.svc.state = .claimed) (hc : s.svc.claim = some c)
    (hp : s.cmd.phase = .executing .consent) :
    let u := (s.withAuthority .service c.windows).withRobots
        (fun b => { b with review := true, confirmPending := false, grantHold := false }) s.svc.named
    let granted : State := { u with
        svc := { s.svc with state := .granted, consentWaiting := false, consentTimer := none, keepPhase := none,
                            keepTimer := some (s.clk.elapsed + c.keepMs * 1000000) },
        rep := { s.rep with statusMark := true } }
    grantSession s = complete .done .none
        (postNotice (.serviceGranted c) (makeReply .granted .none c.seq granted)) := by
  intro u granted
  have hg : grantSession s = (
    let s1 := s.setSvc { s.svc with consentTimer := none }
    let s2 := State.modifyRobots Bound.grant (State.setAuthorities .service c.windows s1).svc.named (State.setAuthorities .service c.windows s1)
    completeConsent .done .none (postNotice (.serviceGranted c) (makeReply .granted .none c.seq (s2.setSvc { s2.svc with
      state := .granted, consentWaiting := false, keepPhase := none,
      keepTimer := some (s2.clk.elapsed + msToNs c.keepMs) })))) := by
    unfold grantSession; rw [hc]
  rw [hg]
  suffices key : ∀ s1 s2 : State, s1 = s.setSvc { s.svc with consentTimer := none } →
      s2 = State.modifyRobots Bound.grant (State.setAuthorities .service c.windows s1).svc.named (State.setAuthorities .service c.windows s1) →
      completeConsent .done .none (postNotice (.serviceGranted c) (makeReply .granted .none c.seq (s2.setSvc { s2.svc with
      state := .granted, consentWaiting := false, keepPhase := none,
      keepTimer := some (s2.clk.elapsed + msToNs c.keepMs) }))) = complete .done .none
        (postNotice (.serviceGranted c) (makeReply .granted .none c.seq granted)) from key _ _ rfl rfl
  intro s1 s2 e1 e2
  obtain ⟨w, hw⟩ := withAuthority_touches .service c.windows s
  have h1 : s1 = { s with svc := { s.svc with consentTimer := none } } := e1.trans (setSvc_same s _ rfl)
  have hu' : s2 = { u with svc := { s.svc with consentTimer := none } } := by
    rw [e2, setAuthorities_eq, modifyRobots_eq, h1, withAuthority_svc]; exact withRobots_svc ..
  rw [hu']
  obtain ⟨w2, hw2⟩ := withRobots_touches (fun b => { b with review := true, confirmPending := false, grantHold := false }) s.svc.named (s.withAuthority .service c.windows)
  have hu2 : u = { s with win := w, robots := w2 } := by
    show State.withRobots _ _ _ = _; rw [hw2, hw]
  rw [setSvc_new _ _ (by simp [hs])]
  unfold completeConsent
  obtain ⟨p, r, hn⟩ := postNotice_touches (.serviceGranted c) (makeReply .granted .none c.seq granted)
  have hph : (postNotice (.serviceGranted c) (makeReply .granted .none c.seq granted)).cmd.phase = .executing .consent := by
    rw [hn]; show (makeReply .granted .none c.seq granted).cmd.phase = _
    rw [makeReply_cmd]; show u.cmd.phase = _; rw [hu2]; exact hp
  have hgr : ({ u with
        svc := { s.svc with state := .granted, consentWaiting := false, consentTimer := none, keepPhase := none,
                            keepTimer := some (u.clk.elapsed + msToNs c.keepMs) },
        rep := { u.rep with statusMark := true } } : State) = granted := by
    simp only [granted, hu2]; try rfl
  refine Eq.trans (b := if (postNotice (.serviceGranted c) (makeReply .granted .none c.seq granted)).cmd.phase = .executing .consent
    then complete .done .none (postNotice (.serviceGranted c) (makeReply .granted .none c.seq granted)) else postNotice (.serviceGranted c) (makeReply .granted .none c.seq granted)) ?_ ?_
  · rw [← hgr]
  · rw [if_pos hph]

end Sys2Proof.Machine
end

