-- ==== Sys2Proof/Tests/Slice0.lean ====
section
/-! SUPPORT. Tests: ill-formed terms that `Instr.wf` refuses; bytes written out from the spec's layouts and the command or
record they spell; the values of the spec's worked sequences, one step each; and, for each statement with hypotheses, a
state and operands that meet them. -/

open Sys2Proof Sys2Proof.Machine

namespace Sys2Proof.Tests

/-! ## The cabinet of the worked examples (02 section 2.7, 05 section 5.10, 06 section 6.11, 07 section 7.9) -/

/-- The next state of a command, the state itself should it stop. -/
def after (c : Instr) (s : State) : State :=
  match exec c s with
  | .next t    => t
  | .fault _   => s
  | .refused _ => s

/-- A window of a plan. -/
def win (base size : Nat) (readers writers : Byte) (role : Role) : Window :=
  { base := BitVec.ofNat 32 base, size := BitVec.ofNat 32 size, readSet := readers, writeSet := writers, role := role }

/-- The windows of Table 2-7. -/
def bank0 : Window := win 0x20000000 0x1000 0x19 0x11 (.banked true .production 0 0x21000000 0x21001000)
def guarded1 : Window := win 0x30000000 0x400 0x13 0x11 (.guarded true .production)
def ring2 : Window := win 0x31000000 0x10000 0x01 0x02 (.plain none)
def time3 : Window := win 0x32000000 0x400 0x01 0x02 (.feed .time (some .at8))
def robot4 : Window := win 0x33000000 0x1000 0x01 0x08 (.feed .robot none)
def verdict5 : Window := win 0x34000000 0x800 0x01 0x04 (.feed .verdict (some .at16))
def service6 : Window := win 0x35000000 0x200 0x11 0x10 (.feed .service none)
def plain7 : Window := win 0 0x0FFF0000 0xE1 0x21 (.plain none)

/-- Robot 0 as bound in 06 section 6.11.1. -/
def bound0 : Bound :=
  { bank := 0, feed := 4, reader := 3, period := 2000, echoLimit := 8, nudgeCount := 1, unbinding := false, published := .a,
    publishedSeq := 11, publish := .idle, pendingReq := none, nextReq := none, confirmPending := false, echo := .confirmed,
    toDeadline := 0, nudgesUsed := 0, mode := .hold, sinceStatus := 0, faultCode := 0, review := false, grantHold := false,
    nextBoundary := 1000006000000, flipTime := 0, newFlipTime := none }

/-- The time source of window 3 with the path delay of 05 section 5.10.1, heard. -/
def place3 : Place :=
  { window := some 3, lastOrigin := some 7203000000000, lastGrade := some 6, lastAccept := some 1000, heard := true,
    heardTimer := some 2000001000, pathDelay := 350 }

/-- The cabinet of 02 section 2.7.1: the windows of Table 2-7 under ENFORCING, robot 0 bound, reporting enabled, an
empty own queue. -/
def plan : State :=
  let w := (((((((State.reset.setEntry 0 (.loaded bank0)).setEntry 1 (.loaded guarded1)).setEntry 2 (.loaded ring2)).setEntry 3
    (.loaded time3)).setEntry 4 (.loaded robot4)).setEntry 5 (.loaded verdict5)).setEntry 6 (.loaded service6)).setEntry 7
    (.loaded plain7)
  let f := ((((w.setSlot 3 (some .empty)).setSlot 4 (some .empty)).setSlot 5 (some .empty)).setSlot 6 (some .empty)).setRobot 0
    (some bound0)
  { f with
    win := { f.win with policy := .enforcing }
    path := { f.path with own := [] }
    rep := { f.rep with enabled := true, statusMark := false }
    flt := { f.flt with marks := [] }
    clk := { f.clk with elapsed := 10000, ns := 1000005000000, place0 := place3, selected := some 3, state := .acquiring } }

/-- Robot 0's record is changed. -/
def onRobot0 (f : Bound → Bound) (s : State) : State := s.modifyRobot 0 f

/-- A read and a write of whole beats. -/
def rd (tag : Tag) (a : Nat) (beats : Fin 32) : LinkRequest :=
  { tag := tag, dir := .read, addr := BitVec.ofNat 32 a, beats := beats, data := [], enables := [] }
def wr (tag : Tag) (a : Nat) (beats : Fin 32) (data : List Byte) : LinkRequest :=
  { tag := tag, dir := .write, addr := BitVec.ofNat 32 a, beats := beats, data := data,
    enables := List.replicate (8 * beats.val) true }
def wr0 (tag : Tag) (a : Nat) (beats : Fin 32) : LinkRequest := wr tag a beats (List.replicate (8 * beats.val) 0)

/-- The state in which the command unit waits for the answer of a presented fetch, and the one in which its command
begins. -/
def fetching (s : State) : State :=
  (s.withOwn [{ id := 0, kind := .fetch, addr := s.areaBase + 0x1000, len := 64, body := none, after := [],
                presented := true }]).setPhase .fetching
def begun (s : State) : State := (s.withOwn []).setPhase (.executing .begun)

/-- The own write of a kind, its bytes, if one stands in the own queue. -/
def written (k : OwnKind) (s : State) : List Byte :=
  match s.path.own.find? fun t => decide (t.kind = k) with
  | some t => t.body.getD []
  | none   => []

/-- Status and reason of the completion written. -/
def completion (s : State) : List Byte := (written .completion s).take 2

/-- Kind and tag of the fault in record 0. -/
def fault0 (s : State) : Option (FaultKind × Option WinIdx) := s.flt.records[0].map fun r => (r.info.kind, r.info.window)

/-- The address a request was forwarded to, if it was. -/
def sentTo (s : State) : Option Nat := s.path.passing.getLast?.map fun t => t.addr.toNat

/-! ## Well-formed commands: an ill-formed term for each check -/

theorem test_wf_read_with_data : Instr.wf (.linkRequest { rd 0 0 1 with data := [0] }) = false := by decide
theorem test_wf_read_with_enables : Instr.wf (.linkRequest { rd 0 0 1 with enables := [true] }) = false := by decide
theorem test_wf_write_without_data : Instr.wf (.linkRequest { wr0 0 0 1 with data := [] }) = false := by decide
theorem test_wf_write_short_enables : Instr.wf (.linkRequest { wr0 0 0 2 with enables := List.replicate 8 true }) = false := by decide
theorem test_wf_link_request : Instr.wf (.linkRequest (wr0 0 0 2)) = true := by decide
theorem test_wf_unknown_command_known : Instr.wf (.unknownCommand 0x10) = false ∧ Instr.wf (.unknownCommand 0x11) = true := by decide
theorem test_wf_status_unknown_mode :
    Instr.wf (.robotStatus ⟨4, 0, 0⟩ { robot := 0, mode := .unknown, applied := 0, faultCode := 0 }) = false := by decide
theorem test_wf_report_valve :
    Instr.wf (.fillReport ⟨4, 0, 0⟩ { robot := 0, serial := 0, valve := 128, result := .ok, mass := 0 }) = false := by decide
theorem test_wf_claim_empty : Instr.wf (.serviceClaim ⟨6, 0, 0⟩ { seq := 0, windows := [], keepMs := 100 }) = false := by decide
theorem test_wf_claim_nine_windows :
    Instr.wf (.serviceClaim ⟨6, 0, 0⟩ { seq := 0, windows := [0, 1, 2, 3, 4, 5, 6, 7, 8], keepMs := 100 }) = false := by decide
theorem test_wf_claim_keep_below : Instr.wf (.serviceClaim ⟨6, 0, 0⟩ { seq := 0, windows := [0], keepMs := 99 }) = false := by decide
theorem test_wf_claim_keep_above : Instr.wf (.serviceClaim ⟨6, 0, 0⟩ { seq := 0, windows := [0], keepMs := 5001 }) = false := by decide

/-! ## Bytes written out from Tables 10-2, 10-6 and 10-7 -/

/-- The table gives no row a bit, so no word spells a command and the host's word leaves the state as it is. -/
theorem test_table_words_spell_nothing : decodeTableWord 32 0xFFFF = none ∧ State.reset.withFetchWord 32 0xFFFF = State.reset :=
  ⟨rfl, rfl⟩

/-- A 64-byte slot: code, flags, six bytes, then the parameters from byte 8. -/
def slot (code flags : Byte) (params : List Byte) : List Byte :=
  fitBytes 64 ([code, flags, 0, 0, 0, 0, 0, 0] ++ params)

/-- WINDOW LOAD of window 5 of Table 2-7: index 5, role 4 FEED, kind 3 VERDICT, stamp 16, read set 01h, write set 04h. -/
theorem test_slot_window_load :
    decodeSlot (slot 0x02 0 [5, 4, 3, 16, 0, 0, 0x01, 0x04, 0, 0, 0, 0x34, 0, 0x08, 0, 0, 0, 0, 0, 0, 0, 0, 0, 0])
      = .windowLoad { index := 5, role := 4, feedKind := 3, stamp := 16, eligible := false, robot := 0, readSet := 0x01,
                      writeSet := 0x04, base := 0x34000000, size := 0x800, halfA := 0, halfB := 0 } := by decide

/-- The load of window 0 of Table 2-7: role 3 BANKED, service-eligible, robot 0, half A 21000000h, half B 21001000h. -/
theorem test_slot_window_load_banked :
    decodeSlot (slot 0x02 0 [0, 3, 0, 0, 1, 0, 0x19, 0x11, 0, 0, 0, 0x20, 0, 0x10, 0, 0, 0, 0, 0, 0x21, 0, 0x10, 0, 0x21])
      = .windowLoad { index := 0, role := 3, feedKind := 0, stamp := 0, eligible := true, robot := 0, readSet := 0x19,
                      writeSet := 0x11, base := 0x20000000, size := 0x1000, halfA := 0x21000000, halfB := 0x21001000 } := by
  decide

theorem test_slot_robot_bind :
    decodeSlot (slot 0x04 0 [0, 0, 4, 3, 8, 1, 0, 0, 0xD0, 0x07, 0, 0])
      = .robotBind { robot := 0, bank := 0, feed := 4, reader := 3, echoLimit := 8, nudges := 1, period := 2000 } := by decide

/-- The setup of Table 7-8: mass 5,000 = 1388h, delay 35,000 = 88B8h, width 20,000 = 4E20h, interval 2,000 = 07D0h. -/
def setupBytes : List Byte :=
  [5, 2, 3, 1, 4, 1, 2, 0, 5, 5, 0, 0, 0x88, 0x13, 30, 0, 0xB8, 0x88, 0, 0, 0x20, 0x4E, 0, 0, 0xD0, 0x07]
def setup7 : TrackParams :=
  { rejectPocket := 5, cameras := 2, required := 3, unsure := 1, deadline := 4, station0 := 1, station1 := 2, station2 := 0,
    feed0 := 5, feed1 := 5, feed2 := 0, target := 5000, tolerance := 30, delay := 35000, width := 20000, lineStop := 2000 }
theorem test_slot_track_setup : decodeSlot (slot 0x06 0 setupBytes) = .trackSetup setup7 := by decide

theorem test_slot_clock_set :
    decodeSlot (slot 0x08 0 [8, 7, 6, 5, 4, 3, 2, 1]) = .clockSet 0x0102030405060708 := by decide

theorem test_slot_clock_tune :
    decodeSlot (slot 0x09 0 [0x43, 0, 0, 0, 0x40, 0x42, 0x0F, 0, 0xE8, 0x03, 0, 0, 1, 4, 0, 0, 0xA0, 0x86, 0x01, 0, 0xD0, 0x07,
        3, 8, 0x5E, 0x01, 0, 0, 0x60, 0x01, 0, 0])
      = .clockTune { given := 0x43, step := 1000000, lock := 1000, pShift := 1, iShift := 4, rateLimit := 100000,
                     holdover := 2000, window1 := 3, window2 := 8, delay1 := 350, delay2 := 352 } := by decide

theorem test_slot_service :
    decodeSlot (slot 0x0A 0 [3, 0, 30, 0, 10, 0]) = .serviceSetup { given := 3, consent := 30, lockout := 10 }
    ∧ decodeSlot (slot 0x0B 0 [1, 0, 0, 0, 8, 0, 0, 0]) = .serviceConsent 1 8
    ∧ decodeSlot (slot 0x0C 0 []) = .serviceRevoke := by decide

theorem test_slot_others :
    decodeSlot (slot 0x01 0 []) = .policyEnforce ∧ decodeSlot (slot 0x03 0 [5]) = .windowDrop 5
    ∧ decodeSlot (slot 0x05 0 [2]) = .robotUnbind 2 ∧ decodeSlot (slot 0x07 0 []) = .trackClear
    ∧ decodeSlot (slot 0x0D 0 [0x0C, 1]) = .faultClear 0x0C 1 ∧ decodeSlot (slot 0x0E 0 [1, 0]) = .reporting 1 0
    ∧ decodeSlot (slot 0x0F 0 [4]) = .snapshot 4 ∧ decodeSlot (slot 0x10 1 []) = .fence true
    ∧ decodeSlot (slot 0x10 2 []) = .fence false ∧ decodeSlot (slot 0x11 0 []) = .unknown 0x11
    ∧ decodeSlot (slot 0x00 0 []) = .unknown 0x00 := by decide

/-- The verdict of 03 section 3.8.1 in its 32 bytes: type 4, camera 1, sequence 00010A3Ch, serial 41,207 = A0F7h, FAIL. -/
def verdictBytes : List Byte :=
  [4, 0, 1, 0, 0x3C, 0x0A, 0x01, 0, 0xF7, 0xA0, 0, 0, 2, 0, 0, 0, 0, 0, 0, 0, 0, 0, 0, 0, 0, 0, 0, 0, 0, 0, 0x3C, 0x0A]

/-- The record in four words. -/
def raw (bs : List Byte) : RawRecord :=
  let word (o : Nat) : Word := BitVec.ofNat 64 (fieldAt bs o 8)
  { w0 := word 0, w1 := word 8, w2 := word 16, w3 := word 24 }

theorem test_record_verdict :
    (raw verdictBytes).typed = .good (.verdict { camera := 1, serial := 41207, verdict := .fail, defect := 0, capture := 0 })
    ∧ (raw verdictBytes).whole = true ∧ (raw (verdictBytes.set 30 0x3D)).whole = false
    ∧ (raw (verdictBytes.set 12 4)).typed = .badField ∧ (raw (verdictBytes.set 2 3)).typed = .badSubject := by decide

theorem test_record_time_sync :
    (raw ([1, 0, 0, 0, 1, 0, 0, 0] ++ leBytes 8 0x1122 ++ leBytes 8 0x3344 ++ [6, 0, 0, 0, 0, 0, 1, 0])).typed
      = .good (.timeSync { receive := 0x1122, origin := 0x3344, grade := 6 }) := by decide

theorem test_record_robot_status :
    (raw [2, 0, 5, 0, 7, 0, 0, 0, 2, 0, 40, 0, 9, 0, 0, 0, 0, 0, 0, 0, 0, 0, 0, 0, 0, 0, 0, 0, 0, 0, 7, 0]).typed
      = .good (.robotStatus { robot := 5, mode := .hold, applied := 40, faultCode := 9 }) := by decide

/-- Fill report of serial 1001, valve 7, result 5 ABORT, net mass 5,045 = 13B5h. -/
theorem test_record_fill_report :
    (raw [3, 0, 0, 0, 7, 0, 0, 0, 0xE9, 0x03, 0, 0, 7, 5, 0xB5, 0x13, 0, 0, 0, 0, 0, 0, 0, 0, 0, 0, 0, 0, 0, 0, 7, 0]).typed
      = .good (.fillReport { robot := 0, serial := 1001, valve := 7, result := .abort, mass := 5045 })
    ∧ (raw [3, 0, 0, 0, 7, 0, 0, 0, 0xE9, 0x03, 0, 0, 128, 5, 0, 0, 0, 0, 0, 0, 0, 0, 0, 0, 0, 0, 0, 0, 0, 0, 7, 0]).typed
      = .badField := by decide

/-- The claim of Table 8-6: windows 0 and 1, keep-alive 1,000 ms = 03E8h, claim sequence 8. -/
def claimBytes : List Byte :=
  [5, 0, 0, 0, 7, 0, 0, 0, 2, 0, 0xE8, 0x03, 8, 0, 0, 0, 0, 1, 99, 99, 99, 99, 99, 99, 0, 0, 0, 0, 0, 0, 7, 0]
def claim8 : Claim := { seq := 8, windows := [0, 1], keepMs := 1000 }
theorem test_record_service_claim :
    (raw claimBytes).typed = .good (.serviceClaim claim8) ∧ (raw (claimBytes.set 8 9)).typed = .badField
    ∧ (raw (claimBytes.set 17 32)).typed = .badField := by decide

theorem test_record_service :
    (raw (fitBytes 32 [6, 0, 0, 0, 7, 0, 0, 0, 1])).typed = .good (.serviceKeep true)
    ∧ (raw (fitBytes 32 [6, 0, 0, 0, 7, 0, 0, 0, 2])).typed = .badField
    ∧ (raw (fitBytes 32 [7])).typed = .good .serviceRelease
    ∧ (raw (fitBytes 32 [8, 1, 0, 0, 7, 0, 0, 0, 0, 0, 16, 0])).typed
        = .good (.servicePublish { robot := 0, seq := 16, confirm := true }) := by decide

/-! ## The values of the worked sequences, one step each -/

/-- Table 2-8, the requests that are forwarded, and where to. -/
theorem test_link_forwarded :
    sentTo (after (.linkRequest (rd 3 0x20000040 4)) plan) = some 0x21000040
    ∧ sentTo (after (.linkRequest (rd 3 0x20000000 1)) plan) = some 0x21000000
    ∧ sentTo (after (.linkRequest (wr0 0 0x20000100 16)) plan) = some 0x21001100
    ∧ sentTo (after (.linkRequest (wr0 2 0x34000020 4)) plan) = some 0x34000020
    ∧ sentTo (after (.linkRequest (wr0 0 0x0FFF0008 1)) plan) = some 0x0FFF0008 := by decide

/-- Table 2-8, the requests that are refused, with their fault kinds and window indices. -/
theorem test_link_refused :
    [wr0 0 0x20000000 2, wr0 3 0x20000100 1, wr0 4 0x20000100 1, rd 5 0x21000000 1, wr0 1 0x30000000 1, wr0 5 0x300003C0 16,
      wr0 4 0x350001E0 4, wr0 0 0x0FFF0000 2, rd 2 0x0FFF2000 1, rd 6 0x40000000 1, rd 0 0x40000000 1].map
        (fun r => fault0 (after (.linkRequest r) plan))
      = [some (.bankWord, some 0), some (.rights, some 0), some (.authority, some 0), some (.hidden, none),
         some (.rights, some 1), some (.straddle, some 1), some (.rights, some 6), some (.control, none),
         some (.control, none), some (.unmapped, none), some (.unmapped, none)] := by decide

/-- Table 1-3. -/
theorem test_malformed :
    malformed (wr0 2 0x00401FF8 2) = true ∧ malformed (rd 0 0x00401000 16) = false ∧ malformed (rd 3 0x00401000 17) = true
    ∧ malformed { wr0 5 0x00401004 1 with enables := List.replicate 8 false } = true
    ∧ malformed (wr0 1 0x00401FFC 1) = true := by decide

/-- Table 10-3: head 7, last observed tail 9. A tail of 70 stops the ring; stopped at head 8, a tail of 9 is ignored and
one of 8 runs the ring again. -/
def ring7 : State := { plan with cmd := { head := 7, tail := 9, ring := .running, phase := .executing (.drain 5) } }
def ring8 : State := { plan with cmd := { head := 8, tail := 9, ring := .stopped, phase := .idle } }
theorem test_command_tail_write :
    (after (.commandTailWrite 70) ring7).cmd.ring = .stopped ∧ (after (.commandTailWrite 70) ring7).cmd.tail = 9
    ∧ fault0 (after (.commandTailWrite 70) ring7) = some (.commandRing, none)
    ∧ after (.commandTailWrite 9) ring8 = ring8 ∧ (after (.commandTailWrite 8) ring8).cmd.ring = .running := by decide

/-- 09 section 9.6.2: producer 1,000, consumed 872, two notices dropped; the host writes 900. -/
def ring1000 : State :=
  { plan with rep := { plan.rep with producer := 1000, consumed := 872, published := 1000, dropped := true, droppedCount := 2 } }
theorem test_notice_consumed_write :
    (after (.noticeConsumedWrite 900) ring1000).rep.producer = 1001
    ∧ (after (.noticeConsumedWrite 900) ring1000).rep.dropped = false
    ∧ (after (.noticeConsumedWrite 900) ring1000).path.own.map OwnTxn.addr = [0x0FFF2D00, 0x0FFF0018]
    ∧ (after (.noticeConsumedWrite 900) ring1000).pins.attention = true := by decide

/-- R135. -/
theorem test_decision_consumed_write :
    (after (.decisionConsumedWrite 5) { plan with rep := { plan.rep with decProducer := 7 } }).rep.decConsumed = 5
    ∧ (after (.decisionConsumedWrite 8) { plan with rep := { plan.rep with decProducer := 7 } }).rep.decConsumed = 0 := by decide

/-- Table 6-4: the first two publishes of robot 0. -/
def flipping0 : State := onRobot0 (fun b => { b with publish := .flipping, pendingReq := some ⟨12, false, .production⟩ }) plan
theorem test_publish_word_write :
    ((after (.publishWordWrite 0 12) plan).bound? 0).map (fun b => (b.publish, b.pendingReq))
      = some (.pending, some ⟨12, false, .production⟩)
    ∧ ((after (.publishWordWrite 0 0x1000D) flipping0).bound? 0).map (fun b => (b.publish, b.nextReq))
      = some (.flipping, some ⟨13, true, .production⟩) := by decide

/-- Table 1-7: the fetch waits for the slot write and the tail write, and is presented after them. -/
def pass (id : Nat) (dir : Dir) : PassingTxn := { id := id, dir := dir, addr := 0x0FFF1140, len := 8, data := [], enables := [] }
def fetch (ahead : List Nat) (shown : Bool) : OwnTxn :=
  { id := 9, kind := .fetch, addr := 0x0FFF1140, len := 64, body := none, after := ahead, presented := shown }
theorem test_memory_port_present :
    (after .memoryPortPresent { plan with path := { plan.path with
      last := some .passing, passing := [pass 7 .write, pass 8 .write], own := [fetch [7, 8] false] } }).path.downstream
        = [pass 7 .write]
    ∧ (after .memoryPortPresent { plan with path := { plan.path with
      last := some .passing, passing := [pass 10 .read], own := [fetch [7, 8] false] } }).path.own = [fetch [7, 8] true] := by decide

/-- R14: a passing transaction that goes alone after a reset leaves the first choice with both waiting to the passing
stream; the next one goes to own. -/
theorem test_arbiter_first_choice :
    let s : State := { plan with path := { plan.path with passing := [pass 7 .read], own := [] } }
    let t := after .memoryPortPresent s
    let both := { t with path := { t.path with passing := [pass 8 .read, pass 10 .read], own := [fetch [] false] } }
    let u := after .memoryPortPresent both
    t.path.last = none ∧ u.path.downstream = [pass 7 .read, pass 8 .read]
      ∧ (after .memoryPortPresent u).path.own = [fetch [] true] := by decide

/-- R93, R111, R118, R127: an unbound robot's record and a PURGED entry show no flag. -/
theorem test_snapshot_clear_flags :
    (robotBytes 0 0 none).head? = some 0 ∧ (bareEntryBytes 0 0 3).take 2 = [3, 0] := ⟨rfl, rfl⟩

/-- Table 1-6: a, b, c forwarded, d refused and answered; memory's answer of b gives nothing, that of c, with a and b gone,
gives c and d. -/
def entry (id : Nat) (d : Disposition) (answered : Bool) : Entry :=
  { id := id, tag := 3, dir := .read, first := 0x33000000, last := 0x33000007, disposition := d, checked := .window 4,
    half := none, readerRead := false, forwarded := some 0x33000000, answered := answered, data := [] }
theorem test_passing_answer :
    (after (.passingAnswer 2 [1, 2, 3, 4, 5, 6, 7, 8]) { plan with path := { plan.path with
      inflight := [entry 1 .forwarded false, entry 2 .forwarded false, entry 3 .forwarded false, entry 4 .refused true],
      downstream := [pass 1 .read, pass 2 .read] } }).path.responses = []
    ∧ (after (.passingAnswer 3 [1, 2, 3, 4, 5, 6, 7, 8]) { plan with path := { plan.path with
      inflight := [entry 3 .forwarded false, entry 4 .refused true], downstream := [pass 3 .read] } }).path.responses.map
        (fun r => (r.id, r.kind, r.data)) = [(3, .done, [1, 2, 3, 4, 5, 6, 7, 8]), (4, .refused, [])] := by decide

/-- The answer of a fetch is the command its bytes spell: POLICY ENFORCE under OPEN. -/
theorem test_own_answer :
    (after (.ownAnswer 0 (slot 0x01 0 [])) (fetching { plan with win := { plan.win with policy := .openAll } })).win.policy
      = .enforcing := by decide

/-- R13: the unit that has waited longest gets the place. -/
theorem test_own_queue_join :
    (after .ownQueueJoin { plan with path := { plan.path with waiting := [.txn (fetch [] false), .status] } }).path.own
      = [fetch [] false] := by decide

/-- R16, R17, R18: the outputs while POWER-GOOD is low; strap 2 puts the area at 2FFF0000h; CABINET RESET abandons the
in-flight set; its release runs the session by KEY. -/
theorem test_power_good_fall :
    (after .powerGoodFall { plan with pins := { plan.pins with attention := true, reject := true } }).pins
      = { plan.pins with powerGood := false } := by decide
theorem test_power_good_rise :
    (after (.powerGoodRise 2) (after .powerGoodFall plan)).areaBase = 0x2FFF0000
    ∧ (after (.powerGoodRise 2) (after .powerGoodFall plan)).clk.ns = 0 := by decide
theorem test_cabinet_reset_assert :
    (after .cabinetResetAssert { plan with path := { plan.path with inflight := [entry 1 .forwarded false] } }).path.inflight = []
    ∧ (after .cabinetResetAssert plan).clk.ns = 1000005000000 := by decide
theorem test_cabinet_reset_release :
    (after (.cabinetResetRelease 0) { plan with pins := { plan.pins with cabinetReset := true, key := true } }).svc.state
      = .keyed := by decide

/-- Table 2-9: the drain of entry 5 ends when no entry checked against it is in flight. -/
def reload5 : Window := win 0x34000000 0x1000 0x01 0x04 (.feed .verdict (some .at16))
def draining5 : State := (plan.setEntry 5 (.draining verdict5 (some reload5))).setPhase (.executing (.drain 5))
theorem test_drain_end :
    (after .drainEnd draining5).entry 5 = .loaded reload5 ∧ completion (after .drainEnd draining5) = [1, 0] := by decide

/-- R164: a fetch of slot 8 while head 8 differs from tail 10. -/
theorem test_command_fetch :
    (after .commandFetch { plan with cmd := { head := 8, tail := 10, ring := .running, phase := .idle } }).path.own.map
      (fun t => (t.kind, t.addr, t.len)) = [(.fetch, 0x0FFF1200, 64)] := by decide

theorem test_unknown_command : completion (after (.unknownCommand 0x11) (fetching plan)) = [2, 1] := by decide
theorem test_policy_enforce :
    (after .policyEnforce (fetching { plan with win := { plan.win with policy := .openAll } })).win.policy = .enforcing := by
  decide

/-- 02 section 2.7.1: window 7 with size 10000000h is refused OVERLAP-CONTROL (6); Table 2-9's reload at an idle entry. -/
def load7 : LoadParams :=
  { index := 7, role := 1, feedKind := 0, stamp := 0, eligible := false, robot := 0, readSet := 0xE1, writeSet := 0x21,
    base := 0, size := 0x10000000, halfA := 0, halfB := 0 }
def load5 : LoadParams :=
  { index := 5, role := 4, feedKind := 3, stamp := 16, eligible := false, robot := 0, readSet := 0x01, writeSet := 0x04,
    base := 0x34000000, size := 0x1000, halfA := 0, halfB := 0 }
theorem test_window_load :
    completion (after (.windowLoad load7) (fetching plan)) = [2, 6]
    ∧ (after (.windowLoad load5) (fetching plan)).entry 5 = .loaded reload5 := by decide
/-- R35, R41: window 0 is bound (4); window 2 drops. -/
theorem test_window_drop :
    completion (after (.windowDrop 0) (fetching plan)) = [2, 4]
    ∧ (after (.windowDrop 2) (fetching plan)).entry 2 = .empty := by decide

/-- R94, R95: robot 0 is bound already (4); unbound, it binds, and the bank word and the copy's first piece follow. -/
def bind0 : BindParams := { robot := 0, bank := 0, feed := 4, reader := 3, echoLimit := 8, nudges := 1, period := 2000 }
def unbound : State := plan.setRobot 0 none
theorem test_robot_bind :
    completion (after (.robotBind bind0) (fetching plan)) = [2, 4]
    ∧ ((after (.robotBind bind0) (fetching unbound)).path.own.map fun t => (t.addr, t.len)).take 2
      = [(0x21000000, 8), (0x21000008, 120)] := by decide
theorem test_robot_unbind : (after (.robotUnbind 0) (fetching plan)).bound? 0 = none := by decide
theorem test_unbind_complete :
    (after .unbindComplete ((onRobot0 (fun b => { b with unbinding := true }) plan).setPhase (.executing (.unbind 0)))).bound? 0
      = none := by decide

/-- 07 section 7.9.1: after the setup the chain is PURGED at positions 0 to 4. -/
def config7 : TrackConfig :=
  { rejectPocket := 5, cameras := [{ feed := 5, station := 1 }, { feed := 5, station := 2 }], deadline := 4, required := 3,
    unsure := .reject, target := 5000, tolerance := 30, delay := 35000, width := 20000 }
theorem test_track_setup :
    (after (.trackSetup setup7) (fetching plan)).trk.chain = [.purged, .purged, .purged, .purged, .purged]
    ∧ (after (.trackSetup setup7) (fetching plan)).trk.cfg = some config7 := by decide
/-- R118: a clear of a running line is refused BUSY (5). -/
theorem test_track_clear :
    completion (after .trackClear (fetching { plan with trk := { plan.trk with cfg := some config7, line := .running } })) = [2, 5]
    ∧ (after .trackClear (fetching { plan with trk := { plan.trk with cfg := some config7, nextExit := some 7 } })).trk.nextExit
      = none := by decide

/-- R89: a CLOCK SET while a source is heard leaves the clock ACQUIRING. -/
theorem test_clock_set :
    (after (.clockSet 5) (fetching plan)).clk.ns = 5 ∧ (after (.clockSet 5) (fetching plan)).clk.state = .acquiring := by decide
/-- R90, R91: the path delay of window 3, 350 ns; window 8 serves no source (9 ROLE). -/
def tune (given w1 : Byte) : TuneParams :=
  { given := given, step := 0, lock := 0, pShift := 0, iShift := 0, rateLimit := 0, holdover := 0, window1 := w1, window2 := 0,
    delay1 := 352, delay2 := 0 }
theorem test_clock_tune :
    (after (.clockTune (tune 0x40 3)) (fetching plan)).clk.place0.pathDelay = 352
    ∧ completion (after (.clockTune (tune 0x40 8)) (fetching plan)) = [2, 9] := by decide

/-- Table 8-6, the session as it stands from the claim on: window 6 feeds, the reply sequence is 20, robot 0 in HOLD. -/
def keyed : State := { plan with svc := { plan.svc with state := .keyed, replySeq := 20 } }
def claimed : State :=
  { plan with svc := { plan.svc with state := .claimed, claim := some claim8, named := [0], consentTimer := some 30000010000,
                                     replySeq := 20 } }
def granted : State :=
  (plan.withAuthority .service [0, 1]).withRobots (fun b => { b with review := true }) [0]
def session : State :=
  { granted with svc := { plan.svc with state := .granted, claim := some claim8, named := [0], keepPhase := some true,
                                        keepTimer := some 1000010000, replySeq := 21 } }
/-- The source of the records of window 6. -/
def source6 : Source := { window := 6, slot := 0x35000000, seq := 7 }

theorem test_service_setup : completion (after (.serviceSetup ⟨1, 121, 0⟩) (fetching plan)) = [2, 2] := by decide
/-- Table 8-6 at 12.000: the next publish 29 is discarded, the grant hold set. -/
theorem test_service_consent :
    ((after (.serviceConsent 1 8) (fetching (onRobot0
      (fun b => { b with publish := .copying, nextReq := some ⟨29, false, .production⟩ }) claimed))).bound? 0).map
        (fun b => (b.nextReq, b.grantHold)) = some (none, true)
    ∧ completion (after (.serviceConsent 1 9) (fetching claimed)) = [2, 11] := by decide
theorem test_service_revoke :
    (after .serviceRevoke (fetching session)).svc.state = .returning ∧ completion (after .serviceRevoke (fetching plan)) = [2, 11] := by
  decide

/-- Table 9-6: records 0 to 7 held, record 4 with UNMAPPED of tag 6, counted 12 times. -/
def held (k : FaultKind) (t : Tag) (n : Nat) : Option FaultRecord :=
  some { info := { kind := k, tag := some t, addr := none, dir := none, window := none, serial := none }, first := 0, last := 0,
         repeats := n }
def storm (overflow : Bool) : State :=
  { plan with flt := { plan.flt with
    records := #v[held .rights 0 1, held .rights 1 1, held .rights 2 1, held .rights 3 1, held .unmapped 6 12, held .rights 4 1,
                  held .rights 6 1, held .rights 7 1],
    overflow := overflow } }
theorem test_fault_coalesces :
    ((after (.linkRequest (rd 6 0x40000000 1)) (storm false)).flt.records[4].map fun r => r.repeats) = some 13
    ∧ (after (.linkRequest (rd 6 0x40000000 1)) (storm false)).flt.marks = [4] := by decide
theorem test_fault_overflow :
    (after (.linkRequest (rd 5 0x34000000 1)) (storm false)).flt.overflow = true := by decide
theorem test_fault_clear :
    (after (.faultClear 0x0C 0) (fetching (storm true))).flt.marks = [2, 3]
    ∧ (after (.faultClear 0x0C 0) (fetching (storm true))).flt.overflow = true
    ∧ (after (.faultClear 0 1) (fetching (storm true))).flt.overflow = false := by decide
theorem test_reporting :
    (after (.reporting 0 1) (fetching plan)).rep.mask = true ∧ (after (.reporting 0 1) (fetching plan)).rep.enabled = false
    ∧ completion (after (.reporting 2 0) (fetching plan)) = [2, 2] := by decide

/-- Table 10-12: the IDENTITY snapshot is one write of 64 bytes at offset 6000h; kind 7 is out of range. -/
theorem test_snapshot :
    ((after (.snapshot 1) (fetching plan)).path.own.map fun t => (t.addr, t.len)).head? = some (0x0FFF6000, 64)
    ∧ completion (after (.snapshot 7) (fetching plan)) = [2, 2] := by decide
theorem test_fence :
    completion (after (.fence false) (fetching plan)) = [1, 0] := by decide
theorem test_fence_complete :
    completion (after .fenceComplete (plan.setPhase (.executing (.fence [3, 4] false)))) = [1, 0] := by decide

/-- Table 5-6, records 1 and 4: offsets +800 and -13. -/
def source3 : Source := { window := 3, slot := 0x32000000, seq := 1 }
def clock3 (integral rate : Int) (count : Nat) : State :=
  { plan with clk := { plan.clk with integral := integral, rate := rate, increment := incrementOf rate, lockCount := count } }
theorem test_time_sync :
    (let c := (after (.timeSync source3 ⟨7204000001150, 7204000000000, 6⟩ none) (clock3 0 0 0)).clk
     (c.integral, c.rate, c.increment, c.lockCount, c.state) = (100, 900, 34359707444, 1, .acquiring))
    ∧ (let c := (after (.timeSync source3 ⟨7207000000337, 7207000000000, 6⟩ none) (clock3 218 568 3)).clk
       (c.integral, c.rate, c.increment, c.state) = (216, 203, 34359731393, .locked)) := by decide
/-- Table 5-7, record 10: the third outlier in a row steps machine time by its offset. -/
theorem test_time_sync_outlier :
    (let c := (after (.timeSync source3 ⟨7208002500400, 7208000000000, 6⟩ none)
        { plan with clk := { plan.clk with state := .locked, outlierCount := 2, ns := 7208002500500 } }).clk
     (c.ns.toNat, c.rate, c.state, c.stepped) = (7208000000450, 0, .acquiring, true)) := by decide
/-- R62: the CLOCK-STATE of that step carries the time read before it; so does the SOURCE-CHANGE of a later record of the
write. -/
def noticeTimes (s : State) : List Nat :=
  (s.path.own.filter fun t => decide (t.kind = .notice)).map fun t => fieldAt (t.body.getD []) 8 8
def timed (ns : Word) (state : ClockState) (selected : Option WinIdx) (outliers : Nat) : State :=
  { plan with rep := { plan.rep with enabled := true },
              clk := { plan.clk with ns := ns, state := state, selected := selected, outlierCount := outliers } }
theorem test_time_sync_reading :
    noticeTimes (after (.timeSync source3 ⟨7208002500400, 7208000000000, 6⟩ none) (timed 7208002500500 .locked (some 3) 2))
      = [7208002500500, 7208002500500]
    ∧ noticeTimes (after (.timeSync source3 ⟨7208002500400, 7208000000000, 6⟩ (some 7208002500500)) (timed 7208000000450 .free none 0))
      = [7208002500500] := by decide
/-- Table 4-1. -/
theorem test_increments :
    [0, 203, -203, 568, 775, 900, 500000, -500000].map incrementOf
      = [34359738368, 34359731393, 34359745343, 34359718852, 34359711739, 34359707444, 34342558499, 34376918237] := by decide

theorem test_heard_timer_expiry :
    (after (.heardTimerExpiry 0) { plan with clk := { plan.clk with elapsed := 2000001000 } }).clk.selected = none := by decide
theorem test_silence_timer_expiry :
    (after .silenceTimerExpiry { plan with clk := { plan.clk with state := .locked, silence := some 10000 } }).clk.state
      = .holdover := by decide
/-- The mark of millisecond 1,000,012 of Table 4-6 carries the stepped frame; seconds 1,000. -/
def beforeMark : State := { plan with clk := { plan.clk with ns := 1000011999992, stepped := true } }
theorem test_mark :
    (after .mark (unbound.setRobot 0 none)) = unbound
    ∧ (after .mark beforeMark).pins.mark = true
    ∧ ((after .mark beforeMark).clk.codeWaiting.map fun f => (f.1.seconds, f.1.stepped)) = some (1000, true) := by decide
theorem test_mark_pulse_end :
    (after .markPulseEnd { plan with pins := { plan.pins with mark := true }, clk := { plan.clk with markEnd := some 10000 } }).pins.mark
      = false := by decide
def frame1000 : CodeFrame := { seconds := 1000, state := .acquiring, stepped := true, heard := true, source := false }
set_option maxRecDepth 4000 in
theorem test_code_frame_start :
    ((after .codeFrameStart { plan with clk := { plan.clk with codeWaiting := some (frame1000, 10000) } }).clk.codeSending.map
      fun f => (f.1.toNat % 2 ^ 48, f.1.getLsbD 48, f.1.getLsbD 49, f.1.getLsbD 50)) = some (1000, true, false, true) := by decide
theorem test_code_frame_end :
    (after .codeFrameEnd { plan with clk := { plan.clk with elapsed := 66000, codeSending := some (5, 10000) } }).clk.codeSending
      = none := by decide

/-- A state whose next REFCLK period reaches robot 0's boundary at 1,000,006,000,000 ns, with a mark. -/
def atBoundary (b : Bound) : State := { plan.setRobot 0 (some b) with clk := { plan.clk with ns := 1000005999992 } }
/-- Table 6-4: the boundary begins the flip; no traffic, so the bank word goes to half B. -/
theorem test_cycle_boundary :
    ((after (.cycleBoundary 0) (atBoundary { bound0 with publish := .pending, pendingReq := some ⟨12, false, .production⟩ })).path.own.map
      fun t => (t.kind, t.addr)) = [(.bankFlip 0, 0x21001000)] := by decide
/-- Table 6-5, boundaries b2 and b4 (echo limit 2, nudge count 1). -/
def awaiting (left nudges : Nat) : Bound :=
  { bound0 with echo := .awaiting, echoLimit := 2, toDeadline := left, nudgesUsed := nudges, sinceStatus := 6, mode := .run }
theorem test_echo_deadline :
    ((after (.echoDeadline 0) (atBoundary (awaiting 1 0))).bound? 0).map (fun b => (b.echo, b.toDeadline, b.nudgesUsed, b.sinceStatus))
      = some (.awaiting, 2, 1, 7)
    ∧ ((after (.echoDeadline 0) (atBoundary (awaiting 1 1))).bound? 0).map (fun b => (b.echo, b.nudgesUsed)) = some (.stale, 1) := by
  decide
theorem test_mode_lapse :
    ((after (.modeLapse 0) (atBoundary { bound0 with sinceStatus := 15 })).bound? 0).map (fun b => (b.mode, b.sinceStatus))
      = some (.unknown, 16) := by decide
/-- Table 6-4: the wait ends, the bank word of sequence 12 goes to half B; 1,000,006,003,120 has the low bits 3,573,590,448. -/
theorem test_flip_wait_end :
    ((after (.flipWaitEnd 0) { flipping0 with clk := { flipping0.clk with ns := 1000006003120 } }).path.own.map
      fun t => (t.addr, t.body)) = [(0x21001000, some ([12, 0, 0, 0] ++ leBytes 4 3573590448))] := by decide
/-- Table 6-4: the swap of 12; the copy begins with 120 bytes at offset 8. -/
def ownTxn (kind : OwnKind) (body : Option (List Byte)) : OwnTxn :=
  { id := 0, kind := kind, addr := 0x21001000, len := 8, body := body, after := [], presented := true }
def bank12 : State :=
  (onRobot0 (fun b => { b with newFlipTime := some 3573590448 }) flipping0).withOwn [ownTxn (.bankFlip 0) (some [])]
theorem test_swap :
    ((after (.swap 0) bank12).bound? 0).map (fun b => (b.published, b.publishedSeq, b.publish, b.echo))
      = some (.b, 12, .copying, .awaiting)
    ∧ ((after (.swap 0) bank12).path.own.map fun t => (t.addr, t.len)) = [(0x21001008, 120)] := by decide
def copying0 (own : OwnTxn) : State :=
  (onRobot0 (fun b => { b with publish := .copying, published := .b, nextReq := some ⟨13, true, .production⟩ }) plan).withOwn [own]
set_option maxRecDepth 4000 in
theorem test_copy_read_answer :
    ((after (.copyReadAnswer 0 (List.replicate 120 7)) (copying0 (ownTxn (.copyRead 0 8 120) none))).path.own.map
      fun t => (t.kind, t.addr, t.len)) = [(.copyWrite 0 8 120, 0x21000008, 120), (.copyRead 0 128 128, 0x21001080, 128)] := by decide
theorem test_copy_end :
    ((after (.copyEnd 0) (copying0 (ownTxn (.copyWrite 0 3968 128) (some [])))).bound? 0).map (fun b => (b.publish, b.pendingReq))
      = some (.pending, some ⟨13, true, .production⟩) := by decide
/-- The last line of Table 6-5. -/
def source4 : Source := { window := 4, slot := 0x33000000, seq := 1 }
theorem test_robot_status :
    ((after (.robotStatus source4 { robot := 0, mode := .run, applied := 40, faultCode := 0 })
      (onRobot0 (fun b => { b with echo := .stale, publishedSeq := 40, sinceStatus := 9 }) plan)).bound? 0).map
        (fun b => (b.echo, b.sinceStatus, b.mode)) = some (.confirmed, 0, .run) := by decide

/-- Table 7-9: the chain after t0 + 50 ms, and the reports and verdicts on it. -/
def bottle (n : BitVec 32) : Bottle :=
  { serial := some n, fill := none, verdict0 := none, verdict1 := none, verdict2 := none, windowOpen := true, exitStamp := 0 }
def tracked (chain : List ChainEntry) (next : Option (BitVec 32)) : State :=
  { plan with trk := { plan.trk with cfg := some config7, chain := chain, nextExit := next, line := .running,
                                     lastPulse := some 10000, pulseSinceSetup := true } }
def report (n : BitVec 32) (mass : BitVec 16) : FillReport := { robot := 0, serial := n, valve := 3, result := .ok, mass := mass }
def later (ms : Nat) (s : State) : State := { s with clk := { s.clk with elapsed := 10000 + ms * 1000000 } }
theorem test_fill_report :
    ((after (.fillReport source4 (report 1000 4990)) (tracked [] none)).trk.filled.map fun f => (f.serial, f.good)) = [(1000, true)]
    ∧ ((after (.fillReport source4 (report 1001 5045)) (tracked [] (some 1000))).trk.filled.map fun f => (f.serial, f.good))
      = [(1001, false)]
    ∧ fault0 (after (.fillReport source4 (report 1003 5002)) (tracked [] (some 1004))) = some (.fillLate, some 4) := by decide
def source5 : Source := { window := 5, slot := 0x34000060, seq := 0x10A3C }
def verdictOf (camera : Fin 3) (n : BitVec 32) (v : Verdict) : VerdictRecord :=
  { camera := camera, serial := n, verdict := v, defect := 0, capture := 0 }
theorem test_verdict :
    (after (.verdict source5 (verdictOf 0 1000 .pass)) (tracked [.bottle (bottle 1001), .bottle (bottle 1000)] (some 1002))).trk.chain
      = [.bottle (bottle 1001), .bottle { bottle 1000 with verdict0 := some (.pass, 0) }]
    ∧ fault0 (after (.verdict source5 (verdictOf 0 1000 .pass)) (tracked [.bottle { bottle 1000 with windowOpen := false }] (some 1004)))
      = some (.verdictLate, some 5) := by decide
/-- Table 7-9 at t0 + 50 ms with Table 7-10's slot 1: a PURGED entry is REJECTED, the width held to 15,000 µs. -/
theorem test_pocket_pulse :
    (let s := after (.pocketPulse true) (later 50 (tracked [.bottle (bottle 1000), .purged, .purged, .purged, .purged] (some 1001)))
     (s.trk.nextExit, s.trk.interval, s.trk.schedule, s.trk.chain.length)
      = (some 1002, some 50000, [{ rise := 85010000, fall := 100010000 }], 5)) := by decide
theorem test_pocket_pulse_close :
    after (.pocketPulse true) { tracked [] none with clk := { plan.clk with elapsed := 1009999 } }
      = { tracked [] none with clk := { plan.clk with elapsed := 1009999 } } := by decide
theorem test_line_stop_timer_expiry :
    (after .lineStopTimerExpiry { plan with trk := { plan.trk with line := .running, lineStop := some 10000 } }).trk.line
      = .stopped := by decide
def pulsed (now : Nat) (level : Bool) : State :=
  { plan with pins := { plan.pins with reject := level }, clk := { plan.clk with elapsed := now },
              trk := { plan.trk with schedule := [{ rise := 30035000000, fall := 30050000000 }] } }
/-- 04 section 4.8.2. -/
theorem test_reject :
    (after .rejectRise (pulsed 30035000000 false)).pins.reject = true
    ∧ (after .rejectFall (pulsed 30050000000 true)).pins.reject = false := by decide

/-- Table 8-6, event by event. -/
theorem test_key_on : (after .keyOn plan).svc.state = .keyed := by decide
theorem test_key_off :
    (after .keyOff { session with pins := { session.pins with key := true } }).svc.cause = some .key := by decide
theorem test_service_claim :
    (let s := after (.serviceClaim source6 claim8) keyed
     (s.svc.state, s.svc.consentTimer, s.svc.named, s.svc.replySeq) = (.claimed, some 30000010000, [0], 20)) := by decide
/-- 03 section 3.8.3: robot 0 reports RUN, the reply carries ROBOT-MODE (13) and the sequence 15. -/
theorem test_service_claim_refused :
    (written .reply (after (.serviceClaim source6 { claim8 with seq := 7 })
      (onRobot0 (fun b => { b with mode := .run }) { keyed with svc := { keyed.svc with replySeq := 14 } }))).take 12
      = [1, 13, 0, 0, 7, 0, 0, 0, 15, 0, 0, 0] := by decide
theorem test_service_keep :
    (after (.serviceKeep source6 true) { session with clk := { session.clk with elapsed := 500000000 } }).svc.keepTimer
      = some 1000010000
    ∧ (after (.serviceKeep source6 false) { session with clk := { session.clk with elapsed := 500000000 } }).svc.keepTimer
      = some 1500000000 := by decide
theorem test_service_release : (after (.serviceRelease source6) session).svc.cause = some .released := by decide
/-- Table 8-6 at 14.000: sequence 31 without confirm is refused REVIEW (17), reply 22. -/
theorem test_service_publish :
    (written .reply (after (.servicePublish { source6 with seq := 31 } ⟨0, 31, false⟩) session)).take 12
      = [1, 17, 0, 0, 31, 0, 0, 0, 22, 0, 0, 0] := by decide
theorem test_consent_timer_expiry :
    (after .consentTimerExpiry { claimed with clk := { claimed.clk with elapsed := 30000010000 } }).svc.state = .keyed := by decide
def consenting : State :=
  { claimed.setPhase (.executing .consent) with svc := { claimed.svc with consentWaiting := true } }
theorem test_service_grant :
    (let s := after .serviceGrant consenting
     (s.svc.state, s.authority? 0, s.svc.replySeq, (s.bound? 0).map fun b => b.review)
      = (.granted, some .service, 21, some true)) := by decide
theorem test_keep_alive_timer_expiry :
    (let s := after .keepAliveTimerExpiry { session with clk := { session.clk with elapsed := 1000010000 } }
     (s.svc.state, s.svc.cause, s.authority? 1) = (.returning, some .timeout, some .frozen)) := by decide
def returning (cause : Cause) : State :=
  { session.withAuthority .frozen [0, 1] with
    svc := { session.svc with state := .returning, cause := some cause, keepTimer := none } }
theorem test_return_end :
    (let s := after .returnEnd (returning .line)
     (s.svc.state, s.authority? 0, s.svc.lockoutTimer) = (.lockout, some .production, some 10000010000))
    ∧ (after .returnEnd (returning .released)).svc.state = .closed := by decide
theorem test_lockout_timer_expiry :
    (after .lockoutTimerExpiry { plan with svc := { plan.svc with state := .lockout, lockoutTimer := some 10000 } }).svc.state
      = .closed := by decide
/-- The mirror write of record 4 (Table 9-6) lies at 3000h + 32 x 4; the status word carries policy 1, clock 1, line 1 and
the reporting bit. -/
theorem test_mirror_write :
    (after .mirrorWrite { storm false with flt := { (storm false).flt with marks := [4] } }).path.own.map OwnTxn.addr
      = [0x0FFF3080] := by decide
theorem test_status_word_write :
    written .statusWord (after .statusWordWrite { plan with rep := { plan.rep with statusMark := true } })
      = [1, 1, 0, 1, 0, 0, 1, 0] := by decide
theorem test_notice_producer_answer :
    (after .noticeProducerAnswer ({ plan with rep := { plan.rep with producer := 1001, consumed := 900 } }.withOwn
      [ownTxn (.noticeProducer 1001) (some [])])).pins.attention = true := by decide

/-- R43, R44, R55: the verdict of Table 3-9 in one write, dispatched and given to the bottle; Table 3-10's write d, whose
header tears the record at 120h. -/
theorem test_feed_record :
    (after (.linkRequest (wr 2 0x34000060 4 verdictBytes)) (tracked [.bottle (bottle 41207)] (some 41208))).trk.chain
      = [.bottle { bottle 41207 with verdict1 := some (.fail, 0) }] := by decide
theorem test_feed_torn :
    (let s := after (.linkRequest (wr 3 0x33000140 2 [3, 0, 2, 0, 93, 0, 0, 0, 1, 0, 0, 0, 0, 0, 0, 0]))
        (plan.setSlot 4 (some (.collecting 0x120 (BitVec.ofNat 64 (92 * 2 ^ 32 + 0x20003)) (some 1) none)))
     (fault0 s, s.slot? 4)
      = (some (.feedTorn, some 4), some (.collecting 0x140 (BitVec.ofNat 64 (93 * 2 ^ 32 + 0x20003)) (some 1) none))) := by decide
/-- Tables 4-6 and 4-7: robot 2's cycle of 4,000 µs after a forward step of 9 ms and a backward step of 2.5 ms. -/
def robot2 : State :=
  { plan.setRobot 2 (some { bound0 with period := 4000, nextBoundary := 1000004000000 }) with
    clk := { plan.clk with ns := 1000002500000 } }
def nextOf (s : State) : Option (Nat × Nat) := (s.bound? 2).map fun b => (b.nextBoundary, b.sinceStatus)
theorem test_time_steps :
    nextOf (stepAndPost none [] 1000011500000 robot2) = some (1000012000000, 1)
    ∧ nextOf (stepAndPost none [] 1000000000000 robot2) = some (1000004000000, 0) := by decide
/-- R59, R60: one REFCLK period at the nominal increment. -/
theorem test_refclk :
    (refclk plan).clk.ns = 1000005000008 ∧ (refclk plan).clk.elapsed = 10008 := by decide

/-! ## Witnesses: for each statement with hypotheses, a state and operands that meet them -/

/-- A property that a check decides holds, or fails, as the check answers. -/
theorem on {p : Prop} {b : Bool} (h : b = true ↔ p) (hb : b = true) : p := h.1 hb
theorem off {p : Prop} {b : Bool} (h : b = true ↔ p) (hb : b = false) : ¬ p := fun hp => by rw [h.2 hp] at hb; exact nomatch hb

/-- A check of all bytes of a span holds of every covered address. -/
theorem covered {r : LinkRequest} {p : Nat → Bool} (h : (spanBytes r).all p = true) : ∀ a, r.covers a → p a = true :=
  fun a ha => List.all_eq_true.1 h a ((mem_spanBytes r a).2 ha)

/-- The request is taken: nothing but decidable facts. -/
def takesCheck (s : State) (r : LinkRequest) : Bool :=
  s.running && decide (s.tagCount r.tag < 4) && !malformed r && !drainStalls s r
theorem takes_of {s : State} {r : LinkRequest} (h : takesCheck s r = true) : s.takes r := by
  simpa [takesCheck, State.takes, and_assoc] using h

def areaCheck (s : State) (a : Nat) : Bool := decide (s.areaBase ≤ a) && decide (a < s.areaBase + 65536)
theorem areaCheck_iff (s : State) (a : Nat) : areaCheck s a = true ↔ s.areaHas a := by simp [areaCheck, State.areaHas]

theorem free_of {s : State} {r : LinkRequest} (h : s.path.inflight = []) : s.tagFree r := by
  intro e he; rw [h] at he; cases he

theorem outside_of {s : State} {r : LinkRequest} (h : (spanBytes r).all (fun a => !areaCheck s a) = true) : s.outsideArea r :=
  fun a ha => off (areaCheck_iff s a) (by simpa using covered h a ha)

theorem unhidden_of {s : State} {r : LinkRequest} (hm : malformed r = false) (h : touchesHidden s r = false) :
    ∀ a, r.covers a → ¬ s.hides a := fun a ha hh => off (touchesHidden_iff hm) h ⟨a, ha, hh⟩

/-- The request reaches step 5 of Table 2-2 against `w` at `i`. -/
def reachCheck (s : State) (r : LinkRequest) (i : WinIdx) (w : Window) : Bool :=
  takesCheck s r && (spanBytes r).all (fun a => !areaCheck s a) && !touchesHidden s r && decide (s.entry i = .loaded w)
    && (spanBytes r).all fun a => decide (s.governor? a = some i)
theorem reaches_of {s : State} {r : LinkRequest} {i : WinIdx} {w : Window} (h : reachCheck s r i w = true) : s.reaches r i w := by
  simp only [reachCheck, Bool.and_eq_true, Bool.not_eq_true', decide_eq_true_eq] at h
  obtain ⟨⟨⟨⟨h1, h2⟩, h3⟩, h4⟩, h5⟩ := h
  refine ⟨takes_of h1, outside_of h2, unhidden_of (takes_of h1).2.2.1 h3, fun a ha => ?_⟩
  obtain ⟨v, hv⟩ := governor?_eq_some.1 (of_decide_eq_true (covered h5 a ha))
  have hw : v = w := by simpa [h4] using hv.1.symm
  exact hw ▸ hv

/-- The fetch of `fetching s` can be answered, and its command begins in `begun s`. -/
theorem fetching_answered (s : State) (h : s.running = true) : (fetching s).fetchAnswered (begun s) :=
  ⟨[], _, [], ⟨h, rfl, rfl, by simp, by simp⟩, rfl, rfl, by simp, rfl⟩

/-- Four reads of tag 3 in flight; one read of a tag in flight. -/
def full3 : State := { plan with path := { plan.path with inflight :=
  [entry 1 .forwarded false, entry 2 .forwarded false, entry 3 .forwarded false, entry 4 .refused true] } }
def busy (t : Tag) : State := { plan with path := { plan.path with inflight := [{ entry 1 .forwarded false with tag := t }] } }
def busy3 : State := busy 3
/-- Window 0 drains for a load with other halves. -/
def newBank0 : Window := win 0x20000000 0x1000 0x19 0x11 (.banked true .production 0 0x22000000 0x22001000)
def draining0 : State := plan.setEntry 0 (.draining bank0 (some newBank0))

/-- The first and the last byte of the old range, of the new range past the old one, and of both new halves. -/
theorem witness_StalledRequestChangesNothing :
    (full3.running = true ∧ 4 ≤ full3.tagCount 3)
    ∧ draining5.running = true ∧ draining5.entry 5 = .draining verdict5 (some reload5)
    ∧ (¬ badForm (rd 2 0x34000000 1) ∧ (rd 2 0x34000000 1).covers 0x34000000)
    ∧ (¬ badForm (rd 2 0x340007F8 1) ∧ (rd 2 0x340007F8 1).covers 0x340007FF)
    ∧ (¬ badForm (rd 2 0x34000FF8 1) ∧ (rd 2 0x34000FF8 1).covers 0x34000FFF)
    ∧ draining0.running = true ∧ draining0.entry 0 = .draining bank0 (some newBank0)
    ∧ (¬ badForm (rd 5 0x22000000 1) ∧ (rd 5 0x22000000 1).covers 0x22000000)
    ∧ (¬ badForm (rd 5 0x22001FF8 1) ∧ (rd 5 0x22001FF8 1).covers 0x22001FFF) := by
  simp only [← malformed_iff]
  unfold LinkRequest.covers; decide

/-- Each form of Table 1-3, and one that is none; the first and the last 8 bytes of half A of window 0. -/
theorem witness_MalformedOrHiddenRefused :
    (plan.running = true ∧ ∀ r, plan.tagFree r)
    ∧ (badForm (rd 3 0x00401000 0) ∧ badForm (rd 3 0x00401000 17) ∧ badForm (wr0 1 0x00401FFC 1)
        ∧ badForm { wr0 5 0x00401000 1 with enables := List.replicate 8 false } ∧ ¬ badForm (rd 0 0x00401000 16))
    ∧ ∀ a ∈ ([0x21000000, 0x21000FF8] : List Nat), plan.takes (rd 5 a 1) ∧ plan.outsideArea (rd 5 a 1)
        ∧ ∃ b, (rd 5 a 1).covers b ∧ plan.hides b := by
  refine ⟨⟨by decide, fun r => free_of rfl⟩, by simp only [← malformed_iff]; decide, fun a ha => ?_⟩
  have h : takesCheck plan (rd 5 a 1) = true ∧ (spanBytes (rd 5 a 1)).all (fun x => !areaCheck plan x) = true
      ∧ malformed (rd 5 a 1) = false ∧ touchesHidden plan (rd 5 a 1) = true := by revert a; decide
  exact ⟨takes_of h.1, outside_of h.2.1, (touchesHidden_iff h.2.2.1).1 h.2.2.2⟩

/-- A write across the end of window 1. -/
theorem straddles_of {s : State} (h1 : s.entry 1 = .loaded guarded1) (h2 : s.governor? 0x300003C0 = some 1) :
    s.straddles (wr0 5 0x300003C0 16) 1 := by
  refine ⟨guarded1, 0x300003C0, 0x30000400, by unfold LinkRequest.covers; decide, ?_, fun x hx hlt => ?_,
    by unfold LinkRequest.covers; decide, fun h => absurd h.2.1.2 (by decide)⟩
  · obtain ⟨v, hv⟩ := governor?_eq_some.1 h2
    have hw : v = guarded1 := by simpa [h1] using hv.1.symm
    exact hw ▸ hv
  · have : 0x300003C0 ≤ x := hx.1
    omega

/-- Each check with a transaction of the tag in flight, in the order of Table 2-2; a reader read that its window's read set
does not admit. -/
def blind : State := (busy 3).setEntry 0 (.loaded { bank0 with readSet := 0x11 })
theorem witness_RefusedResponseWaits :
    (∀ t, (busy t).path.inflight = [] ++ { entry 1 .forwarded false with tag := t } :: []
      ∧ { entry 1 .forwarded false with tag := t }.answered = false)
    ∧ (busy3.running = true ∧ busy3.tagCount 3 < 4 ∧ badForm (rd 3 0x00401000 17))
    ∧ (busy3.takes (rd 3 0x0FFF0000 1) ∧ (rd 3 0x0FFF0000 1).covers 0x0FFF0000 ∧ busy3.areaHas 0x0FFF0000)
    ∧ ((busy 0).takes (wr0 0 0x0FFF0000 2) ∧ (wr0 0 0x0FFF0000 2).covers 0x0FFF0000
        ∧ ¬ hostWritable (0x0FFF0000 - (busy 0).areaBase))
    ∧ (busy3.takes (rd 3 0x21000FF8 1) ∧ busy3.outsideArea (rd 3 0x21000FF8 1)
        ∧ ∃ a, (rd 3 0x21000FF8 1).covers a ∧ busy3.hides a)
    ∧ (busy3.takes (rd 3 0x40000000 1) ∧ busy3.outsideArea (rd 3 0x40000000 1)
        ∧ (∀ a, (rd 3 0x40000000 1).covers a → ¬ busy3.hides a)
        ∧ (∀ a, (rd 3 0x40000000 1).covers a → busy3.ungoverned a) ∧ ¬ busy3.exempt (rd 3 0x40000000 1))
    ∧ ((busy 5).takes (wr0 5 0x300003C0 16) ∧ (busy 5).outsideArea (wr0 5 0x300003C0 16)
        ∧ (∀ a, (wr0 5 0x300003C0 16).covers a → ¬ (busy 5).hides a) ∧ (busy 5).straddles (wr0 5 0x300003C0 16) 1)
    ∧ ((busy 0).reaches (wr0 0 0x20000000 2) 0 bank0 ∧ bank0.bankWordWritten (wr0 0 0x20000000 2))
    ∧ (busy3.reaches (wr0 3 0x20000100 1) 0 bank0 ∧ ¬ bank0.bankWordWritten (wr0 3 0x20000100 1)
        ∧ busy3.roleRefuses 0 bank0 (wr0 3 0x20000100 1))
    ∧ ((busy 4).reaches (wr0 4 0x350001E0 1) 6 service6 ∧ (busy 4).roleRefuses 6 service6 (wr0 4 0x350001E0 1))
    ∧ (blind.reaches (rd 3 0x20000100 1) 0 { bank0 with readSet := 0x11 } ∧ blind.readsAsReader 0 (rd 3 0x20000100 1)
        ∧ ¬ blind.hasRights { bank0 with readSet := 0x11 } (rd 3 0x20000100 1))
    ∧ ((busy 4).reaches (wr0 4 0x30000000 1) 1 guarded1 ∧ (busy 4).hasRights guarded1 (wr0 4 0x30000000 1)
        ∧ ¬ guarded1.authorizes 4) := by
  refine ⟨fun t => ⟨rfl, rfl⟩, ⟨by decide, by decide, (malformed_iff _).1 (by decide)⟩, ⟨takes_of (by decide), ?_⟩,
    ⟨takes_of (by decide), ?_, off (writableOffset_iff _) (by decide)⟩,
    ⟨takes_of (by decide), outside_of (by decide), (touchesHidden_iff (by decide)).1 (by decide)⟩,
    ⟨takes_of (by decide), outside_of (by decide), unhidden_of (by decide) (by decide), fun a ha => ?_, ?_⟩,
    ⟨takes_of (by decide), outside_of (by decide), unhidden_of (by decide) (by decide), straddles_of (by decide) (by decide)⟩,
    ⟨reaches_of (by decide), on (coversBankWord_iff _ _) (by decide)⟩,
    ⟨reaches_of (by decide), off (coversBankWord_iff _ _) (by decide), on (roleWrites_iff (reaches_of (by decide))) (by decide)⟩,
    ⟨reaches_of (by decide), on (roleWrites_iff (reaches_of (by decide))) (by decide)⟩,
    ⟨reaches_of (by decide), ⟨rfl, 0, bound0, by decide, rfl⟩, off (rightsPass_iff _ _ _) (by decide)⟩,
    ⟨reaches_of (by decide), on (rightsPass_iff _ _ _) (by decide), off (authorityPass_iff guarded1 (wr0 4 0x30000000 1) rfl) (by decide)⟩⟩
  · unfold LinkRequest.covers State.areaHas; decide
  · unfold LinkRequest.covers; decide
  · exact governor?_eq_none.1 (of_decide_eq_true (covered (p := fun a => decide (busy3.governor? a = none)) (by decide) a ha))
  · unfold State.exempt; decide

/-- Tag 1 at the area's first byte; tag 0 at the boundaries of its regions: the word below 8 is not writable, that at 8 is;
a read of the whole; the watched words lie outside a write of the command slot 0. -/
theorem witness_ControlAreaDecides :
    (plan.takes (rd 1 0x0FFF0000 1) ∧ plan.tagFree (rd 1 0x0FFF0000 1) ∧ (∃ a, (rd 1 0x0FFF0000 1).covers a ∧ plan.areaHas a))
    ∧ (plan.takes (wr0 0 0x0FFF0000 2) ∧ plan.areaHas 0x0FFF0000 ∧ (wr0 0 0x0FFF0000 2).covers 0x0FFF0000
        ∧ ¬ hostWritable (0x0FFF0000 - plan.areaBase))
    ∧ (plan.takes (rd 0 0x0FFFFFF8 1) ∧ (rd 0 0x0FFFFFF8 1).covers 0x0FFFFFFF
        ∧ ¬ hostReadable (0x0FFFFFFF - plan.areaBase))
    ∧ (plan.takes (rd 0 0x0FFF0000 6) ∧ (∀ a, (rd 0 0x0FFF0000 6).covers a → plan.areaHas a)
        ∧ ∀ a, (rd 0 0x0FFF0000 6).covers a → hostReadable (a - plan.areaBase))
    ∧ (plan.takes (wr0 0 0x0FFF1000 8) ∧ (∀ a, (wr0 0 0x0FFF1000 8).covers a → plan.areaHas a)
        ∧ (∀ a, (wr0 0 0x0FFF1000 8).covers a → hostWritable (a - plan.areaBase))
        ∧ ∀ o ∈ ([0x8, 0x20, 0x30, 0x100, 0x108, 0x110, 0x118, 0x120, 0x128] : List Nat),
            ∃ k, k < 8 ∧ ¬ (wr0 0 0x0FFF1000 8).covers (plan.areaBase + o + k)) := by
  refine ⟨⟨takes_of (by decide), free_of rfl, 0x0FFF0000, ?_⟩, ⟨takes_of (by decide), ?_⟩, ⟨takes_of (by decide), ?_⟩,
    ⟨takes_of (by decide), fun a ha => (areaCheck_iff _ _).1 (covered (p := areaCheck plan) (by decide) a ha),
      fun a ha => (readableOffset_iff _).1 (covered (p := fun a => readableOffset (a - plan.areaBase)) (by decide) a ha)⟩,
    ⟨takes_of (by decide), fun a ha => (areaCheck_iff _ _).1 (covered (p := areaCheck plan) (by decide) a ha),
      fun a ha => (writableOffset_iff _).1 (covered (p := fun a => writableOffset (a - plan.areaBase)) (by decide) a ha), fun o ho => ⟨0, by omega, ?_⟩⟩⟩
  · unfold LinkRequest.covers State.areaHas; decide
  · rw [← writableOffset_iff]; unfold LinkRequest.covers State.areaHas; decide
  · rw [← readableOffset_iff]; unfold LinkRequest.covers; decide
  · revert o; unfold LinkRequest.covers; decide

/-- Each watched word alone, all the publish words in one write, and two of them of which one is not written whole. -/
def half2 : LinkRequest := { wr0 0 0x0FFF0100 2 with enables := List.replicate 15 true ++ [false] }
theorem witness_WatchedWordWriteObserved :
    ∀ r ∈ [wr0 0 0x0FFF0008 1, wr0 0 0x0FFF0020 1, wr0 0 0x0FFF0030 1, wr0 0 0x0FFF0100 6, wr0 0 0x0FFF0128 1, half2],
      plan.takes r ∧ r.tag = 0 ∧ r.dir = .write ∧ ∀ a, r.covers a → plan.areaHas a ∧ hostWritable (a - plan.areaBase) := by
  intro r hr
  have h : takesCheck plan r = true ∧ r.tag = 0 ∧ r.dir = .write
      ∧ (spanBytes r).all (fun a => areaCheck plan a && writableOffset (a - plan.areaBase)) = true := by revert r; decide
  refine ⟨takes_of h.1, h.2.1, h.2.2.1, fun a ha => ?_⟩
  have hc := covered h.2.2.2 a ha
  rw [Bool.and_eq_true] at hc
  exact ⟨(areaCheck_iff _ _).1 hc.1, (writableOffset_iff _).1 hc.2⟩

/-- Ungoverned under OPEN and under ENFORCING; a span that leaves window 1; a span of two windows. -/
def opened : State := { plan with win := { plan.win with policy := .openAll } }
def straddle : State := plan.setEntry 8 (.loaded (win 0x30000400 0x400 0xFF 0xFF (.plain none)))
theorem witness_OneGoverningWindow :
    (opened.takes (rd 0 0x40000000 1) ∧ opened.outsideArea (rd 0 0x40000000 1)
      ∧ (∀ a, (rd 0 0x40000000 1).covers a → ¬ opened.hides a) ∧ (∀ a, (rd 0 0x40000000 1).covers a → opened.ungoverned a)
      ∧ opened.exempt (rd 0 0x40000000 1) ∧ ¬ opened.exempt (rd 6 0x40000000 1) ∧ ¬ plan.exempt (rd 0 0x40000000 1))
    ∧ (∀ s ∈ [plan, straddle], s.takes (wr0 5 0x300003C0 16) ∧ s.tagFree (wr0 5 0x300003C0 16)
        ∧ s.outsideArea (wr0 5 0x300003C0 16) ∧ (∀ a, (wr0 5 0x300003C0 16).covers a → ¬ s.hides a)
        ∧ s.straddles (wr0 5 0x300003C0 16) 1) := by
  refine ⟨⟨takes_of (by decide), outside_of (by decide), unhidden_of (by decide) (by decide), fun a ha => ?_, ?_⟩, fun s hs => ?_⟩
  · exact governor?_eq_none.1 (of_decide_eq_true (covered (p := fun a => decide (opened.governor? a = none)) (by decide) a ha))
  · unfold State.exempt; decide
  · have h : takesCheck s (wr0 5 0x300003C0 16) = true ∧ s.path.inflight = []
        ∧ (spanBytes (wr0 5 0x300003C0 16)).all (fun x => !areaCheck s x) = true
        ∧ malformed (wr0 5 0x300003C0 16) = false ∧ touchesHidden s (wr0 5 0x300003C0 16) = false
        ∧ s.governor? 0x300003C0 = some 1 ∧ s.entry 1 = .loaded guarded1 := by
      rcases List.mem_cons.1 hs with rfl | hs
      · decide
      · rw [List.mem_singleton.1 hs]; decide
    exact ⟨takes_of h.1, free_of h.2.1, outside_of h.2.2.1, unhidden_of h.2.2.2.1 h.2.2.2.2.1, straddles_of h.2.2.2.2.2.2 h.2.2.2.2.2.1⟩

/-- Each check of a window: the bank word's last byte and the byte after it; the reader tag; the first byte of the reply
slot and the byte before it; a missing right; an authority. -/
theorem witness_WindowChecksRefuse :
    plan.tagFree (wr0 0 0 1)
    ∧ (plan.reaches (wr0 0 0x20000000 1) 0 bank0 ∧ plan.reaches (wr0 0 0x20000008 1) 0 bank0
        ∧ bank0.bankWordWritten (wr0 0 0x20000000 1) ∧ ¬ bank0.bankWordWritten (wr0 0 0x20000008 1))
    ∧ (plan.reaches (wr0 3 0x20000100 1) 0 bank0 ∧ plan.roleRefuses 0 bank0 (wr0 3 0x20000100 1))
    ∧ (plan.reaches (wr0 4 0x350001E0 1) 6 service6 ∧ plan.roleRefuses 6 service6 (wr0 4 0x350001E0 1)
        ∧ plan.reaches (wr0 4 0x350001D8 1) 6 service6 ∧ ¬ plan.roleRefuses 6 service6 (wr0 4 0x350001D8 1))
    ∧ (plan.reaches (wr0 1 0x30000000 1) 1 guarded1 ∧ ¬ plan.hasRights guarded1 (wr0 1 0x30000000 1))
    ∧ (plan.reaches (wr0 4 0x30000000 1) 1 guarded1 ∧ plan.hasRights guarded1 (wr0 4 0x30000000 1)
        ∧ ¬ plan.roleRefuses 1 guarded1 (wr0 4 0x30000000 1) ∧ ¬ guarded1.authorizes 4) := by
  exact ⟨free_of rfl, ⟨reaches_of (by decide), reaches_of (by decide), on (coversBankWord_iff _ _) (by decide),
      off (coversBankWord_iff _ _) (by decide)⟩,
    ⟨reaches_of (by decide), on (roleWrites_iff (reaches_of (by decide))) (by decide)⟩,
    ⟨reaches_of (by decide), on (roleWrites_iff (reaches_of (by decide))) (by decide), reaches_of (by decide),
      off (roleWrites_iff (reaches_of (by decide))) (by decide)⟩,
    ⟨reaches_of (by decide), off (rightsPass_iff _ _ _) (by decide)⟩,
    ⟨reaches_of (by decide), on (rightsPass_iff _ _ _) (by decide), off (roleWrites_iff (reaches_of (by decide))) (by decide),
      off (authorityPass_iff guarded1 (wr0 4 0x30000000 1) rfl) (by decide)⟩⟩

/-- A PLAIN, a GUARDED and a FEED window; a SERVICE write that ends below the reply slot; a stamped PLAIN window read, and
written by a tag of no write set under OPEN; a write whose span holds the stamp word wholly, one byte before it and one
after. -/
def stamped8 : Window := win 0x36000000 0x1000 0x01 0x04 (.plain (some .at8))
def stamping : State := opened.setEntry 8 (.loaded stamped8)
theorem witness_WindowForwards :
    (plan.reaches (rd 0 0x31000000 1) 2 ring2 ∧ plan.bankRobot? 2 = none ∧ ring2.role = .plain none
        ∧ plan.hasRights ring2 (rd 0 0x31000000 1))
    ∧ (plan.reaches (wr0 0 0x30000000 1) 1 guarded1 ∧ plan.bankRobot? 1 = none ∧ guarded1.role = .guarded true .production
        ∧ plan.hasRights guarded1 (wr0 0 0x30000000 1) ∧ guarded1.authorizes 0)
    ∧ (plan.reaches (rd 0 0x34000000 1) 5 verdict5 ∧ plan.bankRobot? 5 = none ∧ plan.hasRights verdict5 (rd 0 0x34000000 1))
    ∧ (opened.reaches (wr0 0 0x350001D8 1) 6 service6 ∧ opened.bankRobot? 6 = none
        ∧ service6.writeSet.getLsbD 0 = false ∧ opened.hasRights service6 (wr0 0 0x350001D8 1) ∧ service6.authorizes 0
        ∧ ∀ a, (wr0 0 0x350001D8 1).covers a → a < service6.base.toNat + service6.size.toNat - 32)
    ∧ (stamping.reaches (wr0 0 0x36000008 1) 8 stamped8 ∧ stamped8.writeSet.getLsbD 0 = false
        ∧ stamping.hasRights stamped8 (wr0 0 0x36000008 1))
    ∧ (stamping.reaches (wr0 2 0x36000000 4) 8 stamped8 ∧ stamping.bankRobot? 8 = none
        ∧ stamped8.role = .plain (some .at8) ∧ stamped8.writeSet.getLsbD 2 = true) := by
  refine ⟨⟨reaches_of (by decide), by decide, rfl, ?_⟩, ⟨reaches_of (by decide), by decide, rfl, ?_, ?_⟩,
    ⟨reaches_of (by decide), by decide, ?_⟩, ⟨reaches_of (by decide), by decide, by decide, ?_, trivial, ?_⟩,
    ⟨reaches_of (by decide), by decide, ?_⟩, reaches_of (by decide), by decide, rfl, by decide⟩
  · unfold State.hasRights State.exempt; decide
  · unfold State.hasRights State.exempt; decide
  · show (0 : Tag) ≠ 4; decide
  · unfold State.hasRights State.exempt; decide
  · unfold State.hasRights State.exempt; decide
  · intro a ha
    exact of_decide_eq_true
      (covered (p := fun a => decide (a < service6.base.toNat + service6.size.toNat - 32)) (by decide) a ha)
  · unfold State.hasRights State.exempt; decide

/-- Robot 0's bank unbound, and bound in each publish state; the hold queue with three and with four writes. -/
def bankIn (p : PublishState) : State := onRobot0 (fun b => { b with publish := p }) plan
def heldWrite (id : Nat) : HeldWrite := { robot := 0, id := id, tag := 0, addr := 0x21000200, data := [], enables := [] }
def holding (ids : List Nat) : State := { bankIn .copying with hold := ids.map heldWrite }
theorem witness_BankRedirects :
    (∃ e x n ha hb, bank0.role = .banked e x n ha hb)
    ∧ (unbound.reaches (rd 0 0x20000000 1) 0 bank0 ∧ unbound.bankRobot? 0 = none ∧ unbound.hasRights bank0 (rd 0 0x20000000 1))
    ∧ (∀ p, (bankIn p).bankRobot? 0 = some (0, { bound0 with publish := p }))
    ∧ (∀ p, (bankIn p).reaches (rd 3 0x20000FF8 1) 0 bank0 ∧ (bankIn p).hasRights bank0 (rd 3 0x20000FF8 1) ∧ bound0.reader = 3)
    ∧ (∀ p, (bankIn p).reaches (rd 4 0x20000FF8 1) 0 bank0 ∧ (bankIn p).hasRights bank0 (rd 4 0x20000FF8 1))
    ∧ (∀ p, (bankIn p).reaches (wr0 0 0x20000008 1) 0 bank0 ∧ bank0.base.toNat + 8 ≤ (wr0 0 0x20000008 1).addr.toNat
        ∧ (bankIn p).hasRights bank0 (wr0 0 0x20000008 1) ∧ bank0.authorizes 0)
    ∧ ((holding [1, 2, 3, 4]).reaches (wr0 0 0x20000008 1) 0 bank0 ∧ 4 ≤ (holding [1, 2, 3, 4]).hold.length)
    ∧ ((holding [1, 2, 3]).reaches (wr0 0 0x20000008 1) 0 bank0 ∧ (holding [1, 2, 3]).hold.length < 4) := by
  refine ⟨⟨_, _, _, _, _, rfl⟩, ⟨reaches_of (by decide), by decide, ?_⟩, fun p => by cases p <;> decide, fun p => ⟨reaches_of (by cases p <;> decide), ?_, rfl⟩,
    fun p => ⟨reaches_of (by cases p <;> decide), ?_⟩,
    fun p => ⟨reaches_of (by cases p <;> decide), by decide, ?_, ?_⟩, ⟨reaches_of (by decide), by decide⟩,
    ⟨reaches_of (by decide), by decide⟩⟩
  · unfold State.hasRights State.exempt; decide
  · unfold State.hasRights State.exempt; cases p <;> decide
  · unfold State.hasRights State.exempt; cases p <;> decide
  · unfold State.hasRights State.exempt; cases p <;> decide
  · show (0 : Tag) ≠ 4; decide

/-- Every loaded window lies clear of the control area, and none drains. -/
def clearCheck (s : State) : Bool :=
  (List.finRange 32).all fun i => match s.entry i with
    | .empty       => true
    | .loaded w    => !overlapControl s w
    | .draining .. => false
theorem clear_of {s : State} (h : clearCheck s = true) (hr : s.running = true) : s.AreaClear := by
  have key : ∀ i : WinIdx, (match s.entry i with
    | .empty       => true
    | .loaded w    => !overlapControl s w
    | .draining .. => false) = true := fun i => List.all_eq_true.1 h i (List.mem_finRange i)
  refine ⟨fun i w hc a ha hin => ?_, fun h1 h2 => absurd hr (by simp [State.running, h1, h2])⟩
  have k := key i
  have he : s.entry i = .loaded w := by
    rcases hc with (hc | ⟨n, hc⟩) | (hc | ⟨n, hc⟩)
    · exact hc
    · rw [hc] at k; cases k
    · exact hc
    · rw [hc] at k; cases k
  rw [he] at k
  exact off (overlapControl_iff s w) (by simpa using k) ⟨a, ha, hin⟩

/-- A write of a window that joins the passing stream, and one that joins the hold queue; one of the control area; one that
no window governs, under OPEN. -/
theorem witness_LinkWritesAdmittedOnly :
    (∀ p ∈ [(plan, wr0 0 0x30000000 1), (plan, wr0 0 0x0FFF1000 8), (opened, wr0 0 0x40000000 1)],
      p.1.AreaClear ∧ p.2.dir = .write ∧ exec (.linkRequest p.2) p.1 = .next (after (.linkRequest p.2) p.1)
        ∧ (after (.linkRequest p.2) p.1).path.passing ≠ p.1.path.passing)
    ∧ (holding []).AreaClear
    ∧ exec (.linkRequest (wr0 0 0x20000008 1)) (holding []) = .next (after (.linkRequest (wr0 0 0x20000008 1)) (holding []))
    ∧ (after (.linkRequest (wr0 0 0x20000008 1)) (holding [])).hold ≠ (holding []).hold := by
  refine ⟨fun p hp => ?_, clear_of (by decide) (by decide), rfl, by decide⟩
  have h : clearCheck p.1 = true ∧ p.1.running = true ∧ p.2.dir = .write
      ∧ (after (.linkRequest p.2) p.1).path.passing ≠ p.1.path.passing := by revert p; decide
  exact ⟨clear_of h.1 h.2.1, h.2.2.1, rfl, h.2.2.2⟩

theorem witness_CommandsLeaveQueue : exec .keyOn plan = .next (after .keyOn plan) := rfl

/-- No event is due in the cabinet, powered or not; one period below the largest count of machine time. -/
theorem witness_IdleStepIsRefclkPeriod :
    (plan.pending = [] ∧ ownEvent? plan = none ∧ plan.pins.powerGood = true ∧ plan.clk.units + plan.clk.increment < 2 ^ 96)
    ∧ (after .powerGoodFall plan).pending = [] ∧ ownEvent? (after .powerGoodFall plan) = none
    ∧ (after .powerGoodFall plan).pins.powerGood = false := by decide

/-- The ends of the tails taken, and of the decision consumed values taken, and the values next to them. -/
theorem witness_TailAndDecisionConsumedObserved :
    plan.running = true ∧ plan.cmd.ring = .running ∧ ring8.running = true ∧ ring8.cmd.ring = .stopped ∧ ring8.cmd.head.val = 8
    ∧ (0 : Word).toNat < 64 ∧ (63 : Word).toNat < 64 ∧ 64 ≤ (64 : Word).toNat
    ∧ (let s : State := { plan with rep := { plan.rep with decProducer := 7, decConsumed := 2, decOverflow := true } }
       s.running = true ∧ (s.rep.decConsumed < (3 : Word).toNat ∧ (7 : Word).toNat ≤ s.rep.decProducer)
         ∧ (2 : Word).toNat ≤ s.rep.decConsumed ∧ s.rep.decProducer < (8 : Word).toNat) := by decide

/-- The first and the last value taken, and the values next to them, with and without dropped notices. -/
theorem witness_NoticeConsumedObserved :
    ring1000.running = true ∧ ring1000.rep.enabled = true ∧ ring1000.rep.dropped = true
    ∧ (ring1000.rep.consumed < (873 : Word).toNat ∧ (1000 : Word).toNat ≤ ring1000.rep.producer)
    ∧ (872 : Word).toNat ≤ ring1000.rep.consumed ∧ ring1000.rep.producer < (1001 : Word).toNat
    ∧ (let s : State := { ring1000 with rep := { ring1000.rep with dropped := false } }
       s.running = true ∧ ¬ (s.rep.enabled = true ∧ s.rep.dropped = true) ∧ s.rep.consumed < (873 : Word).toNat
         ∧ (873 : Word).toNat ≤ s.rep.producer) := by decide

/-- An unbound robot; a bound one unbinding, without authority, under review, at the sequence published, at the sequence
being flipped, and in each publish state. -/
def robotWith (b : Bound) : State := plan.setRobot 0 (some b)
theorem witness_PublishWordObserved :
    plan.running = true ∧ plan.bound? 1 = none
    ∧ (robotWith { bound0 with unbinding := true }).bound? 0 = some { bound0 with unbinding := true }
    ∧ (robotWith { bound0 with grantHold := true }).bound? 0 = some { bound0 with grantHold := true }
    ∧ (robotWith { bound0 with review := true }).bound? 0 = some { bound0 with review := true }
    ∧ (plan.bound? 0 = some bound0 ∧ plan.authority? bound0.bank = some .production ∧ bound0.grantHold = false
        ∧ bound0.unbinding = false ∧ bound0.review = false ∧ bound0.publishedSeq = BitVec.ofNat 16 (11 : Word).toNat
        ∧ bound0.publishedSeq ≠ BitVec.ofNat 16 (12 : Word).toNat)
    ∧ (flipping0.bound? 0).map (fun b => (b.publish, b.pendingReq)) = some (.flipping, some ⟨12, false, .production⟩)
    ∧ (∀ p, (bankIn p).bound? 0 = some { bound0 with publish := p }) := by
  refine ⟨by decide, by decide, by decide, by decide, by decide, by decide, by decide, fun p => by cases p <;> decide⟩

/-- Reporting disabled; a full ring without and with the dropped flag; the last slot; the last two places of the own queue. -/
def reports (r : Reporting) : State := { plan with rep := r }
def crowd (n : Nat) (waiting : List Waiter) (s : State) : State :=
  { s with path := { s.path with own := (List.range n).map fun k => { fetch [] true with id := 100 + k }, waiting := waiting } }
theorem witness_NoticeTaken :
    (reports { plan.rep with enabled := false }).rep.enabled = false
    ∧ (let r : Reporting := { plan.rep with producer := 1000, consumed := 872 }
       r.enabled = true ∧ r.consumed + 128 ≤ r.producer ∧ r.dropped = false ∧ { r with dropped := true }.dropped = true)
    ∧ (let s := crowd 14 [] (reports { plan.rep with producer := 999, consumed := 872 })
       s.rep.enabled = true ∧ s.rep.producer < s.rep.consumed + 128)
    ∧ (plan.withOwn [ownTxn (.noticeProducer 1001) (some [])]).canBeAnswered [] (ownTxn (.noticeProducer 1001) (some [])) []
    ∧ (ownTxn (.noticeProducer 1001) (some [])).body ≠ none := by
  unfold State.canBeAnswered; decide

/-- Record 4 of the storm takes the fault; record 0 of an empty table does; none does with the flag clear, none with it set. -/
def fault (k : FaultKind) (t : Tag) : FaultInfo :=
  { kind := k, tag := some t, addr := none, dir := none, window := none, serial := none }
theorem unmatched {s : State} {f : FaultInfo} (h : ∀ n : Fin 8, s.flt.records[n].all (fun r => !r.same f) = true) :
    ∀ (n : Fin 8) rec, s.flt.records[n] = some rec → ¬ (rec.info.kind = f.kind ∧ rec.info.tag = f.tag ∧ rec.info.window = f.window) := by
  intro n rec hr
  have := h n
  rw [hr] at this
  rintro ⟨h1, h2, h3⟩
  simp [FaultRecord.same, h1, h2, h3] at this
theorem witness_FaultTaken :
    ((storm false).flt.records[(4 : Fin 8)] = held .unmapped 6 12
      ∧ ∀ (m : Fin 8) rec, m < 4 → (storm false).flt.records[m] = some rec → rec.info.kind ≠ .unmapped)
    ∧ ((∀ (n : Fin 8) rec, plan.flt.records[n] = some rec → ¬ (rec.info.kind = .rights ∧ rec.info.tag = some 5 ∧ rec.info.window = none))
        ∧ plan.flt.overflow = false ∧ plan.flt.records[(0 : Fin 8)] = none)
    ∧ (∀ o, ∀ (n : Fin 8) rec, (storm o).flt.records[n] = some rec →
        ¬ (rec.info.kind = .rights ∧ rec.info.tag = some 5 ∧ rec.info.window = none))
    ∧ (storm false).flt.overflow = false ∧ (∀ n : Fin 8, (storm false).flt.records[n] ≠ none) ∧ (storm true).flt.overflow = true := by
  have h : ∀ m : Fin 8, m < 4 → (storm false).flt.records[m].all (fun r => decide (r.info.kind ≠ .unmapped)) = true := by decide
  refine ⟨⟨by decide, fun m rec hm hr => ?_⟩, ⟨unmatched (f := fault .rights 5) (by decide), by decide, by decide⟩,
    fun o => unmatched (f := fault .rights 5) (by cases o <;> decide), by decide, by decide, by decide⟩
  have := h m hm
  rw [hr] at this
  simpa using this

/-- Marks of two records with room for the last place, and at the head of the line; without room, and behind another unit, in
the line and not yet in it; the same of the status word. -/
def marked : State := { storm false with flt := { (storm false).flt with
  marks := [4, 2], created := [{ record := 4, kind := .unmapped, tag := some 6, window := none }] } }
def statusDue : State := { plan with rep := { plan.rep with statusMark := true } }
theorem witness_ScheduledWritesJoin :
    ((crowd 15 [] marked).running = true ∧ (crowd 15 [] marked).flt.marks = 4 :: [2] ∧ (crowd 15 [] marked).placeFor .mirror []
      ∧ (crowd 15 [.mirror, .status] marked).placeFor .mirror [.status])
    ∧ ((∀ rest, ¬ (crowd 16 [] marked).placeFor .mirror rest) ∧ .mirror ∉ (crowd 16 [] marked).path.waiting
        ∧ (∀ rest, ¬ (crowd 15 [.status, .mirror] marked).placeFor .mirror rest)
        ∧ .mirror ∈ (crowd 15 [.status, .mirror] marked).path.waiting)
    ∧ plan.flt.marks = []
    ∧ ((crowd 15 [] statusDue).running = true ∧ (crowd 15 [] statusDue).rep.statusMark = true
        ∧ (crowd 15 [] statusDue).placeFor .status [])
    ∧ ((∀ rest, ¬ (crowd 16 [] statusDue).placeFor .status rest) ∧ .status ∉ (crowd 16 [] statusDue).path.waiting
        ∧ .status ∈ (crowd 16 [.status] statusDue).path.waiting)
    ∧ plan.rep.statusMark = false := by
  refine ⟨⟨by decide, by decide, ⟨by decide, .inl ⟨rfl, rfl⟩⟩, by decide, .inr rfl⟩,
    ⟨fun _ h => absurd h.1 (by decide), by decide, fun _ h => ?_, by decide⟩, by decide,
    ⟨by decide, by decide, by decide, .inl ⟨rfl, rfl⟩⟩, ⟨fun _ h => absurd h.1 (by decide), by decide, by decide⟩, by decide⟩
  rcases h.2 with ⟨h, -⟩ | h
  · exact nomatch h
  · exact nomatch (List.cons.inj h).1

/-- Only passing, only own, both with either turn, and an own read behind a passing write. -/
def port (last : Option PortClass) (ps : List PassingTxn) (own : List OwnTxn) : State :=
  { plan with path := { plan.path with last := last, passing := ps, own := own } }
theorem witness_ArbiterPresents :
    ((∀ x ∈ (port none [pass 7 .write] [fetch [] true]).path.own, x.presented = true)
      ∧ (port none [] [fetch [] true]).path.passing = [] ∧ (port none [pass 7 .write] [fetch [] true]).path.passing = [pass 7 .write])
    ∧ (∀ l ps, (port l ps [fetch [] true, fetch [7] false]).running = true
        ∧ (port l ps [fetch [] true, fetch [7] false]).path.own = [fetch [] true] ++ fetch [7] false :: []
        ∧ (port l ps [fetch [] true, fetch [7] false]).path.last = l
        ∧ (port l ps [fetch [] true, fetch [7] false]).path.passing = ps)
    ∧ (∃ x ∈ [pass 7 .write], x.id ∈ (fetch [7] false).after) ∧ (∀ x ∈ [pass 8 .read], x.id ∉ (fetch [7] false).after) := by
  refine ⟨by decide, fun l ps => ⟨rfl, rfl, rfl, rfl⟩, by decide, by decide⟩

/-- An answer that gives its response and the ready one behind it, up to an unanswered one of its tag; one behind an
unanswered entry. -/
def answer3 (answered : Bool) : Entry := { entry 5 .forwarded answered with tag := 4 }
theorem witness_PassingTransactionAnswered :
    (let post := [answer3 false, entry 2 .refused true, entry 3 .forwarded false]
     let s : State := { plan with path := { plan.path with inflight := entry 1 .forwarded false :: post, downstream := [pass 1 .read] } }
     s.running = true ∧ s.path.inflight = [] ++ entry 1 .forwarded false :: post ∧ s.path.downstream = [] ++ pass 1 .read :: []
       ∧ (pass 1 .read).id = (entry 1 .forwarded false).id ∧ (∀ x ∈ [] ++ post, x.id ≠ (entry 1 .forwarded false).id)
       ∧ (entry 1 .forwarded false).disposition ≠ .refused ∧ (List.replicate 8 (0 : Byte)).length = (pass 1 .read).len
       ∧ post = [answer3 false, entry 2 .refused true] ++ entry 3 .forwarded false :: []
       ∧ (∀ x ∈ [answer3 false, entry 2 .refused true], x.tag = 3 → x.answered = true)
       ∧ (entry 3 .forwarded false).tag = 3 ∧ (entry 3 .forwarded false).answered = false)
    ∧ (let inflight := [entry 1 .forwarded false, entry 2 .forwarded false]
       inflight = [entry 1 .forwarded false] ++ entry 2 .forwarded false :: []
         ∧ [entry 1 .forwarded false] = [] ++ entry 1 .forwarded false :: [] ∧ (entry 1 .forwarded false).tag = (entry 2 .forwarded false).tag
         ∧ (entry 1 .forwarded false).answered = false ∧ ∀ x ∈ [entry 1 .forwarded false], x.id ≠ (entry 2 .forwarded false).id)
    ∧ ((pass 1 .write).dir = .read → ([] : List Byte).length = (pass 1 .write).len) := by
  decide

/-- The last free place, for each kind of waiter: a notice, a piece of the copy that is not the last, a snapshot piece, the
status word and a mirror; an answered completion behind an unanswered read, and the answer of a copy's piece; an answer of each kind that a unit waits on, the first of its kind behind a read. -/
def copyPiece : OwnTxn := ownTxn (.copyWrite 0 8 120) (some [])
theorem witness_OwnQueueServed :
    (∀ t ∈ [ownTxn .notice (some []), copyPiece, ownTxn (.snapshot false) (some [])],
      let s := crowd 15 [.txn t, .status] plan
      s.running = true ∧ s.path.own.length < 16 ∧ s.path.waiting = .txn t :: [.status] ∧ s.bound? 0 = some bound0)
    ∧ (plan.bankAt bound0.bank 0x21000000 0x21001000 0x1000 ∧ 8 + 120 < 0x1000)
    ∧ ((crowd 15 [.status] statusDue).path.waiting = .status :: [] ∧ (crowd 15 [.status] statusDue).rep.statusMark = true)
    ∧ ((crowd 15 [.mirror] marked).path.waiting = .mirror :: [] ∧ (crowd 15 [.mirror] marked).flt.marks = 4 :: [2])
    ∧ (plan.withOwn [fetch [] true, ownTxn .completion (some [])]).canBeAnswered [fetch [] true] (ownTxn .completion (some [])) []
    ∧ (plan.withOwn [copyPiece]).canBeAnswered [] copyPiece []
    ∧ (∀ w ∈ [ownTxn (.bankFlip 0) (some []), ownTxn (.copyRead 0 8 120) none, ownTxn (.copyWrite 0 3968 128) (some []),
          ownTxn (.noticeProducer 1001) (some [])],
        (plan.withOwn [fetch [] true, w]).canBeAnswered [fetch [] true] w [])
    ∧ (0x1000 ≤ 3968 + 128 ∧ ∀ x ∈ [fetch [] true], x.kind = .fetch) := by
  refine ⟨by decide, ⟨⟨bank0, _, _, _, _, _, by decide, rfl, rfl, rfl, rfl, by decide⟩, by decide⟩, by decide, by decide, ?_, ?_, ?_,
    by decide⟩ <;>
  (unfold State.canBeAnswered; decide)

theorem witness_CommandFetched :
    (let s : State := crowd 15 [] { plan with cmd := { head := 8, tail := 10, ring := .running, phase := .idle } }
     s.running = true ∧ s.cmd.ring = .running ∧ s.cmd.phase = .idle ∧ s.cmd.head ≠ s.cmd.tail ∧ s.path.waiting = [])
    ∧ Waiter.txn (newWrite (plan.path.nextId + 1) .headWord (plan.areaBase + 0x10) (leBytes 8 (plan.cmd.head + 1).val))
        ∈ (complete .done .none (crowd 15 [] plan)).path.waiting
    ∧ ring8.cmd.ring = .stopped ∧ ring7.cmd.phase ≠ .idle ∧ plan.cmd.head = plan.cmd.tail
    ∧ (plan.withOwn [fetch [] true]).canBeAnswered [] (fetch [] true) [] ∧ (slot 0x10 1 []).length = 64
    ∧ spellsCommand (slot 0x10 1 []) (.fence true) := by
  unfold State.canBeAnswered spellsCommand; decide

/-- One place free: the completion takes it and the head word write waits. -/
theorem witness_CompletionWritten :
    let t := complete .done .none (crowd 15 [] plan)
    t.path.own.length = 16 ∧ t.path.own.getLast?.map OwnTxn.kind = some .completion
      ∧ t.path.waiting = [.txn (newWrite (plan.path.nextId + 1) .headWord (plan.areaBase + 0x10) (leBytes 8 (plan.cmd.head + 1).val))] := by
  decide

theorem witness_PowerGoodMoves :
    exec .powerGoodFall plan = .next (after .powerGoodFall plan) ∧ (after .powerGoodFall plan).pins.powerGood = false :=
  ⟨rfl, rfl⟩

theorem witness_CabinetResetLevels :
    (plan.pins.powerGood = true ∧ plan.pins.cabinetReset = false)
    ∧ (after .cabinetResetAssert plan).pins.powerGood = true ∧ (after .cabinetResetAssert plan).pins.cabinetReset = true := by
  decide

/-- The command's begin is met by every running state; the values next to each range. -/
theorem witness_PlainCommandsComplete :
    (fetching plan).fetchAnswered (begun plan) ∧ (0 : Byte).toNat = 0 ∧ 16 < (17 : Byte).toNat
    ∧ 1 < (2 : Byte).toNat ∧ (1 : Byte).toNat ≤ 1 ∧ (0 : Byte).toNat ≤ 1 :=
  ⟨fetching_answered plan rfl, by decide, by decide, by decide, by decide, by decide⟩

/-- A window load of a PLAIN window at index 9. -/
def loadPlain (base size : Nat) : LoadParams :=
  { index := 9, role := 1, feedKind := 0, stamp := 0, eligible := false, robot := 0, readSet := 1, writeSet := 1,
    base := BitVec.ofNat 32 base, size := BitVec.ofNat 32 size, halfA := 0, halfB := 0 }
def plain9 (base size : Nat) : Window := win base size 1 1 (.plain none)
def load1 : LoadParams :=
  { loadPlain 0x30000000 0x400 with index := 1, role := 2, eligible := true, readSet := 0x13, writeSet := 0x11 }
def load0 : LoadParams :=
  { loadPlain 0x20000000 0x1000 with index := 0, role := 3, eligible := true, readSet := 0x19, writeSet := 0x11,
                                     halfA := 0x21000000, halfB := 0x21001000 }
def loadService : LoadParams := { loadPlain 0x37000000 0x200 with role := 4, feedKind := 4, readSet := 0x11, writeSet := 0x10 }
def service9 : Window := win 0x37000000 0x200 0x11 0x10 (.feed .service none)

theorem loads {p : LoadParams} {i : WinIdx} {w : Window} (h : loadWindow? p = some (i, w)) : describes p i w :=
  loadWindow?_eq_some.1 h
theorem loads_none {p : LoadParams} (h : loadWindow? p = none) : ∀ i w, ¬ describes p i w := fun i w hd => by
  rw [loadWindow?_eq_some.2 hd] at h; exact nomatch h
theorem straight {w : Window} (h : aligned w = true) : ¬ w.misaligned := (aligned_iff w).1 h

/-- Sizes 0, 1 GiB and one above it; each refusal with the refusals before it passed; index 31 and 32 of a drop. -/
theorem witness_WindowCommandsRefused :
    ((fetching plan).fetchAnswered (begun plan) ∧ (fetching session).fetchAnswered (begun session))
    ∧ ((∀ i w, ¬ describes { load5 with index := 32 } i w) ∧ (∀ i w, ¬ describes (loadPlain 0x38000000 0) i w)
        ∧ (∀ i w, ¬ describes (loadPlain 0x38000000 0x40000001) i w)
        ∧ describes (loadPlain 0x40000000 0x40000000) 9 (plain9 0x40000000 0x40000000))
    ∧ (describes (loadPlain 0x38000020 0x40) 9 (plain9 0x38000020 0x40) ∧ (plain9 0x38000020 0x40).misaligned)
    ∧ (describes load0 0 bank0 ∧ ¬ bank0.misaligned ∧ (begun plan).boundAt 0)
    ∧ (describes load1 1 guarded1 ∧ ¬ guarded1.misaligned ∧ ¬ (begun session).boundAt 1 ∧ (begun session).busyAt 1)
    ∧ (describes load7 7 (win 0 0x10000000 0xE1 0x21 (.plain none)) ∧ ¬ (win 0 0x10000000 0xE1 0x21 (.plain none)).misaligned
        ∧ ¬ (begun plan).boundAt 7 ∧ ¬ (begun plan).busyAt 7 ∧ (begun plan).overlapsArea (win 0 0x10000000 0xE1 0x21 (.plain none)))
    ∧ (describes (loadPlain 0x21001FC0 0x40) 9 (plain9 0x21001FC0 0x40) ∧ ¬ (plain9 0x21001FC0 0x40).misaligned
        ∧ ¬ (begun plan).boundAt 9 ∧ ¬ (begun plan).busyAt 9 ∧ ¬ (begun plan).overlapsArea (plain9 0x21001FC0 0x40)
        ∧ (begun plan).overlapsHidden 9 (plain9 0x21001FC0 0x40))
    ∧ (describes loadService 9 service9 ∧ ¬ service9.misaligned ∧ ¬ (begun plan).overlapsArea service9
        ∧ ¬ (begun plan).overlapsHidden 9 service9 ∧ (begun plan).feedsFull 9 service9)
    ∧ 31 < (32 : Byte).toNat ∧ (31 : Byte).toNat = (31 : WinIdx).val
    ∧ ((begun plan).entry 0 = .loaded bank0 ∧ (begun session).entry 1 = .loaded { guarded1 with role := .guarded true .service }) := by
  refine ⟨⟨fetching_answered plan rfl, fetching_answered session rfl⟩,
    ⟨loads_none (by decide), loads_none (by decide), loads_none (by decide), loads (by decide)⟩,
    ⟨loads (by decide), Classical.not_not.1 (off (aligned_iff _) (by decide))⟩,
    ⟨loads (by decide), straight (by decide), on (entryBound_iff _ _) (by decide)⟩,
    ⟨loads (by decide), straight (by decide), off (entryBound_iff _ _) (by decide), on (entryBusy_iff _ _) (by decide)⟩,
    ⟨loads (by decide), straight (by decide), off (entryBound_iff _ _) (by decide), off (entryBusy_iff _ _) (by decide),
      on (overlapControl_iff _ _) (by decide)⟩,
    ⟨loads (by decide), straight (by decide), off (entryBound_iff _ _) (by decide), off (entryBusy_iff _ _) (by decide),
      off (overlapControl_iff _ _) (by decide), on (hiddenOverlap_iff _ _ _) (by decide)⟩,
    ⟨loads (by decide), straight (by decide), off (overlapControl_iff _ _) (by decide), off (hiddenOverlap_iff _ _ _) (by decide),
      on (feedLimitReached_iff _ _ _) (by decide)⟩, by decide, by decide, by decide, by decide⟩

/-- The load passes every check. -/
theorem admits {s : State} {i : WinIdx} {w : Window}
    (h : (aligned w && !s.entryBound i && !s.entryBusy i && !overlapControl s w && !hiddenOverlap s i w && !feedLimitReached s i w)
      = true) : s.admitsLoad i w := by
  simp only [Bool.and_eq_true, Bool.not_eq_true'] at h
  obtain ⟨⟨⟨⟨⟨h1, h2⟩, h3⟩, h4⟩, h5⟩, h6⟩ := h
  exact ⟨straight h1, off (entryBound_iff _ _) h2, off (entryBusy_iff _ _) h3, off (overlapControl_iff _ _) h4,
    off (hiddenOverlap_iff _ _ _) h5, off (feedLimitReached_iff _ _ _) h6⟩

theorem witness_WindowLoadApplies :
    (fetching plan).fetchAnswered (begun plan)
    ∧ (describes (loadPlain 0x40000000 0x40000000) 9 (plain9 0x40000000 0x40000000)
        ∧ (begun plan).admitsLoad 9 (plain9 0x40000000 0x40000000) ∧ (begun plan).entry 9 = .empty)
    ∧ (ring2.feedKind? ≠ some .time ∧ time3.feedKind? = some .time ∧ State.reset.clk.place0.window = none
        ∧ plan.clk.place0.window ≠ none ∧ plan.clk.place1.window = none) :=
  ⟨fetching_answered plan rfl, ⟨loads (by decide), admits (by decide), by decide⟩, by decide⟩

/-- The reload of Table 2-9 with nothing in flight, and with a write checked against window 5. -/
def busy5 : State := { plan with path := { plan.path with inflight := [{ entry 1 .forwarded false with checked := .window 5 }] } }
theorem witness_WindowDrains :
    ((fetching plan).fetchAnswered (begun plan) ∧ (fetching busy5).fetchAnswered (begun busy5))
    ∧ (describes load5 5 reload5 ∧ (begun plan).admitsLoad 5 reload5 ∧ (begun plan).entry 5 = .loaded verdict5
        ∧ (begun plan).drained 5)
    ∧ ((begun busy5).admitsLoad 5 reload5 ∧ (begun busy5).entry 5 = .loaded verdict5 ∧ ¬ (begun busy5).drained 5)
    ∧ (¬ (begun plan).boundAt 5 ∧ ¬ (begun plan).busyAt 5)
    ∧ (draining5.running = true ∧ draining5.cmd.phase = .executing (.drain 5)
        ∧ draining5.entry 5 = .draining verdict5 (some reload5) ∧ draining5.drained 5
        ∧ ¬ ({ draining5 with path := busy5.path } : State).drained 5) := by
  refine ⟨⟨fetching_answered plan rfl, fetching_answered busy5 rfl⟩, ⟨loads (by decide), admits (by decide), by decide, ?_⟩,
    ⟨admits (by decide), by decide, ?_⟩, ⟨off (entryBound_iff _ _) (by decide), off (entryBusy_iff _ _) (by decide)⟩,
    by decide, by decide, by decide, ?_, ?_⟩ <;> (unfold State.drained; decide)

/-- Window 0 is a bank of 4 KiB. -/
theorem bankAt0 {s : State} (h : s.entry 0 = .loaded bank0) : s.bankAt 0 0x21000000 0x21001000 0x1000 :=
  ⟨bank0, _, _, _, _, _, h, rfl, rfl, rfl, rfl, by decide⟩

/-- The fetch answered with 15 other transactions behind it in the own queue. -/
def behind15 (s : State) : List OwnTxn := (crowd 15 [] s).path.own
theorem fetching15_answered (s : State) (h : s.running = true) :
    ((s.withOwn ({ fetch [] true with id := 0 } :: behind15 s)).setPhase .fetching).fetchAnswered
      ((s.withOwn (behind15 s)).setPhase (.executing .begun)) := by
  have hid : ∀ x ∈ behind15 s, x.id ≠ 0 := by
    show ∀ x ∈ (List.range 15).map (fun k => { fetch [] true with id := 100 + k }), x.id ≠ 0
    decide
  exact ⟨[], _, behind15 s, ⟨h, rfl, rfl, hid, by simp⟩, rfl, rfl, by simp, rfl⟩

/-- The ends of each range, and the values next to them; a robot bound already; a feed of another kind; room, one place, and
none. -/
theorem witness_RobotBindCompletes :
    (let inRange := fun p : BindParams => p.robot.toNat ≤ 5 ∧ p.bank.toNat ≤ 31 ∧ p.feed.toNat ≤ 31 ∧ p.reader.toNat ≤ 7
        ∧ 250 ≤ p.period.toNat ∧ p.period.toNat ≤ 100000 ∧ 1 ≤ p.echoLimit.toNat ∧ p.echoLimit.toNat ≤ 64 ∧ p.nudges.toNat ≤ 7
     (inRange { bind0 with period := 250, echoLimit := 1 } ∧ inRange { bind0 with period := 100000, echoLimit := 64, nudges := 7 })
     ∧ ¬ inRange { bind0 with period := 249 } ∧ ¬ inRange { bind0 with robot := 6 } ∧ ¬ inRange { bind0 with echoLimit := 0 })
    ∧ ((fetching plan).fetchAnswered (begun plan) ∧ (begun plan).bound? 0 ≠ none)
    ∧ ((fetching unbound).fetchAnswered (begun unbound) ∧ (begun unbound).bound? 0 = none
        ∧ (∃ w e x ha hb, (begun unbound).entry 0 = .loaded w ∧ w.role = .banked e x 0 ha hb)
        ∧ (∃ v, (begun unbound).entry 4 = .loaded v ∧ v.feedKind? = some .robot)
        ∧ (¬ ∃ v, (begun unbound).entry 5 = .loaded v ∧ v.feedKind? = some .robot)
        ∧ (begun unbound).bankAt 0 0x21000000 0x21001000 0x1000 ∧ (begun unbound).ownRoom 1)
    ∧ ((fetching (crowd 0 [.status] unbound)).fetchAnswered (begun (crowd 0 [.status] unbound))
        ∧ ¬ (begun (crowd 0 [.status] unbound)).ownRoom 1)
    ∧ (let b := (unbound.withOwn (behind15 unbound)).setPhase (.executing .begun)
       ((unbound.withOwn ({ fetch [] true with id := 0 } :: behind15 unbound)).setPhase .fetching).fetchAnswered b
         ∧ b.path.own.length = 15 ∧ b.ownRoom 1 ∧ b.bound? 0 = none)
    ∧ (let t := ownTxn (.bankBind 0) (some [])
       let s := (crowd 15 [.txn t] plan).setPhase (.executing (.bindJoin 0))
       s.running = true ∧ s.path.own.length < 16 ∧ s.path.waiting = .txn t :: [] ∧ s.cmd.phase = .executing (.bindJoin 0)) := by
  refine ⟨by decide, ⟨fetching_answered plan rfl, by decide⟩, ⟨fetching_answered unbound rfl, by decide, ⟨bank0, _, _, _, _, by decide, rfl⟩,
    ⟨robot4, by decide, by decide⟩, ?_, bankAt0 (by decide), ?_⟩, ⟨fetching_answered _ rfl, by unfold State.ownRoom; decide⟩,
    ⟨fetching15_answered unbound rfl, by unfold State.ownRoom; decide⟩, by decide⟩
  · rintro ⟨v, h, hk⟩
    have he : (begun unbound).entry 5 = .loaded verdict5 := by decide
    rw [he] at h
    cases h
    exact absurd hk (by decide)
  · unfold State.ownRoom; decide

/-- A reader read of the published half, and a forwarded write of the working half, are in flight. -/
def reading : Entry := { entry 1 .forwarded false with checked := .window 0, half := some .a, readerRead := true }
def writing : Entry := { entry 1 .forwarded false with checked := .window 0, half := some .b, dir := .write }
def flying (e : Entry) (s : State) : State := { s with path := { s.path with inflight := [e] } }

theorem witness_RobotUnbindCompletes :
    (5 < (6 : Byte).toNat ∧ (5 : Byte).toNat = (5 : RobotIdx).val ∧ (begun plan).bound? 5 = none)
    ∧ ((fetching plan).fetchAnswered (begun plan) ∧ (begun plan).bound? 0 = some bound0 ∧ bound0.unbinding = false
        ∧ ¬ ((begun plan).authority? bound0.bank = some .service ∨ (begun plan).authority? bound0.bank = some .frozen)
        ∧ bound0.publish = .idle ∧ ¬ (begun plan).readerReads bound0)
    ∧ ((fetching (flying reading plan)).fetchAnswered (begun (flying reading plan))
        ∧ (begun (flying reading plan)).readerReads bound0)
    ∧ ((fetching session).fetchAnswered (begun session) ∧ (begun session).authority? 0 = some .service)
    ∧ (let x := { bound0 with unbinding := true }
       let s := (robotWith x).setPhase (.executing (.unbind 0))
       s.running = true ∧ s.cmd.phase = .executing (.unbind 0) ∧ s.bound? 0 = some x ∧ ¬ s.readerReads x
         ∧ (flying reading s).readerReads x) := by
  refine ⟨by decide, ⟨fetching_answered plan rfl, by decide, by decide, by decide, by decide, ?_⟩, ⟨fetching_answered _ rfl, ?_⟩,
    ⟨fetching_answered _ rfl, by decide⟩, by decide, by decide, by decide, ?_, ?_⟩ <;>
  (unfold State.readerReads Entry.uses; decide)

/-- A flip without traffic, one that waits for a reader read, one for a write; the bank word's answer. -/
def flipping12 : Bound := { bound0 with publish := .flipping, pendingReq := some ⟨12, false, .production⟩ }
theorem witness_BankFlips :
    (flipping0.bound? 0 = some flipping12 ∧ flipping0.bankAt flipping12.bank 0x21000000 0x21001000 0x1000
      ∧ flipping0.running = true ∧ flipping12.newFlipTime = none ∧ ¬ flipping0.flipWaits flipping12)
    ∧ (flying reading flipping0).flipWaits flipping12 ∧ (flying writing flipping0).flipWaits flipping12
    ∧ (let b := { flipping12 with newFlipTime := some 3573590448 }
       bank12.bound? 0 = some b ∧ bank12.bankAt b.bank 0x21000000 0x21001000 0x1000
         ∧ bank12.canBeAnswered [] (ownTxn (.bankFlip 0) (some [])) []) := by
  refine ⟨⟨by decide, bankAt0 (by decide), by decide, by decide, ?_⟩, ?_, ?_, by decide, bankAt0 (by decide), ?_⟩ <;>
  first
    | (unfold State.canBeAnswered; decide)
    | (unfold State.flipWaits State.readerReads Entry.uses; decide)

/-- The first piece and the last; the end with and without a next sequence. -/
theorem witness_CatchUpCopyRuns :
    (let w := ownTxn (.copyRead 0 8 120) none
     (copying0 w).canBeAnswered [] w [] ∧ ((copying0 w).withOwn ([] ++ [])).ownRoom 1 ∧ 8 + 120 < 0x1000)
    ∧ (let w := ownTxn (.copyRead 0 3968 128) none
       (copying0 w).canBeAnswered [] w [] ∧ 0x1000 ≤ 3968 + 128)
    ∧ (let w := ownTxn (.copyWrite 0 3968 128) (some [])
       (copying0 w).canBeAnswered [] w [] ∧ w.body ≠ none)
    ∧ ((crowd 15 [] plan).ownRoom 1 ∧ ¬ (crowd 16 [] plan).ownRoom 1
        ∧ ((copying0 copyPiece).bound? 0).map Bound.publish = some .copying)
    ∧ (∀ w, ((copying0 w).bound? 0).map Bound.nextReq = some (some ⟨13, true, .production⟩)
        ∧ (copying0 w).bankAt 0 0x21000000 0x21001000 0x1000)
    ∧ ((robotWith { bound0 with publish := .copying }).bound? 0).map Bound.nextReq = some none := by
  refine ⟨?_, ?_, ?_, by unfold State.ownRoom; decide, fun w => ⟨rfl, bankAt0 rfl⟩, by decide⟩ <;>
  (unfold State.canBeAnswered; first | decide | (unfold State.ownRoom; decide))

/-- Robot 0 one REFCLK period before its boundary: with a period of 250 µs within a millisecond, with one of 2,000 µs at a
whole millisecond; each case of the record; the period before. -/
def near (period : Nat) (b : Bound) : State :=
  let next := 1000006000000 / (period * 1000) * (period * 1000) - if period = 250 then 250000 else 0
  { plan.setRobot 0 (some { b with period := period, nextBoundary := next }) with
    clk := { plan.clk with ns := BitVec.ofNat 64 (next - 8) } }
theorem witness_CycleBoundaryTaken :
    (∀ b ∈ [awaiting 1 0, { bound0 with sinceStatus := 15 }], ∀ p ∈ [250, 2000],
      let s := near p b
      s.pins.powerGood = true ∧ (∃ x, s.bound? 0 = some x ∧ x.nextBoundary ≤ (s.clk.units + s.clk.increment) / 4294967296
          ∧ x.echo = b.echo ∧ x.sinceStatus = b.sinceStatus)
        ∧ s.clk.units + s.clk.increment < 2 ^ 96
        ∧ (s.clk.ns.toNat / 1000000 < (s.clk.units + s.clk.increment) / 4294967296 / 1000000 ↔ p = 2000))
    ∧ (plan.bound? 0 = some bound0 ∧ (plan.clk.units + plan.clk.increment) / 4294967296 < bound0.nextBoundary)
    ∧ ((awaiting 1 0).echo = .awaiting ∧ (awaiting 1 0).toDeadline ≤ 1 ∧ (awaiting 1 0).nudgesUsed < (awaiting 1 0).nudgeCount)
    ∧ (1 < (awaiting 2 0).toDeadline ∧ (awaiting 1 1).nudgeCount ≤ (awaiting 1 1).nudgesUsed)
    ∧ (∀ b, (robotWith b).bankAt 0 0x21000000 0x21001000 0x1000 ∧ (robotWith b).bound? 0 = some b)
    ∧ ({ bound0 with publish := .pending, pendingReq := some ⟨12, false, .production⟩ } : Bound).publish = .pending
    ∧ ((flying reading plan).flipWaits bound0 ∧ ¬ plan.flipWaits bound0) := by
  refine ⟨?_, by decide, by decide, by decide, fun b => ⟨bankAt0 rfl, rfl⟩, rfl, ?_⟩
  · intro b hb p hp
    simp only [List.mem_cons, List.not_mem_nil, or_false] at hb hp
    rcases hb with rfl | rfl <;> rcases hp with rfl | rfl <;> exact ⟨by decide, ⟨_, rfl, by decide, by decide, by decide⟩, by decide, by decide⟩
  unfold State.flipWaits State.readerReads Entry.uses; decide

theorem witness_RobotStatusTaken :
    plan.running = true ∧ plan.bound? 1 = none ∧ plan.bound? 0 = some bound0 ∧ bound0.publishedSeq = 11 ∧ bound0.echo ≠ .stale
    ∧ (robotWith { bound0 with echo := .stale }).bound? 0 = some { bound0 with echo := .stale } := by decide

/-- Reject pocket 3 and 4; a running line; a camera on a window of another kind; no line-stop timer, one that runs on, one
reached. -/
theorem witness_TrackCommandsComplete :
    ((fetching plan).fetchAnswered (begun plan) ∧ (∀ cfg, ¬ setupDescribes { setup7 with rejectPocket := 3 } cfg)
      ∧ setupDescribes { setup7 with rejectPocket := 4 } { config7 with rejectPocket := 4 } ∧ setupDescribes setup7 config7)
    ∧ (let s := tracked [] none
       (fetching s).fetchAnswered (begun s) ∧ (begun s).trk.cfg ≠ none ∧ (begun s).trk.line = .running)
    ∧ (∀ k ∈ config7.cameras, ∃ w, (begun plan).entry k.feed = .loaded w ∧ w.feedKind? = some .verdict)
    ∧ (setupDescribes { setup7 with feed1 := 4 } { config7 with cameras := [{ feed := 5, station := 1 }, { feed := 4, station := 2 }] }
        ∧ (begun plan).entry 4 = .loaded robot4 ∧ robot4.feedKind? ≠ some .verdict)
    ∧ (begun plan).trk.lineStop = none
    ∧ (let s := { plan with trk := { plan.trk with lineStop := some 99, lastPulse := some 0 } }
       (fetching s).fetchAnswered (begun s) ∧ (begun s).clk.elapsed < 0 + setup7.lineStop.toNat * 1000000)
    ∧ (let s := later 2000 { plan with trk := { plan.trk with lineStop := some 99, lastPulse := some 10000 } }
       (fetching s).fetchAnswered (begun s) ∧ 10000 + setup7.lineStop.toNat * 1000000 ≤ (begun s).clk.elapsed)
    ∧ ((begun plan).trk.line = .stopped ∧ (begun plan).trk.cfg = none)
    ∧ (let s := { plan with trk := { plan.trk with cfg := some config7 } }
       (fetching s).fetchAnswered (begun s) ∧ (begun s).trk.line = .stopped ∧ (begun s).trk.cfg ≠ none) := by
  refine ⟨⟨fetching_answered plan rfl, fun cfg h => ?_, (trackConfig?_iff _ _).1 (by decide), (trackConfig?_iff _ _).1 (by decide)⟩,
    ⟨fetching_answered _ rfl, by decide, by decide⟩, fun k hk => ?_, ⟨(trackConfig?_iff _ _).1 (by decide), by decide, by decide⟩,
    by decide, ⟨fetching_answered _ rfl, by decide⟩, ⟨fetching_answered _ rfl, by decide⟩, by decide,
    ⟨fetching_answered _ rfl, by decide, by decide⟩⟩
  · have h' := (trackConfig?_iff _ _).2 h
    exact absurd h' (by rw [show trackConfig? { setup7 with rejectPocket := 3 } = none by decide]; exact nofun)
  · have : ∀ k ∈ config7.cameras, k.feed = 5 := by decide
    rw [this k hk]
    exact ⟨verdict5, by decide, by decide⟩

theorem witness_EntryDecided :
    (ChainEntry.purged ≠ .gap ∧ ChainEntry.bottle (bottle 7) ≠ .gap ∧ ([.fillBad, .verdictFail] : List RejectReason).Nodup)
    ∧ (reports { plan.rep with enabled := false }).rep.enabled = false
    ∧ (let s := reports { plan.rep with decProducer := 600, decConsumed := 88 }
       s.rep.enabled = true ∧ s.rep.decConsumed + 512 ≤ s.rep.decProducer ∧ s.rep.decOverflow = false
         ∧ (reports { s.rep with decOverflow := true }).rep.decOverflow = true)
    ∧ (let s := crowd 14 [] (reports { plan.rep with decProducer := 599, decConsumed := 88 })
       s.rep.enabled = true ∧ s.rep.decProducer < s.rep.decConsumed + 512) := by
  decide

/-- A pulse 1 ms less 1 ns, and 1 ms, after the last; none before; the chain of Table 7-9 with and without a next serial. -/
theorem witness_PocketPulseTaken :
    (let s : State := { tracked [] none with clk := { plan.clk with elapsed := 1009999 } }
     s.running = true ∧ s.trk.lastPulse = some 10000 ∧ s.clk.elapsed < 10000 + 1000000)
    ∧ (let s := later 1 (tracked [.bottle (bottle 1000), .purged, .purged, .purged, .purged] (some 1001))
       s.running = true ∧ s.trk.lastPulse = some 10000 ∧ 10000 + 1000000 ≤ s.clk.elapsed ∧ s.trk.cfg = some config7
         ∧ s.trk.chain = [.bottle (bottle 1000), .purged, .purged, .purged] ++ [.purged]
         ∧ s.trk.chain.length = config7.rejectPocket ∧ s.trk.nextExit = some 1001)
    ∧ (tracked [] none).trk.nextExit = none ∧ plan.trk.lastPulse = none ∧ plan.trk.cfg = none := by decide

theorem witness_LineAndRejectTimed :
    (let s : State := { plan with trk := { plan.trk with lineStop := some 10000 } }
     s.running = true ∧ s.trk.lineStop = some 10000 ∧ 10000 ≤ s.clk.elapsed)
    ∧ plan.clk.elapsed < 10001
    ∧ (pulsed 30035000000 false).pins.reject = false
    ∧ ((pulsed 30035000000 false).trk.schedule.any fun p =>
        decide (p.rise ≤ (pulsed 30035000000 false).clk.elapsed ∧ (pulsed 30035000000 false).clk.elapsed < p.fall)) = true
    ∧ (plan.trk.schedule.any fun p => decide (p.rise ≤ plan.clk.elapsed ∧ plan.clk.elapsed < p.fall)) = false
    ∧ (pulsed 30050000000 true).trk.schedule = [] ++ { rise := 30035000000, fall := 30050000000 } :: []
    ∧ 30050000000 ≤ (pulsed 30050000000 true).clk.elapsed
    ∧ ∀ q ∈ (pulsed 30049999999 true).trk.schedule, (pulsed 30049999999 true).clk.elapsed < q.fall := by decide

/-- Serials one below, at, 15 and 16 above the next exit serial; a serial held in the list and in the chain; a place
between two; the verdicts of a window closed, taken and open, and of serials in no entry. -/
def fillOf (n : BitVec 32) : FillRecord :=
  { serial := n, robot := 0, valve := 0, result := .ok, mass := 5000, good := true, stale := false, review := false }
theorem witness_FillAndVerdictTaken :
    ((tracked [] none).running = true ∧ (∃ w, (tracked [] none).entry 4 = .loaded w ∧ ∀ u : Tag, w.writeSet.getLsbD u.val = true ↔ u = 3)
      ∧ ∃ w, (tracked [] none).entry 5 = .loaded w ∧ ∀ u : Tag, w.writeSet.getLsbD u.val = true ↔ u = 2)
    ∧ plan.trk.cfg = none ∧ (tracked [] none).trk.cfg = some config7
    ∧ (((999 : BitVec 32) - 1000).toInt < 0 ∧ 0 ≤ ((1000 : BitVec 32) - 1000).toInt ∧ ((1015 : BitVec 32) - 1000).toInt < 16
        ∧ 16 ≤ ((1016 : BitVec 32) - 1000).toInt)
    ∧ (let l := [fillOf 1000, fillOf 1002]
       (∃ g ∈ l, g.serial = 1002) ∧ (¬ ∃ g ∈ l, g.serial = 1001) ∧ l = [fillOf 1000] ++ [fillOf 1002]
         ∧ (∀ g ∈ [fillOf 1000], (g.serial - 1000).toInt ≤ ((1001 : BitVec 32) - 1000).toInt)
         ∧ ((1001 : BitVec 32) - 1000).toInt < ((fillOf 1002).serial - 1000).toInt)
    ∧ (∃ b, ChainEntry.bottle b ∈ [.gap, .bottle (bottle 1001)] ∧ b.serial = some (1001 : BitVec 32))
    ∧ ((tracked [.bottle (bottle 1001)] (some 1002)).trk.chain = [] ++ .bottle (bottle 1001) :: []
        ∧ (bottle 1001).windowOpen = true ∧ { bottle 1001 with windowOpen := false }.windowOpen = false
        ∧ { bottle 1001 with verdict0 := some (.pass, 0) }.verdict0 ≠ none)
    ∧ (∀ x, ChainEntry.bottle x ∈ (tracked [] (some 1002)).trk.chain → x.serial ≠ some 1003) := by
  refine ⟨⟨by decide, ⟨robot4, by decide, by decide⟩, ⟨verdict5, by decide, by decide⟩⟩, by decide, by decide, by decide, by decide,
    ⟨bottle 1001, by decide, by decide⟩, by decide, fun x hx => by cases hx⟩

/-- An unbound and a bound robot; a step forward past the next boundary, one not past it, one back; both ends of the rate. -/
theorem witness_MachineTimeSteps :
    robot2.bound? 1 = none ∧ (robot2.bound? 2).map Bound.nextBoundary = some 1000004000000
    ∧ (let s : State := { robot2 with clk := { robot2.clk with ns := 1000004000000 } }
       1000002500000 < s.clk.ns.toNat ∧ 1000004000000 ≤ s.clk.ns.toNat)
    ∧ (let s : State := { robot2 with clk := { robot2.clk with ns := 1000003999999 } }
       s.clk.ns.toNat < 1000004000000 ∧ s.clk.ns.toNat ≤ 1000003999999)
    ∧ (500000 : Int).natAbs ≤ 500000 ∧ (-500000 : Int).natAbs ≤ 500000 ∧ plan.clk.state = .acquiring ∧ plan.clk.state ≠ .locked := by
  decide

/-- Nothing heard, with and without a selected source; the heard source of window 3 against a second one of higher grade. -/
def deaf (selected : Option WinIdx) : State := { State.reset with clk := { State.reset.clk with selected := selected } }
def place8 : Place := { place3 with window := some 8, lastGrade := some 7 }
def hears (state : ClockState) (selected : Option WinIdx) : State :=
  { plan with clk := { plan.clk with place1 := place8, state := state, selected := selected } }
theorem witness_SourcesSelected :
    (∀ x, (¬ ∃ p i g, (p = (deaf x).clk.place0 ∨ p = (deaf x).clk.place1) ∧ p.heard = true ∧ p.window = some (i : WinIdx)
        ∧ p.lastGrade = some (g : Byte)) ∧ (deaf x).clk.selected = x)
    ∧ (∀ st x, (∃ p, (p = (hears st x).clk.place0 ∨ p = (hears st x).clk.place1) ∧ p.heard = true ∧ p.window = some 3 ∧ p.lastGrade = some 6)
        ∧ (∀ j h, (∃ p, (p = (hears st x).clk.place0 ∨ p = (hears st x).clk.place1) ∧ p.heard = true ∧ p.window = some j
            ∧ p.lastGrade = some h) → (6 : Byte).toNat < h.toNat ∨ ((6 : Byte) = h ∧ (3 : WinIdx) ≤ j))
        ∧ (hears st x).clk.selected = x ∧ (hears st x).clk.state = st)
    ∧ (plan.pins.powerGood = true ∧ plan.clk.place0.heardTimer = some 2000001000 ∧ plan.clk.elapsed < 2000001000
        ∧ ({ plan with clk := { plan.clk with elapsed := 2000001000 } } : State).clk.elapsed = 2000001000
        ∧ (hears .locked none).clk.place1.heardTimer = some 2000001000
        ∧ ({ plan with clk := { plan.clk with silence := some 10000 } } : State).clk.silence = some 10000)
    ∧ (plan.clk.place0.window = some 3 ∧ (hears .locked none).clk.place0.window ≠ some 8
        ∧ (hears .locked none).clk.place1.window = some 8 ∧ (hears .locked none).clk.place1.window ≠ some 9) := by
  refine ⟨fun x => ⟨?_, rfl⟩, fun st x => ⟨⟨place3, Or.inl rfl, rfl, rfl, rfl⟩, ?_, rfl, rfl⟩, by decide, by decide⟩
  · rintro ⟨p, i, g, rfl | rfl, h, -⟩ <;> cases h
  · rintro j h ⟨p, hp | hp, -, hw, hg⟩
    · have hp : p = place3 := hp
      subst hp; cases hw; cases hg
      exact .inr ⟨rfl, Nat.le_refl _⟩
    · have hp : p = place8 := hp
      subst hp; cases hw; cases hg
      exact .inl (by decide)

/-- No place; a duplicate; a source that is not selected; offsets of 1,000,000 and 1,000,001 ns against the step threshold and
of 1,000 and 1,001 ns against the lock threshold, in each clock state and count. -/
def synced (state : ClockState) (lock outliers : Nat) : State :=
  { plan with clk := { plan.clk with state := state, lockCount := lock, outlierCount := outliers } }
def offsetOf (receive origin : Word) : Int :=
  max (-9223372036854775808) (min 9223372036854775807 ((receive.toNat : Int) - origin.toNat - place3.pathDelay))
theorem witness_TimeSyncTaken :
    (plan.running = true ∧ plan.clk.place0.window ≠ some 5 ∧ plan.clk.place1.window ≠ some 5)
    ∧ (place3 = plan.clk.place0 ∧ place3.window = some 3 ∧ place3.lastOrigin = some 7203000000000
        ∧ (7203000000000 : Word).toNat ≤ (7203000000000 : Word).toNat ∧ (7203000000000 : Word).toNat < (7203000000001 : Word).toNat)
    ∧ (place8 = (hears .locked none).clk.place1 ∧ (hears .locked none).clk.place0.window ≠ some 8)
    ∧ (∀ st n k, (synced st n k).clk.place0 = place3 ∧ (synced st n k).clk.selected = some 3 ∧ (synced st n k).clk.state = st
        ∧ (synced st n k).clk.lockCount = n ∧ (synced st n k).clk.outlierCount = k)
    ∧ (offsetOf 7204001000350 7204000000000 = 1000000 ∧ ¬ plan.clk.params.step < (1000000 : Int).natAbs
        ∧ offsetOf 7204001000351 7204000000000 = 1000001 ∧ plan.clk.params.step < (1000001 : Int).natAbs)
    ∧ ((1000 : Int).natAbs ≤ plan.clk.params.lock ∧ plan.clk.params.lock < (1001 : Int).natAbs) := by
  refine ⟨by decide, by decide, by decide, fun st n k => ⟨rfl, rfl, rfl, rfl, rfl⟩, by decide, by decide⟩

/-- The ends of the given parameters' ranges, and values past them; a window that serves no source; a heard timer and the
silence timer that run on and that are reached. -/
def tuned (p : TuneParams) : Prop :=
  let within := fun (n v lo hi : Nat) => p.given.getLsbD n = true → lo ≤ v ∧ v ≤ hi
  within 0 p.step.toNat 1000 100000000 ∧ within 1 p.lock.toNat 10 1000000 ∧ within 2 p.pShift.toNat 0 15
    ∧ within 3 p.iShift.toNat 0 20 ∧ within 4 p.rateLimit.toNat 1000 500000 ∧ within 5 p.holdover.toNat 100 10000
    ∧ within 6 p.delay1.toNat 0 1000000 ∧ within 7 p.delay2.toNat 0 1000000
    ∧ ¬ (p.given.getLsbD 6 = true ∧ p.given.getLsbD 7 = true ∧ p.window1 = p.window2)
def tuneAll : TuneParams :=
  { given := 0x7F, step := 1000, lock := 10, pShift := 15, iShift := 20, rateLimit := 500000, holdover := 100, window1 := 3,
    window2 := 0, delay1 := 1000000, delay2 := 0 }
theorem witness_ClockCommandsComplete :
    ((fetching plan).fetchAnswered (begun plan)
      ∧ ((begun plan).clk.ns.toNat : Int) - (5 : Word).toNat ≤ 9223372036854775807)
    ∧ (tuned tuneAll ∧ tuneAll.lock.toNat ≤ tuneAll.step.toNat)
    ∧ (¬ tuned { tuneAll with holdover := 99 } ∧ ¬ tuned { tuneAll with given := 0xFF, window2 := 3 } ∧ tuned (tune 0x40 8))
    ∧ ((begun plan).clk.place0.window = some 3 ∧ (begun plan).clk.place0.window ≠ (begun plan).clk.place1.window
        ∧ (begun plan).clk.place0.window ≠ some 8 ∧ (begun plan).clk.place1.window ≠ some 8)
    ∧ (tuneAll.given.getLsbD 5 = true ∧ (tune 0x40 3).given.getLsbD 5 = false)
    ∧ (plan.clk.place0.heardTimer = some 2000001000 ∧ plan.clk.place0.lastAccept = some 1000
        ∧ ¬ 1000 + tuneAll.holdover.toNat * 1000000 ≤ (begun plan).clk.elapsed
        ∧ 1000 + tuneAll.holdover.toNat * 1000000 ≤ (begun (later 100 plan)).clk.elapsed) := by
  refine ⟨⟨fetching_answered plan rfl, by decide⟩, ⟨?_, by decide⟩, ⟨?_, ?_, ?_⟩, by decide, by decide, by decide⟩ <;>
  (unfold tuned; decide)

/-- A mark, a mark with a frame due, a period without one; the pulse and the frames before and at their times. -/
theorem witness_MarkAndCodeGiven :
    (plan.pins.powerGood = true ∧ plan.clk.units + plan.clk.increment < 2 ^ 96
      ∧ plan.clk.ns.toNat / 1000000 = (plan.clk.units + plan.clk.increment) / 4294967296 / 1000000)
    ∧ (∀ stepped : Bool, let s : State := { unbound with clk := { unbound.clk with ns := 1000011999992, stepped := stepped } }
        s.pins.powerGood = true ∧ s.clk.units + s.clk.increment < 2 ^ 96
          ∧ s.clk.ns.toNat / 1000000 < (s.clk.units + s.clk.increment) / 4294967296 / 1000000
          ∧ (s.clk.units + s.clk.increment) / 4294967296 / 1000000 % 1000 ≠ 0 ∧ s.clk.stepped = stepped)
    ∧ (({ plan with clk := { plan.clk with markEnd := some 10000 } } : State).clk.markEnd = some 10000 ∧ 10000 ≤ plan.clk.elapsed)
    ∧ (({ plan with clk := { plan.clk with codeWaiting := some (frame1000, 10000) } } : State).clk.codeWaiting = some (frame1000, 10000)
        ∧ plan.clk.codeSending = none)
    ∧ (let s : State := { plan with clk := { plan.clk with elapsed := 65999, codeSending := some (5, 10000) } }
       s.clk.codeSending = some (5, 10000) ∧ s.clk.elapsed < 10000 + 56000 ∧ 10000 + 1000 * 55 ≤ s.clk.elapsed
         ∧ s.clk.elapsed < 10000 + 1000 * 56) := by decide

/-- Kinds at the ends of Table 10-12 and past them; 8 pieces of the WINDOWS snapshot with room, and the 19 of TRACKING without;
a fence with nothing to wait for, and with a write that waits. -/
theorem witness_SnapshotAndFence :
    ((fetching plan).fetchAnswered (begun plan) ∧ (0 : Byte).toNat = 0 ∧ 6 < (7 : Byte).toNat ∧ (6 : Byte).toNat = 6
      ∧ (1024 + 127) / 128 ≤ 16 - (begun plan).path.own.length ∧ 16 - (begun plan).path.own.length < (2368 + 127) / 128)
    ∧ ((begun plan).path.own = [] ∧ (begun plan).path.waiting = [])
    ∧ (let s := crowd 0 [.txn { ownTxn .notice (some []) with id := 5 }] plan
       (fetching s).fetchAnswered (begun s) ∧ (begun s).path.waiting = [.txn { ownTxn .notice (some []) with id := 5 }])
    ∧ (let t := ownTxn (.snapshot true) (some [])
       let s := (crowd 15 [.txn t] plan).setPhase (.executing .snapshotJoin)
       s.running = true ∧ s.path.own.length < 16 ∧ s.path.waiting = .txn t :: [] ∧ s.cmd.phase = .executing .snapshotJoin)
    ∧ (let s := plan.setPhase (.executing (.fence [0] true))
       s.running = true ∧ s.cmd.phase = .executing (.fence [0] true)
         ∧ (¬ ∃ n ∈ [0], ∃ x ∈ s.path.own, x.body ≠ none ∧ x.id = n)
         ∧ ∃ n ∈ [0], ∃ x ∈ (s.withOwn [ownTxn .notice (some [])]).path.own, x.body ≠ none ∧ x.id = n) := by
  exact ⟨⟨fetching_answered plan rfl, by decide⟩, by decide, ⟨fetching_answered _ rfl, rfl⟩, by decide, by decide⟩

/-- A write of a whole record slot, of two words across two slots, of 16 beats at no word boundary, and of 16 beats with one
byte not enabled; a closing word without a header, and a word in part that tears a collection; a record of an allowed type, of another, with a bad field, of a
bad subject, and one that is torn. -/
def statusBytes : List Byte := fitBytes 32 ([2, 0, 0, 0, 7, 0, 0, 0, 2, 0, 12] ++ List.replicate 19 0 ++ [7, 0])
def torn16 : LinkRequest := { wr0 3 0x33000000 16 with enables := List.replicate 100 true ++ false :: List.replicate 27 true }
def status12 : Record := .robotStatus { robot := 0, mode := .hold, applied := 12, faultCode := 0 }
set_option maxRecDepth 4000 in
theorem witness_FeedRecordsAssembled :
    (plan.reaches (wr 3 0x33000FE0 4 statusBytes) 4 robot4 ∧ (wr 3 0x33000FE0 4 statusBytes).wf = true
      ∧ robot4.role = .feed .robot none ∧ plan.bankRobot? 4 = none ∧ (∀ u : Tag, robot4.writeSet.getLsbD u.val = true ↔ u = 3)
      ∧ plan.slot? 4 = some .empty ∧ stampedAs robot4 (wr 3 0x33000FE0 4 statusBytes) plan.clk.ns.toNat statusBytes
          (List.replicate 32 true))
    ∧ (plan.reaches (wr 3 0x33000018 2 (statusBytes.take 16)) 4 robot4 ∧ plan.reaches (wr 3 0x33000004 16 []) 4 robot4
        ∧ plan.reaches torn16 4 robot4 ∧ torn16.wf = true)
    ∧ (wordTaken .empty 3 (some 7) .empty [.torn 0 none] ∧ wordTaken (.collecting 0 1 (some 2) none) 2 none .empty [.torn 0 (some 0)])
    ∧ (plan.setSlot 4 (some (.collecting 0 1 (some 2) none))).slot? 4 = some (.collecting 0 1 (some 2) none)
    ∧ (fieldAt statusBytes 30 2 = fieldAt statusBytes 4 2 ∧ kindTakes .robot (statusBytes.getD 0 0) ∧ spells statusBytes status12
        ∧ plan.takesSubject 4 status12 ∧ ¬ plan.takesSubject 5 status12)
    ∧ (fieldAt (statusBytes.set 30 8) 30 2 ≠ fieldAt (statusBytes.set 30 8) 4 2 ∧ ¬ kindTakes .time (statusBytes.getD 0 0))
    ∧ (¬ ∃ (x : Byte) (rec : Record), spells ((statusBytes.set 8 4).set 2 x) rec)
    ∧ ((∃ (x : Byte) (rec : Record), spells ((statusBytes.set 2 6).set 2 x) rec) ∧ ∀ rec, ¬ spells (statusBytes.set 2 6) rec) := by
  have hs : spells statusBytes status12 := by refine ⟨?_, ?_, ?_, ?_, ?_, ?_⟩ <;> decide
  refine ⟨⟨reaches_of (by decide), by decide, rfl, by decide, by decide, by decide, ⟨fun _ => ⟨rfl, rfl⟩, fun _ h => nomatch h⟩⟩,
    ⟨reaches_of (by decide), reaches_of (by decide), reaches_of (by decide), by decide⟩, ⟨Slot.step_taken .empty 3 (some 7), Slot.step_taken (.collecting 0 1 (some 2) none) 2 none⟩, by decide, ⟨by decide, Or.inr (Or.inl ⟨rfl, Or.inl (by decide)⟩), hs, ⟨bound0, by decide, by decide⟩, ?_⟩,
    ⟨by decide, ?_⟩, ?_, ⟨⟨0, status12, ?_⟩, ?_⟩⟩
  · rintro ⟨b, h, hf⟩
    have hb : b = bound0 := (Option.some.inj (show some bound0 = some b from h)).symm
    rw [hb] at hf
    exact absurd hf (by decide)
  · unfold kindTakes; decide
  · rintro ⟨x, rec, h⟩
    have e : RawRecord.bytes (raw (statusBytes.set 8 4)) = statusBytes.set 8 4 := by decide
    exact RawRecord.typed_badField_none (raw (statusBytes.set 8 4)) (by decide) x rec (by rw [e]; exact h)
  · refine ⟨?_, ?_, ?_, ?_, ?_, ?_⟩ <;> decide
  · intro rec h
    have e : RawRecord.bytes (raw (statusBytes.set 2 6)) = statusBytes.set 2 6 := by decide
    have := (RawRecord.typed_good_iff (raw (statusBytes.set 2 6)) (by decide) (by decide) (by decide) rec).2 (by rw [e]; exact h)
    rw [show (raw (statusBytes.set 2 6)).typed = .badSubject by decide] at this
    exact nomatch this

/-- No SERVICE feed, and the one of window 6; a claim with and without a waiting consent; the modes and pulses that act. -/
theorem witness_SessionTransitions :
    ((∀ i w, ¬ (State.reset.entry i = .loaded w ∧ w.feedKind? = some .service))
      ∧ plan.entry 6 = .loaded service6 ∧ service6.feedKind? = some .service
      ∧ (∀ j v, plan.entry j = .loaded v ∧ v.feedKind? = some .service → 6 ≤ j))
    ∧ (claimed.svc.claim = some claim8 ∧ claimed.svc.consentWaiting = false)
    ∧ (consenting.svc.claim = some claim8 ∧ consenting.svc.consentWaiting = true ∧ consenting.cmd.phase = .executing .consent
        ∧ (consenting.setPhase .idle).cmd.phase ≠ .executing .consent)
    ∧ (session.svc.claim = some claim8 ∧ session.svc.state ≠ .returning)
    ∧ ((0 : RobotIdx) ∈ session.svc.named ∧ (1 : RobotIdx) ∉ session.svc.named ∧ session.svc.state = .granted
        ∧ consenting.svc.state = .claimed ∧ (0 : RobotIdx) ∈ consenting.svc.named)
    ∧ ((∃ c, session.svc.claim = some c ∧ ∃ i ∈ c.windows, session.bankedAt i) ∧ plan.svc.claim = none)
    ∧ (flipping0.bound? 0 = some flipping12 ∧ plan.bound? 0 = some bound0) := by
  refine ⟨⟨?_, by decide, by decide, ?_⟩, by decide, by decide, by decide, by decide, ⟨⟨claim8, by decide, 0, by decide, ?_⟩, by decide⟩,
    by decide⟩
  · rintro i w ⟨h, -⟩
    have he : ∀ i : WinIdx, State.reset.entry i = .empty := by decide
    rw [he i] at h
    cases h
  · rintro j v hv
    have he : ∀ j : WinIdx, plan.isFeed j .service = true → 6 ≤ j := by decide
    exact he j ((isFeed_iff plan j .service).2 ⟨v, hv.1, hv.2⟩)
  · exact (isBanked_iff _ _).1 (by decide)

theorem passesWindow {s : State} {ws : List WinIdx} (h : ws.all s.claimable = true) (hn : ws.Nodup) : ¬ s.failsWindow ws := by
  rintro (⟨i, hi, h'⟩ | h')
  · exact h' ((claimable_iff _ _).1 (List.all_eq_true.1 h i hi))
  · exact h' hn
theorem passesMode {s : State} {ws : List WinIdx} (h : (ws.all fun i => !s.isBanked i || s.robotHolds i) = true) :
    ¬ s.failsMode ws := by
  rintro ⟨i, hi, hb, h'⟩
  have := List.all_eq_true.1 h i hi
  rw [(isBanked_iff _ _).2 hb] at this
  obtain ⟨r, hr⟩ := (robotHolds_iff _ _).1 (by simpa using this)
  exact h' r hr

/-- A session of each state; a claim refused for its window, for the robot's mode, for the line, and one that is taken; a
publish of each outcome. -/
def inState (st : SessionState) : State := { plan with svc := { plan.svc with state := st, claim := some claim8 } }
def running0 : State := { plan with trk := { plan.trk with line := .running } }
def moving0 : State := onRobot0 (fun b => { b with mode := .run }) plan
theorem witness_ServiceRecordsTaken :
    (∀ st, (inState st).running = true ∧ (inState st).svc.state = st ∧ (inState st).svc.claim = some claim8)
    ∧ plan.refusesClaim [2] .window ∧ plan.refusesClaim [0, 0] .window ∧ moving0.refusesClaim [0, 1] .robotMode
    ∧ running0.refusesClaim [0, 1] .line
    ∧ (¬ plan.failsWindow [0, 1] ∧ ¬ plan.failsMode [0, 1] ∧ ¬ plan.failsLine [0, 1])
    ∧ (session.svc.keepPhase = some true ∧ session.svc.keepPhase ≠ some false)
    ∧ (session.bound? 1 = none ∧ session.bound? 0 = some { bound0 with review := true }
        ∧ session.authority? 0 = some .service ∧ plan.authority? 0 = some .production) := by
  refine ⟨fun st => ⟨rfl, rfl, rfl⟩, .inl ⟨.inl ⟨2, by decide, off (claimable_iff _ _) (by decide)⟩, rfl⟩,
    .inl ⟨.inr (by decide), rfl⟩, .inr (.inl ⟨?_, ?_, rfl⟩), .inr (.inr ⟨?_, ?_, ⟨⟨0, by decide, (isBanked_iff _ _).1 (by decide)⟩, rfl⟩, rfl⟩),
    ⟨?_, ?_, ?_⟩, by decide, by decide⟩
  · exact passesWindow (by decide) (by decide)
  · refine ⟨0, by decide, (isBanked_iff _ _).1 (by decide), fun r hr => ?_⟩
    exact absurd ((robotHolds_iff _ _).2 ⟨r, hr⟩) (by decide)
  · exact passesWindow (by decide) (by decide)
  · exact passesMode (by decide)
  · exact passesWindow (by decide) (by decide)
  · exact passesMode (by decide)
  · rintro ⟨-, h⟩; exact absurd h (by decide)

/-- The ends of both intervals; decisions 0 to 3; a claim of the sequence and of another; the checks that pass, with the named
robots IDLE and not. -/
theorem witness_ServiceCommandsComplete :
    ((fetching plan).fetchAnswered (begun plan) ∧ (fetching claimed).fetchAnswered (begun claimed)
      ∧ (fetching session).fetchAnswered (begun session))
    ∧ (let inRange := fun p : ServiceParams => (p.given.getLsbD 0 = true → 1 ≤ p.consent.toNat ∧ p.consent.toNat ≤ 120)
        ∧ (p.given.getLsbD 1 = true → 1 ≤ p.lockout.toNat ∧ p.lockout.toNat ≤ 600)
       inRange ⟨3, 120, 600⟩ ∧ inRange ⟨3, 1, 1⟩ ∧ ¬ inRange ⟨3, 121, 600⟩ ∧ ¬ inRange ⟨3, 120, 601⟩ ∧ inRange ⟨0, 0, 0⟩)
    ∧ ((0 : Byte).toNat ≠ 1 ∧ (0 : Byte).toNat ≠ 2 ∧ (1 : Byte).toNat = 1 ∧ (2 : Byte).toNat = 2)
    ∧ ((begun plan).svc.state ≠ .claimed ∧ (begun claimed).svc.state = .claimed ∧ (begun claimed).svc.claim = some claim8
        ∧ claim8.seq = 8 ∧ claim8.seq ≠ 9)
    ∧ ((begun claimed).failsWindow [0, 2])
    ∧ (¬ (begun claimed).failsWindow claim8.windows ∧ ¬ (begun claimed).failsMode claim8.windows
        ∧ ¬ (begun claimed).failsLine claim8.windows)
    ∧ ((begun session).svc.state = .granted ∧ (begun plan).svc.state ≠ .granted) := by
  refine ⟨⟨fetching_answered _ rfl, fetching_answered _ rfl, fetching_answered _ rfl⟩, by decide, by decide, by decide,
    .inl ⟨2, by decide, off (claimable_iff _ _) (by decide)⟩, ⟨?_, ?_, ?_⟩, by decide⟩
  · exact passesWindow (by decide) (by decide)
  · exact passesMode (by decide)
  · rintro ⟨-, h⟩; exact absurd h (by decide)

/-- KEY in each direction; each timer before and at its time; the grant; a return settled, and one that waits. -/
def late (s : State) (now : Nat) : State := { s with clk := { s.clk with elapsed := now } }
theorem witness_SessionEventsTaken :
    (∀ st, (inState st).running = true ∧ (inState st).pins.key = false ∧ (inState st).svc.state = st
      ∧ ({ inState st with pins := { plan.pins with key := true } } : State).pins.key = true)
    ∧ (claimed.running = true ∧ claimed.svc.consentTimer = some 30000010000 ∧ (late claimed 30000009999).clk.elapsed < 30000010000
        ∧ 30000010000 ≤ (late claimed 30000010000).clk.elapsed)
    ∧ (session.svc.state = .granted ∧ session.svc.keepTimer = some 1000010000)
    ∧ (let s := { plan with svc := { plan.svc with state := .lockout, lockoutTimer := some 10000 } }
       s.svc.state = .lockout ∧ s.svc.lockoutTimer = some 10000 ∧ 10000 ≤ s.clk.elapsed)
    ∧ (consenting.running = true ∧ consenting.svc.state = .claimed ∧ consenting.svc.claim = some claim8
        ∧ consenting.svc.consentWaiting = true ∧ consenting.cmd.phase = .executing .consent
        ∧ ∀ r ∈ consenting.svc.named, (consenting.bound? r).map Bound.publish = some .idle)
    ∧ (∀ cause, (returning cause).running = true ∧ (returning cause).svc.state = .returning ∧ (returning cause).svc.claim = some claim8
        ∧ (returning cause).svc.cause = some cause ∧ (returning cause).path.inflight = []
        ∧ ∀ r ∈ (returning cause).svc.named, ((returning cause).bound? r).map Bound.publish = some .idle)
    ∧ (let e := { writing with tag := 4 }
       ∃ e' ∈ (flying e (returning .line)).path.inflight, e'.tag = 4 ∧ e'.dir = .write ∧ ∃ i ∈ claim8.windows, e'.checked = .window i) := by
  refine ⟨fun st => ⟨rfl, rfl, rfl, rfl⟩, by decide, by decide, by decide, by decide, fun cause => by cases cause <;> decide, by decide⟩

/-- Each invariant holds of a state of the worked examples, and a step leads on from it. -/
def next (c : Instr) (s : State) : State := { s with pending := [c] }
theorem witness_QueuesStayBounded :
    (next .keyOn (crowd 16 [] full3)).QueuesBounded
    ∧ step (next .keyOn (crowd 16 [] full3)) = .next (after .keyOn (crowd 16 [] full3)) := by
  refine ⟨⟨by decide, by decide, fun t => ?_⟩, rfl⟩
  revert t; decide

theorem witness_ServiceAuthorityStaysGranted :
    (next .serviceRevoke session).ServiceOnlyGranted ∧ session.authority? 0 = some .service
    ∧ step (next (.serviceRelease source6) session) = .next (after (.serviceRelease source6) session) := by
  refine ⟨⟨by decide, fun i old new h => ?_, fun _ h => absurd h (by decide)⟩, by decide, rfl⟩
  have hd : ∀ i : WinIdx, (match session.entry i with | .draining _ _ => false | _ => true) = true := by decide
  have := hd i
  rw [show session.entry i = _ from h] at this
  exact nomatch this

theorem witness_RateStaysWithinLimit :
    (next .keyOn (clock3 218 568 3)).RateWithinLimit
    ∧ step (next .keyOn (clock3 218 568 3)) = .next (after .keyOn (clock3 218 568 3)) := by
  refine ⟨?_, rfl⟩
  unfold State.RateWithinLimit; decide

def raised : State := { ring1000 with pins := { ring1000.pins with attention := true } }
theorem witness_AttentionAndRingsStayRight :
    (next (.noticeConsumedWrite 900) raised).AttentionRight ∧ (next (.noticeConsumedWrite 900) raised).RingsHeld
    ∧ step (next (.noticeConsumedWrite 900) raised) = .next (after (.noticeConsumedWrite 900) raised) := by
  refine ⟨?_, ?_, rfl⟩
  · unfold State.AttentionRight; decide
  · unfold State.RingsHeld; decide

/-- A CONFIGURED unit with two bottles, a gap and two PURGED entries, and two filled records. -/
def line7 : State :=
  let b := fun n => ChainEntry.bottle { bottle n with windowOpen := true }
  let t := tracked [b 1002, .gap, b 1001, .purged, .purged] (some 1003)
  { t with trk := { t.trk with filled := [fillOf 1003, fillOf 1018] } }
theorem witness_TrackingStaysRight :
    (next .keyOn line7).TrackingRight ∧ step (next .keyOn line7) = .next (after .keyOn line7) := by
  refine ⟨?_, rfl⟩
  refine ⟨fun h => (nomatch h), fun cfg h => ?_, fun h => (nomatch h), fun n h => ?_⟩
  · obtain rfl : config7 = cfg := Option.some.inj h
    refine ⟨by decide, by decide, by decide, by decide, rfl, fun p b hb => ?_⟩
    match p with
    | 0 => cases hb; decide
    | 1 => cases hb
    | 2 => cases hb; decide
    | 3 => cases hb
    | 4 => cases hb
    | _ + 5 => cases hb
  · obtain rfl : (1003 : BitVec 32) = n := Option.some.inj h
    refine ⟨by decide, by decide, by decide, fun k serial hk => ?_⟩
    match k with
    | 0 => cases hk; decide
    | 1 => cases hk; decide
    | _ + 2 => cases hk

theorem witness_RobotsStayRight :
    (next .keyOn flipping0).RobotsRight ∧ flipping0.bound? 0 = some flipping12
    ∧ step (next .keyOn flipping0) = .next (after .keyOn flipping0) := by
  refine ⟨fun r b hb => ?_, by decide, rfl⟩
  have hn : ∀ r : RobotIdx, r ≠ 0 → flipping0.bound? r = none := by decide
  by_cases h : r = 0
  · subst h
    obtain rfl : flipping12 = b := Option.some.inj hb
    exact ⟨by unfold Bound.Right; decide, ⟨bank0, true, .production, 0x21000000, 0x21001000, by decide, rfl⟩, robot4, none, by decide, rfl⟩
  · have e := hn r h
    rw [show flipping0.bound? r = some b from hb] at e
    exact nomatch e

/-- A cabinet whose one window is the bank of window 0. -/
def banked : State := applyWindow 0 bank0 State.reset
theorem witness_CommandsAndTableStayRight :
    (next .keyOn banked).TableRight ∧ (next .keyOn banked).CommandsRight ∧ banked.entry 0 = .loaded bank0
    ∧ step (next .keyOn banked) = .next (after .keyOn banked) := by
  have he : ∀ i : WinIdx, State.reset.entry i = .empty := by decide
  have hd : ∀ j o n, State.reset.entry j ≠ .draining o n := fun j o n h => by rw [he j] at h; cases h
  have hl : describes load0 0 bank0 := loads (by decide)
  have hp : (next .keyOn banked).cmd.phase = .idle := rfl
  refine ⟨?_, ⟨⟨by decide, by decide, by decide, fun i => ?_, fun r => ?_, by decide, by decide, ?_, fun r h => absurd (hp.symm.trans h) (by intro e; cases e), fun h => absurd (hp.symm.trans h) (by intro e; cases e),
    fun _ h => absurd h (by decide)⟩, by decide⟩, by decide, rfl⟩
  · exact applyWindow_table (tableRight_of_empty he (by decide) rfl rfl) (he 0)
      (admits_of_checks hl (straight (by decide)) (off (overlapControl_iff _ _) (by decide)) (off (hiddenOverlap_iff _ _ _) (by decide)) hd)
      (roomFor_of_checks (off (feedLimitReached_iff _ _ _) (by decide)) hd) hd (fun _ h => absurd h (by decide))
  · have hi : ∀ i : WinIdx, (match banked.entry i with | .draining _ _ => false | _ => true) = true := by decide
    refine ⟨fun ⟨o, n, h⟩ => ?_, fun h => (nomatch h)⟩
    have := hi i
    rw [show banked.entry i = _ from h] at this
    exact nomatch this
  · have hn : ∀ r : RobotIdx, banked.bound? r = none := by decide
    refine ⟨fun ⟨b, h, _⟩ => ?_, fun h => (nomatch h)⟩
    have e := hn r
    rw [show banked.bound? r = some b from h] at e
    exact nomatch e
  · exact ⟨fun ⟨c, h⟩ => (nomatch h), fun h => absurd h (by decide)⟩
end Sys2Proof.Tests
end

section
/-! SUPPORT. FILL REPORT and VERDICT at their dispatch (R113, R119 to R121, R127, R128): an equation for each case of the two
rows, and the statement they settle. -/

namespace Sys2Proof.Machine
open Sys2Proof

/-! ## The rows, the fault of a refused record and the difference of two serials -/

theorem exec_fillReport_of_running {s : State} (h : s.running = true) (src : Source) (f : FillReport) :
    exec (.fillReport src f) s = .next (fillReportAct src f s) := by
  simp only [exec, execFillReport, whenRunning, h, if_true]

theorem exec_verdict_of_running {s : State} (h : s.running = true) (src : Source) (v : VerdictRecord) :
    exec (.verdict src v) s = .next (verdictAct src v s) := by
  simp only [exec, execVerdict, whenRunning, h, if_true]

theorem trackFault_of_feedTagIs {s : State} {src : Source} {tag : Tag} (h : s.feedTagIs src.window tag) (k : FaultKind)
    (serial : BitVec 32) :
    trackFault k src serial s = { kind := k, tag := some tag, addr := some src.slot, dir := some .write,
                                  window := some src.window, serial := some serial } := by
  simp only [trackFault, feedTag_of_feedTagIs h]

theorem serialBelow_iff (a b : BitVec 32) : serialBelow a b = true ↔ (a - b).toInt < 0 :=
  decide_eq_true_iff

/-! ## The fill record (R113, R119) -/

theorem fillGood_eq (cfg : TrackConfig) (f : FillReport) :
    fillGood cfg f = decide (f.result = .ok ∧ -(cfg.tolerance : Int) ≤ (f.mass.toNat : Int) - cfg.target
      ∧ (f.mass.toNat : Int) - cfg.target ≤ cfg.tolerance) := by
  have within : ((f.mass.toNat : Int) - cfg.target).natAbs ≤ cfg.tolerance
      ↔ -(cfg.tolerance : Int) ≤ (f.mass.toNat : Int) - cfg.target ∧ (f.mass.toNat : Int) - cfg.target ≤ cfg.tolerance := by
    omega
  simp only [fillGood, Int.ofNat_eq_natCast, within, Bool.decide_and]

/-! ## A report of a CONFIGURED unit (R119 to R121) -/

/-- The state whose next exit serial, if it is unsynchronised, is set by a report's serial (R119). -/
def State.syncExit (s : State) (serial : BitVec 32) : State :=
  { s with trk := { s.trk with nextExit := some (s.trk.nextExit.getD serial) } }

/-- The filled list or a BOTTLE entry of the chain holds a serial (R120). -/
def Tracking.holdsSerial (t : Tracking) (serial : BitVec 32) : Prop :=
  (∃ g ∈ t.filled, g.serial = serial) ∨ ∃ b, ChainEntry.bottle b ∈ t.chain ∧ b.serial = some serial

theorem setTrk_nextExit_eq_syncExit (s : State) (serial : BitVec 32) :
    s.setTrk { s.trk with nextExit := some (s.trk.nextExit.getD serial) } = s.syncExit serial :=
  setTrk_same _ _ rfl rfl

theorem setTrk_filled (s : State) (l : List FillRecord) :
    s.setTrk { s.trk with filled := l } = { s with trk := { s.trk with filled := l } } :=
  setTrk_same _ _ rfl rfl

theorem findBottle_isSome_iff (serial : BitVec 32) (l : List ChainEntry) :
    (findBottle serial l).isSome = true ↔ ∃ b, ChainEntry.bottle b ∈ l ∧ b.serial = some serial := by
  rw [Option.isSome_iff_ne_none, Ne, findBottle_eq_none]
  push Not
  rfl

theorem holdsSerial_iff (t : Tracking) (serial : BitVec 32) :
    (t.filled.any (fun g => g.serial = serial) || (findBottle serial t.chain).isSome) = true ↔ t.holdsSerial serial := by
  simp only [Bool.or_eq_true, List.any_eq_true, decide_eq_true_eq, findBottle_isSome_iff, Tracking.holdsSerial]

theorem fillReportAct_unconfigured {s : State} (h : s.trk.cfg = none) (src : Source) (f : FillReport) :
    fillReportAct src f s = s := by
  simp only [fillReportAct, h]

section Configured
variable {s : State} {cfg : TrackConfig} (hcfg : s.trk.cfg = some cfg) (src : Source) (f : FillReport)
include hcfg

/-- The checks of a report in their order, on the synchronised state. -/
theorem fillReportAct_configured :
    fillReportAct src f s =
      if serialBelow f.serial (s.trk.nextExit.getD f.serial) then
        takeFault (trackFault .fillLate src f.serial (s.syncExit f.serial)) (s.syncExit f.serial)
      else if 16 ≤ serialDiff f.serial (s.trk.nextExit.getD f.serial) then
        takeFault (trackFault .fillRange src f.serial (s.syncExit f.serial)) (s.syncExit f.serial)
      else if s.trk.filled.any (fun g => g.serial = f.serial) || (findBottle f.serial s.trk.chain).isSome then
        takeFault (trackFault .trackDup src f.serial (s.syncExit f.serial)) (s.syncExit f.serial)
      else { s.syncExit f.serial with trk := { (s.syncExit f.serial).trk with
        filled := insertFill (s.trk.nextExit.getD f.serial) (fillRecord cfg f (s.bound? f.robot)) s.trk.filled } } := by
  unfold fillReportAct
  split
  · rename_i hnone
    exact absurd (hcfg.symm.trans hnone) (by simp)
  · rename_i cfg' hcfg'
    obtain rfl : cfg = cfg' := Option.some.inj (hcfg.symm.trans hcfg')
    simp only [setTrk_nextExit_eq_syncExit, setTrk_filled]
    rfl

theorem fillReportAct_below (hlow : (f.serial - s.trk.nextExit.getD f.serial).toInt < 0) :
    fillReportAct src f s = takeFault (trackFault .fillLate src f.serial (s.syncExit f.serial)) (s.syncExit f.serial) := by
  rw [fillReportAct_configured hcfg, if_pos ((serialBelow_iff _ _).2 hlow)]

theorem fillReportAct_above (hhigh : 16 ≤ (f.serial - s.trk.nextExit.getD f.serial).toInt) :
    fillReportAct src f s = takeFault (trackFault .fillRange src f.serial (s.syncExit f.serial)) (s.syncExit f.serial) := by
  rw [fillReportAct_configured hcfg, if_neg (by rw [serialBelow_iff]; omega), if_pos (by unfold serialDiff; exact hhigh)]

theorem fillReportAct_held (hlow : 0 ≤ (f.serial - s.trk.nextExit.getD f.serial).toInt)
    (hhigh : (f.serial - s.trk.nextExit.getD f.serial).toInt < 16) (hheld : s.trk.holdsSerial f.serial) :
    fillReportAct src f s = takeFault (trackFault .trackDup src f.serial (s.syncExit f.serial)) (s.syncExit f.serial) := by
  rw [fillReportAct_configured hcfg, if_neg (by rw [serialBelow_iff]; omega), if_neg (by unfold serialDiff; omega),
    if_pos ((holdsSerial_iff _ _).2 hheld)]

theorem fillReportAct_placed (hlow : 0 ≤ (f.serial - s.trk.nextExit.getD f.serial).toInt)
    (hhigh : (f.serial - s.trk.nextExit.getD f.serial).toInt < 16) (hheld : ¬ s.trk.holdsSerial f.serial) :
    fillReportAct src f s = { s.syncExit f.serial with trk := { (s.syncExit f.serial).trk with
      filled := insertFill (s.trk.nextExit.getD f.serial) (fillRecord cfg f (s.bound? f.robot)) s.trk.filled } } := by
  rw [fillReportAct_configured hcfg, if_neg (by rw [serialBelow_iff]; omega), if_neg (by unfold serialDiff; omega),
    if_neg (mt (holdsSerial_iff _ _).1 hheld)]

end Configured

/-! ## A verdict (R127, R128) -/

theorem Bottle.verdict?_eq_getD (b : Bottle) (c : Fin 3) :
    b.verdict? c = [b.verdict0, b.verdict1, b.verdict2].getD c.val none := by
  match c with
  | 0 => rfl
  | 1 => rfl
  | 2 => rfl

theorem Bottle.record_eq (b : Bottle) (c : Fin 3) (v : Verdict × BitVec 16) :
    b.record c v = { b with verdict0 := if c = 0 then some v else b.verdict0,
                            verdict1 := if c = 1 then some v else b.verdict1,
                            verdict2 := if c = 2 then some v else b.verdict2 } := by
  match c with
  | 0 => rfl
  | 1 => rfl
  | 2 => rfl

theorem verdictAct_early {s : State} (h : s.trk.cfg = none ∨ s.trk.nextExit = none) (src : Source) (v : VerdictRecord) :
    verdictAct src v s = takeFault (trackFault .verdictEarly src v.serial s) s := by
  unfold verdictAct
  split
  · rename_i hcfg hnext
    rcases h with h | h
    · exact absurd (hcfg.symm.trans h) (by simp)
    · exact absurd (hnext.symm.trans h) (by simp)
  · rfl

section Synchronised
variable {s : State} {cfg : TrackConfig} {next : BitVec 32} (hcfg : s.trk.cfg = some cfg) (hnext : s.trk.nextExit = some next)
  (src : Source) (v : VerdictRecord)
include hcfg hnext

section Found
variable {pos : Nat} {b : Bottle} (hfind : findBottle v.serial s.trk.chain = some (pos, b))
include hfind

theorem verdictAct_closed (hwin : b.windowOpen = false) :
    verdictAct src v s = takeFault (trackFault .verdictLate src v.serial s) s := by
  simp only [verdictAct, hcfg, hnext, hfind, hwin, Bool.false_eq_true, if_false]

theorem verdictAct_repeated (hwin : b.windowOpen = true) (hgiven : b.verdict? v.camera ≠ none) :
    verdictAct src v s = takeFault (trackFault .verdictDup src v.serial s) s := by
  simp only [verdictAct, hcfg, hnext, hfind, hwin, Option.isSome_iff_ne_none.2 hgiven, if_true]

theorem verdictAct_recorded (hwin : b.windowOpen = true) (hgiven : b.verdict? v.camera = none) :
    verdictAct src v s = { s with trk := { s.trk with
      chain := s.trk.chain.set pos (.bottle (b.record v.camera (v.verdict, v.defect))) } } := by
  simp only [verdictAct, hcfg, hnext, hfind, hwin, hgiven, if_true, Option.isSome_none, Bool.false_eq_true, if_false]
  exact setTrk_same _ _ (congrArg Option.isSome hcfg.symm) rfl

end Found

section Absent
variable (hfind : findBottle v.serial s.trk.chain = none)
include hfind

theorem verdictAct_absent_below (hlow : (v.serial - next).toInt < 0) :
    verdictAct src v s = takeFault (trackFault .verdictLate src v.serial s) s := by
  simp only [verdictAct, hcfg, hnext, hfind]
  rw [if_pos ((serialBelow_iff _ _).2 hlow)]

theorem verdictAct_absent_above (hhigh : 0 ≤ (v.serial - next).toInt) :
    verdictAct src v s = takeFault (trackFault .verdictEarly src v.serial s) s := by
  simp only [verdictAct, hcfg, hnext, hfind]
  rw [if_neg (by rw [serialBelow_iff]; omega)]

end Absent
end Synchronised

/-! ## The statement -/

/-- Settles O41: the cases of the two rows above, with the fault's tag the one tag of the feed window, the place of a
report between `pre` and `post` that of the sorted insertion, and the entry of a verdict's serial the first that has it. -/
theorem fillAndVerdictTaken : Obligations.FillAndVerdictTaken := by
  intro s src tag hrun htag
  dsimp only
  have hsync : ∀ serial, (s.syncExit serial).feedTagIs src.window tag := fun _ => htag
  refine ⟨fun f => ?fill, fun v => ?verdict⟩
  case fill =>
    rw [exec_fillReport_of_running hrun]
    refine ⟨fun hcfg => ?_, fun cfg hcfg => ⟨fun hlow => ?_, fun hhigh => ?_, fun hlow hhigh hheld => ?_,
      fun hlow hhigh hheld pre post hsplit hpre hpost => ?_⟩⟩
    · rw [fillReportAct_unconfigured hcfg]
    · rw [fillReportAct_below hcfg src f hlow, trackFault_of_feedTagIs (hsync _)]; rfl
    · rw [fillReportAct_above hcfg src f hhigh, trackFault_of_feedTagIs (hsync _)]; rfl
    · rw [fillReportAct_held hcfg src f hlow hhigh hheld, trackFault_of_feedTagIs (hsync _)]; rfl
    · rw [fillReportAct_placed hcfg src f hlow hhigh hheld, hsplit, 
        insertFill_between _ (fillRecord cfg f (s.bound? f.robot)) _ _ hpre hpost, fillRecord, fillGood_eq]
      cases s.bound? f.robot
      · rfl
      · rfl
  case verdict =>
    rw [exec_verdict_of_running hrun]
    refine ⟨fun h => ?_, fun cfg next hcfg hnext => ⟨fun pre b post hchain hpre hserial => ?_, fun habsent => ?_⟩⟩
    · rw [verdictAct_early h, trackFault_of_feedTagIs htag]
    · have hfind : findBottle v.serial s.trk.chain = some (pre.length, b) := by
        rw [hchain, findBottle_eq_some _ _ _ _ hpre hserial]
      rw [← Bottle.verdict?_eq_getD, ← Bottle.record_eq]
      refine ⟨fun hwin => ?_, fun hwin hgiven => ?_, fun hwin hgiven => ?_⟩
      · rw [verdictAct_closed hcfg hnext src v hfind hwin, trackFault_of_feedTagIs htag]
      · rw [verdictAct_repeated hcfg hnext src v hfind hwin hgiven, trackFault_of_feedTagIs htag]
      · rw [verdictAct_recorded hcfg hnext src v hfind hwin hgiven, hchain, List.set_append_right _ _ (le_refl _),
          Nat.sub_self, List.set_cons_zero]
    · have hfind := (findBottle_eq_none v.serial s.trk.chain).2 habsent
      refine ⟨fun hlow => ?_, fun hhigh => ?_⟩
      · rw [verdictAct_absent_below hcfg hnext src v hfind hlow, trackFault_of_feedTagIs htag]
      · rw [verdictAct_absent_above hcfg hnext src v hfind hhigh, trackFault_of_feedTagIs htag]

end Sys2Proof.Machine
end

section
/-! SUPPORT. NOTICE_CONSUMED_WRITE (R159, R160): what a notice leaves of reporting, the DROPPED notice with and without a
dropped flag, and the statement they settle. -/

namespace Sys2Proof.Machine
open Sys2Proof

/-! ## The row -/

theorem exec_noticeConsumedWrite_of_running {s : State} (h : s.running = true) (v : Word) :
    exec (.noticeConsumedWrite v) s = .next (noticeConsumedAct v s) := by
  simp only [exec, execNoticeConsumedWrite, whenRunning, h, if_true]

/-! ## What a notice leaves of reporting (R158) -/

/-- A notice writes the own queue and, of reporting, the producer count, the dropped flag with its count and time, and the
status mark; it never clears the dropped flag. -/
theorem postNoticeAt_counts (time : Nat) (n : Notice) (s : State) :
    ∃ p producer dropped count first mark,
      postNoticeAt time n s = { s with path := p, rep := { s.rep with
        producer := producer, dropped := dropped, droppedCount := count, firstDrop := first, statusMark := mark } }
      ∧ (s.rep.dropped = true → dropped = true) := by
  unfold postNoticeAt
  split
  · split
    · unfold dropNotice
      split
      · obtain ⟨m, hm⟩ := noteStatus_touches s
          { s with rep := { s.rep with droppedCount := min 65535 (s.rep.droppedCount + 1) } }
        exact ⟨_, _, _, _, _, _, hm, id⟩
      · obtain ⟨m, hm⟩ := noteStatus_touches s
          { s with rep := { s.rep with dropped := true, droppedCount := 1, firstDrop := time } }
        exact ⟨_, _, _, _, _, _, hm, fun _ => rfl⟩
    · exact ⟨_, _, _, _, _, _, rfl, id⟩
  · exact ⟨_, _, _, _, _, _, rfl, id⟩

theorem postNotice_dropped {s : State} (h : s.rep.dropped = true) (n : Notice) : (postNotice n s).rep.dropped = true := by
  obtain ⟨p, producer, dropped, count, first, mark, hn, hd⟩ := postNoticeAt_counts s.time n s
  rw [postNotice, hn]
  exact hd h

theorem postNotice_pins (n : Notice) (s : State) : (postNotice n s).pins = s.pins := by
  obtain ⟨p, r, hn⟩ := postNotice_touches n s
  rw [hn]

/-- ATTENTION's level reads nothing that a notice changes (R160). -/
theorem postNotice_attention (n : Notice) (s : State) : (postNotice n s).rep.attention = s.rep.attention := by
  obtain ⟨p, producer, dropped, count, first, mark, hn, -⟩ := postNoticeAt_counts s.time n s
  rw [postNotice, hn]
  rfl

/-! ## The DROPPED notice (R159) -/

theorem noteStatus_of_ne {before after : State} (h : after.statusFields ≠ before.statusFields) :
    before.noteStatus after = { after with rep := { after.rep with statusMark := true } } :=
  if_neg h

theorem reportDropped_of_not {s : State} (h : ¬ (s.rep.enabled = true ∧ s.rep.dropped = true)) : reportDropped s = s :=
  if_neg h

/-- The state after a DROPPED notice: the flag and the count clear, and the status word write is scheduled, for the flag
was still set when the notice had been handed over. -/
theorem reportDropped_of_dropped {s : State} (he : s.rep.enabled = true) (hd : s.rep.dropped = true) :
    let u := postNotice (.dropped s.rep.droppedCount s.rep.firstDrop) s
    reportDropped s = { u with rep := { u.rep with dropped := false, droppedCount := 0, statusMark := true } } := by
  intro u
  have hu : u.rep.dropped = true := postNotice_dropped hd _
  have hne : State.statusFields { u with rep := { u.rep with dropped := false, droppedCount := 0 } } ≠ u.statusFields := by
    intro h
    have hsame : false = u.rep.dropped := congrArg StatusFields.noticeDropped h
    rw [hu] at hsame
    exact nomatch hsame
  calc reportDropped s
      = u.noteStatus { u with rep := { u.rep with dropped := false, droppedCount := 0 } } := if_pos ⟨he, hd⟩
    _ = _ := noteStatus_of_ne hne

/-! ## The observation (R159, R160) -/

/-- The state in which the consumed count is the value observed. -/
def State.consumes (s : State) (v : Word) : State := { s with rep := { s.rep with consumed := v.toNat } }

theorem noticeConsumedAct_taken {s : State} {v : Word} (hlow : s.rep.consumed < v.toNat) (hhigh : v.toNat ≤ s.rep.producer) :
    noticeConsumedAct v s = (reportDropped (s.consumes v)).refreshAttention :=
  if_pos ⟨hlow, hhigh⟩

theorem noticeConsumedAct_ignored {s : State} {v : Word} (h : v.toNat ≤ s.rep.consumed ∨ s.rep.producer < v.toNat) :
    noticeConsumedAct v s = s :=
  if_neg (by omega)

/-- After a DROPPED notice ATTENTION takes the level that it has by the contents of reporting before the notice. -/
theorem refreshAttention_reportDropped {s : State} (he : s.rep.enabled = true) (hd : s.rep.dropped = true) :
    let u := postNotice (.dropped s.rep.droppedCount s.rep.firstDrop) s
    (reportDropped s).refreshAttention = { u with
      rep := { u.rep with dropped := false, droppedCount := 0, statusMark := true }
      pins := { s.pins with attention := s.rep.attention } } := by
  intro u
  rw [reportDropped_of_dropped he hd, ← postNotice_attention (.dropped s.rep.droppedCount s.rep.firstDrop) s,
    ← postNotice_pins (.dropped s.rep.droppedCount s.rep.firstDrop) s]
  rfl

/-- Settles O15, by the two branches of the observation and, of a value taken, the two of the DROPPED notice. -/
theorem noticeConsumedObserved : Obligations.NoticeConsumedObserved := by
  intro s v hrun
  dsimp only
  rw [exec_noticeConsumedWrite_of_running hrun]
  refine ⟨fun hlow hhigh => ⟨fun hnone => ?_, fun he hd => ?_⟩, fun hout => ?_⟩
  · have hnone' : ¬ ((s.consumes v).rep.enabled = true ∧ (s.consumes v).rep.dropped = true) := hnone
    rw [noticeConsumedAct_taken hlow hhigh, reportDropped_of_not hnone']
    rfl
  · have he' : (s.consumes v).rep.enabled = true := he
    have hd' : (s.consumes v).rep.dropped = true := hd
    rw [noticeConsumedAct_taken hlow hhigh, refreshAttention_reportDropped he' hd']
    rfl
  · rw [noticeConsumedAct_ignored hout]

end Sys2Proof.Machine
end

section
/-! SUPPORT. Every row, and so every step, as a move that keeps the invariants of Safety.lean; the statements about the
invariants, the queue of commands and the front command. -/

namespace Sys2Proof.Machine
open Sys2Proof

/-! ## Events at their condition -/

theorem whenRunning_keeps (act : State → State) (s : State) (h : s.running = true → Keeps s (act s)) :
    Keeps s (whenRunning act s) := by
  unfold whenRunning
  split
  · exact h ‹_›
  · exact .refl s

theorem onEvent_keeps (due : Bool) (act : State → State) (s : State) (h : due = true → Keeps s (act s)) :
    Keeps s (onEvent due act s) := by
  unfold onEvent
  split
  · exact h ‹_›
  · exact .refl s

/-! ## The ends of pulses, frames and the lockout -/

theorem endMark_keeps (s : State) : Keeps s (endMark s) :=
  (keeps_mark s false).trans (keeps_clk_same _ { s.clk with markEnd := none })

theorem startCode_keeps (s : State) : Keeps s (startCode s) := by
  unfold startCode
  split
  · exact keeps_clk_same s _
  · exact .refl s

theorem endCode_keeps (s : State) : Keeps s (endCode s) := keeps_clk_same s _

theorem endPulse_keeps (s : State) : Keeps s (endPulse s) :=
  (keeps_trk s _ fun h => h.same).trans (refreshReject_keeps _)

theorem endLockout_keeps (s : State) (h : s.svc.state = .lockout) : Keeps s (endLockout s) := by
  refine keeps_svc_of_not_granted s _ (by rw [h]; decide) fun hk => fits_of_unclaimed hk (.inr (.inr h)) ?_ rfl rfl
  show nextByKey s.pins.key = .keyed ∨ nextByKey s.pins.key = .closed ∨ nextByKey s.pins.key = .lockout
  cases s.pins.key with
  | true => exact .inl rfl
  | false => exact .inr (.inl rfl)

/-! ## The command ring -/

theorem commandFetch_keeps (s : State) : Keeps s (if fetchDue s then fetchAct s else s) := by
  split
  · rename_i h
    unfold fetchDue at h
    simp only [Bool.and_eq_true, decide_eq_true_eq] at h
    exact fetchAct_keeps s h.1.1.2 h.1.1.1.1
  · exact .refl s

theorem unbindDue_phase {s : State} {r : RobotIdx} (h : unbindDue? s = some r) : s.cmd.phase = .executing (.unbind r) := by
  have hu : unbindRobot? s = some r := (Option.filter_eq_some_iff.1 h).1
  unfold unbindRobot? at hu
  split at hu
  · cases hu
    assumption
  · cases hu

theorem unbindComplete_keeps (s : State) : Keeps s (match unbindDue? s with
    | some r => finishUnbind r s
    | none => s) := by
  split
  · exact finishUnbind_keeps _ s (unbindDue_phase ‹_›)
  · exact .refl s

/-! ## The answers of memory -/

theorem passingAnswerAct_keeps (id : Nat) (d : List Byte) (s : State) : Keeps s (passingAnswerAct id d s) := by
  unfold passingAnswerAct
  split
  · split
    · exact answerPassing_keeps _ d s
    · exact .refl s
  · exact .refl s

theorem ownAnswerAct_settles (id : Nat) (d : List Byte) (s : State) : Settles s (ownAnswerAct id d s) :=
  ownAnswer_settles s _ d

theorem swapAct_keeps (r : RobotIdx) (s : State) : Keeps s (swapAct r s) :=
  answered_keeps s _ (fun _ => swapBank r) (fun t h hk => by simp [hk] at h) fun _ u _ _ => swapBank_keeps r u

theorem copyReadAnswerAct_keeps (r : RobotIdx) (d : List Byte) (s : State) : Keeps s (copyReadAnswerAct r d s) := by
  have hk : ∀ t : OwnTxn, t.kind.isCopyRead r = true → t.kind ≠ .fetch := fun t h hk => by
    rw [hk] at h
    cases h
  exact answered_keeps s _ (fun t => handAnswer t d) hk fun t u hu h => handAnswer_keeps t d u hu (hk t h)

theorem copyEndAct_keeps (r : RobotIdx) (s : State) : Keeps s (copyEndAct r s) :=
  answered_keeps s _ (fun _ => endCopy r) (fun t h hk => by
    unfold lastCopyWrite at h
    rw [hk] at h
    cases h) fun _ u _ _ => endCopy_keeps r u

theorem noticeProducerAnswerAct_keeps (s : State) : Keeps s (noticeProducerAnswerAct s) := by
  have hk : ∀ t : OwnTxn, t.kind.isNoticeProducer = true → t.kind ≠ .fetch := fun t h hk => by
    rw [hk] at h
    cases h
  exact answered_keeps s _ (fun t => handAnswer t []) hk fun t u hu h => handAnswer_keeps t [] u hu (hk t h)

theorem flipReady_flipping {s : State} {r : RobotIdx} (h : flipReady s r = true) :
    ∀ b, s.bound? r = some b → b.publish = .flipping := by
  intro b hb
  unfold flipReady at h
  rw [hb] at h
  simp only [Bool.and_eq_true, decide_eq_true_eq] at h
  exact h.1.1

/-! ## The resets -/

theorem powerFallAct_keeps (s : State) : Keeps s (powerFallAct s) := by
  refine ⟨⟨rfl, id, fun h => ⟨h.1, h.2.1, nofun⟩, id, fun _ => rfl, id, id, id⟩, fun h => ⟨⟨⟨h.1.1.1, nofun⟩, h.1.2⟩, ?_⟩, Iff.rfl⟩
  obtain ⟨a, b, c, d, e, f, g, i, j, k, -⟩ := h.2
  exact ⟨a, b, c, d, e, f, g, i, j, k, nofun⟩

theorem entry_of_reset {s : State} (h : s.win = WindowUnit.reset) (i : WinIdx) : s.entry i = .empty := by
  unfold State.entry
  rw [h]
  exact Vector.getElem_replicate _

theorem slot_of_reset {s : State} (h : s.feeds = Vector.replicate 32 none) (i : WinIdx) : s.slot? i = none := by
  unfold State.slot?
  rw [h]
  exact Vector.getElem_replicate _

theorem bound_of_reset {s : State} (h : s.robots = Vector.replicate 6 none) (r : RobotIdx) : s.bound? r = none := by
  unfold State.bound?
  rw [h]
  exact Vector.getElem_replicate _

theorem Tracking.right_reset : Tracking.reset.Right :=
  ⟨fun _ => ⟨rfl, rfl, rfl⟩, nofun, fun _ => ⟨rfl, fun b h => by cases h⟩, nofun⟩

/-- An empty window table carries no SERVICE authority. -/
theorem serviceOnly_of_empty {s : State} (h : ∀ i, s.entry i = .empty) : s.ServiceOnlyGranted := by
  refine ⟨fun i hi => ?_, fun i o n hi => ?_, fun _ _ => h⟩
  · unfold State.authority? State.loaded? at hi
    rw [h] at hi
    cases hi
  · rw [h] at hi
    cases hi

theorem Session.reset_state (key : Bool) : (Session.reset key).state = .keyed ∨ (Session.reset key).state = .closed := by
  cases key with
  | true => exact .inl rfl
  | false => exact .inr rfl

/-- The command unit stands idle, with no claim, no draining entry and no unbinding robot, after a reset. -/
theorem commandsHold_of_reset {s : State} {key : Bool} (hp : s.cmd.phase = .idle) (hs : s.svc = Session.reset key)
    (he : ∀ i o n, s.entry i ≠ .draining o n) (hb : ∀ r, ¬ s.unbinds r)
    (hd : (s.path.unanswered.map OwnTxn.id).Nodup) (hn : ∀ t ∈ s.path.unanswered, t.id < s.path.nextId)
    (hf : (s.path.unanswered.filter fun t => decide (t.kind = .fetch)).length = 0) : s.CommandsHold := by
  have hclaim : s.svc.claim = none := by rw [hs]; rfl
  have hstate := Session.reset_state key
  rw [← hs] at hstate
  have hrest : s.Rests := ⟨hd, hn, hf, he, hb, by rw [hs]; rfl, by
    rw [hclaim]
    rcases hstate with hk | hk <;> rw [hk] <;> simp⟩
  exact hrest.idle s.cmd hp

theorem commandsHold_of_path_reset {s : State} {key : Bool} {n : Nat} {p : Fin 16} {rs : List Response}
    (hp : s.cmd.phase = .idle) (hs : s.svc = Session.reset key) (hpath : s.path = Path.reset n p rs)
    (he : ∀ i, s.entry i = .empty) (hb : ∀ r, ¬ s.unbinds r) : s.CommandsHold := by
  refine commandsHold_of_reset hp hs (fun i o m hx => by rw [he] at hx; cases hx) hb ?_ ?_ ?_ <;> rw [hpath]
  · exact List.nodup_singleton n
  · intro t ht
    cases List.mem_singleton.1 ht
    exact Nat.lt_succ_self n
  · rfl

theorem queuesBounded_of_path_reset {s : State} {n : Nat} {p : Fin 16} {rs : List Response} (h : s.path = Path.reset n p rs)
    (hh : s.hold.length ≤ Config.holdPlaces) : s.QueuesBounded := by
  unfold State.QueuesBounded State.tagCount
  rw [h]
  exact ⟨(by decide : 1 ≤ Config.ownPlaces), hh, fun t => Nat.zero_le _⟩

theorem rateWithinLimit_of_reset {s : State} (h : s.clk = Clock.reset) : s.RateWithinLimit := by
  unfold State.RateWithinLimit
  rw [h]
  decide

/-- Every invariant holds in the state that a rise of POWER-GOOD leaves. -/
theorem powerReset_safe (straps : Fin 16) (key held : Bool) (n o : Nat) (rs : List Response) (q : List Instr) :
    (State.powerReset straps key held n o rs q).Safe := by
  have he := entry_of_reset (s := State.powerReset straps key held n o rs q) rfl
  have hb := bound_of_reset (s := State.powerReset straps key held n o rs q) rfl
  refine ⟨queuesBounded_of_path_reset rfl (Nat.zero_le _), serviceOnly_of_empty he,
    rateWithinLimit_of_reset rfl, rfl, ?rings,
    Tracking.right_reset, fun r b hr => ?robots, tableRight_of_empty he (slot_of_reset rfl) rfl rfl,
    commandsHold_of_path_reset rfl rfl rfl he fun r ⟨b, hr, _⟩ => ?unbinds, by nofun⟩
  case rings => exact ⟨le_refl _, Nat.zero_le _, le_refl _, Nat.zero_le _⟩
  case robots => 
    rw [hb] at hr
    cases hr
  case unbinds =>
    rw [hb] at hr
    cases hr

theorem powerRiseAct_settles (straps : Fin 16) (s : State) : Settles s (powerRiseAct straps s) := by
  unfold powerRiseAct
  split
  · exact (Keeps.refl s).settles
  · obtain ⟨a, b, c, d, e, f, g, h, i⟩ :=
      powerReset_safe straps s.pins.key s.pins.cabinetReset s.path.nextId s.openCount s.path.responses s.pending
    exact ⟨⟨rfl, fun _ => a, fun _ => b, fun _ => c, fun _ => d, fun _ => e, fun _ => f, fun _ => g⟩,
      fun _ _ => ⟨⟨h, i.1⟩, i.2⟩⟩

theorem cabinetHeld_settles (s : State) : Settles s s.cabinetHeld := by
  have he := entry_of_reset (s := s.cabinetHeld) rfl
  have hb := bound_of_reset (s := s.cabinetHeld) rfl
  refine ⟨⟨rfl, fun _ => ⟨Nat.zero_le _, Nat.zero_le _, fun t => Nat.zero_le _⟩, fun _ => serviceOnly_of_empty he, id,
    fun _ => ?_, fun _ => ⟨le_refl _, Nat.zero_le _, le_refl _, Nat.zero_le _⟩, fun _ => Tracking.right_reset,
    fun _ r b hr => ?_⟩, fun _ _ => ⟨⟨tableRight_of_empty he (slot_of_reset rfl) rfl rfl,
      commandsHold_of_reset (key := false) rfl rfl (fun i o n hx => ?_) (fun r ⟨b, hr, _⟩ => ?_) List.nodup_nil nofun rfl⟩, by nofun⟩⟩
  · exact (Bool.and_false _).symm
  · rw [hb] at hr
    cases hr
  · rw [he] at hx
    cases hx
  · rw [hb] at hr
    cases hr

/-- While only the level of CABINET RESET is noted, POWER-GOOD is low, and no invariant speaks of the held part. -/
theorem noteCabinet_keeps (s : State) (level : Bool) (h : s.pins.powerGood = false) :
    Keeps s { s with pins := { s.pins with cabinetReset := level } } := by
  have hoff : s.pins.powerGood ≠ true := by rw [h]; decide
  refine ⟨⟨rfl, id, fun x => ⟨x.1, x.2.1, fun p => absurd p hoff⟩, id, id, id, id, id⟩,
    fun x => ⟨⟨⟨x.1.1.1, fun p => absurd p hoff⟩, x.1.2⟩, ?_⟩, Iff.rfl⟩
  obtain ⟨a, b, c, d, e, f, g, i, j, k, -⟩ := x.2
  exact ⟨a, b, c, d, e, f, g, i, j, k, fun p => absurd p hoff⟩

theorem cabinetAssertAct_settles (s : State) : Settles s (cabinetAssertAct s) := by
  unfold cabinetAssertAct
  split
  · exact (Keeps.refl s).settles
  · split
    · exact cabinetHeld_settles s
    · exact (noteCabinet_keeps s true (by simpa using ‹¬ s.pins.powerGood = true›)).settles

/-- At the release the table is empty and no command executes, since CABINET RESET held the part. -/
theorem cabinetReleased_settles (straps : Fin 16) (s : State) (hg : s.pins.powerGood = true) (hc : s.pins.cabinetReset = true) :
    Settles s (s.cabinetReleased straps) := by
  refine ⟨⟨rfl, fun h => queuesBounded_of_path_reset rfl h.2.1, fun h => serviceOnly_of_empty (h.2.2 hg hc), id,
    fun _ => (Bool.and_false _).symm, fun _ => ⟨le_refl _, Nat.zero_le _, le_refl _, Nat.zero_le _⟩, id,
    robotsRight_of_shape (.refl _) rfl⟩, fun h _ => ⟨⟨?_, ?_⟩, by nofun⟩⟩
  · obtain ⟨⟨-, hempty⟩, -, -, -, hslot, hplace, -⟩ := h.1
    have he := hempty hg hc
    have hnone : ∀ i w, ¬ s.applies i w := by
      rintro i w (hx | ⟨n, hx⟩) <;> rw [he] at hx <;> cases hx
    have hvacant : ∀ i, ¬ (s.clk.place0.window = some i ∨ s.clk.place1.window = some i) := fun i hi => by
      obtain ⟨w, hw, -⟩ := (hplace i).1 hi
      exact hnone i w hw
    refine tableRight_of_empty he (fun i => Option.eq_none_iff_forall_ne_some.2 fun a ha => ?_)
      (Option.eq_none_iff_forall_ne_some.2 fun i hi => hvacant i (.inl hi))
      (Option.eq_none_iff_forall_ne_some.2 fun i hi => hvacant i (.inr hi))
    obtain ⟨w, -, hw, -⟩ := (hslot i).1 ⟨a, ha⟩
    exact hnone i w hw
  · have hidle : s.cmd.phase = .idle := h.2.2.2.2.2.2.2.2.2.2.2 hg hc
    refine commandsHold_of_path_reset rfl rfl rfl (h.1.1.2 hg hc) fun r hr => ?_
    have := (h.2.2.2.2.2.1 r).1 hr
    rw [hidle] at this
    cases this

theorem cabinetReleaseAct_settles (straps : Fin 16) (s : State) : Settles s (cabinetReleaseAct straps s) := by
  unfold cabinetReleaseAct
  split
  · split
    · exact cabinetReleased_settles straps s ‹_› ‹_›
    · exact (noteCabinet_keeps s false (by simpa using ‹¬ s.pins.powerGood = true›)).settles
  · exact (Keeps.refl s).settles


/-! ## The rows and the step -/

theorem unknownCommand_settles (code : Byte) (s : State) :
    Settles s (if knownCode code then s else onCommand unknownAct s) := by
  split
  · exact (Keeps.refl s).settles
  · exact onCommand_settles _ s fun b _ => complete_runs _ _ b

/-- Every row leaves a state, by a move that keeps each invariant. -/
theorem exec_settles (i : Instr) (s : State) : ∃ t, exec i s = .next t ∧ Settles s t := by
  cases i with
  | linkRequest r => exact ⟨_, rfl, (linkRequestAct_keeps r s).settles⟩
  | commandTailWrite v => exact ⟨_, rfl, (whenRunning_keeps _ s fun _ => commandTailAct_keeps v s).settles⟩
  | noticeConsumedWrite v => exact ⟨_, rfl, (whenRunning_keeps _ s fun h => noticeConsumedAct_keeps v s h).settles⟩
  | decisionConsumedWrite v => exact ⟨_, rfl, (whenRunning_keeps _ s fun _ => decisionConsumedAct_keeps v s).settles⟩
  | publishWordWrite r v => exact ⟨_, rfl, (whenRunning_keeps _ s fun _ => productionPublish_keeps r _ _ s).settles⟩
  | memoryPortPresent => exact ⟨_, rfl, (presentAct_keeps s).settles⟩
  | passingAnswer id d => exact ⟨_, rfl, (passingAnswerAct_keeps id d s).settles⟩
  | ownAnswer id d => exact ⟨_, rfl, ownAnswerAct_settles id d s⟩
  | ownQueueJoin => exact ⟨_, rfl, (ownQueueJoinAct_keeps s).settles⟩
  | powerGoodFall => exact ⟨_, rfl, (powerFallAct_keeps s).settles⟩
  | powerGoodRise straps => exact ⟨_, rfl, powerRiseAct_settles straps s⟩
  | cabinetResetAssert => exact ⟨_, rfl, cabinetAssertAct_settles s⟩
  | cabinetResetRelease straps => exact ⟨_, rfl, cabinetReleaseAct_settles straps s⟩
  | drainEnd => exact ⟨_, rfl, (drainEndAct_keeps s).settles⟩
  | commandFetch => exact ⟨_, rfl, (commandFetch_keeps s).settles⟩
  | unknownCommand code => exact ⟨_, rfl, unknownCommand_settles code s⟩
  | policyEnforce => exact ⟨_, rfl, onCommand_settles _ s fun b _ => policyEnforceAct_runs b⟩
  | windowLoad p => exact ⟨_, rfl, onCommand_settles _ s fun b h => windowLoadAct_runs p b h⟩
  | windowDrop x => exact ⟨_, rfl, onCommand_settles _ s fun b h => windowDropAct_runs x b h⟩
  | robotBind p => exact ⟨_, rfl, onCommand_settles _ s fun b _ => robotBindAct_runs p b⟩
  | robotUnbind r => exact ⟨_, rfl, onCommand_settles _ s fun b _ => robotUnbindAct_runs r b⟩
  | unbindComplete => exact ⟨_, rfl, (unbindComplete_keeps s).settles⟩
  | trackSetup p => exact ⟨_, rfl, onCommand_settles _ s fun b _ => trackSetupAct_runs p b⟩
  | trackClear => exact ⟨_, rfl, onCommand_settles _ s fun b _ => trackClearAct_runs b⟩
  | clockSet time => exact ⟨_, rfl, onCommand_settles _ s fun b _ => clockSetAct_runs time b⟩
  | clockTune p => exact ⟨_, rfl, onCommand_settles _ s fun b _ => clockTuneAct_runs p b⟩
  | serviceSetup p => exact ⟨_, rfl, onCommand_settles _ s fun b _ => serviceSetupAct_runs p b⟩
  | serviceConsent d q => exact ⟨_, rfl, onCommand_settles _ s fun b _ => serviceConsentAct_runs d q b⟩
  | serviceRevoke => exact ⟨_, rfl, onCommand_settles _ s fun b _ => serviceRevokeAct_runs b⟩
  | faultClear m o => exact ⟨_, rfl, onCommand_settles _ s fun b _ => faultClearAct_runs m o b⟩
  | reporting e m => exact ⟨_, rfl, onCommand_settles _ s fun b h => reportingAct_runs e m b h⟩
  | snapshot k => exact ⟨_, rfl, onCommand_settles _ s fun b _ => snapshotAct_runs k b⟩
  | fence n => exact ⟨_, rfl, onCommand_settles _ s fun b _ => fenceAct_runs n b⟩
  | fenceComplete => exact ⟨_, rfl, (fenceCompleteAct_keeps s).settles⟩
  | timeSync src rec a => exact ⟨_, rfl, (whenRunning_keeps _ s fun _ => timeSyncAct_keeps src.window rec a s).settles⟩
  | heardTimerExpiry n => exact ⟨_, rfl, (onEvent_keeps _ _ s fun _ => heardExpiry_keeps n s).settles⟩
  | silenceTimerExpiry => exact ⟨_, rfl, (onEvent_keeps _ _ s fun _ => silenceExpiry_keeps s).settles⟩
  | mark => exact ⟨_, rfl, (onEvent_keeps _ _ s fun _ => refclk_keeps s).settles⟩
  | markPulseEnd => exact ⟨_, rfl, (onEvent_keeps _ _ s fun _ => endMark_keeps s).settles⟩
  | codeFrameStart => exact ⟨_, rfl, (onEvent_keeps _ _ s fun _ => startCode_keeps s).settles⟩
  | codeFrameEnd => exact ⟨_, rfl, (onEvent_keeps _ _ s fun _ => endCode_keeps s).settles⟩
  | cycleBoundary r => exact ⟨_, rfl, (onEvent_keeps _ _ s fun _ => refclk_keeps s).settles⟩
  | echoDeadline r => exact ⟨_, rfl, (onEvent_keeps _ _ s fun _ => refclk_keeps s).settles⟩
  | modeLapse r => exact ⟨_, rfl, (onEvent_keeps _ _ s fun _ => refclk_keeps s).settles⟩
  | flipWaitEnd r =>
    exact ⟨_, rfl, (onEvent_keeps _ _ s fun h =>
      writeFlip_keeps r s (flipReady_flipping (Bool.and_eq_true_iff.1 h).2)).settles⟩
  | swap r => exact ⟨_, rfl, (swapAct_keeps r s).settles⟩
  | copyReadAnswer r d => exact ⟨_, rfl, (copyReadAnswerAct_keeps r d s).settles⟩
  | copyEnd r => exact ⟨_, rfl, (copyEndAct_keeps r s).settles⟩
  | robotStatus src rec => exact ⟨_, rfl, (whenRunning_keeps _ s fun _ => robotStatusAct_keeps rec s).settles⟩
  | fillReport src rec => exact ⟨_, rfl, (whenRunning_keeps _ s fun _ => fillReportAct_keeps src rec s).settles⟩
  | verdict src rec => exact ⟨_, rfl, (whenRunning_keeps _ s fun _ => verdictAct_keeps src rec s).settles⟩
  | pocketPulse p => exact ⟨_, rfl, (whenRunning_keeps _ s fun _ => pocketPulseAct_keeps p s).settles⟩
  | lineStopTimerExpiry => exact ⟨_, rfl, (onEvent_keeps _ _ s fun _ => stopLine_keeps s).settles⟩
  | rejectRise => exact ⟨_, rfl, (onEvent_keeps _ _ s fun _ => refreshReject_keeps s).settles⟩
  | rejectFall => exact ⟨_, rfl, (onEvent_keeps _ _ s fun _ => endPulse_keeps s).settles⟩
  | keyOn => exact ⟨_, rfl, (keyAct_keeps true s).settles⟩
  | keyOff => exact ⟨_, rfl, (keyAct_keeps false s).settles⟩
  | serviceClaim src c => exact ⟨_, rfl, (whenRunning_keeps _ s fun _ => serviceClaimAct_keeps c s).settles⟩
  | serviceKeep src p => exact ⟨_, rfl, (whenRunning_keeps _ s fun _ => serviceKeepAct_keeps p s).settles⟩
  | serviceRelease src => exact ⟨_, rfl, (whenRunning_keeps _ s fun _ => serviceReleaseAct_keeps s).settles⟩
  | servicePublish src p => exact ⟨_, rfl, (whenRunning_keeps _ s fun _ => servicePublishAct_keeps src.seq p s).settles⟩
  | consentTimerExpiry =>
    refine ⟨_, rfl, (onEvent_keeps _ _ s fun h => ?_).settles⟩
    simp only [consentDue, Bool.and_eq_true, decide_eq_true_eq] at h
    exact withdrawClaim_keeps _ _ _ _ s (by rw [h.1.2]; decide) (.inl rfl)
  | serviceGrant =>
    refine ⟨_, rfl, (onEvent_keeps _ _ s fun h => ?_).settles⟩
    obtain ⟨hc, hw⟩ := grantReady_iff (Bool.and_eq_true_iff.1 h).2
    exact grantSession_keeps s hc hw
  | keepAliveTimerExpiry =>
    refine ⟨_, rfl, (onEvent_keeps _ _ s fun h => ?_).settles⟩
    simp only [keepDue, Bool.and_eq_true, decide_eq_true_eq] at h
    exact beginReturn_keeps _ s h.1.2
  | returnEnd =>
    refine ⟨_, rfl, (onEvent_keeps _ _ s fun h => ?_).settles⟩
    simp only [returnReady, Bool.and_eq_true, decide_eq_true_eq] at h
    exact endReturn_keeps s h.2.1.1
  | lockoutTimerExpiry =>
    refine ⟨_, rfl, (onEvent_keeps _ _ s fun h => ?_).settles⟩
    simp only [lockoutDue, Bool.and_eq_true, decide_eq_true_eq] at h
    exact endLockout_keeps s h.1.2
  | mirrorWrite => exact ⟨_, rfl, (mirrorWriteAct_keeps s).settles⟩
  | statusWordWrite => exact ⟨_, rfl, (statusWordWriteAct_keeps s).settles⟩
  | noticeProducerAnswer => exact ⟨_, rfl, (noticeProducerAnswerAct_keeps s).settles⟩

theorem settles_of_exec {i : Instr} {s t : State} (h : exec i s = .next t) : Settles s t := by
  obtain ⟨u, hu, hs⟩ := exec_settles i s
  rw [hu] at h
  cases h
  exact hs

/-- A step is such a move from the state with the queue's rest. -/
theorem settles_of_step {s t : State} (h : step s = .next t) : ∃ cs, Settles { s with pending := cs } t := by
  unfold step at h
  split at h
  · exact ⟨_, settles_of_exec h⟩
  · refine ⟨s.pending, ?_⟩
    unfold idle at h
    split at h
    · exact settles_of_exec h
    · cases h
      exact (refclk_keeps s).settles

/-! ## The statements -/

/-- Settles O53. -/
theorem queuesStayBounded : Obligations.QueuesStayBounded := fun _ _ hs h =>
  let ⟨_, hk⟩ := settles_of_step h
  hk.queues hs

/-- Settles O54. -/
theorem serviceAuthorityStaysGranted : Obligations.ServiceAuthorityStaysGranted := fun _ _ hs h =>
  let ⟨_, hk⟩ := settles_of_step h
  hk.service hs

/-- Settles O55. -/
theorem rateStaysWithinLimit : Obligations.RateStaysWithinLimit := fun _ _ hs h =>
  let ⟨_, hk⟩ := settles_of_step h
  hk.rate hs

/-- Settles O56. -/
theorem attentionAndRingsStayRight : Obligations.AttentionAndRingsStayRight := fun _ _ ha hr h =>
  let ⟨_, hk⟩ := settles_of_step h
  ⟨hk.attention ha, hk.rings hr⟩

/-- Settles O57. -/
theorem trackingStaysRight : Obligations.TrackingStaysRight := fun _ _ hs h =>
  let ⟨_, hk⟩ := settles_of_step h
  hk.track hs

/-- Settles O58. -/
theorem robotsStayRight : Obligations.RobotsStayRight := fun _ _ hs h =>
  let ⟨_, hk⟩ := settles_of_step h
  hk.robots hs

/-- Settles O59: the two invariants together are what a move between commands keeps. -/
theorem commandsAndTableStayRight : Obligations.CommandsAndTableStayRight := fun _ _ ht hc h =>
  let ⟨_, hk⟩ := settles_of_step h
  let ⟨⟨table, commands⟩, between⟩ := hk.settled ⟨ht, hc.1⟩ hc.2
  ⟨table, commands, between⟩

/-- Settles O12. -/
theorem commandsLeaveQueue : Obligations.CommandsLeaveQueue := fun _ _ _ h => (settles_of_exec h).pending

/-- Settles O11: the front command is the step's first case. -/
theorem stepRunsFrontCommand : Obligations.StepRunsFrontCommand := fun _ _ _ => rfl

/-- Settles O60. -/
theorem resetIsSafe : Obligations.ResetIsSafe := ⟨powerReset_safe 0 false false 0 0 [] [], rfl⟩

end Sys2Proof.Machine
end

section
/-! SUPPORT. A link request check by check (Table 2-2): which check refuses it, what a refusal leaves with and without an
unanswered transaction ahead, and the statements about requests that are stalled or refused. -/

namespace Sys2Proof.Machine
open Sys2Proof

theorem exec_linkRequest_of_eq {s t : State} {r : LinkRequest} (h : linkRequestAct r s = t) :
    exec (.linkRequest r) s = .next t := congrArg Host.Outcome.next h

/-! ## Stalls (R4, R5) -/

theorem linkRequest_full {s : State} {r : LinkRequest} (h : 4 ≤ s.tagCount r.tag) : linkRequestAct r s = s := by
  unfold linkRequestAct
  split
  · rfl
  · exact if_pos h

theorem linkRequest_drained {s : State} {r : LinkRequest} (hm : malformed r = false) (hd : drainStalls s r = true) :
    linkRequestAct r s = s := by
  unfold linkRequestAct
  rw [hm, hd]
  simp

/-- A DRAINING entry stalls a well-formed request that covers a byte of its old range, its new range or a new half (R39). -/
theorem stalls_draining {r : LinkRequest} (h : r.beats.val ≠ 0) (old : Window) (new : Option Window) {a : Nat} (ha : r.covers a)
    (hx : (old.range.1 ≤ a ∧ a < old.range.2)
      ∨ ∃ w, new = some w ∧ ∃ x ∈ w.range :: w.halves, x.1 ≤ a ∧ a < x.2) :
    (WinState.draining old new).stalls r = true := by
  unfold WinState.stalls
  rw [List.any_eq_true]
  rcases hx with hx | ⟨w, rfl, x, hx, hlo, hhi⟩
  · exact ⟨_, List.mem_cons_self .., (touches_iff h _ _).2 ⟨a, ha, hx⟩⟩
  · exact ⟨x, List.mem_cons_of_mem _ hx, (touches_iff h _ _).2 ⟨a, ha, hlo, hhi⟩⟩

theorem halves_of_banked {w : Window} {e : Bool} {x : Authority} {n : RobotIdx} {ha hb : Addr}
    (h : w.role = .banked e x n ha hb) :
    w.halves = [(ha.toNat, ha.toNat + w.size.toNat), (hb.toNat, hb.toNat + w.size.toNat)] := by
  unfold Window.halves
  rw [h]

/-- Settles O1. -/
theorem stalledRequestChangesNothing : Obligations.StalledRequestChangesNothing := by
  intro s r _
  refine ⟨fun h => exec_linkRequest_of_eq (linkRequest_full h), fun i old new a hw hi ha hx => ?_⟩
  have hm : malformed r = false := by
    rw [Bool.eq_false_iff]
    exact mt (malformed_iff r).1 hw
  refine exec_linkRequest_of_eq (linkRequest_drained hm ?_)
  unfold drainStalls
  rw [List.any_eq_true]
  refine ⟨i, mem_allWindows i, ?_⟩
  rw [hi]
  refine stalls_draining (wellFormed_span hm).1 old new ha ?_
  rcases hx with hx | ⟨w, rfl, hx⟩ | ⟨w, e, x, n, p, q, rfl, hr, hx⟩
  · exact .inl hx
  · exact .inr ⟨w, rfl, w.range, List.mem_cons_self .., hx⟩
  · refine .inr ⟨w, rfl, ?_⟩
    rw [halves_of_banked hr]
    exact hx.elim (fun hx => ⟨_, List.mem_cons_of_mem _ (List.mem_cons_self ..), hx⟩)
      fun hx => ⟨_, List.mem_cons_of_mem _ (List.mem_cons_of_mem _ (List.mem_cons_self ..)), hx⟩

/-! ## The check that refuses (Table 2-2) -/

theorem linkRequest_malformed {s : State} {r : LinkRequest} (hr : s.running = true) (hl : s.tagCount r.tag < 4)
    (hm : badForm r) : linkRequestAct r s = refuseRequest .linkForm .nothing r s := by
  unfold linkRequestAct
  simp [hr, (malformed_iff r).2 hm, Config.tagLimit, Nat.not_le.2 hl]

theorem not_areaAdmits {s : State} {r : LinkRequest}
    (h : (∃ a, r.covers a ∧ r.dir = .read ∧ ¬ hostReadable (a - s.areaBase))
      ∨ (∃ a, r.covers a ∧ r.dir = .write ∧ ¬ hostWritable (a - s.areaBase))) : areaAdmits s r ≠ true := by
  intro hall
  unfold areaAdmits at hall
  rw [List.all_eq_true] at hall
  rcases h with ⟨a, ha, hd, hn⟩ | ⟨a, ha, hd, hn⟩
  · have := hall a ((mem_spanBytes r a).2 ha)
    rw [hd] at this
    exact hn ((readableOffset_iff _).1 this)
  · have := hall a ((mem_spanBytes r a).2 ha)
    rw [hd] at this
    exact hn ((writableOffset_iff _).1 this)

theorem linkRequest_control {s : State} {r : LinkRequest} (ht : s.takes r) (hin : ∃ a, r.covers a ∧ s.areaHas a)
    (h : r.tag ≠ 0 ∨ (∃ a, r.covers a ∧ r.dir = .read ∧ ¬ hostReadable (a - s.areaBase))
      ∨ (∃ a, r.covers a ∧ r.dir = .write ∧ ¬ hostWritable (a - s.areaBase))) :
    linkRequestAct r s = refuseRequest .control .control r s := by
  have hno : ¬ (r.tag = 0 ∧ areaAdmits s r = true) := fun ⟨h0, ha⟩ =>
    h.elim (fun hne => hne h0) fun h' => not_areaAdmits h' ha
  rw [linkRequest_taken ht]
  unfold decideRequest checkRequest checkArea
  rw [if_pos ((inArea_iff ht.2.2.1).2 hin), if_neg hno]

theorem linkRequest_hidden {s : State} {r : LinkRequest} (ht : s.takes r) (ho : s.outsideArea r)
    (hh : ∃ a, r.covers a ∧ s.hides a) : linkRequestAct r s = refuseRequest .hidden .nothing r s := by
  rw [linkRequest_outside ht ho, (touchesHidden_iff ht.2.2.1).2 hh]
  rfl

theorem governors_ungoverned {s : State} {r : LinkRequest} (hu : ∀ a, r.covers a → s.ungoverned a) : (governors s r).findSome? id = none := by
  rw [List.findSome?_eq_none_iff]
  intro x hx
  obtain ⟨a, ha, rfl⟩ := List.mem_map.1 hx
  exact governor?_eq_none.2 (hu a ((mem_spanBytes r a).1 ha))

section Unhidden
variable {s : State} {r : LinkRequest} (ht : s.takes r) (ho : s.outsideArea r) (hh : ∀ a, r.covers a → ¬ s.hides a)
include ht ho hh

theorem linkRequest_unwindowed (hu : ∀ a, r.covers a → s.ungoverned a) (hx : s.exempt r) :
    linkRequestAct r s = forwardRequest .nothing none false r.addr r r.data r.enables s := by
  rw [linkRequest_unhidden ht ho hh]
  unfold checkGoverning
  rw [governors_ungoverned hu]
  dsimp only
  rw [if_pos ((openTagZero_iff s r).2 hx)]

theorem linkRequest_unmapped (hu : ∀ a, r.covers a → s.ungoverned a) (hx : ¬ s.exempt r) :
    linkRequestAct r s = refuseRequest .unmapped .nothing r s := by
  rw [linkRequest_unhidden ht ho hh]
  unfold checkGoverning
  rw [governors_ungoverned hu]
  dsimp only
  rw [if_neg (mt (openTagZero_iff s r).1 hx)]

/-- Of a span in several windows, or in one only in part, the first governed byte decides the window named (R25). -/
theorem linkRequest_straddle {i : WinIdx} (hs : s.straddles r i) :
    linkRequestAct r s = refuseRequest .straddle (.window i) r s := by
  obtain ⟨w, a, b, ha, hg, hlow, hb, hn⟩ := hs
  have hfirst : (governors s r).findSome? id = some i := by
    obtain ⟨l₁, l₂, hl, hbefore⟩ := spanBytes_split r a ha
    have hnone : (l₁.map s.governor?).findSome? id = none := by
      rw [List.findSome?_eq_none_iff]
      intro x hx
      obtain ⟨c, hc, rfl⟩ := List.mem_map.1 hx
      exact governor?_eq_none.2 (hlow c (hbefore c hc).2 (hbefore c hc).1)
    unfold governors
    rw [hl, List.map_append, List.findSome?_append, hnone, List.map_cons, governor_of_governs hg]
    rfl
  have hother : (governors s r).all (· == some i) ≠ true := by
    intro hall
    rw [List.all_eq_true] at hall
    have hgb : s.governor? b = some i := by
      simpa using hall (s.governor? b) (List.mem_map.2 ⟨b, (mem_spanBytes r b).2 hb, rfl⟩)
    obtain ⟨v, hv⟩ := governor?_eq_some.1 hgb
    have : v = w := by
      have he := hv.1.symm.trans hg.1
      cases he
      rfl
    exact hn (this ▸ hv)
  rw [linkRequest_unhidden ht ho hh]
  unfold checkGoverning
  rw [hfirst]
  dsimp only
  rw [if_neg hother]

end Unhidden

section Reaching
variable {s : State} {r : LinkRequest} {i : WinIdx} {w : Window} (hre : s.reaches r i w)
include hre

theorem linkRequest_bankWord (h : w.bankWordWritten r) : linkRequestAct r s = refuseRequest .bankWord (.window i) r s := by
  rw [linkRequest_reaches hre]
  unfold checkWindow
  rw [if_pos ((coversBankWord_iff w r).2 h)]

theorem linkRequest_role (h : ¬ w.bankWordWritten r) (h' : s.roleRefuses i w r) :
    linkRequestAct r s = refuseRequest .rights (.window i) r s := by
  rw [linkRequest_reaches hre]
  unfold checkWindow
  rw [if_neg (mt (coversBankWord_iff w r).1 h), if_pos ((roleWrites_iff hre).2 h')]

theorem linkRequest_rights (h : ¬ w.bankWordWritten r) (h' : ¬ s.roleRefuses i w r) (h'' : ¬ s.hasRights w r) :
    linkRequestAct r s = refuseRequest .rights (.window i) r s := by
  have hr : rightsPass s w r = false := by
    rw [Bool.eq_false_iff]
    exact mt (rightsPass_iff s w r).1 h''
  rw [linkRequest_reaches hre]
  unfold checkWindow
  rw [if_neg (mt (coversBankWord_iff w r).1 h), if_neg (mt (roleWrites_iff hre).1 h'), hr]
  rfl

theorem linkRequest_authority (h : ¬ w.bankWordWritten r) (h' : ¬ s.roleRefuses i w r) (h'' : s.hasRights w r)
    (hd : r.dir = .write) (ha : ¬ w.authorizes r.tag) :
    linkRequestAct r s = refuseRequest .authority (.window i) r s := by
  have hp : authorityPass w r = false := by
    rw [Bool.eq_false_iff]
    exact mt (authorityPass_iff w r hd).1 ha
  rw [linkRequest_reaches hre]
  unfold checkWindow
  rw [if_neg (mt (coversBankWord_iff w r).1 h), if_neg (mt (roleWrites_iff hre).1 h'), (rightsPass_iff s w r).2 h'', hp]
  rfl

end Reaching

/-! ## Refusals whose response is given at once -/

theorem tagCount_lt_of_free {s : State} {r : LinkRequest} (h : s.tagFree r) : s.tagCount r.tag < 4 := by
  rw [tagCount_of_free h]
  decide

/-- Settles O2. -/
theorem malformedOrHiddenRefused : Obligations.MalformedOrHiddenRefused := fun _ _ hfree =>
  ⟨fun hr hm => exec_linkRequest_of_eq ((linkRequest_malformed hr (tagCount_lt_of_free hfree) hm).trans (refuseRequest_eq _ _ hfree)),
    fun ht ho hh => exec_linkRequest_of_eq ((linkRequest_hidden ht ho hh).trans (refuseRequest_eq _ _ hfree))⟩

/-- Settles O6. -/
theorem oneGoverningWindow : Obligations.OneGoverningWindow :=
  ⟨fun _ _ ht ho hh hu => ⟨fun hx => exec_linkRequest_of_eq (linkRequest_unwindowed ht ho hh hu hx),
      fun hx hfree => exec_linkRequest_of_eq ((linkRequest_unmapped ht ho hh hu hx).trans (refuseRequest_eq _ _ hfree))⟩,
    fun _ _ _ ht hfree ho hh hs => exec_linkRequest_of_eq ((linkRequest_straddle ht ho hh hs).trans (refuseRequest_eq _ _ hfree))⟩

/-- Settles O7. -/
theorem windowChecksRefuse : Obligations.WindowChecksRefuse := fun _ _ _ _ hre hfree =>
  ⟨fun h => exec_linkRequest_of_eq ((linkRequest_bankWord hre h).trans (refuseRequest_eq _ _ hfree)),
    fun h h' => exec_linkRequest_of_eq ((linkRequest_role hre h h').trans (refuseRequest_eq _ _ hfree)),
    fun h h' h'' => exec_linkRequest_of_eq ((linkRequest_rights hre h h' h'').trans (refuseRequest_eq _ _ hfree)),
    fun h h' h'' hd ha => exec_linkRequest_of_eq ((linkRequest_authority hre h h' h'' hd ha).trans (refuseRequest_eq _ _ hfree))⟩

/-! ## Refusals whose response waits (R9) -/

theorem refusedReaderRead_eq {s : State} {i : WinIdx} {r : LinkRequest} {reader : Bool}
    (h : reader = true ↔ s.readsAsReader i r) : refusedReaderRead s (.window i) r = reader := by
  rw [Bool.eq_iff_iff, h]
  unfold refusedReaderRead State.readsAsReader
  dsimp only
  cases s.bankRobot? i with
  | none => simp
  | some p =>
    obtain ⟨n, b⟩ := p
    simp [isReaderRead]

/-- Settles O3: each check's refusal, and what a refusal leaves behind an unanswered transaction. -/
theorem refusedResponseWaits : Obligations.RefusedResponseWaits := by
  intro s r pre post e hi hp he ha waits
  have hw : ∀ k c reader, refusedReaderRead s c r = reader → linkRequestAct r s = refuseRequest k c r s →
      waits k c c.window? reader := by
    rintro k c reader rfl h
    exact exec_linkRequest_of_eq (h.trans (refuseRequest_waits hi hp he ha k c))
  refine ⟨fun hr hl hm => hw _ _ _ rfl (linkRequest_malformed hr hl hm),
    fun ht hin h => hw _ _ _ rfl (linkRequest_control ht hin h),
    fun ht ho hh => hw _ _ _ rfl (linkRequest_hidden ht ho hh), fun ht ho hh => ⟨fun hu hx => 
      hw _ _ _ rfl (linkRequest_unmapped ht ho hh hu hx), fun i reader hrd hs =>
      hw _ _ _ (refusedReaderRead_eq hrd) (linkRequest_straddle ht ho hh hs)⟩, fun i w reader hrd hre => ?_⟩
  have hr := fun k => hw k (.window i) reader (refusedReaderRead_eq hrd)
  exact ⟨fun h => hr _ (linkRequest_bankWord hre h), fun h h' => hr _ (linkRequest_role hre h h'),
    fun h h' h'' => hr _ (linkRequest_rights hre h h' h''),
    fun h h' h'' hd hau => hr _ (linkRequest_authority hre h h' h'' hd hau)⟩

end Sys2Proof.Machine
end

section
/-! SUPPORT. What a request that no check refuses does: the control area and its watched words, the windows with and without
a stamp, the banks; and what an admitted write has met. -/

namespace Sys2Proof.Machine
open Sys2Proof

/-! ## Watched words (R10) -/

/-- A word is covered whole and enabled exactly if each of its bytes is. -/
theorem coversWord_iff (r : LinkRequest) (addr : Nat) :
    coversWord (spanFirst r) (spanLen r) r.enables addr = true
      ↔ ∀ k, k < 8 → r.covers (addr + k) ∧ r.enables.getD (addr + k - r.addr.toNat) false = true := by
  simp only [coversWord, Bool.and_eq_true, decide_eq_true_eq, List.all_eq_true, List.mem_range]
  simp only [enabledAt, spanFirst, spanLen, LinkRequest.covers]
  constructor
  · rintro ⟨⟨hlo, hhi⟩, hen⟩ k hk
    have := hen k hk
    rw [show addr - r.addr.toNat + k = addr + k - r.addr.toNat by omega] at this
    exact ⟨by omega, this⟩
  · intro h
    have h0 := (h 0 (by omega)).1
    have h7 := (h 7 (by omega)).1
    refine ⟨⟨by omega, by omega⟩, fun k hk => ?_⟩
    rw [show addr - r.addr.toNat + k = addr + k - r.addr.toNat by omega]
    exact (h k hk).2

theorem writesWord_iff (r : LinkRequest) (area o : Nat) (v : Word) :
    writesWord r area o v
      ↔ coversWord (spanFirst r) (spanLen r) r.enables (area + o) = true ∧ v = wordAt (spanFirst r) r.data (area + o) := by
  unfold writesWord
  rw [← coversWord_iff]
  refine and_congr_right fun h => ?_
  have hlo : r.addr.toNat ≤ area + o := (((coversWord_iff r _).1 h) 0 (by omega)).1.1
  unfold wordAt dataAt spanFirst
  rw [List.map_congr_left fun k _ => by
    show r.data.getD (area + o + k - r.addr.toNat) 0 = r.data.getD (area + o - r.addr.toNat + k) 0
    rw [show area + o + k - r.addr.toNat = area + o - r.addr.toNat + k by omega]]

/-- The row of an observation (Table 10-1). -/
def Watched.row : Watched → Word → Instr
  | .tail             => .commandTailWrite
  | .noticeConsumed   => .noticeConsumedWrite
  | .decisionConsumed => .decisionConsumedWrite
  | .publish r        => .publishWordWrite r

theorem watchedRows_eq : watchedRows = watchedWords.map fun w => (w.2, w.1.row) := rfl

/-- The row of a watched word is its observation by the owning unit. -/
theorem exec_row {s : State} (h : s.running = true) (w : Watched) (v : Word) : exec (w.row v) s = .next (observe w v s) := by
  have hw : ∀ act : State → State, whenRunning act s = act s := fun act => if_pos h
  cases w with
  | tail => exact congrArg _ (hw _)
  | noticeConsumed => exact congrArg _ (hw _)
  | decisionConsumed => exact congrArg _ (hw _)
  | publish r => exact congrArg _ (hw _)

/-- Handing over the observations is running the rows of the words that the write covers whole, in order. -/
theorem wordsObserved_observeAll (r : LinkRequest) (area : Nat) (ws : List (Watched × Nat)) (u : State)
    (hr : u.running = true) :
    wordsObserved r area (ws.map fun w => (w.2, w.1.row)) u
      (observeAll ((ws.filter fun w => coversWord (spanFirst r) (spanLen r) r.enables (area + w.2)).map
        fun w => (w.1, wordAt (spanFirst r) r.data (area + w.2))) u) := by
  induction ws generalizing u with
  | nil => rfl
  | cons w ws ih =>
    simp only [List.map_cons, List.filter_cons]
    refine ⟨fun v hv => ?_, fun hno => ?_⟩
    · obtain ⟨hc, rfl⟩ := (writesWord_iff r area w.2 v).1 hv
      rw [if_pos hc]
      exact ⟨_, exec_row hr w.1 _, ih _ ((observe_running w.1 _ u).trans hr)⟩
    · rw [if_neg fun hc => hno _ ((writesWord_iff r area w.2 _).2 ⟨hc, rfl⟩)]
      exact ih u hr

/-- Settles O5. -/
theorem watchedWordWriteObserved : Obligations.WatchedWordWriteObserved := by
  intro s r ht h0 hd hall
  have harea : linkRequestAct r s = areaRequest r s :=
    linkRequest_area ht h0 (fun a ha => (hall a ha).1)
      (.inr ⟨hd, fun a ha => (writableOffset_iff _).2 (hall a ha).2⟩)
  refine ⟨_, exec_linkRequest_of_eq harea, ?_⟩
  unfold areaRequest
  dsimp only
  rw [if_pos hd, watchedRows_eq]
  exact wordsObserved_observeAll r s.areaBase watchedWords (s.forwarding r .control none false r.addr r.data r.enables) ht.1

/-- A read, and a write that covers no watched word whole, is observed by no unit. -/
theorem areaRequest_unobserved {s : State} {r : LinkRequest}
    (h : r.dir = .write → ∀ w ∈ watchedWords, coversWord (spanFirst r) (spanLen r) r.enables (s.areaBase + w.2) ≠ true) :
    areaRequest r s = s.forwarding r .control none false r.addr r.data r.enables := by
  unfold areaRequest
  dsimp only
  split
  · rename_i hd
    unfold observations
    rw [List.filter_eq_nil_iff.2 (h hd)]
    rfl
  · rfl

/-- Settles O4. -/
theorem controlAreaDecides : Obligations.ControlAreaDecides := by
  refine ⟨fun s r ht hfree hin h => exec_linkRequest_of_eq ((linkRequest_control ht hin h).trans (refuseRequest_eq _ _ hfree)),
    fun s r ht h0 hall h => exec_linkRequest_of_eq ?_⟩
  rcases h with ⟨hd, hreg⟩ | ⟨hd, hreg, hnone⟩
  · rw [linkRequest_area ht h0 hall (.inl ⟨hd, fun a ha => (readableOffset_iff _).2 (hreg a ha)⟩)]
    exact areaRequest_unobserved fun hw => by rw [hd] at hw; cases hw
  · rw [linkRequest_area ht h0 hall (.inr ⟨hd, fun a ha => (writableOffset_iff _).2 (hreg a ha)⟩)]
    refine areaRequest_unobserved fun _ w hw hc => ?_
    have ho : w.2 ∈ ([0x8, 0x20, 0x30, 0x100, 0x108, 0x110, 0x118, 0x120, 0x128] : List Nat) :=
      List.mem_map.2 ⟨w, hw, rfl⟩
    obtain ⟨k, hk, hbad⟩ := hnone w.2 ho
    obtain ⟨hcov, hen⟩ := (coversWord_iff r _).1 hc k hk
    rcases hbad with hbad | hbad
    · exact hbad hcov
    · rw [hbad] at hen
      cases hen

/-! ## Windows and stamps (R33, R55, R56) -/

theorem stamped_of_none {w : Window} {r : LinkRequest} (h : stampFor w r = none) (time : Nat) :
    stamped w r time = (r.data, r.enables) := by
  unfold stamped
  rw [h]

/-- A write by a tag of the write set is stamped as its window says. -/
theorem stampedAs_stamped {w : Window} {r : LinkRequest} (hd : r.dir = .write) (hw : inSet w.writeSet r.tag = true)
    (time : Nat) : stampedAs w r time (stamped w r time).1 (stamped w r time).2 := by
  have hs : stampFor w r = w.role.stamp? := if_pos ⟨hd, hw⟩
  refine ⟨fun hn => ?_, fun place hp => ?_⟩
  · rw [stamped_of_none (hs.trans hn)]
    exact ⟨rfl, rfl⟩
  · unfold stamped
    rw [hs, hp]
    exact ⟨by simp [stampData, spanLen], by simp [stampEnables, spanLen],
      fun k hk => stamped_bytes place (spanFirst r - w.base.toNat) (spanLen r) time r.data r.enables k hk⟩

theorem bank?_of_not_banked {s : State} {i : WinIdx} {w : Window} (hl : s.loaded? i = some w)
    (h : ∀ e x n ha hb, w.role ≠ .banked e x n ha hb) : s.bank? i = none := by
  unfold State.bank?
  rw [hl]
  dsimp only
  split
  · exact absurd ‹_› (h _ _ _ _ _)
  · rfl

/-- A window request that is no assembly step is a forwarding. -/
theorem windowRequest_forwards {i : WinIdx} {w : Window} {r : LinkRequest} {s : State}
    (h : w.feedKind? = none ∨ ¬ (r.dir = .write ∧ inSet w.writeSet r.tag = true)) :
    windowRequest i w r s = s.forwarding r (.window i) none false r.addr (stamped w r s.time).1 (stamped w r s.time).2 := by
  unfold windowRequest
  dsimp only
  split
  · rename_i k hk
    rw [hk] at h
    exact if_neg (h.resolve_left nofun)
  · rfl

/-- An admitted request to a window that is no bank. -/
theorem linkRequest_window {s : State} {r : LinkRequest} {i : WinIdx} {w : Window} (hre : s.reaches r i w)
    (hb : ∀ e x n ha hb, w.role ≠ .banked e x n ha hb) (hn : ¬ s.roleRefuses i w r) (hr : s.hasRights w r)
    (ha : r.dir = .write → w.authorizes r.tag) : linkRequestAct r s = windowRequest i w r s := by
  rw [linkRequest_admitted hre (fun ⟨_, ⟨e, x, n, p, q, h⟩, _⟩ => hb e x n p q h) hn hr ha,
    bank?_of_not_banked (loaded_of_reaches hre) hb]

/-- Settles O8. -/
theorem windowForwards : Obligations.WindowForwards := by
  intro s r i w hre hrobot
  have hnorobot : ∀ n b, s.bankRobot? i ≠ some (n, b) := fun n b h => by
    rw [hrobot] at h
    cases h
  refine ⟨fun hcase hslot hr ha => exec_linkRequest_of_eq ?_, fun place hrole hd hw => ?_⟩
  · have hnb : ∀ e x n p q, w.role ≠ .banked e x n p q := by
      rintro e x n p q h
      rcases hcase with (h' | ⟨e', x', h'⟩) | ⟨-, ⟨p', h'⟩ | ⟨k, p', h'⟩⟩ <;> rw [h'] at h <;> cases h
    have hn : ¬ s.roleRefuses i w r := by
      rintro ⟨hd, ⟨n, b, h, -⟩ | ⟨hf, a, ha', hhi⟩⟩
      · exact hnorobot n b h
      · exact absurd (hslot hd hf a ha') (Nat.not_lt.2 hhi)
    have hstamp : stampFor w r = none
        ∧ (w.feedKind? = none ∨ ¬ (r.dir = .write ∧ inSet w.writeSet r.tag = true)) := by
      rcases hcase with (h' | ⟨e', x', h'⟩) | ⟨hd, -⟩
      · exact ⟨by simp [stampFor, h', Role.stamp?], .inl (by simp [Window.feedKind?, h'])⟩
      · exact ⟨by simp [stampFor, h', Role.stamp?], .inl (by simp [Window.feedKind?, h'])⟩
      · have hno : ¬ (r.dir = .write ∧ inSet w.writeSet r.tag = true) := by
          rintro ⟨hdw, hin⟩
          rcases hd with hd | hd
          · rw [hd] at hdw
            cases hdw
          · exact absurd (hd.symm.trans hin) (by decide)
        exact ⟨if_neg hno, .inr hno⟩
    rw [linkRequest_window hre hnb hn hr ha, windowRequest_forwards hstamp.2, stamped_of_none hstamp.1]
  · have hnb : ∀ e x n p q, w.role ≠ .banked e x n p q := fun e x n p q h => by
      rw [hrole] at h
      cases h
    have hk : w.feedKind? = none := by simp [Window.feedKind?, hrole]
    have hn : ¬ s.roleRefuses i w r := by
      rintro ⟨-, ⟨n, b, h, -⟩ | ⟨hf, -⟩⟩
      · exact hnorobot n b h
      · rw [hk] at hf
        cases hf
    have ha : r.dir = .write → w.authorizes r.tag := fun _ => by simp [Window.authorizes, hrole, Role.authority?]
    refine ⟨_, _, exec_linkRequest_of_eq ?_, stampedAs_stamped hd hw _⟩
    rw [linkRequest_window hre hnb hn (.inr (.inr ⟨hd, hw⟩)) ha, windowRequest_forwards (.inl hk)]
    rfl

/-! ## Banks (R30, R32, R105) -/

theorem bank?_of_banked {s : State} {i : WinIdx} {w : Window} {e : Bool} {x : Authority} {n : RobotIdx} {ha hb : Addr}
    (hl : s.loaded? i = some w) (h : w.role = .banked e x n ha hb) :
    s.bank? i = some { size := w.size.toNat, halfA := ha, halfB := hb } := by
  unfold State.bank?
  rw [hl]
  dsimp only
  rw [h]

theorem redirect_eq (size : Nat) (ha hb : Addr) (h : Half) (w : Window) (r : LinkRequest) :
    redirect { size := size, halfA := ha, halfB := hb } h w r
      = BitVec.ofNat 32 ((if h = .a then ha.toNat else hb.toNat) + (r.addr.toNat - w.base.toNat)) := by
  cases h <;> rfl

/-- An admitted request to a BANKED window. -/
theorem linkRequest_bank {s : State} {r : LinkRequest} {i : WinIdx} {w : Window} {e : Bool} {x : Authority} {n : RobotIdx}
    {ha hb : Addr} (hre : s.reaches r i w) (hrole : w.role = .banked e x n ha hb)
    (hword : r.dir = .write → w.base.toNat + 8 ≤ r.addr.toNat) (hr : s.hasRights w r)
    (hau : r.dir = .write → w.authorizes r.tag)
    (hreader : r.dir = .write → ∀ m b, s.bankRobot? i = some (m, b) → r.tag ≠ b.reader) :
    linkRequestAct r s = bankRequest i w { size := w.size.toNat, halfA := ha, halfB := hb } r s := by
  have hw : ¬ w.bankWordWritten r := fun ⟨hd, _, hlt⟩ => Nat.not_lt.2 (hword hd) hlt
  have hn : ¬ s.roleRefuses i w r := by
    rintro ⟨hd, ⟨m, b, h, ht⟩ | ⟨hf, -⟩⟩
    · exact hreader hd m b h ht
    · simp [Window.feedKind?, hrole] at hf
  rw [linkRequest_admitted hre hw hn hr hau, bank?_of_banked (loaded_of_reaches hre) hrole]

theorem bankRequest_unbound {s : State} {i : WinIdx} (h : s.bankRobot? i = none) (w : Window) (k : Bank) (r : LinkRequest) :
    bankRequest i w k r s = s.forwarding r (.window i) (some .a) false (redirect k .a w r) r.data r.enables := by
  unfold bankRequest
  rw [h]
  rfl

section Bound
variable {s : State} {i : WinIdx} {m : RobotIdx} {b : Bound} (h : s.bankRobot? i = some (m, b)) (w : Window) (k : Bank)
  (r : LinkRequest)
include h

theorem bankRequest_stalled (hs : bankStalls s b r = true) : bankRequest i w k r s = s := by
  unfold bankRequest
  rw [h]
  exact if_pos hs

theorem bankRequest_forwarded (hs : bankStalls s b r = false) (hh : bankHolds b r = false) {half : Half} {reader : Bool}
    (hc : chooseHalf (some (m, b)) r = (half, reader)) :
    bankRequest i w k r s = s.forwarding r (.window i) (some half) reader (redirect k half w r) r.data r.enables := by
  unfold bankRequest
  rw [h]
  dsimp only
  rw [hs, hh, hc]
  rfl

theorem bankRequest_held (hs : bankStalls s b r = false) (hh : bankHolds b r = true) {half : Half} {reader : Bool}
    (hc : chooseHalf (some (m, b)) r = (half, reader)) :
    bankRequest i w k r s = holdRequest (.window i) half m (redirect k half w r) r s := by
  unfold bankRequest
  rw [h]
  dsimp only
  rw [hs, hh, hc]
  rfl

end Bound

theorem isReaderRead_of_write {b : Bound} {r : LinkRequest} (hd : r.dir = .write) : isReaderRead b r = false := by
  simp [isReaderRead, hd]

theorem chooseHalf_reader {m : RobotIdx} {b : Bound} {r : LinkRequest} (h : isReaderRead b r = true) :
    chooseHalf (some (m, b)) r = (b.published, true) := if_pos h

theorem chooseHalf_other {m : RobotIdx} {b : Bound} {r : LinkRequest} (h : isReaderRead b r = false) :
    chooseHalf (some (m, b)) r = (b.published.other, false) := if_neg (by rw [h]; decide)

/-- Settles O9. -/
theorem bankRedirects : Obligations.BankRedirects := by
  refine ⟨?_, ?_⟩
  · intro s r i w e x n ha hb hre hrole hword hr hau goesTo
    have hgo : ∀ half reader,
        linkRequestAct r s = s.forwarding r (.window i) (some half) reader
          (redirect { size := w.size.toNat, halfA := ha, halfB := hb } half w r) r.data r.enables → goesTo half reader := by
      intro half reader h
      rw [redirect_eq] at h
      exact exec_linkRequest_of_eq h
    have hread : r.dir = .read → linkRequestAct r s = bankRequest i w { size := w.size.toNat, halfA := ha, halfB := hb } r s :=
      fun hd => linkRequest_bank hre hrole hword hr hau fun hw => by rw [hd] at hw; cases hw
    refine ⟨fun hb0 => hgo _ _ ?_, fun m b hb0 hd ht hp => hgo _ _ ?_, fun m b hb0 hd ht => hgo _ _ ?_,
      fun m b hb0 hd ht hp => hgo _ _ ?_⟩
    · rw [linkRequest_bank hre hrole hword hr hau fun _ m b h => (by rw [hb0] at h; cases h),
        bankRequest_unbound hb0]
    · have hrd : isReaderRead b r = true := by simp [isReaderRead, hd, ht]
      have hst : bankStalls s b r = false := by
        unfold bankStalls
        cases hpub : b.publish <;> simp_all
      rw [hread hd, bankRequest_forwarded hb0 _ _ _ hst (by simp [bankHolds, hd]) (chooseHalf_reader hrd)]
    · have hrd : isReaderRead b r = false := by simp [isReaderRead, ht]
      have hst : bankStalls s b r = false := by
        unfold bankStalls
        cases hpub : b.publish <;> simp [hrd, hd]
      rw [hread hd, bankRequest_forwarded hb0 _ _ _ hst (by simp [bankHolds, hd]) (chooseHalf_other hrd)]
    · have hrd : isReaderRead b r = false := isReaderRead_of_write hd
      have hst : bankStalls s b r = false := by
        unfold bankStalls
        rcases hp with hp | hp <;> rw [hp]
      have hho : bankHolds b r = false := by
        unfold bankHolds
        rcases hp with hp | hp <;> rw [hp] <;> rfl
      rw [linkRequest_bank hre hrole hword hr hau fun _ m' b' h => (by rw [hb0] at h; cases h; exact ht),
        bankRequest_forwarded hb0 _ _ _ hst hho (chooseHalf_other hrd)]
  · intro s r i w e x n m ha hb b hre hrole hword hr hau hb0 addr
    have hbank : (r.dir = .write → r.tag ≠ b.reader) →
        linkRequestAct r s = bankRequest i w { size := w.size.toNat, halfA := ha, halfB := hb } r s := fun ht =>
      linkRequest_bank hre hrole hword hr hau fun hd m' b' h => by
        rw [hb0] at h
        cases h
        exact ht hd
    refine ⟨fun hp hcase => exec_linkRequest_of_eq ?_, fun hp hd ht hfull => exec_linkRequest_of_eq ?_, fun hp hd ht hroom => exec_linkRequest_of_eq ?_⟩
    · have ht : r.dir = .write → r.tag ≠ b.reader := fun hd => by
        rcases hcase with ⟨hd', -⟩ | ⟨-, ht⟩
        · rw [hd] at hd'
          cases hd'
        · exact ht
      rw [hbank ht, bankRequest_stalled hb0]
      unfold bankStalls
      rw [hp]
      rcases hcase with ⟨hd, ht⟩ | ⟨hd, ht⟩
      · simp [isReaderRead, hd, ht]
      · simp [hd]
    · rw [hbank fun _ => ht, bankRequest_stalled hb0]
      unfold bankStalls
      rw [hp]
      simp only [hd, decide_true, Bool.true_and]
      exact decide_eq_true hfull
    · have hst : bankStalls s b r = false := by
        unfold bankStalls
        rw [hp]
        simp only [hd, decide_true, Bool.true_and]
        exact decide_eq_false (Nat.not_le.2 hroom)
      rw [hbank fun _ => ht, bankRequest_held hb0 _ _ _ hst (by simp [bankHolds, hp, hd])
        (chooseHalf_other (isReaderRead_of_write hd)), redirect_eq]
      rfl

/-! ## What an admitted write has met (R22) -/

theorem refuseRequest_stream (k : FaultKind) (c : Checked) (r : LinkRequest) (s : State) :
    (refuseRequest k c r s).path.passing = s.path.passing ∧ (refuseRequest k c r s).hold = s.hold :=
  takeFault_stream (requestFault k c r) (s.addEntry (entryOf s r .refused c none (refusedReaderRead s c r) none))

/-- The control area admits a request of tag 0 in the admitted regions. -/
theorem checkRequest_area {s : State} {r : LinkRequest} (h : checkRequest s r = .area) :
    inArea s r = true ∧ r.tag = 0 ∧ areaAdmits s r = true := by
  unfold checkRequest at h
  split at h
  · rename_i hin
    unfold checkArea at h
    split at h
    · rename_i ha
      exact ⟨hin, ha⟩
    · cases h
  · split at h
    · cases h
    · unfold checkGoverning at h
      split at h
      · split at h <;> cases h
      · split at h
        · split at h
          · unfold checkWindow at h
            repeat (split at h; · cases h)
            cases h
          · cases h
        · cases h

/-- Outside every window tag 0 under OPEN is admitted. -/
theorem checkRequest_unwindowed {s : State} {r : LinkRequest} (h : checkRequest s r = .unwindowed) :
    inArea s r = false ∧ touchesHidden s r = false ∧ s.exempt r ∧ (governors s r).findSome? id = none := by
  unfold checkRequest at h
  split at h
  · unfold checkArea at h
    split at h <;> cases h
  · rename_i hin
    split at h
    · cases h
    · rename_i hhid
      unfold checkGoverning at h
      split at h
      · rename_i hnone
        split at h
        · rename_i hx
          exact ⟨by simpa using hin, by simpa using hhid, (openTagZero_iff s r).1 hx, hnone⟩
        · cases h
      · split at h
        · split at h
          · unfold checkWindow at h
            repeat (split at h; · cases h)
            cases h
          · cases h
        · cases h

theorem checkWindow_window {s : State} {i j : WinIdx} {w v : Window} {r : LinkRequest} (h : checkWindow s i w r = .window j v) :
    i = j ∧ w = v ∧ rightsPass s w r = true ∧ authorityPass w r = true := by
  unfold checkWindow at h
  split at h
  · cases h
  · split at h
    · cases h
    · split at h
      · cases h
      · split at h
        · cases h
        · cases h
          exact ⟨rfl, rfl, by simpa using ‹¬ (!rightsPass s w r) = true›, by simpa using ‹¬ (!authorityPass w r) = true›⟩

theorem checkRequest_window {s : State} {r : LinkRequest} {i : WinIdx} {w : Window} (h : checkRequest s r = .window i w) :
    inArea s r = false ∧ touchesHidden s r = false ∧ (governors s r).all (· == some i) = true ∧ s.loaded? i = some w
      ∧ s.hasRights w r ∧ authorityPass w r = true := by
  unfold checkRequest at h
  split at h
  · unfold checkArea at h
    split at h <;> cases h
  · rename_i hin
    split at h
    · cases h
    · rename_i hhid
      unfold checkGoverning at h
      split at h
      · split at h <;> cases h
      · split at h
        · rename_i hall
          split at h
          · rename_i hl
            obtain ⟨rfl, rfl, hr, ha⟩ := checkWindow_window h
            exact ⟨by simpa using hin, by simpa using hhid, hall, hl, (rightsPass_iff s _ r).1 hr, ha⟩
          · cases h
        · cases h

/-- A request that changes the passing stream or the hold queue is taken, and no check refuses it. -/
theorem takes_of_streams {s : State} {r : LinkRequest}
    (h : (linkRequestAct r s).path.passing ≠ s.path.passing ∨ (linkRequestAct r s).hold ≠ s.hold) :
    s.takes r ∧ ∀ k c, checkRequest s r ≠ .refuse k c := by
  have hne : linkRequestAct r s ≠ s := fun he => by
    rw [he] at h
    exact h.elim (· rfl) (· rfl)
  have hno : ∀ k c, linkRequestAct r s ≠ refuseRequest k c r s := fun k c he => by
    rw [he, (refuseRequest_stream k c r s).1, (refuseRequest_stream k c r s).2] at h
    exact h.elim (· rfl) (· rfl)
  have ht : s.takes r := by
    unfold linkRequestAct at hne hno
    split at hne
    · exact absurd rfl hne
    · rename_i hrun
      split at hne
      · exact absurd rfl hne
      · rename_i hlim
        split at hne
        · rename_i hm
          rw [if_neg hrun, if_neg hlim, if_pos hm] at hno
          exact absurd rfl (hno _ _)
        · rename_i hm
          split at hne
          · exact absurd rfl hne
          · rename_i hd
            exact ⟨by simpa using hrun, Nat.lt_of_not_le hlim, by simpa using hm, by simpa using hd⟩
  refine ⟨ht, fun k c hk => hno k c ?_⟩
  rw [linkRequest_taken ht]
  unfold decideRequest
  rw [hk]

/-- A hidden range of the table lies outside the control area (R36). -/
theorem not_hides_of_area {s : State} (h : s.AreaClear) {a : Nat} (ha : s.areaHas a) : ¬ s.hides a := by
  rintro ⟨i, w, e, x, n, p, q, hi, hr, hx⟩
  refine h.1 i w (.inl hi) a (.inr ?_) ha
  exact hx.elim (fun hx => ⟨p, ⟨e, x, n, p, q, hr, .inl rfl⟩, hx⟩) fun hx => ⟨q, ⟨e, x, n, p, q, hr, .inr rfl⟩, hx⟩

/-- Settles O10. -/
theorem linkWritesAdmittedOnly : Obligations.LinkWritesAdmittedOnly := by
  intro s t r hclear hd he hchange
  obtain rfl : linkRequestAct r s = t := by
    cases he
    rfl
  obtain ⟨ht, hno⟩ := takes_of_streams hchange
  have hm := ht.2.2.1
  have hform : ¬ badForm r := fun hb => by
    rw [(malformed_iff r).2 hb] at hm
    cases hm
  have hhidden : touchesHidden s r = false → ∀ a, r.covers a → ¬ s.hides a := fun hf a ha hx => by
    rw [(touchesHidden_iff hm).2 ⟨a, ha, hx⟩] at hf
    cases hf
  have houtside : inArea s r = false → s.outsideArea r := fun hf a ha hx => by
    rw [(inArea_iff hm).2 ⟨a, ha, hx⟩] at hf
    cases hf
  cases hc : checkRequest s r with
  | refuse k c => exact absurd hc (hno k c)
  | area =>
    obtain ⟨hin, h0, hadm⟩ := checkRequest_area hc
    obtain ⟨a, ha, hx⟩ := (inArea_iff hm).1 hin
    have hall : ∀ b, r.covers b → s.areaHas b := fun b hb => areaHas_all hm ha hb hx
    refine ⟨hform, fun b hb => not_hides_of_area hclear (hall b hb), .inl ⟨h0, fun b hb => ⟨hall b hb, ?_⟩⟩⟩
    unfold areaAdmits at hadm
    rw [List.all_eq_true] at hadm
    have := hadm b ((mem_spanBytes r b).2 hb)
    rw [hd] at this
    exact (writableOffset_iff _).1 this
  | unwindowed =>
    obtain ⟨hin, hhid, hx, hnone⟩ := checkRequest_unwindowed hc
    refine ⟨hform, hhidden hhid, .inr ⟨houtside hin, .inr ⟨hx, fun a ha => governor?_eq_none.1 ?_⟩⟩⟩
    rw [List.findSome?_eq_none_iff] at hnone
    exact hnone _ (List.mem_map.2 ⟨a, (mem_spanBytes r a).2 ha, rfl⟩)
  | window i w =>
    obtain ⟨hin, hhid, hall, hl, hr, ha⟩ := checkRequest_window hc
    refine ⟨hform, hhidden hhid, .inr ⟨houtside hin, .inl ⟨i, w, fun a hcov => ?_, hr, (authorityPass_iff w r hd).1 ha⟩⟩⟩
    rw [List.all_eq_true] at hall
    have hg : s.governor? a = some i := by
      simpa using hall _ (List.mem_map.2 ⟨a, (mem_spanBytes r a).2 hcov, rfl⟩)
    obtain ⟨v, hv⟩ := governor?_eq_some.1 hg
    have he := (loaded?_eq_some.1 hl).symm.trans hv.1
    cases he
    exact hv

end Sys2Proof.Machine
end

section
/-! SUPPORT. The idle step, the watched words of the command unit, of the decision ring and of the robots, notices, faults and
completions: what each leaves, and the statements about them. -/

namespace Sys2Proof.Machine
open Sys2Proof

/-! ## Rows of a running part, and status word marks -/

theorem whenRunning_of_running {s : State} (h : s.running = true) (act : State → State) : whenRunning act s = act s := if_pos h

/-- A change of the state schedules a status word write exactly if it changes a status field (R161). -/
theorem noteStatus_eq (before after : State) :
    before.noteStatus after = after.statusIf (decide (after.statusFields ≠ before.statusFields)) := by
  unfold State.noteStatus State.statusIf
  split
  · rename_i h
    simp [h]
  · rename_i h
    simp [h]

theorem noteStatus_of_eq {before after : State} (h : after.statusFields = before.statusFields) :
    before.noteStatus after = after := if_pos h

/-! ## The idle step (R59, R60) -/

theorem step_idle {s : State} (hq : s.pending = []) (ho : ownEvent? s = none) : step s = .next (refclk s) := by
  unfold step idle
  rw [hq]
  dsimp only
  rw [ho]

theorem units_of_advance (x : Nat) (h : x < 2 ^ 96) :
    (BitVec.ofNat 64 (x / 4294967296)).toNat * 2 ^ 32 + (BitVec.ofNat 32 x).toNat = x := by
  rw [ns_toNat x h, BitVec.toNat_ofNat]
  omega

/-- Settles O13. -/
theorem idleStepIsRefclkPeriod : Obligations.IdleStepIsRefclkPeriod := by
  intro s hq ho
  refine ⟨fun hp => ?_, fun hp hu => ⟨refclk s, step_idle hq ho, ?_⟩⟩
  · rw [step_idle hq ho]
    exact congrArg Host.Outcome.next (if_neg (by rw [hp]; decide))
  · have hown := refclk_ownOnly s
    refine ⟨?_, ?_, ?_, ?_, ?_, ?_, ?_, ?_, ?_, ?_, ?_, ?_, ?_, ?_, hown.inflight, hown.passing⟩
    all_goals
      obtain ⟨m, e, f, t, p, v, q, n, c, w, ht⟩ := refclk_touches s hp
      rw [ht, advanceCounts_eq s hu]
    case refine_2 => exact units_of_advance _ hu

/-! ## The tail word and the decision consumed word (R135, R163) -/

theorem exec_commandTailWrite {s : State} (h : s.running = true) (v : Word) :
    exec (.commandTailWrite v) s = .next (commandTailAct v s) := congrArg Host.Outcome.next (whenRunning_of_running h _)

theorem exec_decisionConsumedWrite {s : State} (h : s.running = true) (v : Word) :
    exec (.decisionConsumedWrite v) s = .next (decisionConsumedAct v s) := congrArg Host.Outcome.next (whenRunning_of_running h _)

theorem ringFault_eq (v : Word) (s : State) :
    ringFault v s = { kind := .commandRing, tag := some 0, addr := some (BitVec.ofNat 32 (s.areaBase + 8)), dir := some .write,
                      window := none, serial := some (BitVec.ofNat 32 v.toNat) } := by
  unfold ringFault
  rw [BitVec.ofNat_toNat]

/-- The status field that a change of the ring's state alone changes. -/
theorem statusFields_ring (s : State) (c : CommandUnit) :
    State.statusFields { s with cmd := c } = { s.statusFields with ring := c.ring } := rfl

theorem statusFields_ring_iff (s : State) (c : CommandUnit) :
    State.statusFields { s with cmd := c } = s.statusFields ↔ c.ring = s.cmd.ring := by
  rw [statusFields_ring]
  exact ⟨fun h => congrArg StatusFields.ring h, fun h => by rw [h]; rfl⟩

theorem commandTailAct_stops {s : State} {v : Word} (h : 64 ≤ v.toNat) :
    commandTailAct v s = takeFault (ringFault v s) (State.statusIf { s with cmd := { s.cmd with ring := .stopped } }
      (decide (s.cmd.ring = .running))) := by
  unfold commandTailAct
  rw [dif_neg (Nat.not_lt.2 h), noteStatus_eq]
  congr 2
  rw [decide_eq_decide, ne_eq, statusFields_ring_iff]
  show ¬ Ring.stopped = s.cmd.ring ↔ s.cmd.ring = .running
  cases s.cmd.ring <;> decide

theorem decisionConsumedAct_taken {s : State} {v : Word} (h : s.rep.decConsumed < v.toNat) (h' : v.toNat ≤ s.rep.decProducer) :
    decisionConsumedAct v s
      = State.statusIf { s with rep := { s.rep with decConsumed := v.toNat, decOverflow := false } } s.rep.decOverflow := by
  unfold decisionConsumedAct
  rw [if_pos ⟨h, h'⟩, noteStatus_eq]
  congr 1
  cases ho : s.rep.decOverflow with
  | false => simpa [State.statusFields] using ho.symm
  | true =>
    rw [decide_eq_true_eq]
    intro he
    have : false = s.rep.decOverflow := congrArg StatusFields.decisionOverflow he
    exact nomatch this.trans ho

/-- Settles O14. -/
theorem tailAndDecisionConsumedObserved : Obligations.TailAndDecisionConsumedObserved := by
  intro s v hr
  rw [exec_commandTailWrite hr, exec_decisionConsumedWrite hr]
  refine ⟨fun h => ⟨fun hrun => ?_, fun hstop hv => ?_, fun hstop hv => ?_⟩, fun h => ?_, fun h h' => ?_, fun h => ?_⟩
  · unfold commandTailAct
    rw [dif_pos h, hrun]
  · unfold commandTailAct
    rw [dif_pos h, hstop]
    dsimp only
    rw [if_pos hv, noteStatus_of_ne]
    rw [Ne, statusFields_ring_iff, hstop]
    nofun
  · unfold commandTailAct
    rw [dif_pos h, hstop]
    dsimp only
    rw [if_neg hv]
  · rw [commandTailAct_stops h, ringFault_eq]
    rfl
  · rw [decisionConsumedAct_taken h h']
    rfl
  · unfold decisionConsumedAct
    rw [if_neg (by omega)]

/-! ## The publish words (R98 to R100) -/

theorem exec_publishWordWrite {s : State} (h : s.running = true) (r : RobotIdx) (v : Word) :
    exec (.publishWordWrite r v) s = .next (productionPublish r (publishSeq v) (publishConfirm v) s) :=
  congrArg Host.Outcome.next (whenRunning_of_running h _)

theorem publishSeq_eq (v : Word) : publishSeq v = BitVec.ofNat 16 v.toNat := by
  apply BitVec.eq_of_toNat_eq
  simp [publishSeq]

theorem sameSequence_iff (b : Bound) (q : BitVec 16) :
    sameSequence b q = true
      ↔ q = b.publishedSeq ∨ (b.publish = .flipping ∧ ∃ p, b.pendingReq = some p ∧ p.seq = q) := by
  simp [sameSequence]

theorem holdsAuthority_production (s : State) (b : Bound) :
    holdsAuthority s b .production = true ↔ s.authority? b.bank = some .production ∧ b.grantHold = false := by
  simp [holdsAuthority]

theorem productionPublish_refused {s : State} {r : RobotIdx} {seq : BitVec 16} {confirm : Bool} {why : Reason}
    (h : publishRefusal s r { seq := seq, confirm := confirm, origin := .production } = some why) :
    productionPublish r seq confirm s = postNotice (.publishRefused r seq confirm why) s := by
  unfold productionPublish
  dsimp only
  rw [h]

theorem productionPublish_placed {s : State} {r : RobotIdx} {seq : BitVec 16} {confirm : Bool} {b : Bound}
    (hb : s.bound? r = some b) (h : publishRefusal s r { seq := seq, confirm := confirm, origin := .production } = none) :
    productionPublish r seq confirm s
      = s.setRobot r (some (b.place { seq := seq, confirm := confirm, origin := .production })) := by
  unfold productionPublish
  dsimp only
  rw [h, modifyRobot_eq hb]

/-- Settles O16: the reasons of R99 in their order, and the placement by the publish state. -/
theorem publishWordObserved : Obligations.PublishWordObserved := by
  intro s r v hr seq confirm request refused placed
  have hseq : publishSeq v = seq := publishSeq_eq v
  have hrefused : ∀ why, publishRefusal s r request = some why → refused why := fun why h => by
    show exec _ s = _
    rw [exec_publishWordWrite hr, hseq]
    exact congrArg _ (productionPublish_refused h)
  refine ⟨fun hb => hrefused _ (by unfold publishRefusal; rw [hb]), ?_⟩
  intro b hb holds unconfirmed same
  have hholds : holdsAuthority s b request.origin = true ↔ holds := holdsAuthority_production s b
  have hreview : (b.review && !request.confirm) = true ↔ unconfirmed := by
    rw [Bool.and_eq_true, Bool.not_eq_true']
  have hsame : sameSequence b request.seq = true ↔ same := sameSequence_iff b seq
  have hbound : b.unbinding = false → publishRefusal s r request = if !holdsAuthority s b request.origin then some .authority
      else if b.review && !request.confirm then some .review
      else if sameSequence b request.seq then some .sameSequence else none := fun hu => by
    unfold publishRefusal
    rw [hb]
    dsimp only
    rw [if_neg (by rw [hu]; decide)]
  refine ⟨fun hu => hrefused _ ?_, fun hu h => hrefused _ ?_, fun hu h h' => hrefused _ ?_, fun hu h h' h'' => hrefused _ ?_,
    fun hu h h' h'' => ?_⟩
  · unfold publishRefusal
    rw [hb]
    exact if_pos hu
  · rw [hbound hu, if_pos (by simpa using mt hholds.1 h)]
  · rw [hbound hu, hholds.2 h, if_neg (by decide), if_pos (hreview.2 h')]
  · rw [hbound hu, hholds.2 h, if_neg (by decide), if_neg (mt hreview.1 h'), if_pos (hsame.2 h'')]
  · have hnone : publishRefusal s r request = none := by
      rw [hbound hu, hholds.2 h, if_neg (by decide), if_neg (mt hreview.1 h'), if_neg (mt hsame.1 h'')]
    have hplaced : ∀ b', b.place request = b' → placed b' := by
      rintro b' rfl
      show exec _ s = _
      rw [exec_publishWordWrite hr, hseq]
      exact congrArg _ (productionPublish_placed hb hnone)
    refine ⟨fun hp => hplaced _ ?_, fun hp => hplaced _ ?_, fun hp => hplaced _ ?_⟩
    · unfold Bound.place
      rw [hp]
    · unfold Bound.place
      rw [hp]
    · unfold Bound.place
      rcases hp with hp | hp <;> rw [hp]

/-! ## Notices (R158, R160) -/

theorem postNoticeAt_disabled {s : State} (h : s.rep.enabled = false) (time : Nat) (n : Notice) : postNoticeAt time n s = s :=
  if_neg (by rw [h]; decide)

theorem postNoticeAt_full {s : State} (he : s.rep.enabled = true) (hf : s.rep.consumed + 128 ≤ s.rep.producer) (time : Nat)
    (n : Notice) : postNoticeAt time n s = dropNotice time s := by
  unfold postNoticeAt
  rw [if_pos he, if_pos ((Reporting.full_iff _).2 (by omega))]

theorem postNoticeAt_written {s : State} (he : s.rep.enabled = true) (hf : s.rep.producer < s.rep.consumed + 128) (time : Nat)
    (n : Notice) : postNoticeAt time n s = writeNotice time n s := by
  unfold postNoticeAt
  rw [if_pos he, if_neg (mt (Reporting.full_iff _).1 (by omega))]

theorem writeNotice_eq (time : Nat) (n : Notice) (s : State) :
    writeNotice time n s
      = { s.makes [(.notice, s.areaBase + 0x2000 + 32 * (s.rep.producer % 128), n.bytes time),
                   (.noticeProducer (s.rep.producer + 1), s.areaBase + 0x18, leBytes 8 (s.rep.producer + 1))] with
          rep := { s.rep with producer := s.rep.producer + 1 } } := by
  rw [← makes_two]
  rfl

theorem exec_noticeProducerAnswer {s : State} {pre post : List OwnTxn} {w : OwnTxn} {k : Nat}
    (h : s.canBeAnswered pre w post) (hk : w.kind = .noticeProducer k) (hp : ∀ x ∈ pre, ∀ j, x.kind ≠ .noticeProducer j) :
    exec .noticeProducerAnswer s = .next (publishProducer k (s.withOwn (pre ++ post))) := by
  have hno : ∀ x ∈ pre, x.kind.isNoticeProducer ≠ true := fun x hx hc => by
    unfold OwnKind.isNoticeProducer at hc
    split at hc
    · exact hp x hx _ ‹_›
    · cases hc
  have ha := answerable_eq h (fun t => t.kind.isNoticeProducer) (by rw [hk]; rfl) (fun x hx hc _ => hno x hx hc)
    (fun x hx _ hc => hno x hx hc)
  show Host.Outcome.next (noticeProducerAnswerAct s) = _
  unfold noticeProducerAnswerAct
  rw [ha]
  dsimp only
  rw [dropOwn_eq h]
  unfold handAnswer
  rw [hk]

/-- Settles O17. -/
theorem noticeTaken : Obligations.NoticeTaken := by
  refine ⟨fun s n time => ⟨fun h => postNoticeAt_disabled h time n, fun he hf => ⟨fun hd => ?_, fun hd => ?_⟩,
    fun he hf => ⟨_, notice_laid n time, ?_⟩⟩, fun s pre post w k h hk _ hp => ?_⟩
  · rw [postNoticeAt_full he hf]
    unfold dropNotice
    rw [if_neg (by rw [hd]; decide), noteStatus_of_ne]
    intro he
    have : true = s.rep.dropped := congrArg StatusFields.noticeDropped he
    exact nomatch this.trans hd
  · rw [postNoticeAt_full he hf]
    unfold dropNotice
    rw [if_pos hd]
    exact noteStatus_of_eq rfl
  · rw [postNoticeAt_written he hf, writeNotice_eq]
  · rw [exec_noticeProducerAnswer h hk hp]
    rfl

/-! ## Faults (R155) -/

theorem free?_eq_some {u : FaultUnit} {n : Fin 8} (h : u.records[n] = none) (hm : ∀ m : Fin 8, m < n → u.records[m] ≠ none) :
    u.free? = some n := by
  obtain ⟨l₁, l₂, hl, hlt⟩ := allRecords_split n
  unfold FaultUnit.free?
  rw [hl, List.find?_append, List.find?_eq_none.2, List.find?_cons_of_pos (by simp [h])]
  · rfl
  · intro m hmem
    simpa [Option.isSome_iff_ne_none] using hm m (hlt m hmem)

theorem free?_eq_none {u : FaultUnit} (h : ∀ n : Fin 8, u.records[n] ≠ none) : u.free? = none := by
  unfold FaultUnit.free?
  rw [List.find?_eq_none]
  intro n _
  simpa [Option.isSome_iff_ne_none] using h n

theorem FaultUnit.mark_eq (u : FaultUnit) (n : Fin 8) :
    u.mark n = { u with marks := if n ∈ u.marks then u.marks else u.marks ++ [n] } := by
  unfold FaultUnit.mark
  split <;> rfl

/-- Settles O18. -/
theorem faultTaken : Obligations.FaultTaken := by
  intro s f same marked unmatched
  have hsame : ∀ rec : FaultRecord, rec.same f = true ↔ same rec := fun rec => rec.same_iff f
  have hdiff : ∀ rec : FaultRecord, ¬ same rec → rec.same f = false := fun rec h => by
    rw [Bool.eq_false_iff]
    exact mt (hsame rec).1 h
  have hnone : unmatched → s.flt.match? f = none := fun h =>
    FaultUnit.match?_eq_none fun n rec hn => hdiff rec (h n rec hn)
  refine ⟨fun n rec hn hs hlow => ?_, fun hu ho => ⟨fun n hn hlow => ?_, fun hall => ?_⟩, fun hu ho => ?_⟩
  · unfold takeFault
    rw [FaultUnit.match?_eq_some hn ((hsame rec).2 hs) fun m rec' hm hr => hdiff rec' (hlow m rec' hm hr)]
    dsimp only
    unfold FaultUnit.coalesce
    rw [FaultUnit.mark_eq]
    rfl
  · unfold takeFault
    rw [hnone hu]
    dsimp only
    rw [if_neg (by rw [ho]; decide), free?_eq_some hn hlow]
    dsimp only
    unfold FaultUnit.create
    rw [FaultUnit.mark_eq]
    rfl
  · unfold takeFault
    rw [hnone hu]
    dsimp only
    rw [if_neg (by rw [ho]; decide), free?_eq_none hall]
    dsimp only
    rw [noteStatus_of_ne]
    intro he
    have : true = s.flt.overflow := congrArg StatusFields.faultOverflow he
    exact nomatch this.trans ho
  · unfold takeFault
    rw [hnone hu]
    dsimp only
    rw [if_pos ho]

/-! ## Completions (R164, R165) -/

/-- Settles O24. -/
theorem completionWritten : Obligations.CompletionWritten := by
  intro s status why next body
  have hbody : completionBytes status why s.time = body := by
    unfold completionBytes
    rw [status_code, reason_code]
    rfl
  rw [← makes_two, ← hbody]
  rfl

end Sys2Proof.Machine
end

section
/-! SUPPORT. The memory port: the arbiter, memory's answers, the scheduled writes, the line for a place, and the fetch with the
command that its slot spells; the statements about them. -/

namespace Sys2Proof.Machine
open Sys2Proof

/-! ## Scheduled writes (R157, R161) -/

/-- A unit with a place free joins as the head of the line or past an empty one. -/
theorem joinOrWait_place {s : State} {w : Waiter} {rest : List Waiter} (h : s.placeFor w rest) (join : State → State) :
    joinOrWait w join s = join (s.withWaiting rest) := by
  obtain ⟨hl, ⟨hw, rfl⟩ | hw⟩ := h
  · unfold joinOrWait
    rw [(placeFree_iff _).2 hl, if_pos (by rw [hw]; rfl)]
    congr 1
    unfold State.withWaiting
    rw [← hw]
  · unfold joinOrWait
    rw [(placeFree_iff _).2 hl, hw, if_neg (by simp), if_pos (by simp)]
    unfold State.popWaiter State.withWaiting
    rw [hw]
    rfl

theorem joinOrWait_waits {s : State} {w : Waiter} (h : ∀ rest, ¬ s.placeFor w rest) (join : State → State) :
    joinOrWait w join s = s.awaitPlace w := by
  unfold joinOrWait
  rw [if_neg, if_neg]
  · rw [Bool.and_eq_true, placeFree_iff, decide_eq_true_eq]
    rintro ⟨hl, hw⟩
    obtain ⟨rest, hr⟩ := List.head?_eq_some_iff.1 hw
    exact h rest ⟨hl, .inr hr⟩
  · rw [Bool.and_eq_true, placeFree_iff, List.isEmpty_iff]
    rintro ⟨hl, hw⟩
    exact h [] ⟨hl, .inl ⟨hw, rfl⟩⟩

theorem awaitPlace_new {s : State} {w : Waiter} (h : w ∉ s.path.waiting) :
    s.awaitPlace w = s.withWaiting (s.path.waiting ++ [w]) := if_neg h

theorem awaitPlace_again {s : State} {w : Waiter} (h : w ∈ s.path.waiting) : s.awaitPlace w = s := if_pos h

theorem joinMirror_joined {s : State} {n : Fin 8} {marks : List (Fin 8)} (h : s.flt.marks = n :: marks) (rest : List Waiter) :
    joinMirror (s.withWaiting rest) = s.mirrorJoined rest n marks (mirrorBytes s.openCount s.flt.records[n]) := by
  have hm : (s.withWaiting rest).flt.marks = n :: marks := h
  unfold joinMirror
  rw [hm]
  dsimp only
  rw [postCreations_eq]
  rfl

theorem statusBytes_laid (s : State) : laid s.statusFields.bytes 8 (statusWordFields s) := by
  have hbit : ∀ b : Bool, bit b 0 = if b then 1 else 0 := fun b => by cases b <;> rfl
  unfold State.statusFields StatusFields.bytes statusWordFields
  dsimp only
  rw [hbit s.trk.cfg.isSome, policy_code, clockState_code, line_code, session_code, ring_code, flagBits_five]
  exact ((((((((lays_b1 _).append (lays_b1 _)).append (lays_b1 _)).append (lays_b1 _)).append (lays_b1 _)).append
    (lays_b1 _)).append (lays_b1 _)).append (lays_zero 1)).1

theorem joinStatus_joined {s : State} (h : s.rep.statusMark = true) (rest : List Waiter) :
    joinStatus (s.withWaiting rest) = s.statusJoined rest s.statusFields.bytes := if_pos h

theorem exec_mirrorWrite {s : State} (hr : s.running = true) {n : Fin 8} {marks : List (Fin 8)} (h : s.flt.marks = n :: marks) :
    exec .mirrorWrite s = .next (joinOrWait .mirror joinMirror s) := by
  show Host.Outcome.next (mirrorWriteAct s) = _
  unfold mirrorWriteAct
  rw [hr, h]
  rfl

theorem exec_statusWordWrite {s : State} (hr : s.running = true) (h : s.rep.statusMark = true) :
    exec .statusWordWrite s = .next (joinOrWait .status joinStatus s) := by
  show Host.Outcome.next (statusWordWriteAct s) = _
  unfold statusWordWriteAct
  rw [hr, h]
  rfl

/-- Settles O19. -/
theorem scheduledWritesJoin : Obligations.ScheduledWritesJoin := by
  refine ⟨fun s n marks hr hm => ⟨fun rest hp => ⟨_, mirror_laid s.openCount _, ?_⟩, fun hno => ⟨fun hw => ?_, fun hw => ?_⟩⟩,
    fun s hr hm => ?_, fun s hr hm => ⟨fun rest hp => ⟨_, statusBytes_laid s, ?_⟩, fun hno => ⟨fun hw => ?_, fun hw => ?_⟩⟩,
    fun s hr hm => ?_⟩
  · rw [exec_mirrorWrite hr hm, joinOrWait_place hp, joinMirror_joined hm]
  · rw [exec_mirrorWrite hr hm, joinOrWait_waits hno, awaitPlace_new hw]
  · rw [exec_mirrorWrite hr hm, joinOrWait_waits hno, awaitPlace_again hw]
  · exact congrArg Host.Outcome.next (if_neg (by rw [hm]; simp))
  · rw [exec_statusWordWrite hr hm, joinOrWait_place hp, joinStatus_joined hm]
  · rw [exec_statusWordWrite hr hm, joinOrWait_waits hno, awaitPlace_new hw]
  · rw [exec_statusWordWrite hr hm, joinOrWait_waits hno, awaitPlace_again hw]
  · exact congrArg Host.Outcome.next (if_neg (by rw [hm]; simp))

/-! ## The arbiter (R14, R15) -/

theorem exec_memoryPortPresent {s : State} (hr : s.running = true) : exec .memoryPortPresent s = .next (match s.path.choose with
    | none          => s
    | some .passing => { s with path := s.path.presentPassing }
    | some .own     => { s with path := s.path.presentOwn }) :=
  congrArg Host.Outcome.next (if_pos hr)

theorem blocked_iff (p : Path) (w : OwnTxn) : p.blocked w = true ↔ ∃ x ∈ p.passing, x.id ∈ w.after := by
  simp [Path.blocked]

theorem presentPassing_cons {p : Path} {t : PassingTxn} {ts : List PassingTxn} (h : p.passing = t :: ts) :
    p.presentPassing = { p with passing := ts, downstream := p.downstream ++ [t], last := p.lastAfter .passing } := by
  unfold Path.presentPassing
  rw [h]

theorem presentOwn_eq {p : Path} {pre post : List OwnTxn} {w : OwnTxn} (h : p.own = pre ++ w :: post)
    (hp : ∀ x ∈ pre, x.presented = true) (hw : w.presented = false) :
    p.presentOwn = { p with own := pre ++ { w with presented := true } :: post, last := p.lastAfter .own } := by
  unfold Path.presentOwn
  rw [h, markPresented_append pre w post hp hw]

/-- Settles O20: no own transaction waits, or the first that is not presented does; then the passing stream empty or not. -/
theorem arbiterPresents : Obligations.ArbiterPresents := by
  intro s hr passes alone
  have hpasses : ∀ t ts last, s.path.passing = t :: ts → s.path.choose = some .passing → s.path.lastAfter .passing = last →
      passes t ts last := by
    rintro t ts last hp hc rfl
    show exec _ s = _
    rw [exec_memoryPortPresent hr, hc, presentPassing_cons hp]
  refine ⟨fun hall => ?_, ?_⟩
  · have hn := nextOwn_none s.path hall
    refine ⟨fun hp => ?_, fun t ts hp => hpasses t ts _ hp ?_ (lastAfter_alone _ _ ?_)⟩
    · rw [exec_memoryPortPresent hr]
      unfold Path.choose
      rw [hp, hn]
    · unfold Path.choose
      rw [hp, hn]
    · unfold Path.bothWait
      rw [hn]
      simp
  · intro pre w post hown hpre hw own
    have hn := nextOwn_some s.path pre w post hown hpre hw
    have howns : ∀ last, s.path.choose = some .own → s.path.lastAfter .own = last → own last := by
      rintro last hc rfl
      show exec _ s = _
      rw [exec_memoryPortPresent hr, hc, presentOwn_eq hown hpre hw]
    refine ⟨fun hp => howns _ ?_ (lastAfter_alone _ _ ?_), fun t ts hp => ?_⟩
    · unfold Path.choose
      rw [hp, hn]
    · unfold Path.bothWait
      rw [hp]
      rfl
    · have hboth : s.path.bothWait = true := by
        unfold Path.bothWait
        rw [hp, hn]
        rfl
      have hchoose : s.path.choose
          = if s.path.blocked w || decide (s.path.last ≠ some .passing) then some .passing else some .own := by
        unfold Path.choose
        rw [hn, hp]
      have hfree : (∀ x ∈ s.path.passing, x.id ∉ w.after) → s.path.blocked w = false := fun h => by
        rw [Bool.eq_false_iff]
        intro hb
        obtain ⟨x, hx, hid⟩ := (blocked_iff _ _).1 hb
        exact h x hx hid
      refine ⟨fun hb => hpasses t ts _ hp ?_ (lastAfter_both _ _ hboth),
        fun _ hlast => hpasses t ts _ hp ?_ (lastAfter_both _ _ hboth), fun hb hlast => howns _ ?_ (lastAfter_both _ _ hboth)⟩
      · rw [hchoose, (blocked_iff _ _).2 hb]
        rfl
      · rw [hchoose]
        rcases hlast with hlast | hlast <;> simp [hlast]
      · rw [hchoose, hfree hb, hlast]
        rfl

/-! ## Memory's answers to forwarded transactions (R9) -/

theorem fitBytes_of_length {n : Nat} {d : List Byte} (h : d.length = n) : fitBytes n d = d := by
  unfold fitBytes
  rw [List.take_left' h]

/-- The entry with an id of its own is the one that an answer changes. -/
theorem map_answer {pre post : List Entry} {e : Entry} (h : ∀ x ∈ pre ++ post, x.id ≠ e.id) (d : List Byte) :
    (pre ++ e :: post).map (Entry.answer e.id d) = pre ++ { e with answered := true, data := d } :: post := by
  have hsame : ∀ l : List Entry, (∀ x ∈ l, x.id ≠ e.id) → l.map (Entry.answer e.id d) = l := fun l hl =>
    (List.map_congr_left fun x hx => if_neg (hl x hx)).trans (List.map_id' l)
  rw [List.map_append, List.map_cons, hsame pre fun x hx => h x (List.mem_append_left _ hx),
    hsame post fun x hx => h x (List.mem_append_right _ hx)]
  exact congrArg (fun x => pre ++ x :: post) (if_pos rfl)

/-- The ready entries of a tag, up to its first unanswered one, are given in order; the others stay. -/
theorem giveReady_ready {t : Tag} {ready stay : List Entry} (hr : ∀ x ∈ ready, x.tag = t → x.answered = true)
    (hs : stay = [] ∨ ∃ y ys, stay = y :: ys ∧ y.tag = t ∧ y.answered = false) :
    giveReady t (ready ++ stay)
      = ((ready.filter fun x => decide (x.tag ≠ t)) ++ stay, (ready.filter fun x => decide (x.tag = t)).map Entry.response) := by
  induction ready with
  | nil =>
    rcases hs with rfl | ⟨y, ys, rfl, ht, ha⟩
    · rfl
    · simp [giveReady, ht, ha]
  | cons x xs ih =>
    have hx := hr x (List.mem_cons_self ..)
    have := ih fun y hy => hr y (List.mem_cons_of_mem _ hy)
    by_cases ht : x.tag = t
    · simp [giveReady, ht, hx ht, this]
    · simp [giveReady, ht, this]

theorem exec_passingAnswer {s : State} {t : PassingTxn} {before after : List PassingTxn} (hr : s.running = true)
    (hd : s.path.downstream = before ++ t :: after) (hne : ∀ x ∈ before ++ after, x.id ≠ t.id) (data : List Byte) :
    exec (.passingAnswer t.id data) s = .next { s with path := s.path.answerPassing t data } := by
  show Host.Outcome.next (passingAnswerAct t.id data s) = _
  unfold passingAnswerAct
  rw [if_pos hr, hd, List.find?_append, List.find?_eq_none.2 (fun x hx => by simpa using hne x (List.mem_append_left _ hx)),
    List.find?_cons_of_pos (by simp)]
  rfl

theorem filter_answered {t : PassingTxn} {before after : List PassingTxn} (hne : ∀ x ∈ before ++ after, x.id ≠ t.id) :
    (before ++ t :: after).filter (fun x => decide (x.id ≠ t.id)) = before ++ after := by
  rw [List.filter_append, List.filter_cons_of_neg (by simp), ← List.filter_append, List.filter_eq_self]
  intro x hx
  simpa using hne x hx

/-- Settles O21. -/
theorem passingTransactionAnswered : Obligations.PassingTransactionAnswered := by
  intro s t before after pre post e data hr hd hne hi hid huniq _ hlen _ got answered given
  have hgot : t.answerData data = got := by
    show (if t.dir = .read then fitBytes t.len data else []) = if t.dir = .read then data else []
    split
    · exact fitBytes_of_length (hlen ‹_›)
    · rfl
  have hgiven : Entry.response = given := rfl
  have hfind : s.path.inflight.find? (fun x => decide (x.id = t.id)) = some e := by
    rw [hi, List.find?_append, List.find?_eq_none.2
      (fun x hx => by simpa [← hid] using huniq x (List.mem_append_left _ hx)), List.find?_cons_of_pos (by simpa using hid)]
    rfl
  have hmap : s.path.inflight.map (Entry.answer t.id (t.answerData data)) = pre ++ answered :: post := by
    rw [hgot, hi, ← hid]
    exact map_answer huniq got
  have hpath : s.path.answerPassing t data = giveResponses e.tag { s.path with
      downstream := before ++ after, inflight := pre ++ answered :: post } := by
    unfold Path.answerPassing
    dsimp only
    rw [hfind, hmap, hd, filter_answered hne]
  rw [exec_passingAnswer hr hd hne, hpath]
  refine ⟨fun ready stay hpre hpost hready hstay => ?_, fun p₁ p₂ x hpre hp₁ hx hxa => ?_⟩
  · have hgive : giveReady e.tag (pre ++ answered :: post) = (pre ++ ((ready.filter fun x => decide (x.tag ≠ e.tag)) ++ stay),
        answered.response :: (ready.filter fun x => decide (x.tag = e.tag)).map Entry.response) := by
      have hcons : giveReady e.tag (answered :: post)
          = ((giveReady e.tag post).1, answered.response :: (giveReady e.tag post).2) := by
        conv => lhs; unfold giveReady
        exact (if_pos rfl).trans (if_pos rfl)
      rw [giveReady_skip e.tag pre _ hpre, hcons, hpost, giveReady_ready hready hstay]
    unfold giveResponses
    dsimp only
    rw [hgive, List.append_assoc, hgiven]
    rfl
  · have hgive := giveReady_blocked e.tag p₁ (p₂ ++ answered :: post) x hp₁ hx hxa
    unfold giveResponses
    dsimp only
    rw [hpre, List.append_assoc, List.cons_append, hgive, List.append_nil]

end Sys2Proof.Machine
end

section
/-! SUPPORT. The line for a place, memory's answers to own transactions, and the fetch with the command that its slot spells; the
statements about them. -/

namespace Sys2Proof.Machine
open Sys2Proof

/-! ## The line for a place and the answers of own transactions (R13) -/

theorem exec_ownQueueJoin_txn {s : State} {t : OwnTxn} {rest : List Waiter} (hr : s.running = true)
    (hl : s.path.own.length < 16) (hw : s.path.waiting = .txn t :: rest) :
    exec .ownQueueJoin s = .next (afterJoin t.kind ((s.withWaiting rest).withOwn (s.path.own ++ [t]))) :=
  ownQueueJoin_txn hr hl hw

/-- The unit that heads the line takes the place with the values of its joining. -/
theorem exec_ownQueueJoin_unit {s : State} {w : Waiter} {rest : List Waiter} (hr : s.running = true)
    (hl : s.path.own.length < 16) (hw : s.path.waiting = w :: rest) :
    (w = .mirror → exec .ownQueueJoin s = .next (joinMirror (s.withWaiting rest)))
      ∧ (w = .status → exec .ownQueueJoin s = .next (joinStatus (s.withWaiting rest))) := by
  have hpop : s.popWaiter = s.withWaiting rest := by
    unfold State.popWaiter State.withWaiting
    rw [hw]
    rfl
  constructor <;>
  · rintro rfl
    show Host.Outcome.next (ownQueueJoinAct s) = _
    unfold ownQueueJoinAct
    rw [hr, (placeFree_iff _).2 hl, ← hpop, hw]
    rfl

/-- Memory answers the transaction that it can answer: it leaves the own queue, and its unit takes the answer. -/
theorem exec_ownAnswer {s : State} {pre post : List OwnTxn} {w : OwnTxn} (h : s.canBeAnswered pre w post) (data : List Byte) :
    exec (.ownAnswer w.id data) s = .next (handAnswer w data (s.withOwn (pre ++ post))) := by
  have hid : ∀ x ∈ pre, decide (x.id = w.id) = true → False := fun x hx he =>
    h.2.2.2.1 x (List.mem_append_left _ hx) (of_decide_eq_true he)
  show Host.Outcome.next (ownAnswerAct w.id data s) = _
  unfold ownAnswerAct
  rw [answerable_eq h _ (by simp) (fun x hx he _ => hid x hx he) (fun x hx _ he => hid x hx he), ← dropOwn_eq h]

theorem lastPiece_eq {s : State} {r : RobotIdx} {b : Bound} {halfA halfB size : Nat} (hb : s.bound? r = some b)
    (h : s.bankAt b.bank halfA halfB size) (offset len : Nat) :
    lastPiece s r offset len = decide (size ≤ offset + len) := by
  obtain ⟨k, hk, -, -, hsize, -⟩ := bank?_of_bankAt h
  unfold lastPiece
  rw [hb]
  dsimp only
  rw [hk, ← hsize]

/-- The answer of a flip's bank word is the row SWAP. -/
theorem exec_swap_of_answer {s : State} {pre post : List OwnTxn} {w : OwnTxn} (h : s.canBeAnswered pre w post) {r : RobotIdx}
    (hk : w.kind = .bankFlip r) (hpre : ∀ x ∈ pre, x.kind ≠ .bankFlip r) :
    exec (.swap r) s = .next (swapBank r (s.withOwn (pre ++ post))) := by
  show Host.Outcome.next (swapAct r s) = _
  unfold swapAct
  rw [answerable_eq h _ (by simpa using hk) (fun x hx he _ => hpre x hx (of_decide_eq_true he))
    (fun x hx _ he => hpre x hx (of_decide_eq_true he)), ← dropOwn_eq h]

theorem OwnKind.isCopyRead_iff (r : RobotIdx) (k : OwnKind) :
    k.isCopyRead r = true ↔ ∃ offset len, k = .copyRead r offset len := by
  cases k <;> simp [OwnKind.isCopyRead]

theorem OwnKind.isNoticeProducer_iff (k : OwnKind) : k.isNoticeProducer = true ↔ ∃ count, k = .noticeProducer count := by
  cases k <;> simp [OwnKind.isNoticeProducer]

/-- The answer of a copy read is the row COPY_READ_ANSWER. -/
theorem exec_copyReadAnswer_of_answer {s : State} {pre post : List OwnTxn} {w : OwnTxn} (h : s.canBeAnswered pre w post)
    {r : RobotIdx} {offset len : Nat} (hk : w.kind = .copyRead r offset len)
    (hpre : ∀ x ∈ pre, ∀ o n, x.kind ≠ .copyRead r o n) (data : List Byte) :
    exec (.copyReadAnswer r data) s = .next (writeCopy r offset len data (s.withOwn (pre ++ post))) := by
  have hno : ∀ x ∈ pre, x.kind.isCopyRead r = true → False := fun x hx he => by
    obtain ⟨o, n, hx'⟩ := (OwnKind.isCopyRead_iff ..).1 he
    exact hpre x hx o n hx'
  show Host.Outcome.next (copyReadAnswerAct r data s) = _
  unfold copyReadAnswerAct
  rw [answerable_eq h _ ((OwnKind.isCopyRead_iff ..).2 ⟨_, _, hk⟩) (fun x hx he _ => hno x hx he)
    (fun x hx _ he => hno x hx he), ← dropOwn_eq h]
  dsimp only
  unfold handAnswer
  rw [hk]

/-- The answer of a copy's last write is the row COPY_END. -/
theorem exec_copyEnd_of_answer {s : State} {pre post : List OwnTxn} {w : OwnTxn} (h : s.canBeAnswered pre w post)
    {r : RobotIdx} {offset len : Nat} (hk : w.kind = .copyWrite r offset len) (hlast : lastPiece s r offset len = true)
    (hpre : ∀ x ∈ pre, ∀ o n, x.kind ≠ .copyWrite r o n) :
    exec (.copyEnd r) s = .next (endCopy r (s.withOwn (pre ++ post))) := by
  have hno : ∀ x ∈ pre, lastCopyWrite s r x = true → False := fun x hx he => by
    unfold lastCopyWrite at he
    split at he
    next r' o n hx' =>
      rw [Bool.and_eq_true, decide_eq_true_eq] at he
      exact hpre x hx o n (he.1 ▸ hx')
    next => cases he
  show Host.Outcome.next (copyEndAct r s) = _
  unfold copyEndAct
  rw [answerable_eq h _ (by unfold lastCopyWrite; rw [hk]; simpa using hlast) (fun x hx he _ => hno x hx he)
    (fun x hx _ he => hno x hx he), ← dropOwn_eq h]

/-- The answer of a notice producer word is the row NOTICE_PRODUCER_ANSWER. -/
theorem exec_noticeProducerAnswer_of_answer {s : State} {pre post : List OwnTxn} {w : OwnTxn}
    (h : s.canBeAnswered pre w post) {count : Nat} (hk : w.kind = .noticeProducer count)
    (hpre : ∀ x ∈ pre, ∀ k, x.kind ≠ .noticeProducer k) :
    exec .noticeProducerAnswer s = .next (publishProducer count (s.withOwn (pre ++ post))) := by
  have hno : ∀ x ∈ pre, x.kind.isNoticeProducer = true → False := fun x hx he => by
    obtain ⟨k, hx'⟩ := (OwnKind.isNoticeProducer_iff _).1 he
    exact hpre x hx k hx'
  show Host.Outcome.next (noticeProducerAnswerAct s) = _
  unfold noticeProducerAnswerAct
  rw [answerable_eq h _ ((OwnKind.isNoticeProducer_iff _).2 ⟨_, hk⟩) (fun x hx he _ => hno x hx he)
    (fun x hx _ he => hno x hx he), ← dropOwn_eq h]
  dsimp only
  unfold handAnswer
  rw [hk]

/-- Settles O22. -/
theorem ownQueueServed : Obligations.OwnQueueServed := by
  refine ⟨fun s rest hr hl => ⟨fun t hw => ?_, fun hw hm => ?_, fun n marks hw hm => ?_⟩,
    fun s pre post w data h hk => ?_, fun s pre post w data h => ?_⟩
  · intro joined
    refine ⟨fun hk => ?_, fun r b offset len halfA halfB size hk hb hbank => ?_⟩
    · rw [exec_ownQueueJoin_txn hr hl hw]
      rcases hk with hk | hk | hk | hk | hk | hk | hk | ⟨_, hk⟩ | ⟨_, hk⟩ | ⟨_, hk⟩ | hk | ⟨_, _, _, hk⟩ <;> rw [hk] <;> rfl
    intro half next piece
    refine ⟨fun hle => ?_, fun hlt => ?_⟩
    · rw [exec_ownQueueJoin_txn hr hl hw, hk]
      exact congrArg Host.Outcome.next (copyReadAt_end (s := joined) hb hbank _ hle)
    · rw [exec_ownQueueJoin_txn hr hl hw, hk]
      exact congrArg Host.Outcome.next (copyReadAt_makes (s := joined) hb hbank _ hlt)
  · refine ⟨_, statusBytes_laid s, ?_⟩
    rw [(exec_ownQueueJoin_unit hr hl hw).2 rfl, joinStatus_joined hm]
  · refine ⟨_, mirror_laid s.openCount _, ?_⟩
    rw [(exec_ownQueueJoin_unit hr hl hw).1 rfl, joinMirror_joined hm]
  · rw [exec_ownAnswer h]
    unfold handAnswer
    rcases hk with hk | hk | hk | hk | hk | hk | hk | ⟨_, hk⟩ | ⟨_, hk⟩ | ⟨_, hk⟩ | ⟨_, hk⟩
      | ⟨r, b, offset, len, halfA, halfB, size, hk, hb, hbank, hlt⟩ <;> rw [hk]
    dsimp only
    rw [lastPiece_eq (s := s.withOwn (pre ++ post)) hb hbank, decide_eq_false (by omega)]
    rfl
  intro isRow
  refine ⟨fun r hk hpre => ?_, fun r offset len hk hpre => ?_, fun r b offset len halfA halfB size hk hb hbank hle hpre => ?_,
    fun count hk hpre => ?_⟩
  · show exec _ s = _
    rw [exec_ownAnswer h, exec_swap_of_answer h hk hpre]
    unfold handAnswer
    rw [hk]
  · show exec _ s = _
    rw [exec_ownAnswer h, exec_copyReadAnswer_of_answer h hk hpre]
    unfold handAnswer
    rw [hk]
  · have hlast : lastPiece s r offset len = true := (lastPiece_eq hb hbank ..).trans (decide_eq_true hle)
    show exec _ s = _
    rw [exec_ownAnswer h, exec_copyEnd_of_answer h hk hlast hpre]
    unfold handAnswer
    rw [hk]
    exact congrArg Host.Outcome.next (if_pos hlast)
  · show exec _ s = _
    rw [exec_ownAnswer h, exec_noticeProducerAnswer_of_answer h hk hpre]
    unfold handAnswer
    rw [hk]

/-! ## The fetch and the command that a slot spells (R164, R165) -/

theorem getLsbD_zero_iff (b : Byte) : b.getLsbD 0 = true ↔ b.toNat % 2 = 1 := by
  rw [BitVec.getLsbD, Nat.testBit_zero, decide_eq_true_eq]

/-- A flag in bit 0 of a byte of the slot. -/
theorem flagAt_eq_iff (d : List Byte) (o : Nat) (x : Bool) :
    (byteAt d o).getLsbD 0 = x ↔ (fieldAt d o 1 % 2 = 1 ↔ x = true) := by
  rw [Bool.eq_iff_iff, getLsbD_zero_iff, byteAt_toNat]

theorem ofNat_fieldAt_eq_iff (d : List Byte) (o n : Nat) (v : BitVec (8 * n)) :
    BitVec.ofNat (8 * n) (fieldAt d o n) = v ↔ fieldAt d o n = v.toNat :=
  ofNat_eq_iff_toNat _ _ (by rw [Nat.pow_mul]; exact fieldAt_lt d o n)

theorem ofNat_fieldAt_two (d : List Byte) (o : Nat) (v : BitVec 16) :
    BitVec.ofNat 16 (fieldAt d o 2) = v ↔ fieldAt d o 2 = v.toNat := ofNat_fieldAt_eq_iff d o 2 v

theorem ofNat_fieldAt_four (d : List Byte) (o : Nat) (v : BitVec 32) :
    BitVec.ofNat 32 (fieldAt d o 4) = v ↔ fieldAt d o 4 = v.toNat := ofNat_fieldAt_eq_iff d o 4 v

theorem ofNat_fieldAt_eight (d : List Byte) (o : Nat) (v : BitVec 64) :
    BitVec.ofNat 64 (fieldAt d o 8) = v ↔ fieldAt d o 8 = v.toNat := ofNat_fieldAt_eq_iff d o 8 v

theorem slotLoad_eq_iff (d : List Byte) (p : LoadParams) : slotLoad d = p ↔
    fieldAt d 8 1 = p.index.toNat ∧ fieldAt d 9 1 = p.role.toNat ∧ fieldAt d 10 1 = p.feedKind.toNat
      ∧ fieldAt d 11 1 = p.stamp.toNat ∧ (fieldAt d 12 1 % 2 = 1 ↔ p.eligible = true) ∧ fieldAt d 13 1 = p.robot.toNat
      ∧ fieldAt d 14 1 = p.readSet.toNat ∧ fieldAt d 15 1 = p.writeSet.toNat ∧ fieldAt d 16 4 = p.base.toNat
      ∧ fieldAt d 20 4 = p.size.toNat ∧ fieldAt d 24 4 = p.halfA.toNat ∧ fieldAt d 28 4 = p.halfB.toNat := by
  cases p
  simp only [slotLoad, LoadParams.mk.injEq, byteAt_eq_iff, flagAt_eq_iff, ofNat_fieldAt_four]

theorem slotBind_eq_iff (d : List Byte) (p : BindParams) : slotBind d = p ↔
    fieldAt d 8 1 = p.robot.toNat ∧ fieldAt d 9 1 = p.bank.toNat ∧ fieldAt d 10 1 = p.feed.toNat
      ∧ fieldAt d 11 1 = p.reader.toNat ∧ fieldAt d 12 1 = p.echoLimit.toNat ∧ fieldAt d 13 1 = p.nudges.toNat
      ∧ fieldAt d 16 4 = p.period.toNat := by
  cases p
  simp only [slotBind, BindParams.mk.injEq, byteAt_eq_iff, ofNat_fieldAt_four]

theorem slotTrack_eq_iff (d : List Byte) (p : TrackParams) : slotTrack d = p ↔
    fieldAt d 8 1 = p.rejectPocket.toNat ∧ fieldAt d 9 1 = p.cameras.toNat ∧ fieldAt d 10 1 = p.required.toNat
      ∧ fieldAt d 11 1 = p.unsure.toNat ∧ fieldAt d 12 1 = p.deadline.toNat ∧ fieldAt d 13 1 = p.station0.toNat
      ∧ fieldAt d 14 1 = p.station1.toNat ∧ fieldAt d 15 1 = p.station2.toNat ∧ fieldAt d 16 1 = p.feed0.toNat
      ∧ fieldAt d 17 1 = p.feed1.toNat ∧ fieldAt d 18 1 = p.feed2.toNat ∧ fieldAt d 20 2 = p.target.toNat
      ∧ fieldAt d 22 2 = p.tolerance.toNat ∧ fieldAt d 24 4 = p.delay.toNat ∧ fieldAt d 28 4 = p.width.toNat
      ∧ fieldAt d 32 2 = p.lineStop.toNat := by
  cases p
  simp only [slotTrack, TrackParams.mk.injEq, byteAt_eq_iff, ofNat_fieldAt_two, ofNat_fieldAt_four]

theorem slotTune_eq_iff (d : List Byte) (p : TuneParams) : slotTune d = p ↔
    fieldAt d 8 1 = p.given.toNat ∧ fieldAt d 12 4 = p.step.toNat ∧ fieldAt d 16 4 = p.lock.toNat
      ∧ fieldAt d 20 1 = p.pShift.toNat ∧ fieldAt d 21 1 = p.iShift.toNat ∧ fieldAt d 24 4 = p.rateLimit.toNat
      ∧ fieldAt d 28 2 = p.holdover.toNat ∧ fieldAt d 30 1 = p.window1.toNat ∧ fieldAt d 31 1 = p.window2.toNat
      ∧ fieldAt d 32 4 = p.delay1.toNat ∧ fieldAt d 36 4 = p.delay2.toNat := by
  cases p
  simp only [slotTune, TuneParams.mk.injEq, byteAt_eq_iff, ofNat_fieldAt_two, ofNat_fieldAt_four]

theorem slotService_eq_iff (d : List Byte) (p : ServiceParams) : slotService d = p ↔
    fieldAt d 8 1 = p.given.toNat ∧ fieldAt d 10 2 = p.consent.toNat ∧ fieldAt d 12 2 = p.lockout.toNat := by
  cases p
  simp only [slotService, ServiceParams.mk.injEq, byteAt_eq_iff, ofNat_fieldAt_two]

/-- The 64 bytes of a slot spell exactly the command that the model reads in them. -/
theorem spellsCommand_iff (d : List Byte) (c : Command) : spellsCommand d c ↔ decodeSlot d = c := by
  unfold decodeSlot spellsCommand
  rw [byteAt_toNat d 0]
  dsimp only
  cases c <;> dsimp only
  case unknown b =>
    have hb : byteAt d 0 = b ↔ fieldAt d 0 1 = b.toNat := byteAt_eq_iff ..
    split <;> simp_all
    all_goals omega
  case windowLoad p => rw [← slotLoad_eq_iff]; split <;> simp_all
  case robotBind p => rw [← slotBind_eq_iff]; split <;> simp_all
  case trackSetup p => rw [← slotTrack_eq_iff]; split <;> simp_all
  case clockTune p => rw [← slotTune_eq_iff]; split <;> simp_all
  case serviceSetup p => rw [← slotService_eq_iff]; split <;> simp_all
  case serviceConsent x q => rw [← byteAt_eq_iff, ← ofNat_fieldAt_four]; split <;> simp_all
  case clockSet x => rw [← ofNat_fieldAt_eight]; split <;> simp_all
  case fence x => rw [← flagAt_eq_iff]; generalize (byteAt d 1).getLsbD 0 = y; split <;> simp_all
  case policyEnforce | trackClear | serviceRevoke => split <;> simp_all
  case windowDrop x | robotUnbind x | snapshot x => rw [← byteAt_eq_iff]; split <;> simp_all
  case faultClear x y | reporting x y => rw [← byteAt_eq_iff, ← byteAt_eq_iff]; split <;> simp_all

/-- Memory's answer of the outstanding fetch is the row of the command: it begins in the state `b`. -/
theorem exec_row_of_fetchAnswered {s b : State} (h : s.fetchAnswered b) {c : Command}
    (hc : ∀ code, c = .unknown code → knownCode code = false) : exec c.row s = .next (runCommand c b) := by
  cases c with
  | unknown code =>
    show Host.Outcome.next (if knownCode code then s else onCommand unknownAct s) = _
    rw [hc code rfl, onCommand_of_fetchAnswered h]
    rfl
  | _ => exact congrArg Host.Outcome.next (onCommand_of_fetchAnswered h _)

theorem knownCode_eq_false (code : Byte) : knownCode code = false ↔ code.toNat = 0 ∨ 16 < code.toNat := by
  unfold knownCode
  rw [Bool.and_eq_false_iff, decide_eq_false_iff_not, decide_eq_false_iff_not]
  omega

theorem OwnKind.ofCommandUnit_iff (k : OwnKind) :
    k.ofCommandUnit = true ↔ k = .fetch ∨ k = .completion ∨ k = .headWord := by
  cases k <;> simp [OwnKind.ofCommandUnit]

theorem commandUnitWaits_iff (s : State) :
    commandUnitWaits s = true
      ↔ ∃ t, Waiter.txn t ∈ s.path.waiting ∧ (t.kind = .fetch ∨ t.kind = .completion ∨ t.kind = .headWord) := by
  unfold commandUnitWaits
  rw [List.any_eq_true]
  constructor
  · rintro ⟨w, hw, hk⟩
    cases w with
    | txn t => exact ⟨t, hw, (OwnKind.ofCommandUnit_iff _).1 hk⟩
    | _ => cases hk
  · rintro ⟨t, ht, hk⟩
    exact ⟨_, ht, (OwnKind.ofCommandUnit_iff _).2 hk⟩

theorem fetchDue_iff (s : State) : fetchDue s = true ↔ s.running = true ∧ s.cmd.ring = .running ∧ s.cmd.phase = .idle
    ∧ s.cmd.head ≠ s.cmd.tail ∧ ¬ ∃ t, Waiter.txn t ∈ s.path.waiting
        ∧ (t.kind = .fetch ∨ t.kind = .completion ∨ t.kind = .headWord) := by
  unfold fetchDue
  rw [← commandUnitWaits_iff]
  simp [and_assoc]

theorem exec_commandFetch_of_due {s : State} (h : fetchDue s = true) : exec .commandFetch s = .next (fetchAct s) :=
  congrArg Host.Outcome.next (if_pos h)

theorem exec_commandFetch_of_not_due {s : State} (h : ¬ fetchDue s = true) : exec .commandFetch s = .next s :=
  congrArg Host.Outcome.next (if_neg h)

/-- Settles O23. -/
theorem commandFetched : Obligations.CommandFetched := by
  refine ⟨fun s hr => ?_, fun s pre post w data h hk hb hpre hlen => ⟨⟨_, (spellsCommand_iff ..).2 rfl⟩, fun c hc => ?_⟩⟩
  · intro waits
    refine ⟨fun hring hphase htail hw => ?_, fun hno => exec_commandFetch_of_not_due fun hdue => ?_⟩
    · rw [exec_commandFetch_of_due ((fetchDue_iff s).2 ⟨hr, hring, hphase, htail, hw⟩)]
      unfold fetchAct
      rw [makesRead_one]
      rfl
    · obtain ⟨-, hring, hphase, htail, hw⟩ := (fetchDue_iff s).1 hdue
      rcases hno with hno | hno | hno | hno
      · rw [hring] at hno
        cases hno
      · exact hno hphase
      · exact htail hno
      · exact hw hno
  · have hdecode := (spellsCommand_iff data c).1 hc
    have hans : s.fetchAnswered _ := ⟨pre, w, post, h, hk, hb, hpre, rfl⟩
    rw [exec_ownAnswer h, exec_row_of_fetchAnswered hans]
    · unfold handAnswer
      rw [hk]
      dsimp only
      rw [fitBytes_of_length hlen, hdecode]
    · rintro code rfl
      exact (knownCode_eq_false code).2 hc.2

end Sys2Proof.Machine
end

section
/-! SUPPORT. The resets and the commands that complete as they begin; the statements about them. -/

namespace Sys2Proof.Machine
open Sys2Proof

/-! ## The resets (R16 to R18) -/

theorem exec_linkRequest_of_held {s : State} (h : s.running = false) (r : LinkRequest) : exec (.linkRequest r) s = .next s := by
  show Host.Outcome.next (linkRequestAct r s) = _
  unfold linkRequestAct
  rw [h]
  rfl

theorem exec_memoryPortPresent_of_held {s : State} (h : s.running = false) : exec .memoryPortPresent s = .next s := by
  show Host.Outcome.next (presentAct s) = _
  unfold presentAct
  rw [h]
  rfl

/-- With nothing presented, an answer answers nothing. -/
theorem discardsAnswers_of_unpresented {s : State} (hd : s.path.downstream = []) (ho : ∀ t ∈ s.path.own, t.presented = false) :
    s.discardsAnswers := by
  intro id data
  constructor
  · show Host.Outcome.next (passingAnswerAct id data s) = _
    unfold passingAnswerAct
    rw [hd]
    split <;> rfl
  · have hnone : s.answerable? (fun t => decide (t.id = id)) = none := by
      unfold State.answerable?
      split
      · refine List.find?_eq_none.2 fun t ht => ?_
        simp [Path.canAnswer, ho t ht]
      · rfl
    show Host.Outcome.next (ownAnswerAct id data s) = _
    unfold ownAnswerAct
    rw [hnone]

theorem codeLevel_of_powerGood {s : State} (h : s.pins.powerGood = false) : s.codeLevel = false := by
  unfold State.codeLevel
  rw [h]
  split <;> rfl

theorem record_of_reset {s : State} (h : s.flt = FaultUnit.reset) (n : Fin 8) : s.flt.records[n] = none := by
  rw [h]
  exact Vector.getElem_replicate _

/-- The head word write that either reset makes. -/
theorem own_of_reset (n : Nat) (straps : Fin 16) (rs : List Response) : (Path.reset n straps rs).own
    = [newWrite n .headWord (straps.val * 0x10000000 + 0x0FFF0000 + 0x10) (List.replicate 8 0)] := by
  show [headWordZero n straps] = _
  unfold headWordZero areaBaseOf
  rw [Nat.add_comm 0x0FFF0000, Nat.mul_comm 0x10000000]
  rfl

theorem unpresented_of_reset {s : State} {n : Nat} {straps : Fin 16} {rs : List Response} (h : s.path = Path.reset n straps rs) :
    ∀ t ∈ s.path.own, t.presented = false := by
  rw [h]
  intro t ht
  rw [List.mem_singleton.1 ht]
  rfl

theorem exec_powerGoodRise {s : State} (h : s.pins.powerGood = false) (straps : Fin 16) : exec (.powerGoodRise straps) s
    = .next (State.powerReset straps s.pins.key s.pins.cabinetReset s.path.nextId s.openCount s.path.responses s.pending) :=
  congrArg Host.Outcome.next (if_neg (by rw [h]; exact Bool.false_ne_true))

theorem exec_cabinetResetAssert {s : State} (hp : s.pins.powerGood = true) (hc : s.pins.cabinetReset = false) :
    exec .cabinetResetAssert s = .next s.cabinetHeld :=
  congrArg Host.Outcome.next ((if_neg (by rw [hc]; exact Bool.false_ne_true)).trans (if_pos hp))

theorem exec_cabinetResetRelease {s : State} (hp : s.pins.powerGood = true) (hc : s.pins.cabinetReset = true)
    (straps : Fin 16) : exec (.cabinetResetRelease straps) s = .next (s.cabinetReleased straps) :=
  congrArg Host.Outcome.next ((if_pos hc).trans (if_pos hp))

theorem Session.reset_eq (key : Bool) : Session.reset key
    = { state := if key then .keyed else .closed, claim := none, named := [], consentWaiting := false, keepPhase := none,
        cause := none, consentTimer := none, keepTimer := none, lockoutTimer := none, consentS := 30, lockoutS := 10,
        replySeq := 0 } := by
  cases key <;> rfl

/-- Settles O25. -/
theorem powerGoodMoves : Obligations.PowerGoodMoves := by
  refine ⟨fun s => ⟨rfl, fun t r ht => ?_⟩, fun s straps h => ?_⟩
  · obtain rfl := Host.Outcome.next.inj ht
    exact ⟨codeLevel_of_powerGood rfl, exec_linkRequest_of_held rfl r, exec_memoryPortPresent_of_held rfl⟩
  · exact ⟨_, exec_powerGoodRise h straps, rfl, ⟨rfl, rfl, rfl, rfl, rfl⟩,
      discardsAnswers_of_unpresented rfl (unpresented_of_reset rfl), own_of_reset .., rfl, entry_of_reset rfl,
      slot_of_reset rfl, rfl, bound_of_reset rfl, rfl, rfl, Session.reset_eq _, record_of_reset rfl, rfl, rfl, rfl, rfl,
      ⟨rfl, rfl, rfl, rfl, rfl, rfl, rfl, rfl, rfl, rfl⟩, rfl⟩

/-- Settles O26. -/
theorem cabinetResetLevels : Obligations.CabinetResetLevels := by
  refine ⟨fun s hp hc => ?_, fun s straps hp hc => ?_⟩
  · have hheld : s.cabinetHeld.running = false := by
      unfold State.running State.cabinetHeld
      rw [hp]
      rfl
    exact ⟨_, exec_cabinetResetAssert hp hc, rfl, ⟨rfl, rfl, rfl, rfl, rfl⟩, rfl, rfl,
      discardsAnswers_of_unpresented rfl (by nofun), rfl, entry_of_reset rfl, slot_of_reset rfl, bound_of_reset rfl, rfl, rfl,
      Session.reset_eq false, rfl, ⟨rfl, rfl, rfl, rfl, rfl, rfl, rfl, rfl, rfl, rfl⟩, rfl, rfl, rfl,
      fun r => ⟨exec_linkRequest_of_held hheld r, exec_memoryPortPresent_of_held hheld⟩⟩
  · exact ⟨_, exec_cabinetResetRelease hp hc straps, rfl, ⟨rfl, rfl, rfl, rfl, rfl⟩,
      discardsAnswers_of_unpresented rfl (unpresented_of_reset rfl), own_of_reset .., rfl, rfl, rfl, rfl, rfl,
      Session.reset_eq _, rfl, ⟨rfl, rfl, rfl, rfl, rfl, rfl, rfl, rfl, rfl, rfl⟩, rfl, rfl, rfl, rfl, rfl, rfl⟩

/-! ## The commands that complete as they begin (R26, R156, R160, R165) -/

theorem byte_eq_one_iff (b : Byte) : b = 1 ↔ b.toNat = 1 := ⟨fun h => by rw [h]; rfl, fun h => BitVec.eq_of_toNat_eq h⟩

theorem allRecords_eq : allRecords = [0, 1, 2, 3, 4, 5, 6, 7] := by decide

/-- The status fields that change with the policy, the overflow flag and the flags of reporting. -/
theorem statusFields_policy_iff (s : State) (p : Policy) :
    State.statusFields { s with win := { s.win with policy := p } } = s.statusFields ↔ p = s.win.policy := by
  simp only [State.statusFields, StatusFields.mk.injEq, and_true]

theorem statusFields_flt_iff (s : State) (u : FaultUnit) :
    State.statusFields { s with flt := u } = s.statusFields ↔ u.overflow = s.flt.overflow := by
  simp only [State.statusFields, StatusFields.mk.injEq, true_and]

theorem statusFields_rep_iff (s : State) (r : Reporting) (h : r.decOverflow = s.rep.decOverflow) :
    State.statusFields { s with rep := r } = s.statusFields
      ↔ r.enabled = s.rep.enabled ∧ r.mask = s.rep.mask ∧ r.dropped = s.rep.dropped := by
  simp only [State.statusFields, StatusFields.mk.injEq, and_true, true_and, h]

/-- A status word write is scheduled where the field changes. -/
theorem noteStatus_statusIf {before after : State} {c : Bool} (h : after.statusFields = before.statusFields ↔ c = false) :
    before.noteStatus after = after.statusIf c := by
  rw [noteStatus_eq]
  congr 1
  rw [Bool.eq_iff_iff, decide_eq_true_eq, ne_eq, h, Bool.not_eq_false]

theorem configure_eq (r : Reporting) (on masked : Bool) : r.configure on masked = { r with
    enabled := on, mask := masked, dropped := r.dropped && on, droppedCount := if on then r.droppedCount else 0 } := by
  cases on
  · simp [Reporting.configure]
  · simp [Reporting.configure]

/-- Another enable and mask, with the status word write that a change schedules. -/
theorem noteStatus_configure (s : State) (on masked : Bool) :
    s.noteStatus { s with rep := s.rep.configure on masked } = State.statusIf { s with rep := s.rep.configure on masked }
      (decide (s.rep.enabled ≠ on) || decide (s.rep.mask ≠ masked) || (s.rep.dropped && !on)) := by
  refine noteStatus_statusIf ((statusFields_rep_iff s (s.rep.configure on masked) ?_).trans ?_)
  · rw [configure_eq]
  · rw [configure_eq]
    dsimp only
    cases on <;> cases masked <;> cases s.rep.enabled <;> cases s.rep.mask <;> cases s.rep.dropped <;> decide

/-- Settles O27. -/
theorem plainCommandsComplete : Obligations.PlainCommandsComplete := by
  intro s b h done refused
  refine ⟨fun code hcode => ?_, ?_, fun set overflow => ⟨fun hov => ?_, fun hov => ?_⟩,
    fun enable mask => ⟨fun hbad => ?_, fun hen hmask => ?_⟩⟩
  · exact exec_row_of_fetchAnswered h (c := .unknown code) fun _ he => by
      cases he
      exact (knownCode_eq_false code).2 hcode
  · refine (exec_row_of_fetchAnswered h (c := .policyEnforce) nofun).trans (congrArg done ?_)
    refine (noteStatus_statusIf ?_).trans rfl
    rw [statusFields_policy_iff, decide_eq_false_iff_not]
    cases b.win.policy <;> simp
  · refine (exec_row_of_fetchAnswered h (c := .faultClear set overflow) nofun).trans (congrArg Host.Outcome.next (if_pos ?_))
    rw [← not_or, ← byte_le_one]
    omega
  · obtain ⟨hrec, hover, hcreated, hmarks⟩ := FaultUnit.freeAll_touches set allRecords (by decide) b.flt
    have hov' : ¬ (overflow ≠ 0 ∧ overflow ≠ 1) := by rwa [← not_or, ← byte_le_one, not_not]
    refine ⟨_, (exec_row_of_fetchAnswered h (c := .faultClear set overflow) nofun).trans
      (congrArg Host.Outcome.next ((if_neg hov').trans (congrArg completeDone (noteStatus_statusIf ?_)))),
      fun n => ?_, ?_, ?_, hcreated⟩
    · rw [statusFields_flt_iff]
      dsimp only
      rw [hover]
      rcases (byte_le_one overflow).1 hov with rfl | rfl <;> cases b.flt.overflow <;> decide
    · exact (hrec n).trans (by simp only [allRecords_eq]; fin_cases n <;> simp [-BitVec.getLsbD_eq_getElem])
    · rw [hmarks, allRecords_eq]
    · dsimp only
      rw [hover]
      rcases (byte_le_one overflow).1 hov with rfl | rfl <;> cases b.flt.overflow <;> decide
  · refine (exec_row_of_fetchAnswered h (c := .reporting enable mask) nofun).trans (congrArg Host.Outcome.next (if_pos ?_))
    rw [← not_or, ← not_or, ← byte_le_one, ← byte_le_one]
    omega
  · intro on masked
    have hok : ¬ ((enable ≠ 0 ∧ enable ≠ 1) ∨ (mask ≠ 0 ∧ mask ≠ 1)) := by
      rw [← not_or, ← not_or, ← byte_le_one, ← byte_le_one]
      omega
    have hon : decide (enable = 1) = on := decide_eq_decide.2 (byte_eq_one_iff enable)
    have hmasked : decide (mask = 1) = masked := decide_eq_decide.2 (byte_eq_one_iff mask)
    refine (exec_row_of_fetchAnswered h (c := .reporting enable mask) nofun).trans
      (congrArg Host.Outcome.next ((if_neg hok).trans (congrArg completeDone ?_)))
    rw [hon, hmasked, noteStatus_configure, configure_eq]
    unfold State.statusIf State.refreshAttention Reporting.attention
    dsimp only
    simp only [Bool.or_assoc]

end Sys2Proof.Machine
end

section
/-! SUPPORT. WINDOW LOAD and WINDOW DROP; the statements about them. -/

namespace Sys2Proof.Machine
open Sys2Proof

theorem winIdx?_eq_none {b : Byte} (h : 31 < b.toNat) : winIdx? b = none := dif_neg (by omega)

/-! ## The branches of WINDOW LOAD and WINDOW DROP (R34 to R41) -/

theorem windowLoadAct_undescribed {b : State} {p : LoadParams} (h : ∀ i w, ¬ describes p i w) :
    windowLoadAct p b = completeRefused .range b := by
  unfold windowLoadAct
  rw [loadWindow?_eq_none h]

theorem windowLoadAct_misaligned {b : State} {p : LoadParams} {i : WinIdx} {w : Window} (h : describes p i w)
    (hm : w.misaligned) : windowLoadAct p b = completeRefused .align b := by
  rw [windowLoadAct_describes h, if_pos]
  rw [Bool.not_eq_true', Bool.eq_false_iff, ne_eq, aligned_iff, not_not]
  exact hm

theorem windowLoadAct_aligned {b : State} {p : LoadParams} {i : WinIdx} {w : Window} (h : describes p i w)
    (hm : ¬ w.misaligned) :
    windowLoadAct p b = match loadRefusal b i w with
      | some why => completeRefused why b
      | none => match (b.entry i).contents? with
        | none => completeDone (applyWindow i w b)
        | some old => startDrain i old (some w) b := by
  rw [windowLoadAct_describes h, (aligned_iff w).2 hm]
  rfl

theorem windowLoadAct_refused {b : State} {p : LoadParams} {i : WinIdx} {w : Window} {why : Reason} (h : describes p i w)
    (hm : ¬ w.misaligned) (hr : loadRefusal b i w = some why) : windowLoadAct p b = completeRefused why b := by
  rw [windowLoadAct_aligned h hm, hr]

theorem loadRefusal_of_admits {b : State} {i : WinIdx} {w : Window} (h : b.admitsLoad i w) : loadRefusal b i w = none := by
  obtain ⟨-, h1, h2, h3, h4, h5⟩ := h
  exact (loadRefusal_cases b i w).2.2.2.2.2 h1 h2 h3 h4 h5

theorem windowLoadAct_empty {b : State} {p : LoadParams} {i : WinIdx} {w : Window} (h : describes p i w)
    (ha : b.admitsLoad i w) (he : b.entry i = .empty) : windowLoadAct p b = completeDone (applyWindow i w b) := by
  rw [windowLoadAct_aligned h ha.1, loadRefusal_of_admits ha, he]
  rfl

theorem windowLoadAct_loaded {b : State} {p : LoadParams} {i : WinIdx} {w old : Window} (h : describes p i w)
    (ha : b.admitsLoad i w) (he : b.entry i = .loaded old) : windowLoadAct p b = startDrain i old (some w) b := by
  rw [windowLoadAct_aligned h ha.1, loadRefusal_of_admits ha, he]
  rfl

theorem windowDropAct_eq {b : State} {index : Byte} {i : WinIdx} (h : index.toNat = i.val) :
    windowDropAct index b = match (b.entry i).contents? with
      | none => completeDone b
      | some old => match entryRefusal b i with
        | some why => completeRefused why b
        | none => startDrain i old none b := by
  unfold windowDropAct
  rw [winIdx?_eq_some.2 h] <;> rfl

theorem windowDropAct_refused {b : State} {index : Byte} {i : WinIdx} {w : Window} {why : Reason} (h : index.toNat = i.val)
    (he : b.entry i = .loaded w) (hr : entryRefusal b i = some why) : windowDropAct index b = completeRefused why b := by
  rw [windowDropAct_eq h, he, hr]
  rfl

theorem windowDropAct_loaded {b : State} {index : Byte} {i : WinIdx} {w : Window} (h : index.toNat = i.val)
    (he : b.entry i = .loaded w) (hr : entryRefusal b i = none) : windowDropAct index b = startDrain i w none b := by
  rw [windowDropAct_eq h, he, hr]
  rfl

/-- Settles O28. -/
theorem windowCommandsRefused : Obligations.WindowCommandsRefused := by
  intro s b h refused
  refine ⟨fun p => ⟨fun hno => ?_, fun i w hd => ?_⟩, fun index => ⟨fun hbig => ?_, fun i w hi he => ?_⟩⟩
  · rw [exec_windowLoad h, windowLoadAct_undescribed hno]
    rfl
  · have hcases := loadRefusal_cases b i w
    obtain ⟨hbound, hbusy, harea, hhidden, hfull, -⟩ := hcases
    rw [exec_windowLoad h]
    exact ⟨fun hm => congrArg Host.Outcome.next (windowLoadAct_misaligned hd hm),
      fun hm h1 => congrArg Host.Outcome.next (windowLoadAct_refused hd hm (hbound h1)),
      fun hm h1 h2 => congrArg Host.Outcome.next (windowLoadAct_refused hd hm (hbusy h1 h2)),
      fun hm h1 h2 h3 => congrArg Host.Outcome.next (windowLoadAct_refused hd hm (harea h1 h2 h3)),
      fun hm h1 h2 h3 h4 => congrArg Host.Outcome.next (windowLoadAct_refused hd hm (hhidden h1 h2 h3 h4)),
      fun hm h1 h2 h3 h4 h5 => congrArg Host.Outcome.next (windowLoadAct_refused hd hm (hfull h1 h2 h3 h4 h5))⟩
  · rw [exec_windowDrop h]
    unfold windowDropAct
    rw [winIdx?_eq_none hbig]
    rfl
  · obtain ⟨hbound, hbusy, -⟩ := entryRefusal_cases b i
    rw [exec_windowDrop h]
    exact ⟨fun h1 => congrArg Host.Outcome.next (windowDropAct_refused hi he (hbound h1)),
      fun h1 h2 => congrArg Host.Outcome.next (windowDropAct_refused hi he (hbusy h1 h2))⟩

/-- A FEED window has an EMPTY assembly slot, another none. -/
theorem slot_map (w : Window) : (w.feedKind?.map fun _ => Slot.empty) = if w.feedKind?.isSome then some .empty else none := by
  cases w.feedKind? <;> rfl

/-- A TIME feed's source takes the lowest-numbered vacant place (R75). -/
theorem createSource_first {s : State} (h0 : s.clk.place0.window = none) {i : WinIdx} :
    createSource i s = s.setClk { s.clk with place0 := { Place.vacant 0 with window := some i } } :=
  if_pos (by rw [h0]; rfl)

theorem createSource_second {s : State} (h0 : s.clk.place0.window ≠ none) (h1 : s.clk.place1.window = none) {i : WinIdx} :
    createSource i s = s.setClk { s.clk with place1 := { Place.vacant 0 with window := some i } } :=
  (if_neg (by rwa [Option.isNone_iff_eq_none])).trans (if_pos (by rw [h1]; rfl))

/-- Settles O29. -/
theorem windowLoadApplies : Obligations.WindowLoadApplies := by
  refine ⟨fun s b p i w h hd ha he => ?_, fun s b index i h hi he => ?_, fun s i w => ?_⟩
  · rw [exec_windowLoad h, windowLoadAct_empty hd ha he]
    rfl
  · rw [exec_windowDrop h, windowDropAct_eq hi, he]
    rfl
  · intro slot t fresh
    unfold applyWindow
    dsimp only
    rw [slot_map]
    refine ⟨fun hk => if_neg hk, fun hk h0 => (if_pos hk).trans ?_, fun hk h0 h1 => (if_pos hk).trans ?_⟩
    · exact createSource_first (s := t) h0
    · exact createSource_second (s := t) h0 h1

/-! ## Drains (R39 to R41) -/

theorem exec_drainEnd {s : State} {i : WinIdx} (hr : s.running = true) (hp : s.cmd.phase = .executing (.drain i)) :
    exec .drainEnd s = .next (if drainReady s i then finishDrain i s else s) := by
  show Host.Outcome.next (drainEndAct s) = _
  unfold drainEndAct drainIndex?
  rw [hp, hr]
  rfl

/-- Settles O30. -/
theorem windowDrains : Obligations.WindowDrains := by
  unfold Obligations.WindowDrains
  intro ceased ended waits
  refine ⟨fun s b p i old w h hd ha he => ?_, fun s b index i old h hi he hbound hbusy => ?_, fun s i old new hr hp he => ?_⟩
  · rw [exec_windowLoad h, windowLoadAct_loaded hd ha he, startDrain_eq, ← drainReady_iff]
    exact ⟨fun hz => congrArg Host.Outcome.next (if_pos hz), fun hz => congrArg Host.Outcome.next (if_neg hz)⟩
  · rw [exec_windowDrop h, windowDropAct_loaded hi he ((entryRefusal_cases b i).2.2 hbound hbusy), startDrain_eq, ← drainReady_iff]
    exact ⟨fun hz => congrArg Host.Outcome.next (if_pos hz), fun hz => congrArg Host.Outcome.next (if_neg hz)⟩
  · rw [exec_drainEnd hr hp, ← drainReady_iff]
    refine ⟨fun hz => congrArg Host.Outcome.next ((if_pos hz).trans ?_), fun hz => congrArg Host.Outcome.next (if_neg hz)⟩
    unfold finishDrain
    rw [he]
    cases new <;> rfl

end Sys2Proof.Machine
end

section
/-! SUPPORT. Binding and unbinding a robot, the flip and the catch-up copy; the statements about them. -/

namespace Sys2Proof.Machine
open Sys2Proof

/-! ## ROBOT BIND (R94, R95, R97, R104) -/

theorem ownRoom_one_iff (s : State) : s.ownRoom 1 ↔ s.path.hasPlace = true := (Path.hasPlace_iff s.path).symm

/-- R94, RANGE. -/
def bindInRange (p : BindParams) : Prop :=
  p.robot.toNat ≤ 5 ∧ p.bank.toNat ≤ 31 ∧ p.feed.toNat ≤ 31 ∧ p.reader.toNat ≤ 7 ∧ 250 ≤ p.period.toNat
    ∧ p.period.toNat ≤ 100000 ∧ 1 ≤ p.echoLimit.toNat ∧ p.echoLimit.toNat ≤ 64 ∧ p.nudges.toNat ≤ 7

theorem bindRange_some {p : BindParams} {r : RobotIdx} {i f : WinIdx} {t : Tag} (h : bindInRange p) (hr : p.robot.toNat = r.val)
    (hi : p.bank.toNat = i.val) (hf : p.feed.toNat = f.val) (ht : p.reader.toNat = t.val) :
    bindRange p = some (r, i, f, t) := by
  obtain ⟨-, -, -, -, hrest⟩ := h
  unfold bindRange
  rw [robotIdx?_eq_some.2 hr, winIdx?_eq_some.2 hi, winIdx?_eq_some.2 hf, tag?_eq_some.2 ht]
  exact if_pos hrest

theorem bindRange_none {p : BindParams} (h : ¬ bindInRange p) : bindRange p = none := by
  unfold bindRange
  split
  next r i f t hr hi hf ht =>
    have hr := robotIdx?_eq_some.1 hr
    have hi := winIdx?_eq_some.1 hi
    have hf := winIdx?_eq_some.1 hf
    have ht := tag?_eq_some.1 ht
    exact if_neg fun hrest => h ⟨by omega, by omega, by omega, by omega, hrest⟩
  next => rfl

/-- The catch-up copy's first read, from the published half (R104). -/
theorem startCopy_makes {s : State} {r : RobotIdx} {b : Bound} {halfA halfB size : Nat} (hb : s.bound? r = some b)
    (h : s.bankAt b.bank halfA halfB size) :
    startCopy r s = (s.setRobot r (some { b with publish := .copying })).makesRead
      (.copyRead r 8 (pieceLen (if b.published = .a then halfA else halfB) size 8))
      ((if b.published = .a then halfA else halfB) + 8) (pieceLen (if b.published = .a then halfA else halfB) size 8) := by
  obtain ⟨-, -, -, -, h64⟩ := half_of_bankAt h .a
  unfold startCopy
  rw [modifyRobot_eq hb]
  exact copyReadAt_makes (s := s.setRobot r (some { b with publish := .copying })) (State.bound_setRobot_self ..) h 8 (by omega)

/-- The branches of ROBOT BIND in range (R94, R95). -/
theorem robotBindAct_inRange {s : State} {p : BindParams} {r : RobotIdx} {i f : WinIdx} {t : Tag}
    (h : bindRange p = some (r, i, f, t)) :
    robotBindAct p s = if (s.bound? r).isSome then completeRefused .bound s
      else if !(s.bankCarries i r && s.isFeed f .robot) then completeRefused .role s
      else
        let bound := startCopy r (writeBankWord (.bankBind r) i .a (bankWordBytes 0 0 false s.lowTime)
          (s.setRobot r (some (newBound p i f t s))))
        if s.path.hasPlace then completeDone bound else bound.setPhase (.executing (.bindJoin r)) := by
  unfold robotBindAct
  rw [h]
  rfl

/-- A robot just bound: the bank word of half A, and the first read of the copy. -/
theorem bindWrites {s : State} {r : RobotIdx} {x : Bound} {halfA halfB size : Nat} (h : s.bankAt x.bank halfA halfB size)
    (ha : x.published = .a) (hp : x.publish = .copying) (word : List Byte) :
    startCopy r (writeBankWord (.bankBind r) x.bank .a word (s.setRobot r (some x)))
      = ((s.setRobot r (some x)).makes [(.bankBind r, halfA, word)]).makesRead (.copyRead r 8 (pieceLen halfA size 8))
          (halfA + 8) (pieceLen halfA size 8) := by
  have hsame : ({ x with publish := .copying } : Bound) = x := by rw [← hp]
  rw [writeBankWord_makes (s := s.setRobot r (some x)) h, if_pos rfl,
    startCopy_makes (s := (s.setRobot r (some x)).makes _) (State.bound_setRobot_self s r _) h, hsame, ha, if_pos rfl]
  exact congrArg (fun u : State => (u.makes [(.bankBind r, halfA, word)]).makesRead (.copyRead r 8 (pieceLen halfA size 8))
    (halfA + 8) (pieceLen halfA size 8)) (setRobot_twice s r (some x) (some x))

/-- Settles O31. -/
theorem robotBindCompletes : Obligations.RobotBindCompletes := by
  refine ⟨fun s b p h => ?_, fun s r t rest hr hl hw hk hp => ?_⟩
  · intro refused inRange
    have hrun : exec (.robotBind p) s = .next (robotBindAct p b) :=
      exec_row_of_fetchAnswered h (c := .robotBind p) nofun
    refine ⟨fun hno => hrun.trans ?_, fun r i f t hin hr hi hf ht => ?_⟩
    · unfold robotBindAct
      rw [bindRange_none hno]
      rfl
    · intro roles
      have hact := robotBindAct_inRange (s := b) (bindRange_some hin hr hi hf ht)
      have hroles : (b.bankCarries i r && b.isFeed f .robot) = true ↔ roles := by
        rw [Bool.and_eq_true, bankCarries_iff, isFeed_iff]
      refine ⟨fun hb => ?_, fun hb hno => ?_, fun hb hro halfA halfB size hbank => ?_⟩
      · exact hrun.trans (congrArg Host.Outcome.next (hact.trans (if_pos (Option.isSome_iff_ne_none.2 hb))))
      · rw [hb, Option.isSome_none, if_neg Bool.false_ne_true, if_pos (by rw [Bool.not_eq_true']; exact Bool.eq_false_iff.2 (mt hroles.1 hno))] at hact
        exact hrun.trans (congrArg Host.Outcome.next hact)
      · intro time record word len bound
        have hrecord : newBound p i f t b = record := by
          unfold newBound
          rw [lowTime_eq]
          rfl
        have hword : bankWordBytes 0 0 false b.lowTime = word := by rw [bankWordBytes_eq, lowTime_toNat]
        rw [hb, Option.isSome_none, if_neg Bool.false_ne_true, if_neg (by rw [hroles.2 hro]; exact Bool.false_ne_true), hrecord, hword,
          bindWrites (s := b) (x := record) hbank rfl rfl] at hact
        rw [ownRoom_one_iff, hrun, hact]
        exact ⟨fun hplace => congrArg Host.Outcome.next (if_pos hplace), fun hplace => congrArg Host.Outcome.next (if_neg hplace)⟩
  · rw [exec_ownQueueJoin_txn hr hl hw, hk]
    exact congrArg Host.Outcome.next (if_pos hp)

/-! ## ROBOT UNBIND (R96) -/

theorem robotUnbindAct_eq {s : State} {robot : Byte} {r : RobotIdx} {x : Bound} (h : robot.toNat = r.val)
    (hx : s.bound? r = some x) :
    robotUnbindAct robot s = if x.unbinding then completeRefused .notBound s
      else if s.authority? x.bank = some .service ∨ s.authority? x.bank = some .frozen then completeRefused .busy s
      else if decide (x.publish = .idle) && !readerReadInFlight s x then finishUnbind r s
      else (s.setRobot r (some { x with unbinding := true })).setPhase (.executing (.unbind r)) := by
  have hmark : (s.setRobot r (some { x with unbinding := true })).bound? r = some { x with unbinding := true } :=
    State.bound_setRobot_self ..
  have hfinish : finishUnbind r (s.setRobot r (some { x with unbinding := true })) = finishUnbind r s := by
    unfold finishUnbind
    rw [setRobot_twice]
  unfold robotUnbindAct
  rw [robotIdx?_eq_some.2 h]
  dsimp only
  rw [hx]
  dsimp only
  rw [hfinish]
  unfold unbindReady
  rw [hmark]
  rfl

/-- Settles O32. -/
theorem robotUnbindCompletes : Obligations.RobotUnbindCompletes := by
  refine ⟨fun s b robot h => ?_, fun s r x hr hp hx hu => ?_⟩
  · intro refused
    have hrun : exec (.robotUnbind robot) s = .next (robotUnbindAct robot b) :=
      exec_row_of_fetchAnswered h (c := .robotUnbind robot) nofun
    refine ⟨fun hbig => hrun.trans ?_, fun r hr => ⟨fun hb => hrun.trans ?_, fun x hx => ?_⟩⟩
    · unfold robotUnbindAct
      rw [show robotIdx? robot = none from dif_neg (by omega)]
      rfl
    · unfold robotUnbindAct
      rw [robotIdx?_eq_some.2 hr]
      dsimp only
      rw [hb]
      rfl
    · intro held marked
      have hact := robotUnbindAct_eq hr hx
      have hready : (decide (x.publish = .idle) && !readerReadInFlight b x) = true ↔ x.publish = .idle ∧ ¬ b.readerReads x := by
        rw [Bool.and_eq_true, decide_eq_true_eq, Bool.not_eq_true', Bool.eq_false_iff, ne_eq, readerReadInFlight_iff]
      refine ⟨fun hu => ?_, fun hu hh => ?_, fun hu hh hi hn => ?_, fun hu hh hw => ?_⟩
      · exact hrun.trans (congrArg Host.Outcome.next (hact.trans (if_pos hu)))
      all_goals rw [hu, if_neg Bool.false_ne_true] at hact
      · exact hrun.trans (congrArg Host.Outcome.next (hact.trans (if_pos hh)))
      · exact hrun.trans (congrArg Host.Outcome.next (hact.trans ((if_neg hh).trans (if_pos (hready.2 ⟨hi, hn⟩)))))
      · exact hrun.trans (congrArg Host.Outcome.next (hact.trans ((if_neg hh).trans (if_neg fun hz =>
          hw.elim (fun hz' => hz' (hready.1 hz).1) (hready.1 hz).2))))
  · have hready := unbindReady_eq hx
    have hdue : exec .unbindComplete s = .next (if unbindReady s r then finishUnbind r s else s) := by
      show Host.Outcome.next (match unbindDue? s with | some r => finishUnbind r s | none => s) = _
      unfold unbindDue? unbindRobot?
      rw [hp, hr]
      dsimp only
      rw [Option.filter_some]
      cases unbindReady s r <;> rfl
    rw [hdue]
    refine ⟨fun hi hn => congrArg Host.Outcome.next (if_pos (hready.2 ⟨hu, hi, hn⟩)), fun hw => congrArg Host.Outcome.next (if_neg ?_)⟩
    rw [hready]
    exact fun hz => hw.elim (fun hz' => hz' hz.2.1) hz.2.2

/-! ## The flip (R102, R103) -/

/-- The flip's bank word goes into the working half (R102). -/
theorem writeFlip_eq {s : State} {r : RobotIdx} {b : Bound} {q : PublishRequest} {halfA halfB size : Nat}
    (hb : s.bound? r = some b) (hq : b.pendingReq = some q) (h : s.bankAt b.bank halfA halfB size) :
    writeFlip r s = (s.setRobot r (some { b with newFlipTime := some (BitVec.ofNat 32 s.clk.ns.toNat) })).makes
      [(.bankFlip r, if b.published = .a then halfB else halfA,
        bankWord q.seq 0 b.review (s.clk.ns.toNat % 4294967296))] := by
  unfold writeFlip
  rw [hb]
  dsimp only
  rw [hq, writeBankWord_makes (s := s.setRobot r _) h, Half.other_pick, bankWordBytes_eq, lowTime_toNat, lowTime_eq]
  rfl

theorem exec_flipWaitEnd {s : State} {r : RobotIdx} (hr : s.running = true) :
    exec (.flipWaitEnd r) s = .next (if flipReady s r then writeFlip r s else s) := by
  show Host.Outcome.next (onEvent (s.running && flipReady s r) (writeFlip r) s) = _
  rw [hr, Bool.true_and]
  rfl

/-- The record that a swap leaves, with the copy begun (R103). -/
theorem swap_copying {b : Bound} {q : PublishRequest} {time : BitVec 32} (hq : b.pendingReq = some q)
    (ht : b.newFlipTime = some time) :
    ({ b.swap with publish := .copying } : Bound) = { b with
      published := b.published.other, publishedSeq := q.seq,
      confirmPending := q.confirm && decide (q.origin = .production), pendingReq := none, nudgesUsed := 0,
      flipTime := time, newFlipTime := none, publish := .copying,
      echo := if b.echo = .stale then .stale else .awaiting,
      toDeadline := if b.echo = .stale then b.toDeadline else b.echoLimit } := by
  unfold Bound.swap
  rw [hq, ht]
  dsimp only
  split
  next he => rw [he]; rfl
  next => rfl

theorem swap_published (b : Bound) : b.swap.published = b.published.other ∧ b.swap.bank = b.bank := by
  unfold Bound.swap
  dsimp only
  split <;> exact ⟨rfl, rfl⟩

/-- The halves swap, and the copy begins in the half that was the working one (R103). -/
theorem swapBank_eq {s : State} {r : RobotIdx} {b : Bound} {halfA halfB size : Nat} (hb : s.bound? r = some b)
    (h : s.bankAt b.bank halfA halfB size) :
    swapBank r s = (s.setRobot r (some { b.swap with publish := .copying })).makesRead
      (.copyRead r 8 (pieceLen (if b.published = .a then halfB else halfA) size 8))
      ((if b.published = .a then halfB else halfA) + 8) (pieceLen (if b.published = .a then halfB else halfA) size 8) := by
  obtain ⟨hpub, hbank⟩ := swap_published b
  have hhalf : (if b.swap.published = .a then halfA else halfB) = if b.published = .a then halfB else halfA := by
    rw [hpub, Half.other_pick]
  unfold swapBank
  rw [modifyRobot_eq hb, startCopy_makes (s := s.setRobot r (some b.swap)) (State.bound_setRobot_self s r _)
    (by rw [hbank]; exact h), setRobot_twice, hhalf]

/-- Settles O33. -/
theorem bankFlips : Obligations.BankFlips := by
  intro s r b q halfA halfB size hb hf hq hbank working
  refine ⟨fun hr hn => ?_, fun pre post w time h hk _ hpre ht => ?_⟩
  · have hready := flipReady_iff hb hf hn
    rw [exec_flipWaitEnd hr]
    refine ⟨fun hw => congrArg Host.Outcome.next (if_neg fun hz => hready.1 hz hw), fun hw => ?_⟩
    rw [if_pos (hready.2 hw), writeFlip_eq hb hq hbank]
  · intro len swapped
    rw [exec_swap_of_answer h hk hpre, swapBank_eq (s := s.withOwn (pre ++ post)) hb hbank, swap_copying hq ht]

/-! ## The catch-up copy (R104 to R106) -/

/-- The piece read is written to the working half, and the next read follows where the write joins at once (R104). -/
theorem writeCopy_eq {s : State} {r : RobotIdx} {b : Bound} {halfA halfB size : Nat} (hb : s.bound? r = some b)
    (h : s.bankAt b.bank halfA halfB size) (offset : Nat) (data : List Byte) :
    writeCopy r offset data.length data s
      = if s.path.hasPlace then copyReadAt r (offset + data.length)
          (s.makes [(.copyWrite r offset data.length, (if b.published = .a then halfB else halfA) + offset, data)])
        else s.makes [(.copyWrite r offset data.length, (if b.published = .a then halfB else halfA) + offset, data)] := by
  obtain ⟨k, hk, hhalf, -⟩ := half_of_bankAt h b.published.other
  unfold writeCopy
  rw [hb]
  dsimp only
  rw [hk]
  dsimp only
  rw [hhalf, Half.other_pick, fitBytes_of_length rfl, makes_one]

/-- The held writes of a robot join the passing stream, and its bank leaves COPYING (R106). -/
theorem endCopy_eq {s : State} {r : RobotIdx} {b : Bound} (hb : s.bound? r = some b) :
    endCopy r s = (releaseHeld r s).setRobot r (some b.afterCopy) := modifyRobot_eq (s := releaseHeld r s) hb _

theorem afterCopy_idle {b : Bound} (hc : b.publish = .copying) (hn : b.nextReq = none) :
    b.afterCopy = { b with publish := .idle } := by
  unfold Bound.afterCopy
  rw [if_pos hc, hn]

theorem afterCopy_pending {b : Bound} {q : PublishRequest} (hc : b.publish = .copying) (hn : b.nextReq = some q) :
    b.afterCopy = { b with publish := .pending, pendingReq := some q, nextReq := none } := by
  unfold Bound.afterCopy
  rw [if_pos hc, hn]

/-- Settles O34. -/
theorem catchUpCopyRuns : Obligations.CatchUpCopyRuns := by
  intro s pre post w r b offset len halfA halfB size h hb hbank from_ to_ s'
  refine ⟨fun data hk _ hpre hlen => ?_, fun hc hk _ hpre hlast => ?_⟩
  · intro written next piece
    subst hlen
    rw [exec_copyReadAnswer_of_answer h hk hpre, writeCopy_eq (s := s') hb hbank, ownRoom_one_iff]
    refine ⟨fun hplace hlt => ?_, fun hno => congrArg Host.Outcome.next ?_⟩
    · rw [if_pos hplace]
      exact congrArg Host.Outcome.next (copyReadAt_makes (s := written) hb hbank _ hlt)
    · split
      next hplace =>
        exact copyReadAt_end (s := written) hb hbank _ (hno.resolve_left (not_not_intro hplace))
      next => rfl
  · intro mine released
    have hlast : lastPiece s r offset len = true := (lastPiece_eq hb hbank ..).trans (decide_eq_true hlast)
    rw [exec_copyEnd_of_answer h hk hlast hpre, endCopy_eq (s := s') hb]
    refine ⟨fun hn => ?_, fun q hn => ?_⟩
    · rw [afterCopy_idle hc hn]
      rfl
    · rw [afterCopy_pending hc hn]
      rfl

end Sys2Proof.Machine
end

section
/-! SUPPORT. A cycle boundary at a robot's record and ROBOT STATUS; the statements about them. -/

namespace Sys2Proof.Machine
open Sys2Proof

/-! ## A cycle boundary (R101, R109, R110) -/

theorem startFlip_of_not_pending {s : State} {r : RobotIdx} {b : Bound} (hb : s.bound? r = some b)
    (hp : b.publish ≠ .pending) : startFlip r s = s := by
  unfold startFlip
  rw [hb]
  exact if_neg hp

/-- A PENDING bank becomes FLIPPING, its bank word written at once if nothing in flight delays it. -/
theorem startFlip_of_pending {s : State} {r : RobotIdx} {b : Bound} (hb : s.bound? r = some b) (hp : b.publish = .pending) :
    startFlip r s = if flipReady (s.setRobot r (some { b with publish := .flipping, newFlipTime := none })) r
      then writeFlip r (s.setRobot r (some { b with publish := .flipping, newFlipTime := none }))
      else s.setRobot r (some { b with publish := .flipping, newFlipTime := none }) := by
  unfold startFlip
  rw [hb]
  exact if_pos hp

theorem flipReady_of_pending {s : State} {r : RobotIdx} (b : Bound) :
    flipReady (s.setRobot r (some { b with publish := .flipping, newFlipTime := none })) r = true ↔ ¬ s.flipWaits b :=
  flipReady_iff (b := { b with publish := .flipping, newFlipTime := none }) (State.bound_setRobot_self s r _) rfl rfl

theorem countEcho_of_not_awaiting {s : State} {r : RobotIdx} {b : Bound} (hb : s.bound? r = some b)
    (h : b.echo ≠ .awaiting) : countEcho r s = s := by
  unfold countEcho
  rw [hb]
  exact if_neg h

/-- An AWAITING echo counts down, and at 0 nudges and renews, or becomes STALE. -/
theorem countEcho_of_awaiting {s : State} {r : RobotIdx} {b : Bound} (hb : s.bound? r = some b) (h : b.echo = .awaiting) :
    countEcho r s = if b.toDeadline ≤ 1 then if b.nudgesUsed < b.nudgeCount then nudge r b s else makeStale r b s
      else s.setRobot r (some { b with toDeadline := b.toDeadline - 1 }) := by
  unfold countEcho
  rw [hb]
  exact if_pos h

theorem nudge_eq {s : State} {r : RobotIdx} {b : Bound} {halfA halfB size : Nat} (h : s.bankAt b.bank halfA halfB size) :
    nudge r b s = (s.setRobot r (some { b with nudgesUsed := b.nudgesUsed + 1, toDeadline := b.echoLimit })).makes
      [(.nudge r, if b.published = .a then halfA else halfB,
        bankWord b.publishedSeq (b.nudgesUsed + 1) b.review b.flipTime.toNat)] := by
  unfold nudge
  dsimp only
  rw [writeBankWord_makes (s := s.setRobot r _) h, bankWordBytes_eq]

theorem countMode_of_not_lapsing {s : State} {r : RobotIdx} {b : Bound} (hb : s.bound? r = some b)
    (h : b.sinceStatus < 15 ∨ b.mode = .unknown) :
    countMode r s = s.setRobot r (some { b with sinceStatus := min 16 (b.sinceStatus + 1) }) := by
  unfold countMode
  rw [hb]
  exact if_neg fun hz => h.elim (by omega) hz.2

theorem countMode_of_lapsing {s : State} {r : RobotIdx} {b : Bound} (hb : s.bound? r = some b) (h : 15 ≤ b.sinceStatus)
    (hm : b.mode ≠ .unknown) :
    countMode r s = serviceModeChange r .unknown (s.setRobot r (some { b with sinceStatus := 16, mode := .unknown })) := by
  have h16 : min 16 (b.sinceStatus + 1) = 16 := by omega
  unfold countMode
  rw [hb]
  dsimp only
  rw [h16]
  exact if_pos ⟨rfl, hm⟩

theorem exec_cycleBoundary_of {s : State} {r : RobotIdx} (h : boundaryNext s r = true) :
    exec (.cycleBoundary r) s = .next (refclk s) := congrArg Host.Outcome.next (onEvent_pos refclk s _ h)

theorem exec_cycleBoundary_of_not {s : State} {r : RobotIdx} (h : boundaryNext s r = false) :
    exec (.cycleBoundary r) s = .next s := congrArg Host.Outcome.next (onEvent_neg refclk s _ h)

theorem exec_echoDeadline_of {s : State} {r : RobotIdx} {b : Bound} (h : boundaryNext s r = true) (hb : s.bound? r = some b)
    (he : b.echo = .awaiting) (hd : b.toDeadline ≤ 1) : exec (.echoDeadline r) s = .next (refclk s) := by
  refine congrArg Host.Outcome.next (onEvent_pos refclk s _ ?_)
  unfold deadlineNext
  rw [h, hb]
  simp [he, hd]

theorem exec_modeLapse_of {s : State} {r : RobotIdx} {b : Bound} (h : boundaryNext s r = true) (hb : s.bound? r = some b)
    (hs : 15 ≤ b.sinceStatus) (hm : b.mode ≠ .unknown) : exec (.modeLapse r) s = .next (refclk s) := by
  refine congrArg Host.Outcome.next (onEvent_pos refclk s _ ?_)
  unfold lapseNext
  rw [h, hb]
  simp [hs, hm]

/-- Settles O35. -/
theorem cycleBoundaryTaken : Obligations.CycleBoundaryTaken := by
  refine ⟨fun s r b hp hb hu => ?_, fun s r b hb => ?_⟩
  · intro ns
    have hnext := boundaryNext_le s r b hp hb hu
    refine ⟨fun hlt => exec_cycleBoundary_of_not (hnext.trans (decide_eq_false (Nat.not_le.2 hlt))), fun hle => ?_⟩
    have hdue := hnext.trans (decide_eq_true hle)
    exact ⟨refclk s, refclk_given s hp hu, exec_cycleBoundary_of hdue, exec_echoDeadline_of hdue hb, exec_modeLapse_of hdue hb⟩
  · intro set
    refine ⟨startFlip_of_not_pending hb, fun hp => ?_, countEcho_of_not_awaiting hb, fun he => ?_, countMode_of_not_lapsing hb,
      countMode_of_lapsing hb⟩
    · intro x
      have hready := flipReady_of_pending (s := s) (r := r) b
      rw [startFlip_of_pending hb hp]
      refine ⟨fun hw => if_neg fun hz => hready.1 hz hw, fun hw q halfA halfB size hq hbank => (if_pos (hready.2 hw)).trans ?_⟩
      rw [writeFlip_eq (s := set x) (State.bound_setRobot_self s r _) hq hbank, setRobot_twice]
      rfl
    · rw [countEcho_of_awaiting hb he]
      refine ⟨fun hd => if_neg (by omega), fun hd hn halfA halfB size hbank => ?_, fun hd hn => ?_⟩
      · rw [if_pos hd, if_pos hn, nudge_eq hbank]
      · rw [if_pos hd, if_neg (by omega)]
        rfl

/-! ## ROBOT STATUS (R108, R110) -/

theorem exec_robotStatus_of_running {s : State} (hr : s.running = true) (src : Source) (rec : RobotStatus) :
    exec (.robotStatus src rec) s = .next (robotStatusAct rec s) := congrArg Host.Outcome.next (if_pos hr)

/-- The record of a status, the notice of a recovered echo, and the hand-over of a change of mode. -/
theorem robotStatusAct_bound {s : State} {rec : RobotStatus} {b : Bound} (hb : s.bound? rec.robot = some b) :
    robotStatusAct rec s =
      let t := s.setRobot rec.robot (some (if rec.applied = b.publishedSeq then (b.takeStatus rec).confirmEcho
        else b.takeStatus rec))
      let u := if rec.applied = b.publishedSeq ∧ b.echo = .stale then postNotice (.robotRecovered rec.robot b.publishedSeq) t
        else t
      if rec.mode = b.mode then u else serviceModeChange rec.robot rec.mode u := by
  unfold robotStatusAct
  rw [hb]
  dsimp only
  rw [ite_not]
  simp only [decide_eq_true_eq]

/-- Settles O36. -/
theorem robotStatusTaken : Obligations.RobotStatusTaken := by
  intro s src rec hr
  rw [exec_robotStatus_of_running hr]
  refine ⟨fun hb => ?_, fun b hb => ?_⟩
  · unfold robotStatusAct
    rw [hb]
  · intro echoed taken confirmed hand set
    rw [robotStatusAct_bound hb]
    dsimp only
    refine ⟨fun hno => ?_, fun he hs => ?_, fun he hs => ?_⟩
    · rw [if_neg (hno : ¬ rec.applied = b.publishedSeq), if_neg (fun hz : _ ∧ _ => hno hz.1)]
      rfl
    · rw [if_pos (he : rec.applied = b.publishedSeq), if_neg (fun hz : _ ∧ _ => hs hz.2)]
      rfl
    · rw [if_pos (he : rec.applied = b.publishedSeq),
        if_pos (⟨he, hs⟩ : rec.applied = b.publishedSeq ∧ b.echo = .stale)]
      rfl

end Sys2Proof.Machine
end

section
/-! SUPPORT. Decisions, TRACK SETUP and TRACK CLEAR, the pocket pulse and the timed events of the tracking unit; the statements
about them. -/

namespace Sys2Proof.Machine
open Sys2Proof

/-! ## Decisions (R129 to R134) -/

theorem reasonIf_sublist (r : RejectReason) (h : Bool) : (reasonIf r h).Sublist [r] := by
  cases h
  · exact List.nil_sublist _
  · exact List.Sublist.refl _

/-- Every reason of Table 7-5 at most once. -/
theorem reasons_nodup (b : Bottle) (cfg : TrackConfig) (purged : Bool) : (b.reasons cfg purged).Nodup := by
  have hsub : (b.reasons cfg purged).Sublist [.purged, .fillBad, .fillUnreported, .verdictMissing, .verdictFail,
      .verdictUnsure, .suspectStale, .suspectReview] :=
    (((((((reasonIf_sublist ..).append (reasonIf_sublist ..)).append (reasonIf_sublist ..)).append
      (reasonIf_sublist ..)).append (reasonIf_sublist ..)).append (reasonIf_sublist ..)).append
      (reasonIf_sublist ..)).append (reasonIf_sublist ..)
  exact hsub.nodup (by decide)

theorem missing_iff (b : Bottle) (required : Byte) : b.missing required = true
    ↔ ∃ c : Fin 3, required.getLsbD c.val = true ∧ [b.verdict0, b.verdict1, b.verdict2].getD c.val none = none := by
  unfold Bottle.missing
  rw [List.any_eq_true]
  constructor
  · rintro ⟨c, -, hc⟩
    rw [Bool.and_eq_true, Option.isNone_iff_eq_none] at hc
    refine ⟨c, hc.1, ?_⟩
    rw [← hc.2]
    fin_cases c <;> rfl
  · rintro ⟨c, hreq, hnone⟩
    refine ⟨c, by fin_cases c <;> simp, ?_⟩
    rw [Bool.and_eq_true, Option.isNone_iff_eq_none]
    refine ⟨hreq, ?_⟩
    rw [← hnone]
    fin_cases c <;> rfl

theorem verdict_held_iff (b : Bottle) (v : Verdict) :
    b.verdicts.any (· == v) = true ↔ ∃ x, some (v, x) ∈ [b.verdict0, b.verdict1, b.verdict2] := by
  unfold Bottle.verdicts
  rw [List.any_eq_true]
  constructor
  · rintro ⟨w, hw, heq⟩
    obtain ⟨y, hy, hmap⟩ := List.mem_filterMap.1 hw
    obtain ⟨⟨v', x⟩, rfl, rfl⟩ := Option.map_eq_some_iff.1 hmap
    exact ⟨x, by rwa [← eq_of_beq heq]⟩
  · rintro ⟨x, hx⟩
    exact ⟨v, List.mem_filterMap.2 ⟨_, hx, rfl⟩, beq_self_eq_true v⟩

theorem decideEntry_of_decision {cfg : TrackConfig} {purged : Bool} {e : ChainEntry} {s : State} {d : Decision}
    (h : decision? cfg purged s.time e = some d) :
    decideEntry cfg purged e s = recordDecision d (if d.rejected then schedulePulse cfg s else s) := by
  unfold decideEntry
  rw [h]

/-- The schedule with the pulse of a REJECTED decision (R132). -/
def State.scheduled (s : State) (cfg : TrackConfig) : List RejectPulse :=
  s.trk.schedule ++ [rejectPulse cfg s.trk.interval s.clk.elapsed]

theorem schedulePulse_eq (cfg : TrackConfig) (s : State) : schedulePulse cfg s = { s with
    trk := { s.trk with schedule := s.scheduled cfg },
    pins := { s.pins with
      reject := (s.scheduled cfg).any fun p => decide (p.rise ≤ s.clk.elapsed ∧ s.clk.elapsed < p.fall) } } := by
  simp only [Bool.decide_and]
  rfl

theorem decideEntry_passed {cfg : TrackConfig} {purged : Bool} {e : ChainEntry} {s : State} {d : Decision}
    (h : decision? cfg purged s.time e = some d) (hd : d.reasons = []) : decideEntry cfg purged e s = recordDecision d s := by
  rw [decideEntry_of_decision h, if_neg]
  unfold Decision.rejected
  rw [hd]
  exact Bool.false_ne_true

theorem decideEntry_rejected {cfg : TrackConfig} {purged : Bool} {e : ChainEntry} {s : State} {d : Decision}
    (h : decision? cfg purged s.time e = some d) (hd : d.reasons ≠ []) :
    decideEntry cfg purged e s = recordDecision d { s with
      trk := { s.trk with schedule := s.scheduled cfg },
      pins := { s.pins with
        reject := (s.scheduled cfg).any fun p => decide (p.rise ≤ s.clk.elapsed ∧ s.clk.elapsed < p.fall) } } := by
  rw [decideEntry_of_decision h, if_pos, schedulePulse_eq]
  unfold Decision.rejected
  rwa [Bool.not_eq_true', Bool.eq_false_iff, ne_eq, List.isEmpty_iff]

theorem any_some_iff {α : Type} {o : Option α} {p : α → Bool} : o.any p = true ↔ ∃ x, o = some x ∧ p x = true := by
  cases o <;> simp

/-- The reasons of a BOTTLE entry's decision (Table 7-5). -/
theorem mem_reasons (b : Bottle) (cfg : TrackConfig) (purged : Bool) :
    let verdicts : List (Option (Verdict × BitVec 16)) := [b.verdict0, b.verdict1, b.verdict2]
    (.purged ∈ b.reasons cfg purged ↔ purged = true)
      ∧ (.fillBad ∈ b.reasons cfg purged ↔ ∃ f, b.fill = some f ∧ f.good = false)
      ∧ (.fillUnreported ∈ b.reasons cfg purged ↔ b.fill = none)
      ∧ (.verdictMissing ∈ b.reasons cfg purged ↔
          ∃ c : Fin 3, cfg.required.getLsbD c.val = true ∧ verdicts.getD c.val none = none)
      ∧ (.verdictFail ∈ b.reasons cfg purged ↔ ∃ x, some (.fail, x) ∈ verdicts)
      ∧ (.verdictUnsure ∈ b.reasons cfg purged ↔ cfg.unsure = .reject ∧ ∃ x, some (.unsure, x) ∈ verdicts)
      ∧ (.suspectStale ∈ b.reasons cfg purged ↔ ∃ f, b.fill = some f ∧ f.stale = true)
      ∧ (.suspectReview ∈ b.reasons cfg purged ↔ ∃ f, b.fill = some f ∧ f.review = true) := by
  intro verdicts
  have hmissing := missing_iff b cfg.required
  have hfail := verdict_held_iff b .fail
  have hunsure := verdict_held_iff b .unsure
  unfold Bottle.reasons
  simp only [List.mem_append, mem_reasonIf, reduceCtorEq, false_and, true_and, or_false, false_or, hmissing, hfail,
    Bool.and_eq_true, hunsure, decide_eq_true_eq, Option.isNone_iff_eq_none, any_some_iff, Bool.not_eq_true', and_comm,
    verdicts, and_self]

/-- Settles O38. -/
theorem entryDecided : Obligations.EntryDecided := by
  intro s cfg shortened
  refine ⟨rfl, fun e he => ?_, fun d hd => ?_⟩
  · cases e with
    | gap => exact absurd rfl he
    | purged =>
      obtain ⟨d, hdec, hd⟩ : ∃ d, decision? cfg shortened s.time .purged = some d
        ∧ d = { serial := none, reasons := [.purged], robot := none, valve := none, time := s.time } := ⟨_, rfl, rfl⟩
      refine ⟨d, ?_, ?_, fun _ => ?_, (fun _ hb => nomatch hb), decideEntry_passed hdec, decideEntry_rejected hdec⟩ <;> rw [hd]
      · rfl
      · exact List.nodup_singleton _
      · exact ⟨rfl, rfl, rfl, rfl⟩
    | bottle b =>
      obtain ⟨d, hdec, hd⟩ : ∃ d, decision? cfg shortened s.time (.bottle b) = some d
        ∧ d = { serial := b.serial, reasons := b.reasons cfg shortened, robot := b.fill.map (·.robot),
                valve := b.fill.map (·.valve), time := s.time } := ⟨_, rfl, rfl⟩
      refine ⟨d, ?_, ?_, (fun hb => nomatch hb), fun b' hb => ?_, decideEntry_passed hdec, decideEntry_rejected hdec⟩ <;> rw [hd]
      · rfl
      · exact reasons_nodup b cfg shortened
      · cases hb
        exact ⟨rfl, rfl, rfl, mem_reasons b cfg shortened⟩
  · obtain ⟨hoff, hfull, hwrite⟩ := recordDecision_spec s d
    exact ⟨hoff, hfull, fun hen hroom => ⟨_, decision_laid s.openCount hd, hwrite hen hroom⟩⟩

/-! ## The timed events of the tracking unit (R126, R133) -/

theorem expired_some {t now : Nat} : expired (some t) now = decide (t ≤ now) := by
  rw [Bool.eq_iff_iff, expired_iff, decide_eq_true_eq]
  exact ⟨fun ⟨_, h, hle⟩ => Option.some.inj h ▸ hle, fun h => ⟨t, rfl, h⟩⟩

/-- A scheduled pulse is high now. -/
theorem rejectLevel_eq (s : State) :
    s.rejectLevel = s.trk.schedule.any fun p => decide (p.rise ≤ s.clk.elapsed ∧ s.clk.elapsed < p.fall) := by
  simp only [Bool.decide_and]
  rfl

theorem refreshReject_eq (s : State) : State.refreshReject s = { s with pins := { s.pins with
    reject := s.trk.schedule.any fun p => decide (p.rise ≤ s.clk.elapsed ∧ s.clk.elapsed < p.fall) } } := by
  rw [← rejectLevel_eq]
  rfl

/-- The first pulse that has reached its fall leaves the schedule. -/
theorem eraseP_fallen {now : Nat} {pre post : List RejectPulse} {p : RejectPulse} (hpre : ∀ q ∈ pre, now < q.fall)
    (hp : p.fall ≤ now) : (pre ++ p :: post).eraseP (fun q => decide (q.fall ≤ now)) = pre ++ post := by
  rw [List.eraseP_append_right _ (fun q hq => by simpa using hpre q hq), List.eraseP_cons_of_pos (by simpa using hp)]

theorem rejectFallDue_iff {s : State} (hr : s.running = true) :
    rejectFallDue s = true ↔ ∃ q ∈ s.trk.schedule, q.fall ≤ s.clk.elapsed := by
  unfold rejectFallDue
  simp [hr]

/-- Settles O40. -/
theorem lineAndRejectTimed : Obligations.LineAndRejectTimed := by
  intro s hr high
  refine ⟨fun t ht => ?_, fun hlow => ?_, fun pre p post hsched hpre hp => ?_, fun hno => ?_⟩
  · have hdue : lineStopDue s = decide (t ≤ s.clk.elapsed) := by
      unfold lineStopDue
      rw [hr, ht, expired_some, Bool.true_and]
    refine ⟨fun hle => congrArg Host.Outcome.next ?_, fun hlt => congrArg Host.Outcome.next ?_⟩
    · rw [onEvent_pos _ _ _ (hdue.trans (decide_eq_true hle)), stopLine_eq]
    · exact onEvent_neg _ _ _ (hdue.trans (decide_eq_false (by omega)))
  · have hdue : rejectRiseDue s = s.trk.schedule.any high := by
      unfold rejectRiseDue
      rw [hr, hlow, rejectLevel_eq]
      rfl
    refine ⟨fun hz => congrArg Host.Outcome.next ?_, fun hz => congrArg Host.Outcome.next (onEvent_neg _ _ _ (hdue.trans hz))⟩
    rw [onEvent_pos _ _ _ (hdue.trans hz), refreshReject_eq]
    exact congrArg (fun x => { s with pins := { s.pins with reject := x } }) hz
  · have hdue : rejectFallDue s = true := (rejectFallDue_iff hr).2 ⟨p, by simp [hsched], hp⟩
    have hact : exec .rejectFall s = .next (endPulse s) := congrArg Host.Outcome.next (onEvent_pos _ _ _ hdue)
    rw [hact]
    unfold endPulse
    rw [hsched, eraseP_fallen hpre hp, refreshReject_eq]
  · have hdue : rejectFallDue s = false := Bool.eq_false_iff.2 fun hz => by
      obtain ⟨q, hq, hle⟩ := (rejectFallDue_iff hr).1 hz
      exact absurd (hno q hq) (by omega)
    exact congrArg Host.Outcome.next (onEvent_neg _ _ _ hdue)

/-! ## The pocket pulse (R122 to R127) -/

theorem pocketPulse_of_running {s : State} (hr : s.running = true) (present : Bool) :
    exec (.pocketPulse present) s = .next (pocketPulseAct present s) := congrArg Host.Outcome.next (if_pos hr)

theorem pulseIgnored_iff (s : State) : pulseIgnored s = true ↔ ∃ last, s.trk.lastPulse = some last
    ∧ s.clk.elapsed < last + 1000000 := by
  unfold pulseIgnored
  cases s.trk.lastPulse with
  | none => simp
  | some last =>
    refine decide_eq_true_iff.trans ⟨fun h => ⟨last, rfl, h⟩, ?_⟩
    rintro ⟨_, hl, h⟩
    exact Option.some.inj hl ▸ h

/-- The pocket interval of an accepted pulse is measured (R123). -/
def State.measured (s : State) : State := { s with trk := { s.trk with interval := measuredInterval s } }

/-- An accepted pulse: the interval, the chain, the line, the timer and the service unit, in this order. -/
theorem pocketPulseAct_accepted {s : State} (h : ∀ last, s.trk.lastPulse = some last → last + 1000000 ≤ s.clk.elapsed)
    (present : Bool) :
    (s.trk.cfg = none → pocketPulseAct present s = servicePulse (notePulse (startLine s.measured)))
      ∧ ∀ cfg, s.trk.cfg = some cfg →
          pocketPulseAct present s = servicePulse (notePulse (startLine (advanceChain cfg present s.measured))) := by
  have hno : ¬ pulseIgnored s = true := fun hz => by
    obtain ⟨last, hl, hlt⟩ := (pulseIgnored_iff s).1 hz
    exact absurd (h last hl) (by omega)
  have hmeasured : s.setTrk { s.trk with interval := measuredInterval s } = s.measured := setTrk_same s _ rfl rfl
  have hcfg : s.measured.trk.cfg = s.trk.cfg := rfl
  unfold pocketPulseAct
  rw [if_neg hno, hmeasured]
  dsimp only
  rw [hcfg]
  exact ⟨fun hc => by rw [hc], fun cfg hc => by rw [hc]⟩

/-- The chain after an accepted pulse of a CONFIGURED unit (R124, R125). -/
theorem advanceChain_eq {cfg : TrackConfig} {s : State} {front : List ChainEntry} {last : ChainEntry}
    (hc : s.trk.chain = front ++ [last]) (hl : s.trk.chain.length = cfg.rejectPocket) (present : Bool) :
    advanceChain cfg present s = { decideEntry cfg false last s with trk := { (decideEntry cfg false last s).trk with
      chain := moveChain cfg (newEntry present s.clk.ns.toNat s.trk).1 (front ++ [last]),
      filled := (newEntry present s.clk.ns.toNat s.trk).2.1, nextExit := (newEntry present s.clk.ns.toNat s.trk).2.2 } } := by
  obtain ⟨hclk, htrk⟩ := decideEntry_trk cfg false last s
  have hlast : s.trk.chain.getD (cfg.rejectPocket - 1) .gap = last := by
    rw [← hl, hc]
    simp
  have hnew : newEntry present (decideEntry cfg false last s).time (decideEntry cfg false last s).trk
      = newEntry present s.clk.ns.toNat s.trk := by
    unfold State.time
    rw [hclk, htrk]
    rfl
  have hchain : (decideEntry cfg false last s).trk.chain = front ++ [last] := by rw [htrk, ← hc]
  unfold advanceChain
  dsimp only
  rw [hlast, hnew, setTrk_same, hchain] <;> rfl

/-- Settles O39. -/
theorem pocketPulseTaken : Obligations.PocketPulseTaken := by
  intro s present hr
  rw [pocketPulse_of_running hr]
  refine ⟨fun last hl hlt => congrArg Host.Outcome.next (if_pos ((pulseIgnored_iff s).2 ⟨last, hl, hlt⟩)), fun hacc => ?_⟩
  obtain ⟨hnone, hsome⟩ := pocketPulseAct_accepted hacc present
  intro interval measured started noted
  refine ⟨fun hc => ?_, fun cfg front last hc hchain hlen => ?_⟩
  · rw [hnone hc, notePulse_startLine s.measured s rfl rfl rfl]
    rfl
  · intro u bottle chain leaves
    have hadvance := advanceChain_eq (s := s.measured) hchain hlen present
    obtain ⟨hclk, htrk⟩ := decideEntry_trk cfg false last s.measured
    have hline : (decideEntry cfg false last s.measured).trk.line = s.trk.line := (congrArg Tracking.line htrk :)
    have hstop : (decideEntry cfg false last s.measured).trk.lineStopMs = s.trk.lineStopMs := (congrArg Tracking.lineStopMs htrk :)
    have hleaves : ∀ new filled next, newEntry present s.clk.ns.toNat s.trk = (new, filled, next) →
        leaves { u with trk := { u.trk with chain := chain new, filled := filled, nextExit := next } } := by
      intro new filled next hnew
      have hnew' : newEntry present s.measured.clk.ns.toNat s.measured.trk = (new, filled, next) := hnew
      rw [hnew', moveChain_eq cfg _ front last (by rw [← hchain, hlen])] at hadvance
      refine congrArg Host.Outcome.next ?_
      rw [hsome cfg hc, hadvance]
      exact congrArg servicePulse (notePulse_startLine _ s (congrArg Clock.elapsed hclk) hline hstop)
    have hnext : u.trk.nextExit = s.trk.nextExit := (congrArg Tracking.nextExit htrk :)
    have hfilled : u.trk.filled = s.trk.filled := (congrArg Tracking.filled htrk :)
    refine ⟨fun hp => ?_, fun hp hn => ?_, fun hp n hn => ?_⟩
    · have hnew := hleaves .gap s.trk.filled s.trk.nextExit (by rw [hp]; rfl)
      rwa [← hnext, ← hfilled] at hnew
    · have hnew := hleaves (bottle none none) s.trk.filled s.trk.nextExit (by
        unfold newEntry
        rw [hp, hn]
        rfl)
      rwa [← hnext, ← hfilled] at hnew
    · exact hleaves _ _ _ (by
        unfold newEntry
        rw [hp, hn]
        rfl)

/-! ## TRACK SETUP and TRACK CLEAR (R116 to R118) -/

/-- What the decisions of a setup leave: machine time and elapsed time, and of the tracking unit all but the schedule. -/
theorem decideEntries_trk (cfg : TrackConfig) (l : List ChainEntry) (s : State) :
    (l.foldl (fun v e => decideEntry cfg true e v) s).clk = s.clk
      ∧ ∃ sched, (l.foldl (fun v e => decideEntry cfg true e v) s).trk = { s.trk with schedule := sched } := by
  induction l generalizing s with
  | nil => exact ⟨rfl, _, rfl⟩
  | cons e l ih =>
    obtain ⟨hclk, htrk⟩ := decideEntry_trk cfg true e s
    obtain ⟨hclk', sched, htrk'⟩ := ih (decideEntry cfg true e s)
    refine ⟨hclk'.trans hclk, sched, ?_⟩
    rw [List.foldl_cons, htrk', htrk]

/-- The entries at and above the new reject pocket are decided (R117, step 1). -/
def setupDecided (cfg : TrackConfig) (b : State) : State :=
  match b.trk.cfg with
  | none     => b
  | some old => (b.trk.chain.drop cfg.rejectPocket).reverse.foldl (fun v e => decideEntry old true e v) b

theorem setupDecided_trk (cfg : TrackConfig) (b : State) :
    (setupDecided cfg b).clk = b.clk ∧ ∃ sched, (setupDecided cfg b).trk = { b.trk with schedule := sched } := by
  unfold setupDecided
  split
  · exact ⟨rfl, _, rfl⟩
  · exact decideEntries_trk ..

/-- The line-stop timer that a setup moves (R117, step 5). -/
def setupTimer (lineStopMs : Nat) (t : Tracking) : Option Nat :=
  match t.lineStop, t.lastPulse with
  | some _, some last => some (last + lineStopMs * 1000000)
  | timer, _ => timer

/-- The tracking unit as a setup leaves it (R117). -/
def setupTracking (cfg : TrackConfig) (lineStopMs : Nat) (b : State) : Tracking :=
  { (setupDecided cfg b).trk with
    cfg := some cfg, lineStopMs := lineStopMs, chain := List.replicate cfg.rejectPocket .purged, filled := [],
    nextExit := none, interval := none, pulseSinceSetup := false, lineStop := setupTimer lineStopMs b.trk }

/-- The setup has applied, but for an expiry of the line-stop timer. -/
def State.setUp (b : State) (cfg : TrackConfig) (lineStopMs : Nat) : State :=
  State.statusIf { setupDecided cfg b with trk := setupTracking cfg lineStopMs b } (decide (b.trk.cfg = none))

/-- What a setup does once its entries are decided (R117, steps 2 to 5). -/
def setupTail (cfg : TrackConfig) (ms : Nat) (u : State) : State :=
  let t := u.setTrk { u.trk with
    cfg := some cfg, lineStopMs := ms, chain := List.replicate cfg.rejectPocket .purged, filled := [],
    nextExit := none, interval := none, pulseSinceSetup := false, lineStop := setupTimer ms u.trk }
  if expired t.trk.lineStop t.clk.elapsed then stopLine t else t

theorem applySetup_tail (cfg : TrackConfig) (ms : Nat) (b : State) :
    applySetup cfg ms b = setupTail cfg ms (setupDecided cfg b) := by
  unfold applySetup setupDecided
  cases b.trk.cfg with
  | none => rfl
  | some old =>
    dsimp only
    rw [← decideEntries_eq] <;> rfl

theorem applySetup_eq (cfg : TrackConfig) (ms : Nat) (b : State) : applySetup cfg ms b
    = if expired (setupTimer ms b.trk) b.clk.elapsed then stopLine (b.setUp cfg ms) else b.setUp cfg ms := by
  obtain ⟨hclk, sched, htrk⟩ := setupDecided_trk cfg b
  have htimer : setupTimer ms (setupDecided cfg b).trk = setupTimer ms b.trk := by rw [htrk]; rfl
  have hset : (setupDecided cfg b).setTrk (setupTracking cfg ms b) = b.setUp cfg ms := by
    rw [setTrk_eq, htrk]
    unfold State.setUp setupTracking
    congr 1
    cases b.trk.cfg <;> simp [htrk]
  have hexpired : expired (b.setUp cfg ms).trk.lineStop (b.setUp cfg ms).clk.elapsed
      = expired (setupTimer ms b.trk) b.clk.elapsed := congrArg (fun c : Clock => expired (setupTimer ms b.trk) c.elapsed) hclk
  rw [applySetup_tail, ← hexpired, ← hset]
  unfold setupTail
  rw [htimer]
  rfl

theorem camerasFeed_iff (b : State) (cfg : TrackConfig) : (cfg.cameras.all fun c => b.isFeed c.feed .verdict) = true
    ↔ ∀ k ∈ cfg.cameras, ∃ w, b.entry k.feed = .loaded w ∧ w.feedKind? = some .verdict := by
  simp only [List.all_eq_true, isFeed_iff]

/-- The branches of TRACK SETUP in range (R116, R117). -/
theorem trackSetupAct_described {b : State} {p : TrackParams} {cfg : TrackConfig} (h : setupDescribes p cfg) :
    trackSetupAct p b = if b.trk.cfg.isSome ∧ b.trk.line = .running then completeRefused .busy b
      else if !(cfg.cameras.all fun c => b.isFeed c.feed .verdict) then completeRefused .role b
      else completeDone (applySetup cfg p.lineStop.toNat b) := by
  unfold trackSetupAct
  rw [(trackConfig?_iff p cfg).2 h]

theorem trackSetupAct_undescribed {b : State} {p : TrackParams} (h : ∀ cfg, ¬ setupDescribes p cfg) :
    trackSetupAct p b = completeRefused .range b := by
  have hnone : trackConfig? p = none := Option.eq_none_iff_forall_ne_some.2 fun cfg hc => h cfg ((trackConfig?_iff p cfg).1 hc)
  unfold trackSetupAct
  rw [hnone]

theorem setTrk_cleared (s : State) (chain : List ChainEntry) :
    s.setTrk { s.trk with chain := chain, filled := [], nextExit := none }
      = { s with trk := { s.trk with chain := chain, filled := [], nextExit := none } } := setTrk_same s _ rfl rfl

/-- Settles O37. -/
theorem trackCommandsComplete : Obligations.TrackCommandsComplete := by
  intro s b h refused
  have hclear : exec .trackClear s = .next (trackClearAct b) := exec_row_of_fetchAnswered h (c := .trackClear) nofun
  refine ⟨fun p => ?_, fun hline => ?_, fun hline hc => ?_, fun hline hc => ?_⟩
  · have hrun : exec (.trackSetup p) s = .next (trackSetupAct p b) := exec_row_of_fetchAnswered h (c := .trackSetup p) nofun
    refine ⟨fun hno => hrun.trans (congrArg Host.Outcome.next (trackSetupAct_undescribed hno)), fun cfg hd => ?_⟩
    intro busy roles
    have hbusy : (b.trk.cfg.isSome = true ∧ b.trk.line = .running) ↔ busy := by
      rw [Option.isSome_iff_ne_none]
    have hroles := camerasFeed_iff b cfg
    rw [hrun, trackSetupAct_described hd]
    refine ⟨fun hb => congrArg Host.Outcome.next (if_pos (hbusy.2 hb)), fun hb hr => ?_, fun hb hr => ?_⟩
    · rw [if_neg (mt hbusy.1 hb), if_pos (by rw [Bool.not_eq_true']; exact Bool.eq_false_iff.2 (mt hroles.1 hr))]
      rfl
    · intro leaving u timer trk set
      rw [if_neg (mt hbusy.1 hb), if_neg (by rw [hroles.2 hr]; exact Bool.false_ne_true), applySetup_eq]
      have hset : b.setUp cfg p.lineStop.toNat = set := rfl
      have htimer : setupTimer p.lineStop.toNat b.trk = timer := rfl
      have hline : set.trk.line = b.trk.line := by
        obtain ⟨-, sched, htrk⟩ := setupDecided_trk cfg b
        exact (congrArg Tracking.line htrk :)
      rw [hset, htimer]
      refine ⟨fun hlt => congrArg Host.Outcome.next (congrArg completeDone (if_neg ?_)), fun t ht hle =>
        congrArg Host.Outcome.next (congrArg completeDone ((if_pos ?_).trans ?_))⟩
      · rw [expired_iff]
        rintro ⟨t, ht, hle⟩
        exact absurd (hlt t ht) (by omega)
      · exact (expired_iff ..).2 ⟨t, ht, hle⟩
      · rw [stopLine_eq, hline] <;> rfl
  · exact hclear.trans (congrArg Host.Outcome.next (if_pos hline))
  · refine hclear.trans (congrArg Host.Outcome.next ((if_neg (by rw [hline]; nofun)).trans (if_neg ?_)))
    rw [hc]
    exact Bool.false_ne_true
  · refine hclear.trans (congrArg Host.Outcome.next ((if_neg (by rw [hline]; nofun)).trans
      ((if_pos (Option.isSome_iff_ne_none.2 hc)).trans (congrArg completeDone ?_))))
    have hmap : b.trk.chain.map ChainEntry.clear = b.trk.chain.map fun e => match e with
        | .bottle _ => .purged
        | .gap      => .gap
        | .purged   => .purged := List.map_congr_left fun e _ => by cases e <;> rfl
    rw [setTrk_cleared, hmap] <;> rfl

end Sys2Proof.Machine
end

section
/-! SUPPORT. Steps of machine time, the servo, the clock state, the selection of a source and its timers, MARK and CODE; the
statements about them. -/

namespace Sys2Proof.Machine
open Sys2Proof

/-! ## Steps and the servo (R61, R63, R71, R72, R81, R87, R88) -/

theorem allRobots_eq : allRobots = [0, 1, 2, 3, 4, 5] := by decide

/-- The clock unit right after a step: the new value, fraction 0, the stepped mark set, rate 0 and the nominal increment. -/
def Clock.steppedTo (c : Clock) (new : Word) : Clock :=
  { c with ns := new, frac := 0, stepped := true, rate := 0, increment := 34359738368 }

theorem setRate_zero (c : Clock) (new : Word) :
    Clock.setRate { c with ns := new, frac := 0, stepped := true } 0 = c.steppedTo new := by
  unfold Clock.setRate Clock.steppedTo
  rw [incrementOf_zero]

/-- A step, its boundaries, and the notice with the time before it. -/
theorem stepAndPost_eq (source : Option WinIdx) (offset : List Byte) (new : Word) (s : State) :
    stepAndPost source offset new s = postNoticeAt s.clk.ns.toNat (.clockStep source offset new.toNat)
      { ([0, 1, 2, 3, 4, 5] : List RobotIdx).foldl (fun u r => stepBoundary s.clk.ns.toNat r u)
          { s with clk := s.clk.steppedTo new } with clk := (s.clk.steppedTo new).clear } := by
  have hstep : stepTime new s = ([0, 1, 2, 3, 4, 5] : List RobotIdx).foldl
      (fun u r => stepBoundary s.clk.ns.toNat r u) { s with clk := s.clk.steppedTo new } := by
    unfold stepTime
    dsimp only
    rw [stepBoundaries_foldl, allRobots_eq, setRate_zero]
    rfl
  have hclk : (stepTime new s).clk = s.clk.steppedTo new := by
    unfold stepTime
    dsimp only
    rw [stepBoundaries_clk, setRate_zero]
    rfl
  unfold stepAndPost
  dsimp only
  rw [hclk, hstep]
  rfl

/-- The detector of a bound robot after a step (R71, R72). -/
theorem stepBoundary_of_bound {s : State} {r : RobotIdx} {b : Bound} (hb : s.bound? r = some b) (old : Nat) :
    stepBoundary old r s =
      let next := s.setRobot r (some { b with
        nextBoundary := (s.clk.ns.toNat / (b.period * 1000) + 1) * (b.period * 1000) })
      if old < s.clk.ns.toNat ∧ b.nextBoundary ≤ s.clk.ns.toNat then countMode r (countEcho r (startFlip r next)) else next := by
  unfold stepBoundary
  rw [hb]
  rfl

theorem stepBoundary_of_unbound {s : State} {r : RobotIdx} (hb : s.bound? r = none) (old : Nat) : stepBoundary old r s = s := by
  unfold stepBoundary
  rw [hb]

theorem clampTo_eq (n : Nat) (v : Int) : clampTo n v = max (-(n : Int)) (min (n : Int) v) := rfl

theorem div_two_pow (o : Int) (n : Nat) : o / (2 ^ n : Int) = o.fdiv (2 ^ n) :=
  (Int.fdiv_eq_ediv_of_nonneg o (by positivity)).symm

/-- Settles O42. -/
theorem machineTimeSteps : Obligations.MachineTimeSteps := by
  refine ⟨fun s source offset new => ?_, fun s old r => ⟨fun hb => stepBoundary_of_unbound hb old, fun b hb => ?_⟩,
    fun c o => ?_, incrementOf_spec, fun s time new cause => ⟨fun h => if_pos h, setClockStateAt_ne time new cause s⟩⟩
  · exact stepAndPost_eq source offset new s
  · intro now next
    rw [stepBoundary_of_bound hb]
    exact ⟨fun hlt hle => if_pos ⟨hlt, hle⟩, fun hno => if_neg fun hz => hno.elim (by omega) (by omega)⟩
  · intro limit integral rate
    unfold Clock.servo Clock.setRate
    simp only [clampTo_eq, div_two_pow]
    rfl

/-! ## The selection of a source (R75, R77 to R79, R85) -/

/-- The selection changes: SOURCE-CHANGE is posted, and a change to a source acts on the clock state (R78, R79). -/
theorem reselectAt_of_best {s : State} {best : Option (WinIdx × Byte)} (h : s.clk.best = best) (time : Nat) :
    reselectAt time s = if best.map (·.1) = s.clk.selected then s
      else
        let u := postNoticeAt time (.sourceChange s.clk.selected (best.map (·.1)) (best.map (·.2)))
          { s with clk := { s.clk with selected := best.map (·.1) } }
        if (best.map (·.1)).isSome then sourceEffect time u else u := by
  unfold reselectAt
  rw [h]
  rfl

/-- No source is heard. -/
theorem reselectAt_none {s : State} (h : s.clk.best = none) (time : Nat) :
    (s.clk.selected = none → reselectAt time s = s)
      ∧ (s.clk.selected ≠ none → reselectAt time s = postNoticeAt time (.sourceChange s.clk.selected none none)
          { s with clk := { s.clk with selected := none } }) := by
  rw [reselectAt_of_best h]
  exact ⟨fun hs => if_pos hs.symm, fun hs => if_neg (Ne.symm hs)⟩

/-- The best heard source. -/
theorem reselectAt_some {s : State} {i : WinIdx} {g : Byte} (h : s.clk.best = some (i, g)) (time : Nat) :
    (s.clk.selected = some i → reselectAt time s = s)
      ∧ (s.clk.selected ≠ some i → reselectAt time s = sourceEffect time
          (postNoticeAt time (.sourceChange s.clk.selected (some i) (some g))
            { s with clk := { s.clk with selected := some i } })) := by
  rw [reselectAt_of_best h]
  exact ⟨fun hs => if_pos hs.symm, fun hs => if_neg (Ne.symm hs)⟩

/-- A change to a source and the clock state (R79). -/
theorem sourceEffect_cases (time : Nat) (u : State) :
    (u.clk.state = .free → sourceEffect time u = u)
      ∧ (u.clk.state = .acquiring → sourceEffect time u = { u with clk := { u.clk with lockCount := 0 } })
      ∧ (u.clk.state = .locked ∨ u.clk.state = .holdover →
          sourceEffect time u = setClockStateAt time .acquiring .source u) := by
  unfold sourceEffect
  refine ⟨fun h => by rw [h], fun h => by rw [h]; rfl, fun h => ?_⟩
  rcases h with h | h <;> rw [h]

/-- A heard place's window and grade are a candidate. -/
theorem candidate_iff (c : Clock) (i : WinIdx) (g : Byte) :
    (∃ p, (p = c.place0 ∨ p = c.place1) ∧ p.heard = true ∧ p.window = some i ∧ p.lastGrade = some g)
      ↔ c.place0.candidate? = some (i, g) ∨ c.place1.candidate? = some (i, g) := by
  rw [Place.candidate?_iff, Place.candidate?_iff]
  constructor
  · rintro ⟨p, rfl | rfl, h⟩
    · exact .inl h
    · exact .inr h
  · rintro (h | h)
    · exact ⟨_, .inl rfl, h⟩
    · exact ⟨_, .inr rfl, h⟩

theorem best_none_of_unheard {c : Clock} (h : ∀ i g, ¬ (c.place0.candidate? = some (i, g) ∨ c.place1.candidate? = some (i, g))) :
    c.best = none :=
  (Clock.best_eq_none c).2 ⟨Option.eq_none_iff_forall_ne_some.2 fun x hx => h x.1 x.2 (.inl hx),
    Option.eq_none_iff_forall_ne_some.2 fun x hx => h x.1 x.2 (.inr hx)⟩

/-- A timer row of the clock unit, before and at its time. -/
theorem onEvent_clockDue {s : State} {t : Nat} (hp : s.pins.powerGood = true) {due : Bool} (h : due = clockDue s (some t))
    (act : State → State) :
    (s.clk.elapsed < t → onEvent due act s = s) ∧ (t ≤ s.clk.elapsed → onEvent due act s = act s) := by
  rw [clockDue_some s t hp] at h
  exact ⟨fun hlt => onEvent_neg act s _ (h.trans (decide_eq_false (by omega))),
    fun hle => onEvent_pos act s _ (h.trans (decide_eq_true hle))⟩

/-- The silence timer's expiry (R85). -/
theorem silenceExpiry_cases (s : State) :
    let u : State := { s with clk := { s.clk with silence := none } }
    (s.clk.state = .acquiring ∨ s.clk.state = .locked →
        silenceExpiry s = setClockStateAt s.clk.ns.toNat .holdover .silence u)
      ∧ (s.clk.state = .free ∨ s.clk.state = .holdover → silenceExpiry s = u) := by
  intro u
  have hu : u.clk.state = s.clk.state := rfl
  have hexp : silenceExpiry s = match u.clk.state with
      | .acquiring => setClockState .holdover .silence u
      | .locked    => setClockState .holdover .silence u
      | _          => u := rfl
  rw [hexp, hu]
  exact ⟨fun h => by rcases h with h | h <;> rw [h] <;> rfl, fun h => by rcases h with h | h <;> rw [h]⟩

/-- Settles O43. -/
theorem sourcesSelected : Obligations.SourcesSelected := by
  refine ⟨fun s time => ?_, fun s t hp => ?_, fun s i => ?_⟩
  · intro heardAs
    have hheard : ∀ i g, heardAs i g ↔ s.clk.place0.candidate? = some (i, g) ∨ s.clk.place1.candidate? = some (i, g) :=
      candidate_iff s.clk
    refine ⟨fun hno => reselectAt_none (best_none_of_unheard fun i g h => hno i g ((hheard i g).2 h)) time,
      fun i g hi hbest => ?_⟩
    intro u
    obtain ⟨hsame, hnew⟩ := reselectAt_some (s := s)
      (Clock.best_eq_some s.clk i g ((hheard i g).1 hi) fun j h hj => hbest j h ((hheard j h).2 hj)) time
    have hclk : u.clk = { s.clk with selected := some i } := postNoticeAt_clk ..
    have hstate : u.clk.state = s.clk.state := by rw [hclk]
    obtain ⟨hfree, hacq, hlocked⟩ := sourceEffect_cases time u
    refine ⟨hsame, fun hs => ?_⟩
    rw [hnew hs, ← hstate]
    exact ⟨hfree, hacq, hlocked⟩
  · intro unheard
    refine ⟨fun h0 => ?_, fun h1 => ?_, fun hsil => ?_⟩
    · obtain ⟨hbefore, hat⟩ := onEvent_clockDue (due := heardDue s 0) hp (congrArg (clockDue s) h0) (heardExpiry 0)
      exact ⟨fun hlt => congrArg Host.Outcome.next (hbefore hlt), fun hle => congrArg Host.Outcome.next (hat hle)⟩
    · obtain ⟨hbefore, hat⟩ := onEvent_clockDue (due := heardDue s 1) hp (congrArg (clockDue s) h1) (heardExpiry 1)
      exact ⟨fun hlt => congrArg Host.Outcome.next (hbefore hlt), fun hle => congrArg Host.Outcome.next (hat hle)⟩
    · intro u
      obtain ⟨hbefore, hat⟩ := onEvent_clockDue (due := silenceDue s) hp (congrArg (clockDue s) hsil) silenceExpiry
      obtain ⟨hgo, hstay⟩ := silenceExpiry_cases s
      exact ⟨fun hlt => congrArg Host.Outcome.next (hbefore hlt),
        fun hle h => congrArg Host.Outcome.next ((hat hle).trans (hgo h)),
        fun hle h => congrArg Host.Outcome.next ((hat hle).trans (hstay h))⟩
  · intro vacant
    have hplace : ∀ n p, s.clk.placeOf? i = some (n, p) →
        vanishSource i s = reselect (s.setClk (s.clk.setPlace n (Place.vacant p.pathDelay))) := fun n p h => by
      unfold vanishSource
      rw [h]
    refine ⟨fun h0 => hplace 0 _ (if_pos h0), fun h0 h1 => hplace 1 _ ((if_neg h0).trans (if_pos h1)), fun h0 h1 => ?_⟩
    have hnone : s.clk.placeOf? i = none := (if_neg h0).trans (if_neg h1)
    unfold vanishSource
    rw [hnone]

/-! ## MARK and CODE (R64, R66 to R70, R170) -/

theorem codeLevel_of_sending {s : State} {bits : BitVec 56} {start : Nat} (hp : s.pins.powerGood = true)
    (h : s.clk.codeSending = some (bits, start)) : s.codeLevel = bits.getLsbD ((s.clk.elapsed - start) / 1000) := by
  unfold State.codeLevel
  rw [h]
  dsimp only
  rw [hp, Bool.true_and]
  rfl

/-- Settles O46. -/
theorem markAndCodeGiven : Obligations.MarkAndCodeGiven := by
  refine ⟨fun s hp hu => ?_, fun s hp => ⟨fun t ht => ?_, fun frame t ht => ?_, fun bits start hs => ?_, fun hs => ?_⟩⟩
  · intro ns
    have hnext := markNext_lt s hp hu
    refine ⟨fun heq => congrArg Host.Outcome.next (onEvent_neg refclk s _ (hnext.trans (decide_eq_false (by omega)))), fun hlt =>
      ⟨refclk s, refclk_given s hp hu, congrArg Host.Outcome.next (onEvent_pos refclk s _ (hnext.trans (decide_eq_true hlt)))⟩⟩
  · obtain ⟨hbefore, hat⟩ := onEvent_clockDue (due := markEndDue s) hp (congrArg (clockDue s) ht) endMark
    exact ⟨fun hlt => congrArg Host.Outcome.next (hbefore hlt), fun hle => congrArg Host.Outcome.next (hat hle)⟩
  · have hdue : codeStartDue s = (s.clk.codeSending.isNone && decide (t ≤ s.clk.elapsed)) := by
      unfold codeStartDue
      rw [ht, Option.map_some, clockDue_some s t hp]
    have hstart : startCode s = { s with clk := { s.clk with
        codeSending := some (frame.bits, s.clk.elapsed), codeWaiting := none } } := by
      unfold startCode
      rw [ht]
      rfl
    refine ⟨fun hno => congrArg Host.Outcome.next (onEvent_neg _ _ _ (hdue.trans ?_)), fun hle hs =>
      ⟨frame.bits, congrArg Host.Outcome.next ((onEvent_pos _ _ _ (hdue.trans ?_)).trans hstart), CodeFrame.bits_fields frame⟩⟩
    · rw [Bool.and_eq_false_iff, decide_eq_false_iff_not, Option.isNone_eq_false_iff, Option.isSome_iff_ne_none]
      exact hno.elim (fun hlt => .inr (by omega)) .inl
    · rw [hs, decide_eq_true hle]
      rfl
  · obtain ⟨hbefore, hat⟩ := onEvent_clockDue (due := codeEndDue s) (t := start + 56000) hp (by unfold codeEndDue; rw [hs]; rfl)
      endCode
    refine ⟨fun hlt => congrArg Host.Outcome.next (hbefore hlt), fun hle => congrArg Host.Outcome.next (hat hle),
      fun k h1 h2 => ?_⟩
    rw [codeLevel_of_sending hp hs]
    congr 1
    omega
  · unfold State.codeLevel
    rw [hs]

end Sys2Proof.Machine
end

section
/-! SUPPORT. TIME SYNC, CLOCK SET and CLOCK TUNE; the statements about them. -/

namespace Sys2Proof.Machine
open Sys2Proof

/-! ## TIME SYNC (R76, R80, R82 to R86, R88) -/

theorem exec_timeSync_of_running {s : State} (hr : s.running = true) (src : Source) (rec : TimeSync) (after : Option Word) :
    exec (.timeSync src rec after) s = .next (timeSyncAct src.window rec after s).1 := congrArg Host.Outcome.next (if_pos hr)

theorem timeSyncAct_unserved {s : State} {w : WinIdx} (h0 : s.clk.place0.window ≠ some w) (h1 : s.clk.place1.window ≠ some w)
    (rec : TimeSync) (after : Option Word) : timeSyncAct w rec after s = (s, after) := by
  have hnone : s.clk.placeOf? w = none := (if_neg h0).trans (if_neg h1)
  unfold timeSyncAct
  rw [hnone]

theorem duplicate_iff (p : Place) (rec : TimeSync) :
    p.duplicate rec = true ↔ ∃ x, p.lastOrigin = some x ∧ rec.origin.toNat ≤ x.toNat := by
  unfold Place.duplicate
  cases p.lastOrigin with
  | none => exact ⟨nofun, fun ⟨_, h, _⟩ => nomatch h⟩
  | some x =>
    rw [decide_eq_true_eq]
    exact ⟨fun h => ⟨x, rfl, h⟩, fun ⟨_, hx, h⟩ => Option.some.inj hx ▸ h⟩

theorem timeSyncAct_duplicate {s : State} {w : WinIdx} {n : Fin 2} {p : Place} {rec : TimeSync}
    (hp : s.clk.placeOf? w = some (n, p)) (h : p.duplicate rec = true) (after : Option Word) :
    timeSyncAct w rec after s = (s, after) := by
  unfold timeSyncAct
  rw [hp]
  exact if_pos h

/-- An accepted record: its source refreshed and the selection re-evaluated, then the clock state. -/
theorem timeSyncAct_accepted {s : State} {w : WinIdx} {n : Fin 2} {p : Place} {rec : TimeSync}
    (hp : s.clk.placeOf? w = some (n, p)) (h : ¬ p.duplicate rec = true) (after : Option Word) :
    let u := reselectAt (after.getD s.clk.ns).toNat (acceptSync n p rec s)
    (u.clk.selected ≠ some w ∨ after ≠ none → (timeSyncAct w rec after s).1 = u)
      ∧ (u.clk.selected = some w → after = none →
          (timeSyncAct w rec after s).1 = (selectedRecord w (offsetOf rec p.pathDelay) u).1) := by
  intro u
  have hact : timeSyncAct w rec after s = if u.clk.selected = some w ∧ after = none then
      ((selectedRecord w (offsetOf rec p.pathDelay) u).1,
        if (selectedRecord w (offsetOf rec p.pathDelay) u).2 then some s.clk.ns else none)
      else (u, after) := by
    unfold timeSyncAct
    rw [hp]
    exact if_neg h
  rw [hact]
  refine ⟨fun hno => ?_, fun hs ha => ?_⟩
  · rw [if_neg fun hz => hno.elim (fun h' => h' hz.1) fun h' => h' hz.2]
  · rw [if_pos ⟨hs, ha⟩]

/-- The clock unit once a record of the place is accepted (R76). -/
theorem acceptSync_eq {s : State} {w : WinIdx} {first : Bool} {p : Place} (hw : p.window = some w) (rec : TimeSync) :
    let expiry := s.clk.elapsed + s.clk.params.holdover * 1000000
    let fresh : Place := { window := some w, lastOrigin := some rec.origin, lastGrade := some rec.grade,
                           lastAccept := some s.clk.elapsed, heard := true, heardTimer := some expiry,
                           pathDelay := p.pathDelay }
    acceptSync (if first then 0 else 1) p rec s = { s with clk := { s.clk with
      place0 := if first then fresh else s.clk.place0, place1 := if first then s.clk.place1 else fresh,
      lastAny := some s.clk.elapsed, silence := some expiry } } := by
  intro expiry fresh
  have hfresh : fresh = { p with
      lastOrigin := some rec.origin, lastGrade := some rec.grade, lastAccept := some s.clk.elapsed,
      heard := true, heardTimer := some expiry } := by rw [hw]
  rw [hfresh]
  cases first <;> rfl

theorem disciplineStep_eq (w : WinIdx) (o : Int) (s : State) : disciplineStep w o s = stepAndPost (some w)
    (leBytes 8 (BitVec.ofInt 64 o).toNat)
    (BitVec.ofNat 64 (max 0 (min 18446744073709551615 ((s.clk.ns.toNat : Int) - o))).toNat) s := by
  unfold disciplineStep
  rw [lessOffset_eq]
  rfl

/-- A record at a FREE clock (R82). -/
theorem selectedRecord_free {u : State} (h : u.clk.state = .free) (w : WinIdx) (o : Int) :
    (u.clk.params.step < o.natAbs →
        (selectedRecord w o u).1 = setClockStateAt u.clk.ns.toNat .acquiring .record (disciplineStep w o u))
      ∧ (¬ u.clk.params.step < o.natAbs → (selectedRecord w o u).1
          = setClockStateAt u.clk.ns.toNat .acquiring .record { u with clk := u.clk.servo o }) := by
  unfold selectedRecord
  rw [h]
  exact ⟨fun hl => by simp [hl]; rfl, fun hl => by simp [hl]; rfl⟩

/-- A record at an ACQUIRING clock (R83). -/
theorem selectedRecord_acquiring {u : State} (h : u.clk.state = .acquiring) (w : WinIdx) (o : Int) :
    (u.clk.params.step < o.natAbs → (selectedRecord w o u).1 = disciplineStep w o u)
      ∧ (¬ u.clk.params.step < o.natAbs → (selectedRecord w o u).1 = countLock o { u with clk := u.clk.servo o }) := by
  unfold selectedRecord
  rw [h]
  exact ⟨fun hl => by simp [hl], fun hl => by simp [hl]; rfl⟩

/-- A record at a LOCKED clock (R84). -/
theorem selectedRecord_locked {u : State} (h : u.clk.state = .locked) (w : WinIdx) (o : Int) :
    (u.clk.params.step < o.natAbs → u.clk.outlierCount < 2 → (selectedRecord w o u).1
        = { u with clk := { u.clk with outlierCount := u.clk.outlierCount + 1 } })
      ∧ (u.clk.params.step < o.natAbs → 2 ≤ u.clk.outlierCount →
          (selectedRecord w o u).1 = setClockStateAt u.clk.ns.toNat .acquiring .record (disciplineStep w o u))
      ∧ (¬ u.clk.params.step < o.natAbs →
          (selectedRecord w o u).1 = { u with clk := { u.clk.servo o with outlierCount := 0 } }) := by
  unfold selectedRecord
  rw [h]
  refine ⟨fun hl hn => ?_, fun hl hn => ?_, fun hl => by simp [hl]; rfl⟩
  · have h3 : u.clk.outlierCount + 1 < 3 := by omega
    simp [hl, h3]; rfl
  · have h3 : ¬ u.clk.outlierCount + 1 < 3 := by omega
    simp [hl, h3]; rfl

/-- A record at a clock in HOLDOVER (R86). -/
theorem selectedRecord_holdover {u : State} (h : u.clk.state = .holdover) (w : WinIdx) (o : Int) :
    (u.clk.params.step < o.natAbs →
        (selectedRecord w o u).1 = setClockStateAt u.clk.ns.toNat .acquiring .record (disciplineStep w o u))
      ∧ (¬ u.clk.params.step < o.natAbs → (selectedRecord w o u).1
          = countLock o (setClockStateAt u.clk.ns.toNat .acquiring .record { u with clk := u.clk.servo o })) := by
  unfold selectedRecord
  rw [h]
  exact ⟨fun hl => by simp [hl]; rfl, fun hl => by simp [hl]; rfl⟩

/-- What the clock state makes of a selected record leaves machine time and the parameters to the lock count (R83, R86). -/
theorem countLock_of {v s : State} {reading : Nat} (hparams : v.clk.params = s.clk.params) (hns : v.clk.ns.toNat = reading)
    (o : Int) {run : Host.Outcome State Fault Refusal} (hrun : run = .next (countLock o v)) :
    (s.clk.params.lock < o.natAbs → run = .next { v with clk := { v.clk with lockCount := 0 } })
      ∧ (o.natAbs ≤ s.clk.params.lock → v.clk.lockCount + 1 < 4 →
          run = .next { v with clk := { v.clk with lockCount := v.clk.lockCount + 1 } })
      ∧ (o.natAbs ≤ s.clk.params.lock → 4 ≤ v.clk.lockCount + 1 → run = .next (setClockStateAt reading .locked .record
          { v with clk := { v.clk with lockCount := v.clk.lockCount + 1 } })) := by
  obtain ⟨habove, hbelow, hlocked⟩ := countLock_cases o v
  rw [hrun, ← hparams]
  refine ⟨fun h => congrArg Host.Outcome.next (habove h), fun h hn => congrArg Host.Outcome.next (hbelow h hn),
    fun h hn => congrArg Host.Outcome.next ((hlocked h hn).trans ?_)⟩
  unfold setClockState State.time
  dsimp only
  rw [hns]

/-- A change of the clock state leaves the parameters and machine time. -/
theorem setClockStateAt_params (time : Nat) (new : ClockState) (cause : ClockCause) (s : State) :
    (setClockStateAt time new cause s).clk.params = s.clk.params ∧ (setClockStateAt time new cause s).clk.ns = s.clk.ns := by
  rw [setClockStateAt_clk]
  split <;> exact ⟨rfl, rfl⟩

/-- Settles O44. -/
theorem timeSyncTaken : Obligations.TimeSyncTaken := by
  intro s src rec after hr w run
  have hrun : run = .next (timeSyncAct w rec after s).1 := exec_timeSync_of_running hr src rec after
  refine ⟨fun h0 h1 => ?_, fun first p hp hw => ⟨fun x hx hle => ?_, fun hnew => ?_⟩⟩
  · rw [hrun, timeSyncAct_unserved h0 h1]
  · rw [hrun, timeSyncAct_duplicate (timeSync_place hp hw) ((duplicate_iff p rec).2 ⟨x, hx, hle⟩)]
  · intro expiry fresh reading u
    have hdup : ¬ p.duplicate rec = true := fun hd => by
      obtain ⟨x, hx, hle⟩ := (duplicate_iff p rec).1 hd
      exact absurd (hnew x hx) (by omega)
    have hreading : (after.getD s.clk.ns).toNat = reading := by cases after <;> rfl
    obtain ⟨hleaves, htakes⟩ := timeSyncAct_accepted (timeSync_place hp hw) hdup after
    rw [hreading, acceptSync_eq hw] at hleaves htakes
    refine ⟨fun hno => hrun.trans (congrArg Host.Outcome.next (hleaves hno)), fun hs ha => ?_⟩
    intro o large time stepped acquire served counts
    have hkeep : u.clk.params = s.clk.params ∧ u.clk.ns = s.clk.ns := by
      obtain ⟨_, _, _, _, _, _, hu⟩ := reselectAt_touches reading { s with clk := { s.clk with
        place0 := if first then fresh else s.clk.place0, place1 := if first then s.clk.place1 else fresh,
        lastAny := some s.clk.elapsed, silence := some expiry } }
      have hclk := congrArg State.clk hu
      exact ⟨(congrArg Clock.params hclk :), (congrArg Clock.ns hclk :)⟩
    obtain ⟨hparams, hns⟩ := hkeep
    have hnow : u.clk.ns.toNat = reading := by
      rw [hns]
      subst ha
      rfl
    have hrun' : run = .next (selectedRecord w o u).1 := hrun.trans (congrArg Host.Outcome.next (htakes hs ha))
    have hlarge : large ↔ u.clk.params.step < o.natAbs := by rw [hparams]
    have hstepped : disciplineStep w o u = stepped := disciplineStep_eq w o u
    have hcounts : ∀ v : State, v.clk.params = u.clk.params → v.clk.ns = u.clk.ns → run = .next (countLock o v) → counts v :=
      fun v hvp hvn hv => countLock_of (hvp.trans hparams) (by rw [hvn, hnow]) o hv
    rw [hlarge]
    refine ⟨fun hst => ?_, fun hst => ?_, fun hst => ?_, fun hst => ?_⟩
    · obtain ⟨hl, hsmall⟩ := selectedRecord_free hst w o
      rw [hnow, hstepped] at hl
      rw [hnow] at hsmall
      exact ⟨fun h => hrun'.trans (congrArg Host.Outcome.next (hl h)), fun h => hrun'.trans (congrArg Host.Outcome.next (hsmall h))⟩
    · obtain ⟨hl, hsmall⟩ := selectedRecord_acquiring hst w o
      rw [hstepped] at hl
      exact ⟨fun h => hrun'.trans (congrArg Host.Outcome.next (hl h)),
        fun h => hcounts served rfl rfl (hrun'.trans (congrArg Host.Outcome.next (hsmall h)))⟩
    · obtain ⟨hfew, hthird, hsmall⟩ := selectedRecord_locked hst w o
      rw [hnow, hstepped] at hthird
      exact ⟨fun h hn => hrun'.trans (congrArg Host.Outcome.next (hfew h hn)),
        fun h hn => hrun'.trans (congrArg Host.Outcome.next (hthird h hn)),
        fun h => hrun'.trans (congrArg Host.Outcome.next (hsmall h))⟩
    · obtain ⟨hl, hsmall⟩ := selectedRecord_holdover hst w o
      rw [hnow, hstepped] at hl
      rw [hnow] at hsmall
      obtain ⟨hp', hn'⟩ := setClockStateAt_params reading .acquiring .record served
      exact ⟨fun h => hrun'.trans (congrArg Host.Outcome.next (hl h)),
        fun h => hcounts (acquire served) hp' hn' (hrun'.trans (congrArg Host.Outcome.next (hsmall h)))⟩

/-! ## CLOCK SET (R89) -/

theorem clockSetOffset_length (count old new : Nat) : (clockSetOffset count old new).length = 8 := by
  unfold clockSetOffset
  dsimp only
  split
  · exact leBytes_length ..
  · exact openBytes_length ..

theorem clockSetOffset_held {count old new : Nat} (hle : (old : Int) - new ≤ 9223372036854775807)
    (hge : -9223372036854775808 ≤ (old : Int) - new) :
    clockSetOffset count old new = leBytes 8 (BitVec.ofInt 64 ((old : Int) - new)).toNat :=
  if_pos (show -(2 ^ 63 : Int) ≤ (old : Int) - new ∧ (old : Int) - new < 2 ^ 63 from ⟨by omega, by omega⟩)

theorem clockSetAct_eq (t : Word) (b : State) : clockSetAct t b = completeDone (setClockStateAt b.clk.ns.toNat
    (if b.clk.place0.heard = true ∨ b.clk.place1.heard = true then .acquiring else .free) .set
    (stepAndPost none (clockSetOffset b.openCount b.clk.ns.toNat t.toNat) t { b with openCount := b.openCount + 1 })) := by
  obtain ⟨_, _, _, _, _, _, hstep⟩ := stepAndPost_touches none (clockSetOffset b.openCount b.clk.ns.toNat t.toNat) t
    { b with openCount := b.openCount + 1 }
  have hheard : (stepAndPost none (clockSetOffset b.openCount b.clk.ns.toNat t.toNat) t
      { b with openCount := b.openCount + 1 }).clk.anyHeard = (b.clk.place0.heard || b.clk.place1.heard) := by
    rw [hstep]
    rfl
  unfold clockSetAct
  show completeDone (setClockStateAt b.clk.ns.toNat (if (stepAndPost none (clockSetOffset b.openCount b.clk.ns.toNat t.toNat) t
    { b with openCount := b.openCount + 1 }).clk.anyHeard = true then .acquiring else .free) .set _) = _
  rw [hheard]
  simp only [Bool.or_eq_true]
  rfl

/-! ## CLOCK TUNE (R90, R91) -/

theorem tuneInRange_iff (p : TuneParams) (d : Discipline) :
    let within := fun (n v lo hi : Nat) => p.given.getLsbD n = true → lo ≤ v ∧ v ≤ hi
    tuneInRange p d = true ↔ within 0 p.step.toNat 1000 100000000 ∧ within 1 p.lock.toNat 10 1000000
      ∧ within 2 p.pShift.toNat 0 15 ∧ within 3 p.iShift.toNat 0 20 ∧ within 4 p.rateLimit.toNat 1000 500000
      ∧ within 5 p.holdover.toNat 100 10000 ∧ within 6 p.delay1.toNat 0 1000000 ∧ within 7 p.delay2.toNat 0 1000000
      ∧ ¬ (p.given.getLsbD 6 = true ∧ p.given.getLsbD 7 = true ∧ p.window1 = p.window2)
      ∧ (tuneApply p d).lock ≤ (tuneApply p d).step := by
  intro within
  unfold tuneInRange
  simp only [Bool.and_eq_true, givenIn_iff, decide_eq_true_eq, Bool.not_eq_true', Bool.and_eq_false_iff,
    decide_eq_false_iff_not, tuneHas, and_assoc, within, not_and_or, Bool.not_eq_true, or_assoc]

theorem tuneRole_iff (p : TuneParams) (c : Clock) :
    ((tuneHas p 6 && !c.serves p.window1) || (tuneHas p 7 && !c.serves p.window2)) = true
      ↔ ¬ ((p.given.getLsbD 6 = true → c.serves p.window1 = true) ∧ (p.given.getLsbD 7 = true → c.serves p.window2 = true)) := by
  unfold tuneHas
  cases p.given.getLsbD 6 <;> cases p.given.getLsbD 7 <;> cases c.serves p.window1 <;> cases c.serves p.window2 <;> decide

/-- The parameters that a CLOCK TUNE applies (R91). -/
theorem tune_eq {c : Clock} (p : TuneParams) (h : c.place0.window = none ∨ c.place0.window ≠ c.place1.window) :
    let new := tuneApply p c.params
    let delayed := fun (q : Place) => delayTo (tuneHas p 7) p.window2 p.delay2.toNat (delayTo (tuneHas p 6) p.window1 p.delay1.toNat q)
    c.tune p = { c with
      params := new, integral := clampTo new.rateLimit c.integral, rate := clampTo new.rateLimit c.rate,
      increment := incrementOf (clampTo new.rateLimit c.rate), place0 := delayed c.place0, place1 := delayed c.place1 } := by
  intro new delayed
  unfold Clock.tune
  dsimp only
  rw [setDelay_eq _ (tuneHas p 6) _ _ (by exact h), setDelay_eq _ (tuneHas p 7) _ _ (by exact h)]
  rfl

/-- A running timer under a new holdover interval (R91). -/
def movedTimer (interval : Nat) (timer last : Option Nat) : Option Nat :=
  match timer, last with
  | some _, some a => some (a + interval)
  | t, _           => t

theorem retime_eq (q : Place) (interval : Nat) :
    q.retime interval = { q with heardTimer := movedTimer interval q.heardTimer q.lastAccept } := by
  obtain ⟨window, origin, grade, last, heard, timer, delay⟩ := q
  cases timer <;> cases last <;> rfl

theorem retimeSilence_eq (c : Clock) : c.retimeSilence = movedTimer c.holdoverNs c.silence c.lastAny := by
  unfold Clock.retimeSilence movedTimer
  cases c.silence <;> cases c.lastAny <;> rfl

/-- A place whose moved expiry is reached stops being heard. -/
theorem expireNow_retime {q q' : Place} {interval now : Nat}
    (hreached : (∃ t, movedTimer interval q.heardTimer q.lastAccept = some t ∧ t ≤ now) →
      q' = { q with heard := false, heardTimer := none })
    (hlater : (¬ ∃ t, movedTimer interval q.heardTimer q.lastAccept = some t ∧ t ≤ now) →
      q' = { q with heardTimer := movedTimer interval q.heardTimer q.lastAccept }) :
    (q.retime interval).expireNow now = q' := by
  rw [retime_eq]
  unfold Place.expireNow
  split
  next he => exact (hreached ((expired_iff ..).1 he)).symm
  next he => exact (hlater fun hz => he ((expired_iff ..).2 hz)).symm

/-- The running timers move; the heard timers reached expire, one re-evaluation follows, then the silence timer (R91). -/
theorem retimeHoldover_eq (s : State) :
    let silence := movedTimer s.clk.holdoverNs s.clk.silence s.clk.lastAny
    let u := reselectAt s.clk.ns.toNat { s with clk := { s.clk with
      place0 := (s.clk.place0.retime s.clk.holdoverNs).expireNow s.clk.elapsed,
      place1 := (s.clk.place1.retime s.clk.holdoverNs).expireNow s.clk.elapsed, silence := silence } }
    retimeHoldover s = if expired silence s.clk.elapsed then silenceExpiry u else u := by
  intro silence u
  obtain ⟨_, _, _, _, _, _, hu⟩ := reselectAt_touches s.clk.ns.toNat { s with clk := { s.clk with
    place0 := (s.clk.place0.retime s.clk.holdoverNs).expireNow s.clk.elapsed,
    place1 := (s.clk.place1.retime s.clk.holdoverNs).expireNow s.clk.elapsed, silence := silence } }
  have hsilence : u.clk.silence = silence := (congrArg (fun t : State => t.clk.silence) hu :)
  unfold retimeHoldover
  rw [retimeSilence_eq]
  show (if expired u.clk.silence s.clk.elapsed then silenceExpiry u else u) = _
  rw [hsilence]

/-- The branches of CLOCK TUNE (R90, R91). -/
theorem clockTuneAct_eq (p : TuneParams) (b : State) : clockTuneAct p b =
    if !tuneInRange p b.clk.params then completeRefused .range b
    else if (tuneHas p 6 && !b.clk.serves p.window1) || (tuneHas p 7 && !b.clk.serves p.window2) then completeRefused .role b
    else completeDone (if tuneHas p 5 then retimeHoldover { b with clk := b.clk.tune p } else { b with clk := b.clk.tune p }) := rfl

/-- Settles O45. -/
theorem clockCommandsComplete : Obligations.ClockCommandsComplete := by
  intro s b h done refused
  refine ⟨fun t => ⟨clockSetOffset b.openCount b.clk.ns.toNat t.toNat, clockSetOffset_length .., ?_, ?_⟩, fun p => ?_⟩
  · intro d hle hge
    exact clockSetOffset_held hle hge
  · exact (exec_row_of_fetchAnswered h (c := .clockSet t) nofun).trans (congrArg Host.Outcome.next (clockSetAct_eq t b))
  intro has within old new inRange served roles
  have hrun : exec (.clockTune p) s = .next (clockTuneAct p b) := exec_row_of_fetchAnswered h (c := .clockTune p) nofun
  have hrange : tuneInRange p b.clk.params = true ↔ inRange := tuneInRange_iff p b.clk.params
  have hroles : ((tuneHas p 6 && !b.clk.serves p.window1) || (tuneHas p 7 && !b.clk.serves p.window2)) = true ↔ ¬ roles := by
    rw [tuneRole_iff, serves_iff, serves_iff]
  rw [hrun, clockTuneAct_eq]
  refine ⟨fun hno => ?_, fun hin hno => ?_, fun hin hro hw => ?_⟩
  · rw [if_pos (by rw [Bool.not_eq_true']; exact Bool.eq_false_iff.2 (mt hrange.1 hno))]
    rfl
  · rw [if_neg (by rw [hrange.2 hin]; exact Bool.false_ne_true), if_pos (hroles.2 hno)]
    rfl
  · intro limit delay place0 place1 clk
    have hclk : b.clk.tune p = clk := tune_eq p hw
    rw [if_neg (by rw [hrange.2 hin]; exact Bool.false_ne_true), if_neg (fun hz => hroles.1 hz hro), hclk]
    refine ⟨fun h5 => congrArg done (if_neg (by show ¬ has 5 = true; rw [h5]; exact Bool.false_ne_true)), fun h5 => ?_⟩
    intro moved reached q0 q1 hq silence u
    have hholdover : clk.holdoverNs = p.holdover.toNat * 1000000 := by
      show (if has 5 = true then p.holdover.toNat else old.holdover) * 1000000 = _
      rw [if_pos h5]
    have hplace : ∀ q q' : Place, ((q = clk.place0 ∧ q' = q0) ∨ (q = clk.place1 ∧ q' = q1)) →
        (q.retime clk.holdoverNs).expireNow clk.elapsed = q' := fun q q' hqq => by
      obtain ⟨hr, hl⟩ := hq q q' hqq
      rw [hholdover]
      exact expireNow_retime hr hl
    have hsilence : movedTimer clk.holdoverNs clk.silence clk.lastAny = silence := by rw [hholdover]; rfl
    have hact := retimeHoldover_eq { b with clk := clk }
    dsimp only at hact
    rw [hplace clk.place0 q0 (.inl ⟨rfl, rfl⟩), hplace clk.place1 q1 (.inr ⟨rfl, rfl⟩), hsilence] at hact
    rw [if_pos (show tuneHas p 5 = true from h5), hact]
    have hexp : expired silence clk.elapsed = true ↔ reached silence := expired_iff ..
    exact ⟨fun hno => congrArg done (if_neg (mt hexp.1 hno)), fun hyes => congrArg done (if_pos (hexp.2 hyes))⟩

end Sys2Proof.Machine
end

section
/-! SUPPORT. SNAPSHOT and FENCE; the statement about them. -/

namespace Sys2Proof.Machine
open Sys2Proof

/-! ## SNAPSHOT (R167) -/

theorem snapshotKind?_eq_some {kind : Byte} {k : SnapshotKind}
    (h : (kind.toNat = 1 ∧ k = .identity) ∨ (kind.toNat = 2 ∧ k = .windows) ∨ (kind.toNat = 3 ∧ k = .robots)
      ∨ (kind.toNat = 4 ∧ k = .tracking) ∨ (kind.toNat = 5 ∧ k = .clock) ∨ (kind.toNat = 6 ∧ k = .service)) :
    snapshotKind? kind = some k := by
  unfold snapshotKind?
  rcases h with ⟨h, rfl⟩ | ⟨h, rfl⟩ | ⟨h, rfl⟩ | ⟨h, rfl⟩ | ⟨h, rfl⟩ | ⟨h, rfl⟩ <;> rw [h] <;> rfl

theorem snapshotKind?_eq_none {kind : Byte} (h : kind.toNat = 0 ∨ 6 < kind.toNat) : snapshotKind? kind = none := by
  unfold snapshotKind?
  split
  case h_7 => rfl
  all_goals omega

/-- The pieces of a copy: their offsets are the multiples of 128. -/
theorem mapIdx_pieceOffsets {α : Type} (f : Nat → Nat → α) (size : Nat) :
    (pieceOffsets size).mapIdx f = (List.range ((size + 127) / 128)).map fun n => f n (128 * n) := by
  unfold pieceOffsets
  apply List.ext_getElem?
  intro k
  rw [List.getElem?_mapIdx, List.getElem?_map, List.getElem?_map]
  by_cases hk : k < (size + 127) / 128
  · rw [List.getElem?_range hk]
    rfl
  · rw [List.getElem?_eq_none (by rw [List.length_range]; omega)]
    rfl

theorem pieceOffsets_length (size : Nat) : (pieceOffsets size).length = (size + 127) / 128 := by
  rw [pieceOffsets, List.length_map, List.length_range]

/-- The own writes of a copy of the state (R167). -/
def snapshotPieces (b : State) (size : Nat) (copy : List Byte) : List OwnTxn :=
  (List.range ((size + 127) / 128)).map fun n =>
    newWrite (b.path.nextId + n) (.snapshot (decide (n + 1 = (size + 127) / 128))) (b.areaBase + 0x6000 + 128 * n)
      ((copy.drop (128 * n)).take 128)

/-- The copy's writes are generated (R13, R167). -/
def State.snapshotWritten (b : State) (size : Nat) (copy : List Byte) : State :=
  { b with
    openCount := b.openCount + 1,
    path := { b.path with
      own := b.path.own ++ (snapshotPieces b size copy).take (freePlaces b.path),
      nextId := b.path.nextId + (size + 127) / 128,
      waiting := b.path.waiting ++ ((snapshotPieces b size copy).drop (freePlaces b.path)).map Waiter.txn } }

theorem writePieces_snapshot (b : State) (size : Nat) (copy : List Byte) :
    writePieces copy (pieceOffsets size) b.bumpOpen = b.snapshotWritten size copy := by
  rw [writePieces_eq]
  dsimp only
  rw [mapIdx_pieceOffsets, pieceOffsets_length]
  rfl

/-- All pieces have joined exactly if there was a place for each. -/
theorem snapshotWritten_waits_iff (b : State) {size : Nat} (copy : List Byte) (hs : 0 < size) :
    (b.snapshotWritten size copy).path.waiting = [] ↔ (size + 127) / 128 ≤ freePlaces b.path := by
  have hlen : (snapshotPieces b size copy).length = (size + 127) / 128 := by
    rw [snapshotPieces, List.length_map, List.length_range]
  show b.path.waiting ++ ((snapshotPieces b size copy).drop (freePlaces b.path)).map Waiter.txn = [] ↔ _
  rw [List.append_eq_nil_iff, List.map_eq_nil_iff, List.drop_eq_nil_iff, hlen]
  refine ⟨fun h => h.2, fun h => ⟨?_, h⟩⟩
  by_contra hw
  rw [freePlaces, if_neg hw] at h
  omega

theorem snapshotAct_eq {kind : Byte} {k : SnapshotKind} (h : snapshotKind? kind = some k) (b : State) :
    let t := b.snapshotWritten (snapshotSize k) (snapshotBytes k b)
    snapshotAct kind b = if t.path.waiting = [] then completeDone t else t.setPhase (.executing .snapshotJoin) := by
  intro t
  unfold snapshotAct
  rw [h]
  dsimp only
  rw [writePieces_snapshot]
  simp only [List.isEmpty_iff]
  rfl

/-! ## FENCE (R168) -/

theorem mem_unansweredWrites (s : State) (n : Nat) : n ∈ unansweredWrites s
    ↔ (∃ x ∈ s.path.own, x.body ≠ none ∧ x.id = n) ∨ ∃ x, Waiter.txn x ∈ s.path.waiting ∧ x.body ≠ none ∧ x.id = n := by
  unfold unansweredWrites
  rw [List.mem_append]
  refine or_congr ?_ ?_
  · simp only [List.mem_map, List.mem_filter, Option.isSome_iff_ne_none, and_assoc]
  · rw [List.mem_filterMap]
    constructor
    · rintro ⟨w, hw, he⟩
      cases w with
      | txn t =>
        dsimp only at he
        split at he
        next hb => exact ⟨t, hw, Option.isSome_iff_ne_none.1 hb, Option.some.inj he⟩
        next => cases he
      | _ => cases he
    · rintro ⟨x, hx, hb, rfl⟩
      exact ⟨_, hx, if_pos (Option.isSome_iff_ne_none.2 hb)⟩

theorem fenceAct_eq (notify : Bool) (b : State) :
    (unansweredWrites b = [] → fenceAct notify b = finishFence notify b)
      ∧ (unansweredWrites b ≠ [] → fenceAct notify b = b.setPhase (.executing (.fence (unansweredWrites b) notify))) := by
  unfold fenceAct
  refine ⟨fun h => by rw [h], fun h => ?_⟩
  split
  next he => exact absurd he h
  next => rfl

/-- A fence that waits ends when none of its writes is unanswered. -/
theorem exec_fenceComplete {s : State} {ids : List Nat} {notify : Bool} (hr : s.running = true)
    (hp : s.cmd.phase = .executing (.fence ids notify)) :
    exec .fenceComplete s
      = .next (if ids.all (fun n => decide (n ∉ unansweredWrites s)) then finishFence notify s else s) := by
  show Host.Outcome.next (fenceCompleteAct s) = _
  unfold fenceCompleteAct fenceReady?
  rw [hp, hr]
  dsimp only
  split
  next n he =>
    split at he
    next hall => rw [if_pos rfl, if_pos hall, Option.some.inj he]
    next => cases he
  next he =>
    split at he
    next => cases he
    next hall => rw [if_neg hall]

/-- Settles O47. -/
theorem snapshotAndFence : Obligations.SnapshotAndFence := by
  refine ⟨fun s b h => ⟨fun kind => ⟨fun hbad => ?_, fun k hk => ?_⟩, fun notify ids hids => ?_⟩,
    fun s t rest hr hl hw hk hp => ?_, fun s ids notify hr hp => ?_⟩
  · have hrun : exec (.snapshot kind) s = .next (snapshotAct kind b) := exec_row_of_fetchAnswered h (c := .snapshot kind) nofun
    rw [hrun]
    unfold snapshotAct
    rw [snapshotKind?_eq_none hbad]
    rfl
  · refine ⟨snapshotSize k, snapshotBytes k b, snapshot_laid k b, ?_⟩
    intro count pieces free t
    have hsize : 0 < snapshotSize k := by cases k <;> decide
    have hwaits := snapshotWritten_waits_iff b (snapshotBytes k b) hsize
    have hrun : exec (.snapshot kind) s = .next (snapshotAct kind b) := exec_row_of_fetchAnswered h (c := .snapshot kind) nofun
    rw [hrun, snapshotAct_eq (snapshotKind?_eq_some hk)]
    exact ⟨fun hle => congrArg Host.Outcome.next (if_pos (hwaits.2 hle)),
      fun hlt => congrArg Host.Outcome.next (if_neg fun hz => absurd (hwaits.1 hz) (Nat.not_le.2 hlt))⟩
  · have hun : unansweredWrites b = ids := by
      rw [hids]
      unfold unansweredWrites
      congr 1
      exact List.filterMap_congr fun x _ => by cases x <;> rfl
    have hrun : exec (.fence notify) s = .next (fenceAct notify b) := exec_row_of_fetchAnswered h (c := .fence notify) nofun
    obtain ⟨hdone, hwait⟩ := fenceAct_eq notify b
    rw [hun] at hdone hwait
    exact ⟨fun hi => hrun.trans (congrArg Host.Outcome.next (hdone hi)), fun hi => hrun.trans (congrArg Host.Outcome.next (hwait hi))⟩
  · rw [exec_ownQueueJoin_txn hr hl hw, hk]
    exact congrArg Host.Outcome.next (if_pos hp)
  · intro open_
    have hall : ids.all (fun n => decide (n ∉ unansweredWrites s)) = true ↔ ¬ open_ := by
      simp only [List.all_eq_true, decide_eq_true_eq, mem_unansweredWrites]
      exact ⟨fun hz ⟨n, hn, ho⟩ => hz n hn ho, fun hz n hn ho => hz ⟨n, hn, ho⟩⟩
    rw [exec_fenceComplete hr hp]
    exact ⟨fun ho => congrArg Host.Outcome.next (if_neg fun hz => hall.1 hz ho),
      fun ho => congrArg Host.Outcome.next (if_pos (hall.2 ho))⟩

end Sys2Proof.Machine
end

section
/-! SUPPORT. Replies, the end of a claim, the begin of a return and the cancel; the statement about them. -/

namespace Sys2Proof.Machine
open Sys2Proof

/-! ## Replies (R57) -/

theorem makeReply_unfed {s : State} (h : ∀ i w, ¬ (s.entry i = .loaded w ∧ w.feedKind? = some .service)) (kind : ReplyKind)
    (why : Reason) (request : BitVec 32) :
    makeReply kind why request s = { s with svc := { s.svc with replySeq := s.svc.replySeq + 1 } } := by
  have hnone : State.serviceFeed? { s with svc := { s.svc with replySeq := s.svc.replySeq + 1 } } = none := serviceFeed?_none _ h
  unfold makeReply
  simp only [hnone]

theorem makeReply_fed {s : State} {i : WinIdx} {w : Window} (h : s.entry i = .loaded w ∧ w.feedKind? = some .service)
    (hmin : ∀ j v, s.entry j = .loaded v ∧ v.feedKind? = some .service → i ≤ j) (kind : ReplyKind) (why : Reason)
    (request : BitVec 32) :
    makeReply kind why request s = State.makes { s with svc := { s.svc with replySeq := s.svc.replySeq + 1 } }
      [(.reply, w.base.toNat + w.size.toNat - 32, replyBytes kind why request (s.svc.replySeq + 1) s.clk.ns.toNat)] := by
  have hsome : State.serviceFeed? { s with svc := { s.svc with replySeq := s.svc.replySeq + 1 } } = some w :=
    serviceFeed?_some _ i w h hmin
  unfold makeReply
  simp only [hsome]
  exact makes_one _ _ _ _

theorem replyBytes_eq (kind : ReplyKind) (why : Reason) (request reply : BitVec 32) (time : Nat) :
    replyBytes kind why request reply time = [BitVec.ofNat 8 (codeOfReply kind), BitVec.ofNat 8 (codeOfReason why), 0, 0]
      ++ leBytes 4 request.toNat ++ leBytes 4 reply.toNat ++ [0, 0, 0, 0] ++ leBytes 8 time ++ List.replicate 8 0 := by
  rw [← reply_code, ← reason_code]
  rfl

/-! ## The end of a claim and the begin of a return (R144, R148) -/

/-- The state once the reply of a claim that ends is made and the claim is dropped. -/
def claimDropped (kind : ReplyKind) (why : Reason) (next : SessionState) (c : Claim) (s : State) : State :=
  let replied := makeReply kind why c.seq s
  State.statusIf { replied with svc := { replied.svc with
    state := next, claim := none, named := [], consentWaiting := false, consentTimer := none } }
    (decide (s.svc.state ≠ next))

theorem claimDropped_cmd (kind : ReplyKind) (why : Reason) (next : SessionState) (c : Claim) (s : State) :
    (claimDropped kind why next c s).cmd = s.cmd := makeReply_cmd kind why c.seq s

/-- The end of a claim: the reply, the claim dropped, and of a consent that waits the grant holds and the completion. -/
theorem withdrawClaim_eq {s : State} {c : Claim} (hc : s.svc.claim = some c) (kind : ReplyKind) (why : Reason)
    (next : SessionState) (ending : Reason) :
    let freed := (claimDropped kind why next c s).withRobots (fun b => { b with grantHold := false }) s.svc.named
    withdrawClaim kind why next ending s = if s.svc.consentWaiting = true then
      if s.cmd.phase = .executing .consent then complete .refused ending freed else freed
      else claimDropped kind why next c s := by
  intro freed
  have hseq : s.svc.claimSeq = c.seq := by
    unfold Session.claimSeq
    rw [hc]
    rfl
  have hdrop : (makeReply kind why c.seq s).setSvc ((makeReply kind why c.seq s).svc.dropClaim next)
      = claimDropped kind why next c s := by
    have hstate : (makeReply kind why c.seq s).svc.state = s.svc.state := (congrArg Session.state (makeReply_svc kind why c.seq s) :)
    rw [setSvc_eq, hstate]
    rfl
  have hphase : freed.cmd.phase = s.cmd.phase := by
    rw [withRobots_cmd, claimDropped_cmd]
  have hact : withdrawClaim kind why next ending s = if s.svc.consentWaiting = true then
      completeConsent .refused ending (State.modifyRobots Bound.abandon s.svc.named (claimDropped kind why next c s))
      else claimDropped kind why next c s := by
    unfold withdrawClaim
    simp only [hseq, hdrop]
  have hfreed : State.modifyRobots Bound.abandon s.svc.named (claimDropped kind why next c s) = freed := modifyRobots_eq ..
  rw [hact, hfreed]
  unfold completeConsent
  rw [hphase]

theorem beginReturn_eq {s : State} {c : Claim} (hc : s.svc.claim = some c) (hs : s.svc.state ≠ .returning) (cause : Cause) :
    beginReturn cause s = State.withAuthority { s with
      svc := { s.svc with state := .returning, cause := some cause, keepTimer := none },
      rep := { s.rep with statusMark := true } } .frozen c.windows := by
  have hws : s.svc.windows = c.windows := by
    unfold Session.windows
    rw [hc]
    rfl
  unfold beginReturn
  rw [setAuthorities_eq, setSvc_new _ _ hs, hws]

/-- What begins a return of a GRANTED session or ends a waiting consent: a mode change or a pulse at a named robot. -/
def endsSession (cause : Cause) (why : Reason) (s : State) : State :=
  if s.svc.state = .granted then beginReturn cause s
  else if s.svc.state = .claimed ∧ s.svc.consentWaiting = true then withdrawClaim .refused why .keyed why s
  else s

theorem endsSession_granted {s : State} (h : s.svc.state = .granted) (cause : Cause) (why : Reason) :
    endsSession cause why s = beginReturn cause s := if_pos h

theorem endsSession_waiting {s : State} (h : s.svc.state = .claimed) (hw : s.svc.consentWaiting = true) (cause : Cause)
    (why : Reason) : endsSession cause why s = withdrawClaim .refused why .keyed why s :=
  (if_neg (by rw [h]; nofun)).trans (if_pos ⟨h, hw⟩)

theorem endsSession_other {s : State} (h : s.svc.state ≠ .granted)
    (hw : s.svc.state ≠ .claimed ∨ s.svc.consentWaiting = false) (cause : Cause) (why : Reason) : endsSession cause why s = s :=
  (if_neg h).trans (if_neg fun ⟨hc, ht⟩ => hw.elim (fun h' => h' hc) fun h' => nomatch h'.symm.trans ht)

theorem namesBanked_iff (s : State) :
    s.svc.windows.any s.isBanked = true ↔ ∃ c, s.svc.claim = some c ∧ ∃ i ∈ c.windows, s.bankedAt i := by
  simp only [List.any_eq_true, isBanked_iff, Session.windows]
  cases s.svc.claim with
  | none => exact ⟨fun ⟨_, hi, _⟩ => (nomatch hi), fun ⟨_, hc, _⟩ => nomatch hc⟩
  | some c => exact ⟨fun h => ⟨c, rfl, h⟩, fun ⟨_, hc, h⟩ => Option.some.inj hc ▸ h⟩

/-! ## The cancel of a robot's publishes (R112) -/

theorem cancel_eq (b : Bound) : b.cancel = { b with
    pendingReq := if b.publish = .flipping then b.pendingReq else none, nextReq := none,
    publish := if b.publish = .pending then .idle else b.publish, grantHold := true } := by
  unfold Bound.cancel
  cases hp : b.publish <;> rfl

theorem cancelPublishes_eq {s : State} {r : RobotIdx} {b : Bound} (hb : s.bound? r = some b) :
    cancelPublishes r s = if b.cancelled.1.isSome || b.cancelled.2.isSome then
      postNotice (.publishCancelled r b.cancelled.1 b.cancelled.2) (s.setRobot r (some b.cancel))
      else s.setRobot r (some b.cancel) := by
  unfold cancelPublishes
  rw [hb]

/-- Settles O49, part by part: the two forms of a reply, the end of a claim, the begin of a return, what a mode change and a
pulse make of the session, and the cancel. -/
theorem sessionTransitions : Obligations.SessionTransitions := by
  refine ⟨?_, ?_, ?_, ?_, ?_, ?_⟩
  · intro s kind why request seq counted feedAt
    refine ⟨fun h => makeReply_unfed h kind why request, fun i w hf hmin => ?_⟩
    rw [makeReply_fed hf hmin, replyBytes_eq]
  · intro s kind why next ending c hc replied dropped freed
    refine ⟨fun hw => ?_, fun hw hp => ?_, fun hw hp => ?_⟩
    · rw [withdrawClaim_eq hc, if_neg (by rw [hw]; nofun)] <;> rfl
    · rw [withdrawClaim_eq hc, if_pos hw, if_neg hp] <;> rfl
    · rw [withdrawClaim_eq hc, if_pos hw, if_pos hp] <;> rfl
  · intro s cause c hc hs
    exact beginReturn_eq hc hs cause
  · intro s r m
    refine ⟨fun h => if_neg fun ⟨hr, hm⟩ => h.elim (fun h' => h' hr) hm, fun hr hm => ?_⟩
    have hends : serviceModeChange r m s = endsSession .robot .robotMode s := if_pos ⟨hr, hm⟩
    rw [hends]
    exact ⟨fun h => endsSession_granted h _ _, fun h hw => endsSession_waiting h hw _ _,
      fun h hw => endsSession_other h hw _ _⟩
  · intro s banked
    refine ⟨fun h => if_neg (mt (namesBanked_iff s).mp h), fun h => ?_⟩
    have hends : servicePulse s = endsSession .line .line s := if_pos ((namesBanked_iff s).mpr h)
    rw [hends]
    exact ⟨fun h => endsSession_granted h _ _, fun h hw => endsSession_waiting h hw _ _,
      fun h hw => endsSession_other h hw _ _⟩
  · intro s r b hb flipping pending next t
    have hset : s.setRobot r (some b.cancel) = t := congrArg (fun x => s.setRobot r (some x)) (cancel_eq b)
    have hgone : b.cancelled = (pending, next) := by simp [Bound.cancelled, pending, next, flipping]
    rw [cancelPublishes_eq hb, hset, hgone]
    refine ⟨fun hp hn => if_neg (by rw [hp, hn]; nofun), fun h => if_pos ?_⟩
    rw [Bool.or_eq_true, Option.isSome_iff_ne_none, Option.isSome_iff_ne_none]
    exact not_and_or.mp h

end Sys2Proof.Machine
end

section
/-! SUPPORT. The records, the commands and the events of the service session; the statements about them. -/

namespace Sys2Proof.Machine
open Sys2Proof

/-! ## Records of the SERVICE feed (R139 to R142, R146) -/

theorem serviceClaimAct_keyed {s : State} (hs : s.svc.state = .keyed) (c : Claim) :
    (∀ why, claimRefusal s c.windows = some why → serviceClaimAct c s = makeReply .refused why c.seq s)
      ∧ (claimRefusal s c.windows = none → serviceClaimAct c s = postNotice (.serviceClaim c) { s with
          svc := { s.svc with
            state := .claimed, claim := some c, named := s.robotsOf c.windows, consentWaiting := false, keepPhase := none,
            consentTimer := some (s.clk.elapsed + s.svc.consentS * 1000000000) },
          rep := { s.rep with statusMark := true } }) := by
  unfold serviceClaimAct
  rw [hs]
  refine ⟨fun why h => ?_, fun h => ?_⟩
  · rw [h]
  · rw [h]
    exact congrArg (postNotice (.serviceClaim c)) (setSvc_new s { s.svc with
      state := .claimed, claim := some c, named := s.robotsOf c.windows, consentWaiting := false, keepPhase := none,
      consentTimer := some (s.clk.elapsed + s.svc.consentS * 1000000000) } (by rw [hs]; nofun))

theorem serviceClaimAct_refused {s : State} (c : Claim) :
    (s.svc.state = .closed → serviceClaimAct c s = makeReply .refused .state c.seq s)
      ∧ (s.svc.state = .lockout → serviceClaimAct c s = makeReply .refused .lockout c.seq s)
      ∧ (s.svc.state = .claimed ∨ s.svc.state = .granted ∨ s.svc.state = .returning →
          serviceClaimAct c s = makeReply .refused .busy c.seq s) := by
  unfold serviceClaimAct
  refine ⟨fun h => by rw [h], fun h => by rw [h], fun h => ?_⟩
  obtain h | h | h := h <;> rw [h]

theorem serviceKeepAct_fresh {s : State} {phase : Bool} {c : Claim} (hs : s.svc.state = .granted)
    (hp : s.svc.keepPhase ≠ some phase) (hc : s.svc.claim = some c) : serviceKeepAct phase s = { s with svc := { s.svc with
      keepPhase := some phase, keepTimer := some (s.clk.elapsed + c.keepMs * 1000000) } } := by
  unfold serviceKeepAct
  rw [if_pos ⟨hs, hp⟩, hc]
  exact setSvc_same s _ rfl

theorem serviceReleaseAct_cases (s : State) :
    (s.svc.state = .claimed → serviceReleaseAct s = withdrawClaim .withdrawn .none .keyed .state s)
      ∧ (s.svc.state = .granted → serviceReleaseAct s = beginReturn .released s)
      ∧ (s.svc.state ≠ .claimed → s.svc.state ≠ .granted → serviceReleaseAct s = s) := by
  unfold serviceReleaseAct
  cases h : s.svc.state <;> simp

theorem servicePublishAct_refused {s : State} {p : ServicePublish} {why : Reason} (seq : BitVec 32)
    (h : publishRefusal s p.robot { seq := p.seq, confirm := p.confirm, origin := .service } = some why) :
    servicePublishAct seq p s = makeReply .refused why seq s := by
  unfold servicePublishAct
  simp only [h]

theorem servicePublishAct_placed {s : State} {p : ServicePublish} {b : Bound} (hb : s.bound? p.robot = some b) (seq : BitVec 32)
    (h : publishRefusal s p.robot { seq := p.seq, confirm := p.confirm, origin := .service } = none) :
    servicePublishAct seq p s
      = s.setRobot p.robot (some (b.place { seq := p.seq, confirm := p.confirm, origin := .service })) := by
  unfold servicePublishAct
  simp only [h]
  exact modifyRobot_eq hb _

theorem publishRefusal_unbound {s : State} {r : RobotIdx} (h : s.bound? r = none) (q : PublishRequest) :
    publishRefusal s r q = some .notBound := by
  unfold publishRefusal
  rw [h]

theorem next_whenRunning_of_running {s : State} (hr : s.running = true) (act : State → State) :
    (Host.Outcome.next (whenRunning act s) : Host.Outcome State Fault Refusal) = .next (act s) :=
  congrArg Host.Outcome.next (whenRunning_of_running hr act)

/-- Settles O50, record by record: a claim by the session state and the first check that fails, then keep, release and
publish. -/
theorem serviceRecordsTaken : Obligations.ServiceRecordsTaken := by
  intro s src hr
  refine ⟨fun c => ?_, fun phase => ?_, fun h => ?_, fun h => ?_, fun h h' => ?_, fun p => ?_⟩
  · intro replied
    have hrun : exec (.serviceClaim src c) s = .next (serviceClaimAct c s) := next_whenRunning_of_running hr _
    obtain ⟨hclosed, hlockout, hbusy⟩ := serviceClaimAct_refused (s := s) c
    refine ⟨fun h => hrun.trans (congrArg _ (hclosed h)), fun h => hrun.trans (congrArg _ (hlockout h)),
      fun h => hrun.trans (congrArg _ (hbusy h)), fun h => ?_⟩
    obtain ⟨hsome, hnone⟩ := serviceClaimAct_keyed h c
    refine ⟨fun why hw => hrun.trans (congrArg _ (hsome why (claimRefusal_some s _ why hw))), fun hw hm hl => ?_⟩
    exact ⟨s.robotsOf c.windows, takesClaim_robotsOf s _ ⟨hw, hm, hl⟩,
      hrun.trans (congrArg _ (hnone (claimRefusal_none s _ ⟨hw, hm, hl⟩)))⟩
  · have hrun : exec (.serviceKeep src phase) s = .next (serviceKeepAct phase s) := next_whenRunning_of_running hr _
    refine ⟨fun h => hrun.trans (congrArg _ (if_neg ?_)), fun hs hp c hc => hrun.trans (congrArg _ (serviceKeepAct_fresh hs hp hc))⟩
    exact fun ⟨hs, hp⟩ => h.elim (fun h' => h' hs) hp
  · exact (next_whenRunning_of_running hr _).trans (congrArg _ ((serviceReleaseAct_cases s).1 h))
  · exact (next_whenRunning_of_running hr _).trans (congrArg _ ((serviceReleaseAct_cases s).2.1 h))
  · exact (next_whenRunning_of_running hr _).trans (congrArg _ ((serviceReleaseAct_cases s).2.2 h h'))
  · intro request refused placed
    have hrun : exec (.servicePublish src p) s = .next (servicePublishAct src.seq p s) := next_whenRunning_of_running hr _
    have hrefused {why : Reason} (h : publishRefusal s p.robot request = some why) : refused why :=
      hrun.trans (congrArg _ (servicePublishAct_refused src.seq h))
    refine ⟨fun h => hrefused (publishRefusal_unbound h _), fun b hb => ?_⟩
    intro holds unconfirmed same
    have hcheck := publishRefusal_service s p.robot request rfl b hb
    refine ⟨fun hu => hrefused ?_, fun hu hh => hrefused ?_, fun hu hh hc => hrefused ?_, fun hu hh hc hs => hrefused ?_,
      fun hu hh hc hs => ?_⟩
    · rw [hcheck, if_pos hu]
    · rw [hcheck, if_neg (by rw [hu]; nofun), if_pos hh]
    · rw [hcheck, if_neg (by rw [hu]; nofun), if_neg (not_not_intro hh), if_pos hc]
    · rw [hcheck, if_neg (by rw [hu]; nofun), if_neg (not_not_intro hh), if_neg hc, if_pos hs]
    · have hnone : publishRefusal s p.robot request = none := by
        rw [hcheck, if_neg (by rw [hu]; nofun), if_neg (not_not_intro hh), if_neg hc, if_neg hs]
      have hplaced {x : Bound} (h : b.place request = x) : placed x :=
        (hrun.trans (congrArg _ (servicePublishAct_placed hb src.seq hnone))).trans (by rw [← h])
      refine ⟨fun h => hplaced ?_, fun h => hplaced ?_, fun h => hplaced ?_⟩
      · unfold Bound.place; rw [h]
      · unfold Bound.place; rw [h]
      · unfold Bound.place; obtain h | h := h <;> rw [h]

end Sys2Proof.Machine
end

section
/-! SUPPORT. The commands and the events of the service session; the statements about them. -/

namespace Sys2Proof.Machine
open Sys2Proof

/-! ## SERVICE SETUP, CONSENT and REVOKE (R143, R147, R152) -/

/-- The given intervals lie in their ranges (R152). -/
def intervalsInRange (p : ServiceParams) : Prop :=
  (p.given.getLsbD 0 = true → 1 ≤ p.consent.toNat ∧ p.consent.toNat ≤ 120)
    ∧ (p.given.getLsbD 1 = true → 1 ≤ p.lockout.toNat ∧ p.lockout.toNat ≤ 600)

theorem serviceSetupAct_eq (p : ServiceParams) (b : State) :
    (¬ intervalsInRange p → serviceSetupAct p b = complete .refused .range b)
      ∧ (intervalsInRange p → serviceSetupAct p b = complete .done .none { b with svc := { b.svc with
          consentS := if p.given.getLsbD 0 then p.consent.toNat else b.svc.consentS,
          lockoutS := if p.given.getLsbD 1 then p.lockout.toNat else b.svc.lockoutS } }) := by
  have hout : ((p.given.getLsbD 0 && !(decide (1 ≤ p.consent.toNat) && decide (p.consent.toNat ≤ 120)))
      || (p.given.getLsbD 1 && !(decide (1 ≤ p.lockout.toNat) && decide (p.lockout.toNat ≤ 600)))) = true ↔ ¬ intervalsInRange p := by
    simp only [Bool.or_eq_true, Bool.and_eq_true, Bool.not_eq_true', ← Bool.not_eq_true, decide_eq_true_eq,
      intervalsInRange, not_and_or, Classical.not_imp]
  exact ⟨fun h => if_pos (hout.mpr h), fun h => if_neg fun hx => hout.mp hx h⟩

theorem serviceConsentAct_undecided {decision : Byte} (h1 : decision.toNat ≠ 1) (h2 : decision.toNat ≠ 2) (q : BitVec 32)
    (b : State) : serviceConsentAct decision q b = complete .refused .range b :=
  if_pos ⟨fun h => h1 (by rw [h]; rfl), fun h => h2 (by rw [h]; rfl)⟩

theorem serviceConsentAct_unheld {decision : Byte} (h : decision.toNat = 1 ∨ decision.toNat = 2) {q : BitVec 32} {b : State}
    (hno : b.svc.state ≠ .claimed ∨ ∀ c, b.svc.claim = some c → c.seq ≠ q) :
    serviceConsentAct decision q b = complete .refused .state b := by
  have hdec : ¬ (decision ≠ 1 ∧ decision ≠ 2) := fun ⟨h1, h2⟩ =>
    h.elim (fun h => h1 (BitVec.eq_of_toNat_eq h)) fun h => h2 (BitVec.eq_of_toNat_eq h)
  refine (if_neg hdec).trans ?_
  split
  · rename_i c hs hc
    exact if_neg (hno.elim (fun h' => absurd hs h') fun h' => h' c hc)
  · rfl

theorem serviceConsentAct_held {decision : Byte} {b : State} {c : Claim} (hs : b.svc.state = .claimed)
    (hc : b.svc.claim = some c) :
    (decision.toNat = 2 → serviceConsentAct decision c.seq b
        = complete .done .none (withdrawClaim .denied .none .keyed .none b))
      ∧ (decision.toNat = 1 → serviceConsentAct decision c.seq b = acceptClaim c b) := by
  refine ⟨fun h => ?_, fun h => ?_⟩
  · obtain rfl : decision = 2 := BitVec.eq_of_toNat_eq h
    unfold serviceConsentAct
    rw [hs, hc]
    simp [denyClaim, completeDone]
  · obtain rfl : decision = 1 := BitVec.eq_of_toNat_eq h
    unfold serviceConsentAct
    rw [hs, hc]
    simp

/-- The state of an ACCEPT whose checks pass: the robots named, their publishes cancelled, the consent waiting. -/
def State.accepted (b : State) (c : Claim) : State :=
  let named := b.robotsOf c.windows
  let u := named.foldl (fun v r => cancelPublishes r v)
    { b with svc := { b.svc with named := named, consentWaiting := true } }
  { u with cmd := { u.cmd with phase := .executing .consent } }

theorem accepted_svc (b : State) (c : Claim) :
    (b.accepted c).svc = { b.svc with named := b.robotsOf c.windows, consentWaiting := true } := by
  show (List.foldl _ _ _ : State).svc = _
  rw [← cancelAll_eq, cancelAll_svc]

theorem grantReady_idle_iff (s : State) : grantReady s = true ↔ s.svc.state = .claimed ∧ s.svc.consentWaiting = true
    ∧ ∀ r ∈ s.svc.named, ∀ x, s.bound? r = some x → x.publish = .idle := by
  unfold grantReady
  rw [Bool.and_eq_true, Bool.and_eq_true, decide_eq_true_iff, allIdle_iff, and_assoc]

theorem acceptClaim_eq (c : Claim) (b : State) :
    (∀ why, claimRefusal b c.windows = some why →
        acceptClaim c b = complete .refused why (withdrawClaim .refused why .keyed .none b))
      ∧ (claimRefusal b c.windows = none →
        acceptClaim c b = if grantReady (b.accepted c) = true then grantSession (b.accepted c) else b.accepted c) := by
  have hset : b.setSvc { b.svc with named := b.robotsOf c.windows, consentWaiting := true }
      = { b with svc := { b.svc with named := b.robotsOf c.windows, consentWaiting := true } } := setSvc_same b _ rfl
  unfold acceptClaim
  refine ⟨fun why h => ?_, fun h => ?_⟩
  · rw [h]
    rfl
  · rw [h]
    dsimp only
    rw [hset, cancelAll_eq] <;> rfl

theorem exec_serviceRevoke_of {s b : State} (h : s.fetchAnswered b) : exec .serviceRevoke s = .next (serviceRevokeAct b) :=
  exec_row_of_fetchAnswered h (c := .serviceRevoke) nofun

/-- Settles O51: the ranges of SETUP, then CONSENT by its decision, the held claim and the checks of R139 again, then
REVOKE. -/
theorem serviceCommandsComplete : Obligations.ServiceCommandsComplete := by
  intro s b h done refused
  refine ⟨fun p => ?_, fun decision q => ?_, fun hs => ?_, fun hs => ?_⟩
  · intro inRange
    have hrun : exec (.serviceSetup p) s = .next (serviceSetupAct p b) :=
      exec_row_of_fetchAnswered h (c := .serviceSetup p) nofun
    obtain ⟨hout, hin⟩ := serviceSetupAct_eq p b
    exact ⟨fun hp => hrun.trans (congrArg _ (hout hp)), fun hp => hrun.trans (congrArg _ (hin hp))⟩
  · intro run
    have hrun : run = .next (serviceConsentAct decision q b) :=
      exec_row_of_fetchAnswered h (c := .serviceConsent decision q) nofun
    refine ⟨fun h1 h2 => hrun.trans (congrArg _ (serviceConsentAct_undecided h1 h2 q b)), fun hdec => ⟨fun hno =>
      hrun.trans (congrArg _ (serviceConsentAct_unheld hdec hno)), fun c hs hc hq => ?_⟩⟩
    obtain rfl := hq
    obtain ⟨hdeny, haccept⟩ := serviceConsentAct_held (decision := decision) hs hc
    obtain ⟨hfail, hpass⟩ := acceptClaim_eq c b
    refine ⟨fun hd => hrun.trans (congrArg _ (hdeny hd)), fun hd => ⟨fun why hw => ?_, fun hw hm hl => ?_⟩⟩
    · exact hrun.trans (congrArg _ ((haccept hd).trans (hfail why (claimRefusal_some b _ why hw))))
    · refine ⟨b.robotsOf c.windows, takesClaim_robotsOf b _ ⟨hw, hm, hl⟩, ?_⟩
      intro asked u w idle
      have hw' : w = b.accepted c := rfl
      have hready : grantReady w = true ↔ idle := by
        rw [grantReady_idle_iff, hw', accepted_svc]
        exact ⟨fun ⟨_, _, hi⟩ => hi, fun hi => ⟨hs, rfl, hi⟩⟩
      have hacc : run = .next (if grantReady w = true then grantSession w else w) :=
        hrun.trans (congrArg _ ((haccept hd).trans (hpass (claimRefusal_none b _ ⟨hw, hm, hl⟩))))
      exact ⟨fun hi => hacc.trans (congrArg _ (if_pos (hready.mpr hi))),
        fun hi => hacc.trans (congrArg _ (if_neg (mt hready.mp hi)))⟩
  · exact (exec_serviceRevoke_of h).trans (congrArg _ (if_pos hs))
  · exact (exec_serviceRevoke_of h).trans (congrArg _ (if_neg hs))

/-! ## KEY, the timers, the grant and the end of a return (R138, R144, R145, R147, R149, R151) -/

theorem keyAct_change {s : State} (hr : s.running = true) {level : Bool} (h : s.pins.key ≠ level) :
    keyAct level s = if level then keyOnAct { s with pins := { s.pins with key := level } }
      else keyOffAct { s with pins := { s.pins with key := level } } :=
  (if_neg h).trans (if_pos hr)

theorem keyOnAct_cases (s : State) :
    (s.svc.state = .closed →
        keyOnAct s = { s with svc := { s.svc with state := .keyed }, rep := { s.rep with statusMark := true } })
      ∧ (s.svc.state ≠ .closed → keyOnAct s = s) := by
  refine ⟨fun h => ?_, fun h => ?_⟩
  · unfold keyOnAct
    rw [h]
    exact setSvc_new s { s.svc with state := .keyed } (by rw [h]; nofun)
  · unfold keyOnAct
    split
    · contradiction
    · rfl

theorem keyOffAct_cases (s : State) :
    (s.svc.state = .keyed →
        keyOffAct s = { s with svc := { s.svc with state := .closed }, rep := { s.rep with statusMark := true } })
      ∧ (s.svc.state = .claimed → keyOffAct s = withdrawClaim .withdrawn .none .closed .state s)
      ∧ (s.svc.state = .granted → keyOffAct s = beginReturn .key s)
      ∧ (s.svc.state ≠ .keyed → s.svc.state ≠ .claimed → s.svc.state ≠ .granted → keyOffAct s = s) := by
  refine ⟨fun h => ?_, fun h => ?_, fun h => ?_, fun h h' h'' => ?_⟩
  · unfold keyOffAct
    rw [h]
    exact setSvc_new s { s.svc with state := .closed } (by rw [h]; nofun)
  · unfold keyOffAct
    rw [h]
  · unfold keyOffAct
    rw [h]
  · unfold keyOffAct
    split
    · contradiction
    · contradiction
    · contradiction
    · rfl

/-- The part runs, the session is in the state named, and the timer is `t`: its expiry is due from `t` on. -/
theorem timerDue_iff {s : State} (hr : s.running = true) {p : Prop} [Decidable p] (hp : p) {timer : Option Nat} {t : Nat}
    (ht : timer = some t) :
    (t ≤ s.clk.elapsed → (s.running && decide p && expired timer s.clk.elapsed) = true)
      ∧ (s.clk.elapsed < t → (s.running && decide p && expired timer s.clk.elapsed) = false) := by
  rw [hr, decide_eq_true hp, ht, expired_some]
  exact ⟨fun h => decide_eq_true h, fun h => decide_eq_false (Nat.not_le.mpr h)⟩

theorem returnReady_iff {s : State} {c : Claim} (hs : s.svc.state = .returning) (hc : s.svc.claim = some c) :
    returnReady s = true ↔
      (∀ e ∈ s.path.inflight, e.tag = 4 → e.dir = .write → ∀ i ∈ c.windows, e.checked ≠ .window i)
        ∧ ∀ r ∈ s.svc.named, ∀ b, s.bound? r = some b → b.publish = .idle := by
  have hws : s.svc.windows = c.windows := by
    unfold Session.windows
    rw [hc]
    rfl
  unfold returnReady
  rw [Bool.and_eq_true, Bool.and_eq_true, allIdle_iff, hws, decide_eq_true_iff, List.all_eq_true]
  refine and_congr ((and_iff_right hs).trans (forall₂_congr fun e _ => ?_)) Iff.rfl
  simp only [Bool.not_eq_true', ← Bool.not_eq_true, Bool.and_eq_true, decide_eq_true_iff, List.any_eq_true]
  exact ⟨fun h ht hd i hi hx => h ⟨⟨ht, hd⟩, i, hi, hx⟩, fun h ⟨⟨ht, hd⟩, i, hi, hx⟩ => h ht hd i hi hx⟩

/-- The state of a return that ends, with the windows given back, the reply made and the notice posted. -/
def State.returned (s : State) (c : Claim) (cause : Cause) : State :=
  postNotice (.serviceReturned c.seq cause) (makeReply .returned cause.reason c.seq (s.withAuthority .production c.windows))

theorem returned_keeps (s : State) (c : Claim) (cause : Cause) :
    (s.returned c cause).svc = { s.svc with replySeq := s.svc.replySeq + 1 } ∧ (s.returned c cause).clk = s.clk
      ∧ (s.returned c cause).pins = s.pins := by
  obtain ⟨w, hw⟩ := withAuthority_touches .production c.windows s
  obtain ⟨p, hp⟩ := makeReply_touches .returned cause.reason c.seq (s.withAuthority .production c.windows)
  obtain ⟨p', m, hn⟩ := postNotice_touches (.serviceReturned c.seq cause)
    (makeReply .returned cause.reason c.seq (s.withAuthority .production c.windows))
  unfold State.returned
  rw [hn, hp, hw]
  exact ⟨rfl, rfl, rfl⟩

theorem endReturn_eq {s : State} {c : Claim} {cause : Cause} (hc : s.svc.claim = some c) (hx : s.svc.cause = some cause)
    (hs : s.svc.state = .returning) :
    let v := s.returned c cause
    let ended := fun (next : SessionState) (lockout : Option Nat) => ({ v with
      svc := { v.svc with state := next, claim := none, named := [], keepPhase := none, lockoutTimer := lockout },
      rep := { v.rep with statusMark := true } } : State)
    (cause = .released ∨ cause = .key →
        endReturn s = ended (if s.pins.key then .keyed else .closed) s.svc.lockoutTimer)
      ∧ (cause ≠ .released → cause ≠ .key →
          endReturn s = ended .lockout (some (s.clk.elapsed + s.svc.lockoutS * 1000000000))) := by
  intro v ended
  obtain ⟨hsvc, hclk, hpins⟩ := returned_keeps s c cause
  have hstate : v.svc.state = .returning := (congrArg Session.state hsvc).trans hs
  have hlock : v.svc.lockoutTimer = s.svc.lockoutTimer := (congrArg Session.lockoutTimer hsvc :)
  have hsecs : v.svc.lockoutS = s.svc.lockoutS := (congrArg Session.lockoutS hsvc :)
  have hend : endReturn s =
      if cause = .released ∨ cause = .key then v.setSvc { v.svc with
        state := nextByKey v.pins.key, claim := none, named := [], keepPhase := none }
      else v.setSvc { v.svc with
        state := .lockout, claim := none, named := [], keepPhase := none,
        lockoutTimer := some (v.clk.elapsed + secToNs v.svc.lockoutS) } := by
    unfold endReturn
    rw [hc, hx]
    dsimp only
    rw [setAuthorities_eq]
    cases cause <;> rfl
  refine ⟨fun h => ?_, fun h h' => ?_⟩
  · have hne : v.svc.state ≠ nextByKey v.pins.key := by
      rw [hstate, nextByKey]
      split <;> nofun
    rw [hend, if_pos h, setSvc_new v { v.svc with
      state := nextByKey v.pins.key, claim := none, named := [], keepPhase := none } hne, ← hlock, ← hpins] <;> rfl
  · rw [hend, if_neg (fun hx => hx.elim h h'), setSvc_new v { v.svc with
      state := .lockout, claim := none, named := [], keepPhase := none,
      lockoutTimer := some (v.clk.elapsed + secToNs v.svc.lockoutS) } (by rw [hstate]; nofun), ← hsecs, ← hclk] <;> rfl

/-- Settles O52, event by event: the changes of KEY, the three timers at their times, the grant, and the return's end by
its cause. -/
theorem sessionEventsTaken : Obligations.SessionEventsTaken := by
  refine ⟨fun s hr => ⟨fun hk => ?_, fun hk => ?_⟩, fun s t hr => ⟨fun hs ht => ?_, fun hs ht => ?_, fun hs ht => ?_⟩, ?_, ?_⟩
  · intro t
    have hrun : exec .keyOn s = .next (keyOnAct t) :=
      congrArg Host.Outcome.next (keyAct_change (level := true) hr (by rw [hk]; nofun))
    obtain ⟨hclosed, hother⟩ := keyOnAct_cases t
    exact ⟨fun h => hrun.trans (congrArg _ (hclosed h)), fun h => hrun.trans (congrArg _ (hother h))⟩
  · intro t
    have hrun : exec .keyOff s = .next (keyOffAct t) :=
      congrArg Host.Outcome.next (keyAct_change (level := false) hr (by rw [hk]; nofun))
    obtain ⟨hkeyed, hclaimed, hgranted, hother⟩ := keyOffAct_cases t
    exact ⟨fun h => hrun.trans (congrArg _ (hkeyed h)), fun h => hrun.trans (congrArg _ (hclaimed h)),
      fun h => hrun.trans (congrArg _ (hgranted h)), fun h h' h'' => hrun.trans (congrArg _ (hother h h' h''))⟩
  · obtain ⟨hdue, hnot⟩ := timerDue_iff hr hs ht
    exact ⟨fun h => congrArg Host.Outcome.next (onEvent_pos consentExpiry s _ (hdue h)),
      fun h => congrArg Host.Outcome.next (onEvent_neg consentExpiry s _ (hnot h))⟩
  · obtain ⟨hdue, hnot⟩ := timerDue_iff hr hs ht
    exact ⟨fun h => congrArg Host.Outcome.next (onEvent_pos (beginReturn .timeout) s _ (hdue h)),
      fun h => congrArg Host.Outcome.next (onEvent_neg (beginReturn .timeout) s _ (hnot h))⟩
  · obtain ⟨hdue, hnot⟩ := timerDue_iff hr hs ht
    have hne : s.svc.state ≠ nextByKey s.pins.key := by
      rw [hs, nextByKey]
      split <;> nofun
    exact ⟨fun h => congrArg Host.Outcome.next ((onEvent_pos endLockout s _ (hdue h)).trans (setSvc_new s
        { s.svc with state := nextByKey s.pins.key, lockoutTimer := none } hne)),
      fun h => congrArg Host.Outcome.next (onEvent_neg endLockout s _ (hnot h))⟩
  · intro s c hr hs hc hw hp hidle u granted
    have hready : (s.running && grantReady s) = true := by
      rw [hr, (grantReady_idle_iff s).mpr ⟨hs, hw, hidle⟩]
      rfl
    exact congrArg Host.Outcome.next ((onEvent_pos grantSession s _ hready).trans (grantSession_eq s c hs hc hp))
  · intro s c cause hr hs hc hx settled v ended
    have hready : (s.running && returnReady s) = true ↔ settled := by
      rw [hr, Bool.true_and]
      exact returnReady_iff hs hc
    obtain ⟨hfree, hlocked⟩ := endReturn_eq hc hx hs
    refine ⟨fun h => ?_, fun h => ?_⟩
    · exact congrArg Host.Outcome.next (onEvent_neg endReturn s _ (Bool.eq_false_iff.mpr (mt hready.mp h)))
    · have hrun : exec .returnEnd s = .next (endReturn s) :=
        congrArg Host.Outcome.next (onEvent_pos endReturn s _ (hready.mpr h))
      exact ⟨fun h' => hrun.trans (congrArg _ (hfree h')), fun h' h'' => hrun.trans (congrArg _ (hlocked h' h''))⟩

end Sys2Proof.Machine
end

section
/-! SUPPORT. The assembly step of a feed-tag write; the statement about it. -/

namespace Sys2Proof.Machine
open Sys2Proof

/-- A feed-tag write is forwarded and is one assembly step from the window's slot. -/
theorem windowRequest_assembles {i : WinIdx} {w : Window} {kind : FeedKind} {r : LinkRequest} {s : State} {slot : Slot}
    {data : List Byte} {enables : List Bool} (hk : w.feedKind? = some kind) (hd : r.dir = .write)
    (hin : inSet w.writeSet r.tag = true) (hs : s.slot? i = some slot) (hst : stamped w r s.time = (data, enables)) :
    let words := writtenWords (r.addr.toNat - w.base.toNat) (8 * r.beats.val) data enables
    windowRequest i w r s = handleEvents i w kind (slot.steps words).2 none
      ((s.forwarding r (.window i) none false r.addr data enables).setSlot i (some (slot.steps words).1)) := by
  intro words
  have hforward : forwardRequest (.window i) none false r.addr r data enables s
      = s.forwarding r (.window i) none false r.addr data enables := rfl
  have hslot : (s.forwarding r (.window i) none false r.addr data enables).slot? i = some slot := hs
  unfold windowRequest
  simp only [hst, hk, hd, hin, and_self, if_true, hforward]
  unfold assemblyStep
  rw [hslot]
  rfl

/-- Settles O48: the write reaches its window's assembly step, whose words and events are those of the feed laws. -/
theorem feedRecordsAssembled : Obligations.FeedRecordsAssembled := by
  intro s r i w kind stamp slot data enables hre hwf hrole hrobot hd htag hreply hslot hstamp
  have hk : w.feedKind? = some kind := by simp [Window.feedKind?, hrole]
  have hin : inSet w.writeSet r.tag = true := (htag r.tag).mpr rfl
  have hnb : ∀ e x n p q, w.role ≠ .banked e x n p q := fun e x n p q h => by
    rw [hrole] at h
    cases h
  have hn : ¬ s.roleRefuses i w r := by
    rintro ⟨-, ⟨n, b, h, -⟩ | ⟨hf, a, ha, hhi⟩⟩
    · exact nomatch hrobot.symm.trans h
    · have hservice : kind = .service := Option.some.inj (hk.symm.trans hf)
      exact absurd (hreply hservice a ha) (Nat.not_lt.2 hhi)
  have ha : r.dir = .write → w.authorizes r.tag := fun _ => by simp [Window.authorizes, hrole, Role.authority?]
  obtain ⟨⟨hrun, -⟩, -⟩ := id hre
  have hact : linkRequestAct r s = windowRequest i w r s := linkRequest_window hre hnb hn (.inr (.inr ⟨hd, hin⟩)) ha
  refine ⟨writtenWords (r.addr.toNat - w.base.toNat) (8 * r.beats.val) data enables, _, _, _, writtenWords_touched ..,
    Slot.steps_taken _ slot, exec_linkRequest_of_eq (hact.trans (windowRequest_assembles hk hd hin hslot
      (stamped_of_stampedAs hd hin hstamp))), handleEvents_taken i w kind r.tag (tagsOf_head htag) _ none _ hrun⟩

end Sys2Proof.Machine
end
